-- ==== Sys2Proof/Word.lean ====
section
/-! DEFINITION. The widths of the machine (00_scope.md R8, R10). -/

namespace Sys2Proof

/-- A 32-bit register, address or instruction word. Bit `b` of the spec's numbering is the bit of weight
`2 ^ (31 - b)`: `BitVec.getMsbD` counts as the spec does (00_scope.md R10). -/
abbrev Word := BitVec 32

/-- A halfword. -/
abbrev Half := BitVec 16

/-- The addressable unit (20_memory.md R100). -/
abbrev Byte := BitVec 8

/-- A general register number (10_state.md R40). -/
abbrev Reg := BitVec 5

end Sys2Proof
end

