-- ==== Sys2Proof/Machine/Bits.lean ====
section
/-! DEFINITION. Bits in the spec's numbering, bit 0 the most significant (00_scope.md R10). -/

namespace Sys2Proof.Machine

/-- Bit `b` of a word, 0 to 31 from the left. -/
def bit (w : Word) (b : Nat) : Bool := w.getMsbD b

/-- The word with a 1 at bit `b` alone. -/
def bitMask (b : Nat) : Word := 1#32 <<< (31 - b)

/-- The word with bit `b` made `v` and the others kept. -/
def setBit (w : Word) (b : Nat) (v : Bool) : Word :=
  if v then w ||| bitMask b else w &&& ~~~(bitMask b)

/-- The word with the listed bits made 0. -/
def clearBits (w : Word) (bs : List Nat) : Word := bs.foldl (fun w b => setBit w b false) w

/-- A bit as a word. -/
def wordOfBool (b : Bool) : Word := if b then 1#32 else 0#32

/-- Byte `i` of a word, 0 to 3 from the left: bits `8 * i` to `8 * i + 7`. -/
def byteOf (w : Word) (i : Nat) : Byte := w.extractLsb' (24 - 8 * i) 8

/-- The word with byte `i`, counted from the left, replaced (46_multiple_string.md R403: `GPR[r][i : i+7]`). -/
def setByteOf (w : Word) (i : Nat) (b : Byte) : Word :=
  (w &&& ~~~(0xFF#32 <<< (24 - 8 * i))) ||| (b.setWidth 32 <<< (24 - 8 * i))

/-- The two bytes of the low halfword exchanged, above them 0 (45_load_store.md R358, R375). -/
def swapHalf (w : Word) : Word := 0#16 ++ (byteOf w 3 ++ byteOf w 2)

/-- The four bytes of a word in the opposite order (45_load_store.md R363, R380). -/
def swapWord (w : Word) : Word := byteOf w 3 ++ byteOf w 2 ++ byteOf w 1 ++ byteOf w 0

/-- The low byte sign-extended (41_logical.md R247). -/
def signByte (w : Word) : Word := (w.setWidth 8).signExtend 32

/-- The low halfword sign-extended (41_logical.md R248, 45_load_store.md R354). -/
def signHalf (w : Word) : Word := (w.setWidth 16).signExtend 32

/-- Field `n` of a register of eight 4-bit fields, field 0 leftmost (10_state.md R48). -/
def nibble (w : Word) (n : BitVec 3) : BitVec 4 := w.extractLsb' (28 - 4 * n.toNat) 4

/-- The register with its 4-bit field `n` replaced. -/
def setNibble (w : Word) (n : BitVec 3) (v : BitVec 4) : Word :=
  (w &&& ~~~(0xF#32 <<< (28 - 4 * n.toNat))) ||| (v.setWidth 32 <<< (28 - 4 * n.toNat))

/-- The two low bits made 0: `v[0:29] || 0b00` (10_state.md R45). -/
def wordAligned (w : Word) : Word := w &&& 0xFFFFFFFC#32

/-- A 4-bit value from its bits, left to right. -/
def nibbleOf (b0 b1 b2 b3 : Bool) : BitVec 4 :=
  BitVec.ofBool b0 ++ BitVec.ofBool b1 ++ BitVec.ofBool b2 ++ BitVec.ofBool b3

end Sys2Proof.Machine
end

