-- ==== Sys2Proof/Config.lean ====
section
/-! DEFINITION. What the spec leaves open and the model leaves free: constants without a body, so that no proof can
rest on a value of theirs. -/

namespace Sys2Proof.Config

/-- The source of every undefined value, `UNDEF` of 00_scope.md R9 and R16: draw number `n`. A narrower draw is the
low bits of one of these. -/
opaque undef : Nat → Word

/-- The contents of the processor version register, `PVR_VALUE` of 00_scope.md R9. -/
opaque pvrValue : Word

/-- Whether a two-bit zone field of ZPR forbids an access in problem state: part of `TRANSLATE`
(20_memory.md R117, 60_exceptions.md R517); the source does not give the rule. -/
opaque zoneForbids : BitVec 2 → Bool

/-- Whether the protection bounds forbid a store-class access when MSR.PE is 1: part of `TRANSLATE`
(20_memory.md R117, 60_exceptions.md R517). Arguments: MSR.DR, MSR.PX, PBL1, PBU1, PBL2, PBU2, EA. -/
opaque boundsForbid (dr px : Bool) (pbl1 pbu1 pbl2 pbu2 ea : Word) : Bool

end Sys2Proof.Config
end

