-- ==== Sys2Proof/Syntax.lean ====
section
/-! DEFINITION. The instructions: one constructor per row of spec/opcode_table.json, its fields in assembler order
(30_encoding.md R163, R166). A trailing `b31` is the reserved bit 31 of the 54 instructions of 10_state.md R51. -/

namespace Sys2Proof

/-- The special purpose registers of 10_state.md R71. -/
inductive Spr where
  | xer | lr | ctr | srr0 | srr1 | sprg0 | sprg1 | sprg2 | sprg3 | pvr | zpr | pid | sgr | dcwr | tbhu | tblu
  | icdbdr | esr | dear | evpr | cdbcr | tsr | tcr | pit | tbhi | tblo | srr2 | srr3 | dbsr | dbcr | iac1
  | iac2 | dac1 | dac2 | dccr | iccr | pbl1 | pbu1 | pbl2 | pbu2
deriving DecidableEq, Repr

/-- The device control registers of 10_state.md R80. -/
inductive Dcr where
  | exisr | exier | br0 | br1 | br2 | br3 | br4 | br5 | br6 | br7 | bear | besr | iocr | dmacr0 | dmact0
  | dmada0 | dmasa0 | dmacc0 | dmacr1 | dmact1 | dmada1 | dmasa1 | dmacc1 | dmacr2 | dmact2 | dmada2 | dmasa2
  | dmacc2 | dmacr3 | dmact3 | dmada3 | dmasa3 | dmacc3 | dmasr
deriving DecidableEq, Repr

/-- The 139 instructions. -/
inductive Instr where
  -- 40_arithmetic.md
  /-- add (R210). -/
  | add (rt ra rb : Reg) (oe rc : Bool)
  /-- addc (R211). -/
  | addc (rt ra rb : Reg) (oe rc : Bool)
  /-- adde (R212). -/
  | adde (rt ra rb : Reg) (oe rc : Bool)
  /-- addi (R213). -/
  | addi (rt ra : Reg) (im : BitVec 16)
  /-- addic (R214). -/
  | addic (rt ra : Reg) (im : BitVec 16)
  /-- addic. (R215). -/
  | addicRc (rt ra : Reg) (im : BitVec 16)
  /-- addis (R216). -/
  | addis (rt ra : Reg) (im : BitVec 16)
  /-- addme (R217). -/
  | addme (rt ra : Reg) (oe rc : Bool)
  /-- addze (R218). -/
  | addze (rt ra : Reg) (oe rc : Bool)
  /-- divw (R231). -/
  | divw (rt ra rb : Reg) (oe rc : Bool)
  /-- divwu (R232). -/
  | divwu (rt ra rb : Reg) (oe rc : Bool)
  /-- mulhw (R226). -/
  | mulhw (rt ra rb : Reg) (rc : Bool)
  /-- mulhwu (R227). -/
  | mulhwu (rt ra rb : Reg) (rc : Bool)
  /-- mulli (R228). -/
  | mulli (rt ra : Reg) (im : BitVec 16)
  /-- mullw (R229). -/
  | mullw (rt ra rb : Reg) (oe rc : Bool)
  /-- neg (R225). -/
  | neg (rt ra : Reg) (oe rc : Bool)
  /-- subf (R219). -/
  | subf (rt ra rb : Reg) (oe rc : Bool)
  /-- subfc (R220). -/
  | subfc (rt ra rb : Reg) (oe rc : Bool)
  /-- subfe (R221). -/
  | subfe (rt ra rb : Reg) (oe rc : Bool)
  /-- subfic (R222). -/
  | subfic (rt ra : Reg) (im : BitVec 16)
  /-- subfme (R223). -/
  | subfme (rt ra : Reg) (oe rc : Bool)
  /-- subfze (R224). -/
  | subfze (rt ra : Reg) (oe rc : Bool)
  -- 41_logical.md
  /-- and (R241). -/
  | and (ra rs rb : Reg) (rc : Bool)
  /-- andc (R242). -/
  | andc (ra rs rb : Reg) (rc : Bool)
  /-- andi. (R243). -/
  | andiRc (ra rs : Reg) (im : BitVec 16)
  /-- andis. (R244). -/
  | andisRc (ra rs : Reg) (im : BitVec 16)
  /-- cntlzw (R245). -/
  | cntlzw (ra rs : Reg) (rc : Bool)
  /-- eqv (R246). -/
  | eqv (ra rs rb : Reg) (rc : Bool)
  /-- extsb (R247). -/
  | extsb (ra rs : Reg) (rc : Bool)
  /-- extsh (R248). -/
  | extsh (ra rs : Reg) (rc : Bool)
  /-- nand (R249). -/
  | nand (ra rs rb : Reg) (rc : Bool)
  /-- nor (R250). -/
  | nor (ra rs rb : Reg) (rc : Bool)
  /-- or (R251). -/
  | or (ra rs rb : Reg) (rc : Bool)
  /-- orc (R252). -/
  | orc (ra rs rb : Reg) (rc : Bool)
  /-- ori (R253). -/
  | ori (ra rs : Reg) (im : BitVec 16)
  /-- oris (R254). -/
  | oris (ra rs : Reg) (im : BitVec 16)
  /-- xor (R255). -/
  | xor (ra rs rb : Reg) (rc : Bool)
  /-- xori (R256). -/
  | xori (ra rs : Reg) (im : BitVec 16)
  /-- xoris (R257). -/
  | xoris (ra rs : Reg) (im : BitVec 16)
  -- 42_rotate_shift.md
  /-- rlwimi (R273). -/
  | rlwimi (ra rs : Reg) (sh mb me : BitVec 5) (rc : Bool)
  /-- rlwinm (R274). -/
  | rlwinm (ra rs : Reg) (sh mb me : BitVec 5) (rc : Bool)
  /-- rlwnm (R275). -/
  | rlwnm (ra rs rb : Reg) (mb me : BitVec 5) (rc : Bool)
  /-- slw (R276). -/
  | slw (ra rs rb : Reg) (rc : Bool)
  /-- sraw (R278). -/
  | sraw (ra rs rb : Reg) (rc : Bool)
  /-- srawi (R279). -/
  | srawi (ra rs : Reg) (sh : BitVec 5) (rc : Bool)
  /-- srw (R277). -/
  | srw (ra rs rb : Reg) (rc : Bool)
  -- 43_compare_cr.md
  /-- cmp (R290). -/
  | cmp (bf : BitVec 3) (ra rb : Reg) (b31 : Bool)
  /-- cmpi (R291). -/
  | cmpi (bf : BitVec 3) (ra : Reg) (im : BitVec 16)
  /-- cmpl (R292). -/
  | cmpl (bf : BitVec 3) (ra rb : Reg) (b31 : Bool)
  /-- cmpli (R293). -/
  | cmpli (bf : BitVec 3) (ra : Reg) (im : BitVec 16)
  /-- crand (R294). -/
  | crand (bt ba bb : BitVec 5)
  /-- crandc (R295). -/
  | crandc (bt ba bb : BitVec 5)
  /-- creqv (R296). -/
  | creqv (bt ba bb : BitVec 5)
  /-- crnand (R297). -/
  | crnand (bt ba bb : BitVec 5)
  /-- crnor (R298). -/
  | crnor (bt ba bb : BitVec 5)
  /-- cror (R299). -/
  | cror (bt ba bb : BitVec 5)
  /-- crorc (R300). -/
  | crorc (bt ba bb : BitVec 5)
  /-- crxor (R301). -/
  | crxor (bt ba bb : BitVec 5)
  /-- mcrf (R302). -/
  | mcrf (bf bfa : BitVec 3)
  /-- mcrxr (R303). -/
  | mcrxr (bf : BitVec 3) (b31 : Bool)
  /-- mfcr (R304). -/
  | mfcr (rt : Reg) (b31 : Bool)
  /-- mtcrf (R305). -/
  | mtcrf (fxm : BitVec 8) (rs : Reg) (b31 : Bool)
  -- 44_branch.md
  /-- b (R321). -/
  | b (li : BitVec 24) (aa lk : Bool)
  /-- bc (R322). -/
  | bc (bo bi : BitVec 5) (bd : BitVec 14) (aa lk : Bool)
  /-- bcctr (R323). -/
  | bcctr (bo bi : BitVec 5) (lk : Bool)
  /-- bclr (R324). -/
  | bclr (bo bi : BitVec 5) (lk : Bool)
  -- 45_load_store.md
  /-- lbz (R350). -/
  | lbz (rt : Reg) (d : BitVec 16) (ra : Reg)
  /-- lbzu (R351). -/
  | lbzu (rt : Reg) (d : BitVec 16) (ra : Reg)
  /-- lbzux (R352). -/
  | lbzux (rt ra rb : Reg) (b31 : Bool)
  /-- lbzx (R353). -/
  | lbzx (rt ra rb : Reg) (b31 : Bool)
  /-- lha (R354). -/
  | lha (rt : Reg) (d : BitVec 16) (ra : Reg)
  /-- lhau (R355). -/
  | lhau (rt : Reg) (d : BitVec 16) (ra : Reg)
  /-- lhaux (R356). -/
  | lhaux (rt ra rb : Reg) (b31 : Bool)
  /-- lhax (R357). -/
  | lhax (rt ra rb : Reg) (b31 : Bool)
  /-- lhbrx (R358). -/
  | lhbrx (rt ra rb : Reg) (b31 : Bool)
  /-- lhz (R359). -/
  | lhz (rt : Reg) (d : BitVec 16) (ra : Reg)
  /-- lhzu (R360). -/
  | lhzu (rt : Reg) (d : BitVec 16) (ra : Reg)
  /-- lhzux (R361). -/
  | lhzux (rt ra rb : Reg) (b31 : Bool)
  /-- lhzx (R362). -/
  | lhzx (rt ra rb : Reg) (b31 : Bool)
  /-- lwarx (R386). -/
  | lwarx (rt ra rb : Reg) (b31 : Bool)
  /-- lwbrx (R363). -/
  | lwbrx (rt ra rb : Reg) (b31 : Bool)
  /-- lwz (R364). -/
  | lwz (rt : Reg) (d : BitVec 16) (ra : Reg)
  /-- lwzu (R365). -/
  | lwzu (rt : Reg) (d : BitVec 16) (ra : Reg)
  /-- lwzux (R366). -/
  | lwzux (rt ra rb : Reg) (b31 : Bool)
  /-- lwzx (R367). -/
  | lwzx (rt ra rb : Reg) (b31 : Bool)
  -- 45_load_store.md
  /-- stb (R370). -/
  | stb (rs : Reg) (d : BitVec 16) (ra : Reg)
  /-- stbu (R371). -/
  | stbu (rs : Reg) (d : BitVec 16) (ra : Reg)
  /-- stbux (R372). -/
  | stbux (rs ra rb : Reg) (b31 : Bool)
  /-- stbx (R373). -/
  | stbx (rs ra rb : Reg) (b31 : Bool)
  /-- sth (R374). -/
  | sth (rs : Reg) (d : BitVec 16) (ra : Reg)
  /-- sthbrx (R375). -/
  | sthbrx (rs ra rb : Reg) (b31 : Bool)
  /-- sthu (R376). -/
  | sthu (rs : Reg) (d : BitVec 16) (ra : Reg)
  /-- sthux (R377). -/
  | sthux (rs ra rb : Reg) (b31 : Bool)
  /-- sthx (R378). -/
  | sthx (rs ra rb : Reg) (b31 : Bool)
  /-- stw (R379). -/
  | stw (rs : Reg) (d : BitVec 16) (ra : Reg)
  /-- stwbrx (R380). -/
  | stwbrx (rs ra rb : Reg) (b31 : Bool)
  /-- stwcx. (R388). -/
  | stwcxRc (rs ra rb : Reg)
  /-- stwu (R381). -/
  | stwu (rs : Reg) (d : BitVec 16) (ra : Reg)
  /-- stwux (R382). -/
  | stwux (rs ra rb : Reg) (b31 : Bool)
  /-- stwx (R383). -/
  | stwx (rs ra rb : Reg) (b31 : Bool)
  -- 46_multiple_string.md
  /-- lmw (R401). -/
  | lmw (rt : Reg) (d : BitVec 16) (ra : Reg)
  /-- lswi (R403). -/
  | lswi (rt ra : Reg) (nb : BitVec 5) (b31 : Bool)
  /-- lswx (R404). -/
  | lswx (rt ra rb : Reg) (b31 : Bool)
  /-- stmw (R402). -/
  | stmw (rs : Reg) (d : BitVec 16) (ra : Reg)
  /-- stswi (R405). -/
  | stswi (rs ra : Reg) (nb : BitVec 5) (b31 : Bool)
  /-- stswx (R406). -/
  | stswx (rs ra rb : Reg) (b31 : Bool)
  -- 47_cache_sync.md
  /-- dcbf (R422). -/
  | dcbf (ra rb : Reg) (b31 : Bool)
  /-- dcbi (R423). -/
  | dcbi (ra rb : Reg) (b31 : Bool)
  /-- dcbst (R424). -/
  | dcbst (ra rb : Reg) (b31 : Bool)
  /-- dcbt (R425). -/
  | dcbt (ra rb : Reg) (b31 : Bool)
  /-- dcbtst (R426). -/
  | dcbtst (ra rb : Reg) (b31 : Bool)
  /-- dcbz (R427). -/
  | dcbz (ra rb : Reg) (b31 : Bool)
  /-- dccci (R431). -/
  | dccci (ra rb : Reg) (b31 : Bool)
  /-- dcread (R433). -/
  | dcread (rt ra rb : Reg) (b31 : Bool)
  /-- icbi (R435). -/
  | icbi (ra rb : Reg) (b31 : Bool)
  /-- icbt (R436). -/
  | icbt (ra rb : Reg) (b31 : Bool)
  /-- iccci (R438). -/
  | iccci (ra rb : Reg) (b31 : Bool)
  /-- icread (R439). -/
  | icread (ra rb : Reg) (b31 : Bool)
  /-- sync (R440). -/
  | sync (b31 : Bool)
  /-- eieio (R441). -/
  | eieio (b31 : Bool)
  /-- isync (R442). -/
  | isync (b31 : Bool)
  -- 48_system.md
  /-- sc (R450). -/
  | sc
  /-- rfi (R451). -/
  | rfi
  /-- rfci (R452). -/
  | rfci
  /-- mfmsr (R455). -/
  | mfmsr (rt : Reg) (b31 : Bool)
  /-- mtmsr (R456). -/
  | mtmsr (rs : Reg) (b31 : Bool)
  /-- wrtee (R457). -/
  | wrtee (rs : Reg) (b31 : Bool)
  /-- wrteei (R458). -/
  | wrteei (e b31 : Bool)
  /-- mfspr (R460). -/
  | mfspr (rt : Reg) (sprn : BitVec 10) (b31 : Bool)
  /-- mtspr (R461). -/
  | mtspr (sprn : BitVec 10) (rs : Reg) (b31 : Bool)
  /-- mfdcr (R462). -/
  | mfdcr (rt : Reg) (dcrn : BitVec 10) (b31 : Bool)
  /-- mtdcr (R463). -/
  | mtdcr (dcrn : BitVec 10) (rs : Reg) (b31 : Bool)
  /-- tw (R472). -/
  | tw (tcond : BitVec 5) (ra rb : Reg) (b31 : Bool)
  /-- twi (R473). -/
  | twi (tcond : BitVec 5) (ra : Reg) (im : BitVec 16)
  /-- tlbia (R474). -/
  | tlbia
  /-- tlbre (R475). -/
  | tlbre (rt ra : Reg) (ws : BitVec 5) (b31 : Bool)
  /-- tlbsx (R478). -/
  | tlbsx (rt ra rb : Reg) (rc : Bool)
  /-- tlbsync (R477). -/
  | tlbsync
  /-- tlbwe (R476). -/
  | tlbwe (rs ra : Reg) (ws : BitVec 5) (b31 : Bool)
deriving DecidableEq, Repr

end Sys2Proof
end

