-- ==== Sys2Proof/Machine/State.lean ====
section
/-! DEFINITION. The state of the machine, the ways a step can stop, and the state after reset. -/

namespace Sys2Proof.Machine

/-- The special purpose registers that have no field of their own in `State` (10_state.md R71). TBHU and TBLU are
the user-readable images of TBHI and TBLO (R85); PVR is fixed for the machine and is `Config.pvrValue`. -/
structure Sprs where
  srr0 : Word
  srr1 : Word
  srr2 : Word
  srr3 : Word
  sprg0 : Word
  sprg1 : Word
  sprg2 : Word
  sprg3 : Word
  zpr : Word
  pid : Word
  sgr : Word
  dcwr : Word
  icdbdr : Word
  esr : Word
  dear : Word
  evpr : Word
  cdbcr : Word
  tsr : Word
  tcr : Word
  pit : Word
  tbhi : Word
  tblo : Word
  dbsr : Word
  dbcr : Word
  iac1 : Word
  iac2 : Word
  dac1 : Word
  dac2 : Word
  dccr : Word
  iccr : Word
  pbl1 : Word
  pbu1 : Word
  pbl2 : Word
  pbu2 : Word
deriving DecidableEq, Repr

/-- One entry of the translation lookaside buffer (10_state.md R76). -/
structure TlbEntry where
  epn : BitVec 22
  size : BitVec 3
  v : Bool
  tid : BitVec 8
  rpn : BitVec 22
  ex : Bool
  wr : Bool
  zsel : BitVec 4
  w : Bool
  i : Bool
  m : Bool
  g : Bool
deriving DecidableEq, Repr

/-- The two lines of a congruence class (10_state.md R83). -/
inductive Side where
  | a
  | b
deriving DecidableEq, Repr

/-- One line of the data cache (47_cache_sync.md R428). -/
structure DLine where
  v : Bool
  d : Bool
  tag : BitVec 23
  data : Vector Byte 16
deriving DecidableEq, Repr

/-- One congruence class of the data cache. `lru` is 0 when side A is the least recently used. -/
structure DClass where
  a : DLine
  b : DLine
  lru : Bool
deriving DecidableEq, Repr

/-- One line of the instruction cache (47_cache_sync.md R428). -/
structure ILine where
  v : Bool
  tag : BitVec 22
  data : Vector Byte 16
deriving DecidableEq, Repr

/-- One congruence class of the instruction cache. -/
structure IClass where
  a : ILine
  b : ILine
  lru : Bool
deriving DecidableEq, Repr

/-- What a region of the address space that is not plain storage is (`MEM_MAP`, 20_memory.md R113, R114). -/
inductive RegionKind where
  /-- Nothing answers there. -/
  | absent
  /-- A device whose behaviour the spec does not give. -/
  | device
deriving DecidableEq, Repr

/-- A run of `size` addresses from `base` that is not plain storage. -/
structure Region where
  base : Nat
  size : Nat
  kind : RegionKind
deriving DecidableEq, Repr

/-- An asynchronous interrupt that `ASYNC_EVENTS` presents (60_exceptions.md R525). -/
inductive Irq where
  | machineCheck
  | criticalPin
  | watchdog
  | external
  | fit
  | pit
deriving DecidableEq, Repr

/-- How far software has come in making sure that a fetch no longer sees an old byte: the steps of 20_memory.md R133,
in their order. -/
inductive OldStage where
  /-- dcbst of the block has to come. -/
  | stored
  /-- sync has to come. -/
  | pushed
  /-- icbi of the block has to come. -/
  | synced
  /-- The prefetch queue alone may still have the byte; isync has to come. -/
  | queued
deriving DecidableEq, Repr

/-- A byte that was at a real address and that a fetch may still see (10_state.md R84, 20_memory.md R133). -/
structure OldByte where
  addr : Word
  byte : Byte
  stage : OldStage
deriving DecidableEq, Repr

/-- Why the machine stops. -/
inductive Fault where
  /-- An access, line fill or copy back reached an address at which the platform has nothing. Raised by every access
  to storage and by fetch. Safe: the spec calls the run stuck (60_exceptions.md R522). -/
  | absentAddress
  /-- A machine check: the zero-length string case of 46_multiple_string.md R408, or one presented from outside
  while MSR.ME is 1. Safe: the spec gives it no handler entry (60_exceptions.md R522). -/
  | machineCheck
  /-- The processor is in the Debug Stop state. Raised by step. Safe: the spec calls the run stuck
  (70_reset_and_hazards.md R582). -/
  | debugStop
  /-- MSR.WE is 1 and no enabled interrupt is pending. Raised by step. Safe: the spec ends the run there
  (60_exceptions.md R544). -/
  | waitState
deriving DecidableEq, Repr

/-- Why the model has no step. -/
inductive Refusal where
  /-- The named instruction has no meaning yet. Raised by exec. Safe. -/
  | notModelled (mnemonic : String)
  /-- A reserved bit of the named instruction is 1: an invalid form. Raised by step. Safe (00_scope.md R16). -/
  | reservedField (mnemonic : String)
  /-- A load or store with update whose registers its page forbids. Safe (45_load_store.md R342). -/
  | invalidUpdateForm
  /-- mfspr or mtspr names no register it may move. Safe (48_system.md R460, R461). -/
  | invalidSpr
  /-- mfdcr or mtdcr names no register. Safe (48_system.md R462, R463). -/
  | invalidDcr
  /-- tlbre or tlbwe with WS above 1. Safe (48_system.md R475, R476). -/
  | invalidWs
  /-- tlbwe with a register index above 63, whose results are undefined. Safe (48_system.md R476). -/
  | tlbweIndexUndefined
  /-- MSR.LE is or would become 1, or an entry would copy MSR.ILE = 1 into it. Safe (20_memory.md R106). -/
  | littleEndian
  /-- An access to a device whose behaviour the spec does not give. Safe (20_memory.md R113). -/
  | deviceAccess
deriving DecidableEq, Repr

/-- The state of the machine. INVENTORY.md lists each piece with the rule that names it. -/
structure State where
  /-- General purpose registers (10_state.md R40). -/
  gpr : Vector Word 32
  /-- The program counter (R44). -/
  pc : Word
  /-- The condition register (R48). -/
  cr : Word
  /-- The fixed-point exception register (R53). -/
  xer : Word
  /-- The link register (R57). -/
  lr : Word
  /-- The count register (R58). -/
  ctr : Word
  /-- The machine state register (R60). -/
  msr : Word
  /-- The other special purpose registers (R71). -/
  spr : Sprs
  /-- The translation lookaside buffer (R76). -/
  tlb : Vector TlbEntry 64
  /-- The device control registers, in the order of `dcrIndex` (R80). -/
  dcr : Vector Word 34
  /-- The data cache (R83). -/
  dcache : Vector DClass 32
  /-- The instruction cache (R83). -/
  icache : Vector IClass 64
  /-- The reservation bit (R82). -/
  reserve : Bool
  /-- The previous step was icread (70_reset_and_hazards.md R574). -/
  afterIcread : Bool
  /-- The processor is in the Debug Stop state (48_system.md R471). -/
  debugStopped : Bool
  /-- Old bytes that a fetch may still see (R84, 20_memory.md R133). -/
  stale : List OldByte
  /-- Since reset an address has been cacheable: the run is not, and will not be, at Level 0 (47_cache_sync.md R429,
  'from reset on'). -/
  cachingSeen : Bool
  /-- Main storage: the bytes that differ from 0, addresses strictly rising (20_memory.md R100). -/
  mem : List Host.Cell
  /-- The regions that are not plain storage (`MEM_MAP`, 20_memory.md R113, R114). -/
  memMap : List Region
  /-- Interrupts presented and not yet taken (`ASYNC_EVENTS`, 60_exceptions.md R525). -/
  pending : List Irq
  /-- How many free values have been drawn: the model's own field (00_scope.md R16). -/
  draws : Nat
deriving DecidableEq, Repr

/-- The special purpose registers after reset: DCCR, ICCR and DBCR as 70_reset_and_hazards.md R561 says. DBSR and
SGR are the family's, PRESUMED, unsafe (log entry 2); the others are 0, DESIGN CHOICE, unsafe (log entry 1). -/
def Sprs.reset : Sprs where
  srr0 := 0
  srr1 := 0
  srr2 := 0
  srr3 := 0
  sprg0 := 0
  sprg1 := 0
  sprg2 := 0
  sprg3 := 0
  zpr := 0
  pid := 0
  sgr := 0xFFFFFFFF#32
  dcwr := 0
  icdbdr := 0
  esr := 0
  dear := 0
  evpr := 0
  cdbcr := 0
  tsr := 0
  tcr := 0
  pit := 0
  tbhi := 0
  tblo := 0
  dbsr := 0x00000300#32
  dbcr := 0
  iac1 := 0
  iac2 := 0
  dac1 := 0
  dac2 := 0
  dccr := 0
  iccr := 0
  pbl1 := 0
  pbu1 := 0
  pbl2 := 0
  pbu2 := 0

/-- An entry with every field 0. DESIGN CHOICE, unsafe (log entry 1). -/
def TlbEntry.reset : TlbEntry :=
  ⟨0, 0, false, 0, 0, false, false, 0, false, false, false, false⟩

/-- An invalid line with every field 0. DESIGN CHOICE, unsafe (log entry 1). -/
def DLine.reset : DLine := ⟨false, false, 0, Vector.replicate 16 0⟩

/-- An invalid line with every field 0. DESIGN CHOICE, unsafe (log entry 1). -/
def ILine.reset : ILine := ⟨false, 0, Vector.replicate 16 0⟩

/-- The machine right after reset (70_reset_and_hazards.md R561): pc 0xFFFFFFFC, MSR 0. Every register the rule
leaves unspecified is 0 but for DBSR and SGR. DESIGN CHOICE and PRESUMED, unsafe (log entries 1 to 4). -/
def State.reset : State where
  gpr := Vector.replicate 32 0
  pc := 0xFFFFFFFC#32
  cr := 0
  xer := 0
  lr := 0
  ctr := 0
  msr := 0
  spr := Sprs.reset
  tlb := Vector.replicate 64 TlbEntry.reset
  dcr := Vector.replicate 34 0
  dcache := Vector.replicate 32 ⟨DLine.reset, DLine.reset, false⟩
  icache := Vector.replicate 64 ⟨ILine.reset, ILine.reset, false⟩
  reserve := false
  afterIcread := false
  debugStopped := false
  stale := []
  cachingSeen := false
  mem := []
  memMap := []
  pending := []
  draws := 0

end Sys2Proof.Machine
end

