-- ==== Sys2Proof/Machine/Fields.lean ====
section
/-! DEFINITION. Where the named fields of the registers are. MSR positions are the default of `MSR_BITS`
(10_state.md R61), ESR positions the default of `ESR_BITS` (R66); log entries 9 and 10. -/

namespace Sys2Proof.Machine

/-- Wait state enable. -/
def msrWE : Nat := 13
/-- Critical interrupt enable. -/
def msrCE : Nat := 14
/-- Interrupt little endian: copied into LE by every entry. -/
def msrILE : Nat := 15
/-- External interrupt enable (48_system.md R457). -/
def msrEE : Nat := 16
/-- Problem state. -/
def msrPR : Nat := 17
/-- Machine check enable. -/
def msrME : Nat := 19
/-- Debug exceptions enable. -/
def msrDE : Nat := 22
/-- Instruction translation. -/
def msrIR : Nat := 26
/-- Data translation. -/
def msrDR : Nat := 27
/-- Protection enable. -/
def msrPE : Nat := 28
/-- Protection exclusive mode. -/
def msrPX : Nat := 29
/-- Little endian. -/
def msrLE : Nat := 31

/-- Program exception: illegal instruction (10_state.md R66). -/
def esrPIL : Nat := 4
/-- Program exception: privileged instruction. -/
def esrPPR : Nat := 5
/-- Program exception: trap. -/
def esrPTR : Nat := 6
/-- Data storage exception: store. -/
def esrDST : Nat := 8
/-- Data storage exception: zone. -/
def esrDIZ : Nat := 9

/-- Summary overflow (10_state.md R53). -/
def xerSO : Nat := 0
/-- Overflow. -/
def xerOV : Nat := 1
/-- Carry. -/
def xerCA : Nat := 2

/-- The transfer byte count, XER bits 25:31 (10_state.md R53). -/
def xerTBC (w : Word) : Nat := (w.extractLsb' 0 7).toNat

/-- Cache information select: 1 selects the tag (10_state.md R72). -/
def cdbcrCIS : Nat := 27
/-- Cache side select: 1 selects side B (10_state.md R72). -/
def cdbcrCSS : Nat := 31

/-- External debug mode. PRESUMED, unsafe: the family's position (log entry 11). -/
def dbcrEDM : Nat := 0
/-- Internal debug mode. PRESUMED, unsafe: the family's position (log entry 11). -/
def dbcrIDM : Nat := 1
/-- Trap debug event enable. PRESUMED, unsafe: the family's position (log entry 11). -/
def dbcrTDE : Nat := 7
/-- Trap instruction event. PRESUMED, unsafe: the family's position (log entry 11). -/
def dbsrTIE : Nat := 3
/-- Imprecise debug event. PRESUMED, unsafe: the family's position (log entry 11). -/
def dbsrIDE : Nat := 11

/-- A bit of the MSR. -/
def State.msrBit (s : State) (b : Nat) : Bool := bit s.msr b

/-- Problem state: MSR.PR is 1 (60_exceptions.md R535). -/
def State.problem (s : State) : Bool := s.msrBit msrPR

/-- XER.SO. -/
def State.so (s : State) : Bool := bit s.xer xerSO

/-- XER.CA. -/
def State.ca (s : State) : Bool := bit s.xer xerCA

/-- PID[24:31], compared with the TID of a TLB entry (10_state.md R75). -/
def State.pidTag (s : State) : BitVec 8 := s.spr.pid.extractLsb' 0 8

end Sys2Proof.Machine
end

