-- ==== Sys2Proof/Machine/Forms.lean ====
section
/-! DEFINITION. The numbers of the special purpose and device control registers: the defaults of the parameters
`SPR_NUMBER` (10_state.md R71) and `DCR_NUMBER` (R80), and the operand restrictions of the instruction pages. -/

namespace Sys2Proof.Machine

/-- The SPRN column of 10_state.md R71. -/
def sprNumbers : List (BitVec 10 × Spr) :=
  [(0x001#10, .xer), (0x008#10, .lr), (0x009#10, .ctr), (0x01A#10, .srr0), (0x01B#10, .srr1),
   (0x110#10, .sprg0), (0x111#10, .sprg1), (0x112#10, .sprg2), (0x113#10, .sprg3), (0x11F#10, .pvr),
   (0x3B0#10, .zpr), (0x3B1#10, .pid), (0x3B9#10, .sgr), (0x3BA#10, .dcwr), (0x3CC#10, .tbhu),
   (0x3CD#10, .tblu), (0x3D3#10, .icdbdr), (0x3D4#10, .esr), (0x3D5#10, .dear), (0x3D6#10, .evpr),
   (0x3D7#10, .cdbcr), (0x3D8#10, .tsr), (0x3DA#10, .tcr), (0x3DB#10, .pit), (0x3DC#10, .tbhi),
   (0x3DD#10, .tblo), (0x3DE#10, .srr2), (0x3DF#10, .srr3), (0x3F0#10, .dbsr), (0x3F2#10, .dbcr),
   (0x3F4#10, .iac1), (0x3F5#10, .iac2), (0x3F6#10, .dac1), (0x3F7#10, .dac2), (0x3FA#10, .dccr),
   (0x3FB#10, .iccr), (0x3FC#10, .pbl1), (0x3FD#10, .pbu1), (0x3FE#10, .pbl2), (0x3FF#10, .pbu2)]

/-- The DCRN column of 10_state.md R80. -/
def dcrNumbers : List (BitVec 10 × Dcr) :=
  [(0x040#10, .exisr), (0x042#10, .exier), (0x080#10, .br0), (0x081#10, .br1), (0x082#10, .br2),
   (0x083#10, .br3), (0x084#10, .br4), (0x085#10, .br5), (0x086#10, .br6), (0x087#10, .br7), (0x090#10, .bear),
   (0x091#10, .besr), (0x0A0#10, .iocr), (0x0C0#10, .dmacr0), (0x0C1#10, .dmact0), (0x0C2#10, .dmada0),
   (0x0C3#10, .dmasa0), (0x0C4#10, .dmacc0), (0x0C8#10, .dmacr1), (0x0C9#10, .dmact1), (0x0CA#10, .dmada1),
   (0x0CB#10, .dmasa1), (0x0CC#10, .dmacc1), (0x0D0#10, .dmacr2), (0x0D1#10, .dmact2), (0x0D2#10, .dmada2),
   (0x0D3#10, .dmasa2), (0x0D4#10, .dmacc2), (0x0D8#10, .dmacr3), (0x0D9#10, .dmact3), (0x0DA#10, .dmada3),
   (0x0DB#10, .dmasa3), (0x0DC#10, .dmacc3), (0x0E0#10, .dmasr)]

/-- The special purpose register a number names, if any (10_state.md R69). -/
def sprOfNumber (n : BitVec 10) : Option Spr := (sprNumbers.find? (fun p => p.1 == n)).map (·.2)

/-- The device control register a number names, if any (10_state.md R79). -/
def dcrOfNumber (n : BitVec 10) : Option Dcr := (dcrNumbers.find? (fun p => p.1 == n)).map (·.2)

/-- Whether a move to or from this number is privileged: SPRN bit of weight 16, instruction bit 11 (10_state.md R70). -/
def sprPrivileged (n : BitVec 10) : Bool := n.getLsbD 4

/-- Whether mtspr may name this register: PVR, TBHU, TBLU and DEAR have no mt- mnemonic, and DBCR is set by the
external debugger only (48_system.md R461, 90_conflicts.md C11). -/
def sprWritable : Spr → Bool
  | .pvr => false
  | .tbhu => false
  | .tblu => false
  | .dear => false
  | .dbcr => false
  | .xer | .lr | .ctr | .srr0 | .srr1 | .sprg0 | .sprg1 | .sprg2 | .sprg3 | .zpr | .pid | .sgr | .dcwr
  | .icdbdr | .esr | .evpr | .cdbcr | .tsr | .tcr | .pit | .tbhi | .tblo | .srr2 | .srr3 | .dbsr | .iac1
  | .iac2 | .dac1 | .dac2 | .dccr | .iccr | .pbl1 | .pbu1 | .pbl2 | .pbu2 => true

/-- A load with update needs a base that is neither 0 nor the target (45_load_store.md R342). -/
def loadUpdateOk (rt ra : Reg) : Bool := ra != 0 && ra != rt

/-- A store with update needs a base that is not 0 (45_load_store.md R342). -/
def storeUpdateOk (ra : Reg) : Bool := ra != 0

/-- WS is 0 or 1 (48_system.md R475, R476). -/
def wsOk (ws : BitVec 5) : Bool := ws == 0 || ws == 1

/-- The number names a special purpose register (48_system.md R460). -/
def sprReadOk (n : BitVec 10) : Bool := (sprOfNumber n).isSome

/-- The number names a special purpose register that mtspr may write (48_system.md R461). -/
def sprWriteOk (n : BitVec 10) : Bool := ((sprOfNumber n).map sprWritable).getD false

/-- The number names a device control register (48_system.md R462, R463). -/
def dcrOk (n : BitVec 10) : Bool := (dcrOfNumber n).isSome

/-- The place of a device control register in the register file of State. -/
def dcrIndex : Dcr → Fin 34
  | .exisr => 0
  | .exier => 1
  | .br0 => 2
  | .br1 => 3
  | .br2 => 4
  | .br3 => 5
  | .br4 => 6
  | .br5 => 7
  | .br6 => 8
  | .br7 => 9
  | .bear => 10
  | .besr => 11
  | .iocr => 12
  | .dmacr0 => 13
  | .dmact0 => 14
  | .dmada0 => 15
  | .dmasa0 => 16
  | .dmacc0 => 17
  | .dmacr1 => 18
  | .dmact1 => 19
  | .dmada1 => 20
  | .dmasa1 => 21
  | .dmacc1 => 22
  | .dmacr2 => 23
  | .dmact2 => 24
  | .dmada2 => 25
  | .dmasa2 => 26
  | .dmacc2 => 27
  | .dmacr3 => 28
  | .dmact3 => 29
  | .dmada3 => 30
  | .dmasa3 => 31
  | .dmacc3 => 32
  | .dmasr => 33

end Sys2Proof.Machine
end

