-- ==== Sys2Proof/Machine/Regs.lean ====
section
/-! DEFINITION. Reads and writes of the registers. Every write of a field of State goes through one of these. -/

namespace Sys2Proof.Machine

/-- The contents of a general register (10_state.md R40). -/
def State.reg (s : State) (r : Reg) : Word := s.gpr.get r.toFin

/-- Write a general register. No register is hard-wired (10_state.md R41). -/
def State.setReg (s : State) (r : Reg) (v : Word) : State := { s with gpr := s.gpr.set r.toNat v r.isLt }

/-- Write the field `pc`. -/
def State.setPc (s : State) (v : Word) : State := { s with pc := v }

/-- Write the field `cr`. -/
def State.setCr (s : State) (v : Word) : State := { s with cr := v }

/-- Write the field `xer`. -/
def State.setXer (s : State) (v : Word) : State := { s with xer := v }

/-- Write the field `lr`. -/
def State.setLr (s : State) (v : Word) : State := { s with lr := v }

/-- Write the field `ctr`. -/
def State.setCtr (s : State) (v : Word) : State := { s with ctr := v }

/-- Write the field `msr`. -/
def State.setMsr (s : State) (v : Word) : State := { s with msr := v }

/-- Write the field `spr`. -/
def State.setSpr (s : State) (v : Sprs) : State := { s with spr := v }

/-- Write the field `tlb`. -/
def State.setTlb (s : State) (v : Vector TlbEntry 64) : State := { s with tlb := v }

/-- Write the field `dcr`. -/
def State.setDcr (s : State) (v : Vector Word 34) : State := { s with dcr := v }

/-- Write the field `dcache`. -/
def State.setDcache (s : State) (v : Vector DClass 32) : State := { s with dcache := v }

/-- Write the field `icache`. -/
def State.setIcache (s : State) (v : Vector IClass 64) : State := { s with icache := v }

/-- Write the field `reserve`. -/
def State.setReserve (s : State) (v : Bool) : State := { s with reserve := v }

/-- Write the field `afterIcread`. -/
def State.setAfterIcread (s : State) (v : Bool) : State := { s with afterIcread := v }

/-- Write the field `debugStopped`. -/
def State.setDebugStopped (s : State) (v : Bool) : State := { s with debugStopped := v }

/-- Write the field `stale`. -/
def State.setStale (s : State) (v : List OldByte) : State := { s with stale := v }

/-- Write the field `cachingSeen`. -/
def State.setCachingSeen (s : State) (v : Bool) : State := { s with cachingSeen := v }

/-- Write the field `mem`. -/
def State.setMem (s : State) (v : List Host.Cell) : State := { s with mem := v }

/-- Write the field `pending`. -/
def State.setPending (s : State) (v : List Irq) : State := { s with pending := v }

/-- Write the field `draws`. -/
def State.setDraws (s : State) (v : Nat) : State := { s with draws := v }

/-- An entry of the TLB (10_state.md R76). -/
def State.tlbEntry (s : State) (i : BitVec 6) : TlbEntry := s.tlb.get i.toFin

/-- No line of either cache is valid. -/
def State.cachesEmpty (s : State) : Bool :=
  s.dcache.toList.all (fun c => !c.a.v && !c.b.v) && s.icache.toList.all (fun c => !c.a.v && !c.b.v)

/-- No attribute of the state makes an address cacheable, for data or for fetch, in real mode or under a TLB entry,
whichever of them MSR.DR and MSR.IR select. -/
def State.nothingCacheable (s : State) : Bool :=
  s.spr.dccr == 0#32 && s.spr.iccr == 0#32 && s.tlb.toList.all (fun e => !e.v || e.i)

/-- Level 0 of 47_cache_sync.md R429: every address is non-cacheable and both caches are empty, from reset on. DESIGN
CHOICE, safe: the level is not a parameter of the run but what the run has done so far (log entry 19). -/
def State.levelZero (s : State) : Bool := !s.cachingSeen && s.nothingCacheable && s.cachesEmpty

/-- After a write of a cacheability attribute: Level 0 is left for good when an address is now cacheable
(47_cache_sync.md R429; log entry 19). -/
def State.noteCaching (s : State) : State := s.setCachingSeen (s.cachingSeen || !s.nothingCacheable)

/-- Replace an entry of the TLB. -/
def State.setTlbEntry (s : State) (i : BitVec 6) (e : TlbEntry) : State :=
  (s.setTlb (s.tlb.set i.toNat e i.isLt)).noteCaching

/-- Read a device control register: a cell that returns the last value written (60_exceptions.md R541). -/
def State.dcrVal (s : State) (d : Dcr) : Word := s.dcr.get (dcrIndex d)

/-- Write a device control register (60_exceptions.md R541). -/
def State.setDcrVal (s : State) (d : Dcr) (v : Word) : State := s.setDcr (s.dcr.set (dcrIndex d) v (dcrIndex d).isLt)

/-- The free value that the next draw gives (00_scope.md R16). -/
def State.undef (s : State) : Word := Config.undef s.draws

/-- One draw later. -/
def State.drawn (s : State) : State := s.setDraws (s.draws + 1)

/-- A CR bit (10_state.md R48). -/
def State.crBit (s : State) (b : BitVec 5) : Bool := bit s.cr b.toNat

/-- A CR field (10_state.md R48). -/
def State.crField (s : State) (n : BitVec 3) : BitVec 4 := nibble s.cr n

/-- Write a CR field. -/
def State.setCrField (s : State) (n : BitVec 3) (v : BitVec 4) : State := s.setCr (setNibble s.cr n v)

/-- What mfspr reads of a special purpose register that has a stored value, and PVR (48_system.md R460). -/
def State.sprVal (s : State) : Spr → Word
  | .xer => s.xer
  | .lr => s.lr
  | .ctr => s.ctr
  | .pvr => Config.pvrValue
  | .tbhu => s.spr.tbhi
  | .tblu => s.spr.tblo
  | .srr0 => s.spr.srr0
  | .srr1 => s.spr.srr1
  | .srr2 => s.spr.srr2
  | .srr3 => s.spr.srr3
  | .sprg0 => s.spr.sprg0
  | .sprg1 => s.spr.sprg1
  | .sprg2 => s.spr.sprg2
  | .sprg3 => s.spr.sprg3
  | .zpr => s.spr.zpr
  | .pid => s.spr.pid
  | .sgr => s.spr.sgr
  | .dcwr => s.spr.dcwr
  | .icdbdr => s.spr.icdbdr
  | .esr => s.spr.esr
  | .dear => s.spr.dear
  | .evpr => s.spr.evpr
  | .cdbcr => s.spr.cdbcr
  | .tsr => s.spr.tsr
  | .tcr => s.spr.tcr
  | .pit => s.spr.pit
  | .tbhi => s.spr.tbhi
  | .tblo => s.spr.tblo
  | .dbsr => s.spr.dbsr
  | .dbcr => s.spr.dbcr
  | .iac1 => s.spr.iac1
  | .iac2 => s.spr.iac2
  | .dac1 => s.spr.dac1
  | .dac2 => s.spr.dac2
  | .dccr => s.spr.dccr
  | .iccr => s.spr.iccr
  | .pbl1 => s.spr.pbl1
  | .pbu1 => s.spr.pbu1
  | .pbl2 => s.spr.pbl2
  | .pbu2 => s.spr.pbu2

/-- Store a value in a special purpose register, all 32 bits (48_system.md R461). PVR has nothing to store in. -/
def State.setSprVal (s : State) (r : Spr) (v : Word) : State :=
  match r with
  | .xer => s.setXer v
  | .lr => s.setLr v
  | .ctr => s.setCtr v
  | .pvr => s
  | .tbhu => s.setSpr { s.spr with tbhi := v }
  | .tblu => s.setSpr { s.spr with tblo := v }
  | .srr0 => s.setSpr { s.spr with srr0 := v }
  | .srr1 => s.setSpr { s.spr with srr1 := v }
  | .srr2 => s.setSpr { s.spr with srr2 := v }
  | .srr3 => s.setSpr { s.spr with srr3 := v }
  | .sprg0 => s.setSpr { s.spr with sprg0 := v }
  | .sprg1 => s.setSpr { s.spr with sprg1 := v }
  | .sprg2 => s.setSpr { s.spr with sprg2 := v }
  | .sprg3 => s.setSpr { s.spr with sprg3 := v }
  | .zpr => s.setSpr { s.spr with zpr := v }
  | .pid => s.setSpr { s.spr with pid := v }
  | .sgr => s.setSpr { s.spr with sgr := v }
  | .dcwr => s.setSpr { s.spr with dcwr := v }
  | .icdbdr => s.setSpr { s.spr with icdbdr := v }
  | .esr => s.setSpr { s.spr with esr := v }
  | .dear => s.setSpr { s.spr with dear := v }
  | .evpr => s.setSpr { s.spr with evpr := v }
  | .cdbcr => s.setSpr { s.spr with cdbcr := v }
  | .tsr => s.setSpr { s.spr with tsr := v }
  | .tcr => s.setSpr { s.spr with tcr := v }
  | .pit => s.setSpr { s.spr with pit := v }
  | .tbhi => s.setSpr { s.spr with tbhi := v }
  | .tblo => s.setSpr { s.spr with tblo := v }
  | .dbsr => s.setSpr { s.spr with dbsr := v }
  | .dbcr => s.setSpr { s.spr with dbcr := v }
  | .iac1 => s.setSpr { s.spr with iac1 := v }
  | .iac2 => s.setSpr { s.spr with iac2 := v }
  | .dac1 => s.setSpr { s.spr with dac1 := v }
  | .dac2 => s.setSpr { s.spr with dac2 := v }
  | .dccr => (s.setSpr { s.spr with dccr := v }).noteCaching
  | .iccr => (s.setSpr { s.spr with iccr := v }).noteCaching
  | .pbl1 => s.setSpr { s.spr with pbl1 := v }
  | .pbu1 => s.setSpr { s.spr with pbu1 := v }
  | .pbl2 => s.setSpr { s.spr with pbl2 := v }
  | .pbu2 => s.setSpr { s.spr with pbu2 := v }

end Sys2Proof.Machine
end

