-- ==== Sys2Proof/Machine/Memory.lean ====
section
/-! DEFINITION. Main storage: a list of (address, byte) pairs, addresses strictly rising, no entry equal to the 0
that an unlisted address reads as (20_memory.md R100; DESIGN CHOICE, unsafe, log entry 3), the map of the regions
that are not plain storage (R113, R114), and the old bytes that fetches may still see (R133; log entry 19). -/

namespace Sys2Proof.Machine

/-- What an unlisted address reads as: 0. DESIGN CHOICE, unsafe (log entry 3). -/
def unlistedByte : Byte := 0#8

/-- The byte at an address. -/
def memByte : List Host.Cell → Nat → Byte
  | [], _ => unlistedByte
  | c :: m, a => if c.1 = a then c.2 else memByte m a

/-- Put an entry in its place; a byte equal to what an unlisted address reads as is left out. -/
def memSet : List Host.Cell → Nat → Byte → List Host.Cell
  | [], a, b => if b = unlistedByte then [] else [(a, b)]
  | c :: m, a, b =>
    if c.1 < a then c :: memSet m a b
    else if c.1 = a then (if b = unlistedByte then m else (a, b) :: m)
    else if b = unlistedByte then c :: m else (a, b) :: c :: m

/-- Every address of the list is above `a`, addresses rise strictly and stay below 2^32, and no byte is the one an
unlisted address reads as. -/
def memWfAbove : Option Nat → List Host.Cell → Bool
  | _, [] => true
  | lo, c :: m => (lo.all (· < c.1)) && c.1 < 2 ^ 32 && c.2 != unlistedByte && memWfAbove (some c.1) m

/-- The canonical form of main storage. -/
def Memory.wf (m : List Host.Cell) : Bool := memWfAbove none m

/-- The byte of main storage at a real address. -/
def State.storage (s : State) (a : Word) : Byte := memByte s.mem a.toNat

/-- This byte at this address. -/
def OldByte.is (o : OldByte) (a : Word) (b : Byte) : Bool := o.addr == a && o.byte == b

/-- A byte that a store replaces: a fetch may see it until the whole sequence of 20_memory.md R133 has been executed,
from its first step. -/
def State.keepOld (s : State) (a : Word) (old : Byte) : State :=
  s.setStale (⟨a, old, .stored⟩ :: s.stale.filter (fun o => !o.is a old))

/-- A byte that leaves the instruction cache: the prefetch queue may have it (10_state.md R84). What an earlier store
asks for stays asked for. -/
def State.keepQueued (s : State) (a : Word) (old : Byte) : State :=
  s.setStale (if s.stale.any (fun o => o.is a old) then s.stale else ⟨a, old, .queued⟩ :: s.stale)

/-- Store one byte in main storage; the byte that was there is kept for fetches (20_memory.md R133). -/
def State.putStorage (s : State) (a : Word) (b : Byte) : State :=
  if s.storage a = b then s else (s.keepOld a (s.storage a)).setMem (memSet s.mem a.toNat b)

/-- What an address holds if it is not plain storage: the first region of the map that has it. -/
def regionKind (m : List Region) (a : Word) : Option RegionKind :=
  (m.find? (fun r => decide (r.base ≤ a.toNat) && decide (a.toNat < r.base + r.size))).map (·.kind)

/-- The addresses from `a` on, modulo 2^32 (20_memory.md R102). -/
def addrsFrom (a : Word) (n : Nat) : List Word := (List.range n).map (fun i => a + BitVec.ofNat 32 i)

/-- Some of the `n` bytes at `a` are of this kind. -/
def State.touches (s : State) (k : RegionKind) (a : Word) (n : Nat) : Bool :=
  (addrsFrom a n).any (fun x => regionKind s.memMap x == some k)

/-- The 16-byte block of an address (47_cache_sync.md R420). -/
def blockBase (a : Word) : Word := a &&& 0xFFFFFFF0#32

/-- A step of the sequence of 20_memory.md R133: the selected old bytes that wait for it go on to the next stage. -/
def State.markOld (s : State) (sel : OldByte → Bool) (before after : OldStage) : State :=
  s.setStale (s.stale.map (fun o => if sel o && o.stage == before then { o with stage := after } else o))

/-- An old byte of the block of an address. -/
def inBlockOf (a : Word) (o : OldByte) : Bool := blockBase o.addr == blockBase a

/-- The block of an address is plain storage throughout. -/
def State.blockPlain (s : State) (a : Word) : Bool :=
  !(s.touches .absent (blockBase a) 16) && !(s.touches .device (blockBase a) 16)

end Sys2Proof.Machine
end

