-- ==== Sys2Proof/Machine/Ops.lean ====
section
/-! DEFINITION. Taking an exception and returning from one, the end of an instruction, and the results that the parts
of an instruction pass on. -/

namespace Sys2Proof.Machine

/-- What a meaning answers. -/
abbrev Out := Host.Outcome State Fault Refusal

/-- A synchronous exception (60_exceptions.md R500). -/
inductive Exc where
  | systemCall
  | illegal
  | privileged
  | trap
  | alignment (ea : Word)
  | dataStorage (ea : Word) (store zone : Bool)
  | dataTlbMiss (ea : Word)
  | instructionStorage
  | instructionTlbMiss
  | debug
deriving DecidableEq, Repr

/-- What a part of an instruction comes to: a value and the state after it, an exception with the state it is taken
in, or a stop. -/
inductive Result (α : Type) where
  | ok (a : α) (s : State)
  | exc (x : Exc) (s : State)
  | stop (f : Fault)
  | refuse (r : Refusal)

/-- Go on with the value and the state, if there are any. -/
def Result.bind {α β : Type} (r : Result α) (f : α → State → Result β) : Result β :=
  match r with
  | .ok a s => f a s
  | .exc x s => .exc x s
  | .stop w => .stop w
  | .refuse w => .refuse w

/-- A context-synchronizing operation discards the prefetched instructions (20_memory.md R124, R125). An old byte for
which dcbst, sync and icbi have not been executed in this order may still be fetched, unless the run has been at
Level 0 from reset on (R133, 70_reset_and_hazards.md R573, 92_eei_decisions.md D24). -/
def State.contextSync (s : State) : State :=
  s.setStale (if s.levelZero then [] else s.stale.filter (fun o => o.stage != .queued))

/-- The MSR after an entry: the listed bits cleared and LE made ILE (60_exceptions.md R502). -/
def entryMsr (critical : Bool) (m : Word) : Word :=
  let cleared :=
    if critical then clearBits m [msrWE, msrEE, msrPR, msrPE, msrCE, msrDE, msrDR, msrIR]
    else clearBits m [msrWE, msrEE, msrPR, msrPE, msrDR, msrIR]
  setBit cleared msrLE (bit m msrILE)

/-- The save registers of a class receive the saved address and the MSR (60_exceptions.md R501). -/
def State.saveFor (s : State) (critical : Bool) (saved : Word) : State :=
  if critical then s.setSpr { s.spr with srr2 := saved, srr3 := s.msr }
  else s.setSpr { s.spr with srr0 := saved, srr1 := s.msr }

/-- The address of a vector: `EVPR[0:15] || offset` (60_exceptions.md R503). -/
def vectorAddress (evpr : Word) (offset : BitVec 16) : Word := evpr.extractLsb' 16 16 ++ offset

/-- The entry sequence `Enter(class, saved_pc, offset)` of 60_exceptions.md R502. With MSR.ILE = 1 it is refused
(20_memory.md R106). It is context synchronizing (R505) and separates icread from mficdbdr (70_reset_and_hazards.md
R574). -/
def enter (critical : Bool) (saved : Word) (offset : BitVec 16) (s : State) : Out :=
  if s.msrBit msrILE then .refused .littleEndian
  else .next (((((s.saveFor critical saved).setMsr (entryMsr critical s.msr)).setPc
    (vectorAddress s.spr.evpr offset)).contextSync).setAfterIcread false)

/-- Set one bit of the ESR and leave the others (60_exceptions.md R511). -/
def State.setEsrBit (s : State) (b : Nat) : State := s.setSpr { s.spr with esr := setBit s.spr.esr b true }

/-- The data exception address register receives the effective address (60_exceptions.md R515). -/
def State.setDear (s : State) (ea : Word) : State := s.setSpr { s.spr with dear := ea }

/-- Take a synchronous exception at the instruction whose address is the pc (60_exceptions.md R503, R510 to R521). -/
def raise (x : Exc) (s : State) : Out :=
  match x with
  | .systemCall => enter false (s.pc + 4#32) 0x0C00#16 s
  | .illegal => enter false s.pc 0x0700#16 (s.setEsrBit esrPIL)
  | .privileged => enter false s.pc 0x0700#16 (s.setEsrBit esrPPR)
  | .trap => enter false s.pc 0x0700#16 (s.setEsrBit esrPTR)
  | .alignment ea => enter false s.pc 0x0600#16 (s.setDear ea)
  | .dataStorage ea store zone =>
    let s1 := if store then s.setEsrBit esrDST else s
    let s2 := if zone then s1.setEsrBit esrDIZ else s1
    enter false s.pc 0x0300#16 (s2.setDear ea)
  | .dataTlbMiss ea => enter false s.pc 0x1100#16 (s.setDear ea)
  | .instructionStorage => enter false s.pc 0x0400#16 s
  | .instructionTlbMiss => enter false s.pc 0x1200#16 s
  | .debug => enter true s.pc 0x2000#16 s

/-- The end of a meaning: the state reached, the exception taken, or the stop. -/
def Result.finish (r : Result Unit) : Out :=
  match r with
  | .ok _ s => .next s
  | .exc x s => raise x s
  | .stop f => .fault f
  | .refuse w => .refused w

/-- Return from an exception: the MSR and the pc from the save registers, the two low address bits ignored
(48_system.md R451, R452, R454); context synchronizing (20_memory.md R125). An MSR with LE = 1 is refused (R106). -/
def returnFrom (savedPc savedMsr : Word) (s : State) : Out :=
  if bit savedMsr msrLE then .refused .littleEndian
  else .next ((((s.setMsr savedMsr).setPc (wordAligned savedPc)).contextSync).setAfterIcread false)

/-- The step of a privileged instruction in problem state is Program(privileged), before anything else
(60_exceptions.md R513). -/
def privileged (s : State) (k : Out) : Out := if s.problem then raise .privileged s else k

/-- The next instruction is the following one (10_state.md R44), and the step was not an icread. -/
def State.advance (s : State) : State := (s.setPc (s.pc + 4#32)).setAfterIcread false

/-- Bit 31 is a reserved bit that is 1: CR field 0 is drawn after the instruction's effect (10_state.md R51). -/
def State.drawCr0 (s : State) (b31 : Bool) : State :=
  if b31 then (s.setCrField 0 (s.undef.setWidth 4)).drawn else s

/-- The end of an instruction whose bit 31 is reserved. -/
def State.advance31 (s : State) (b31 : Bool) : State := (s.drawCr0 b31).advance

/-- A step to another address; it was not an icread. -/
def State.jump (s : State) (target : Word) : State := (s.setPc target).setAfterIcread false

end Sys2Proof.Machine
end

