-- ==== Sys2Proof/Machine/Flags.lean ====
section
/-! DEFINITION. Flag computations: carry, overflow, record form, compare, branch and trap conditions, masks. -/

namespace Sys2Proof.Machine

/-- The carry out of a 32-bit sum of two addends and a carry in (40_arithmetic.md R202). -/
def carry32 (a b : Word) (c : Bool) : Bool := decide (a.toNat + b.toNat + c.toNat > 2 ^ 32 - 1)

/-- The exact signed sum does not fit 32 bits (40_arithmetic.md R203). -/
def overflow32 (a b : Word) (c : Bool) : Bool :=
  let x : Int := a.toInt + b.toInt + (c.toNat : Int)
  decide (x < -(2 ^ 31)) || decide (x > 2 ^ 31 - 1)

/-- Write XER.CA. -/
def State.setCa (s : State) (c : Bool) : State := s.setXer (setBit s.xer xerCA c)

/-- With OE = 1, write XER.OV and make XER.SO sticky (10_state.md R54). -/
def State.recordOv (s : State) (oe ov : Bool) : State :=
  if oe then s.setXer (setBit (setBit s.xer xerOV ov) xerSO (s.so || ov)) else s

/-- The 4-bit value of a signed comparison with SO (43_compare_cr.md R307). -/
def compareSigned (a b : Word) (so : Bool) : BitVec 4 :=
  nibbleOf (decide (a.toInt < b.toInt)) (decide (a.toInt > b.toInt)) (decide (a = b)) so

/-- The 4-bit value of an unsigned comparison with SO (43_compare_cr.md R307). -/
def compareUnsigned (a b : Word) (so : Bool) : BitVec 4 :=
  nibbleOf (decide (a.toNat < b.toNat)) (decide (a.toNat > b.toNat)) (decide (a = b)) so

/-- The record form: CR field 0 from the result and the SO just written (10_state.md R50). -/
def State.record (s : State) (rc : Bool) (r : Word) : State :=
  if rc then s.setCrField 0 (compareSigned r 0#32 s.so) else s

/-- `ROTL32(x, n)` (42_rotate_shift.md R270). -/
def rotl32 (x : Word) (n : Nat) : Word := x.rotateLeft n

/-- `MASK(mb, me)` (42_rotate_shift.md R271). -/
def maskBits (mb me : Nat) : Word :=
  let left := BitVec.allOnes 32 >>> mb
  let right := BitVec.allOnes 32 <<< (31 - me)
  if mb ≤ me then left &&& right else left ||| right

/-- `trap_cond(TO, a, b)` (48_system.md R470). TO[0] is the bit of weight 16. -/
def trapCond (tcond : BitVec 5) (a b : Word) : Bool :=
  (tcond.getMsbD 0 && decide (a.toInt < b.toInt)) || (tcond.getMsbD 1 && decide (a.toInt > b.toInt)) ||
  (tcond.getMsbD 2 && decide (a = b)) || (tcond.getMsbD 3 && decide (a.toNat < b.toNat)) ||
  (tcond.getMsbD 4 && decide (a.toNat > b.toNat))

/-- The count register after a branch: decremented when BO[2] is 0 (44_branch.md R320). -/
def State.branchCtr (s : State) (bo : BitVec 5) : Word := if bo.getMsbD 2 then s.ctr else s.ctr - 1#32

/-- Whether a conditional branch is taken (44_branch.md R320). -/
def State.branchTaken (s : State) (bo bi : BitVec 5) : Bool :=
  (bo.getMsbD 2 || (decide (s.branchCtr bo = 0#32) == bo.getMsbD 3)) &&
  (bo.getMsbD 0 || (s.crBit bi == bo.getMsbD 1))

/-- The mask of mtcrf: four copies of each FXM bit (43_compare_cr.md R305). -/
def fxmMask (fxm : BitVec 8) : Word :=
  let n (i : Nat) : BitVec 4 := if fxm.getMsbD i then 0xF#4 else 0#4
  n 0 ++ n 1 ++ n 2 ++ n 3 ++ n 4 ++ n 5 ++ n 6 ++ n 7

end Sys2Proof.Machine
end

