-- ==== Sys2Proof/Machine/Operands.lean ====
section
/-! DEFINITION. The operand forms: bases, effective addresses and widened immediates (20_memory.md R101,
30_encoding.md R165). -/

namespace Sys2Proof.Machine

/-- `(RA|0)`: 0 when the field is 0, else the register (10_state.md R41). -/
def State.base (s : State) (ra : Reg) : Word := if ra = 0 then 0#32 else s.reg ra

/-- Register indirect with immediate index: `RA0 + sext_32(D)` (20_memory.md R101). -/
def State.eaD (s : State) (ra : Reg) (d : BitVec 16) : Word := s.base ra + d.signExtend 32

/-- Register indirect with index: `RA0 + GPR[RB]` (20_memory.md R101). -/
def State.eaX (s : State) (ra rb : Reg) : Word := s.base ra + s.reg rb

/-- `sext_32(IM)` (30_encoding.md R165). -/
def immSigned (im : BitVec 16) : Word := im.signExtend 32

/-- `rep(16,0) || IM` (30_encoding.md R165). -/
def immUnsigned (im : BitVec 16) : Word := im.setWidth 32

/-- `IM || rep(16,0)` (30_encoding.md R165). -/
def immShifted (im : BitVec 16) : Word := im ++ 0#16

/-- `sext_32(LI || 0b00)` (44_branch.md R321). -/
def dispI (li : BitVec 24) : Word := (li ++ 0#2).signExtend 32

/-- `sext_32(BD || 0b00)` (44_branch.md R322). -/
def dispB (bd : BitVec 14) : Word := (bd ++ 0#2).signExtend 32

end Sys2Proof.Machine
end

