-- ==== Sys2Proof/Machine/Arithmetic.lean ====
section
/-! DEFINITION. The arithmetic instructions (40_arithmetic.md). -/

namespace Sys2Proof.Machine

/-- Effects 3 to 6 of 40_arithmetic.md R201: the result, the carry if it is written, overflow, the record form. -/
def writeArith (rt : Reg) (r : Word) (ca : Option Bool) (oe ov rc : Bool) (s : State) : Out :=
  let s1 := s.setReg rt r
  let s2 := match ca with
    | some c => s1.setCa c
    | none => s1
  .next (((s2.recordOv oe ov).record rc r).advance)

/-- A sum of two addends and a carry in, its carry out written to CA. -/
def sumWithCarry (rt : Reg) (a b : Word) (c oe rc : Bool) (s : State) : Out :=
  writeArith rt (a + b + wordOfBool c) (some (carry32 a b c)) oe (overflow32 a b c) rc s

/-- A sum of two addends and a carry in; CA is not altered. -/
def sumKeepCarry (rt : Reg) (a b : Word) (c oe rc : Bool) (s : State) : Out :=
  writeArith rt (a + b + wordOfBool c) none oe (overflow32 a b c) rc s

/-- add (R210). -/
def execAdd (rt ra rb : Reg) (oe rc : Bool) (s : State) : Out :=
  sumKeepCarry rt (s.reg ra) (s.reg rb) false oe rc s

/-- addc (R211). -/
def execAddc (rt ra rb : Reg) (oe rc : Bool) (s : State) : Out :=
  sumWithCarry rt (s.reg ra) (s.reg rb) false oe rc s

/-- adde (R212). -/
def execAdde (rt ra rb : Reg) (oe rc : Bool) (s : State) : Out :=
  sumWithCarry rt (s.reg ra) (s.reg rb) s.ca oe rc s

/-- addi (R213): the base is 0 when the RA field is 0. -/
def execAddi (rt ra : Reg) (im : BitVec 16) (s : State) : Out :=
  sumKeepCarry rt (s.base ra) (immSigned im) false false false s

/-- addic (R214): RA = 0 names GPR(0). -/
def execAddic (rt ra : Reg) (im : BitVec 16) (s : State) : Out :=
  sumWithCarry rt (s.reg ra) (immSigned im) false false false s

/-- addic. (R215): as addic and records always. -/
def execAddicRc (rt ra : Reg) (im : BitVec 16) (s : State) : Out :=
  sumWithCarry rt (s.reg ra) (immSigned im) false false true s

/-- addis (R216). -/
def execAddis (rt ra : Reg) (im : BitVec 16) (s : State) : Out :=
  sumKeepCarry rt (s.base ra) (immShifted im) false false false s

/-- addme (R217). -/
def execAddme (rt ra : Reg) (oe rc : Bool) (s : State) : Out :=
  sumWithCarry rt (s.reg ra) 0xFFFFFFFF#32 s.ca oe rc s

/-- addze (R218). -/
def execAddze (rt ra : Reg) (oe rc : Bool) (s : State) : Out :=
  sumWithCarry rt (s.reg ra) 0#32 s.ca oe rc s

/-- subf (R219). -/
def execSubf (rt ra rb : Reg) (oe rc : Bool) (s : State) : Out :=
  sumKeepCarry rt (~~~(s.reg ra)) (s.reg rb) true oe rc s

/-- subfc (R220). -/
def execSubfc (rt ra rb : Reg) (oe rc : Bool) (s : State) : Out :=
  sumWithCarry rt (~~~(s.reg ra)) (s.reg rb) true oe rc s

/-- subfe (R221). -/
def execSubfe (rt ra rb : Reg) (oe rc : Bool) (s : State) : Out :=
  sumWithCarry rt (~~~(s.reg ra)) (s.reg rb) s.ca oe rc s

/-- subfic (R222). -/
def execSubfic (rt ra : Reg) (im : BitVec 16) (s : State) : Out :=
  sumWithCarry rt (~~~(s.reg ra)) (immSigned im) true false false s

/-- subfme (R223). -/
def execSubfme (rt ra : Reg) (oe rc : Bool) (s : State) : Out :=
  sumWithCarry rt (~~~(s.reg ra)) 0xFFFFFFFF#32 s.ca oe rc s

/-- subfze (R224). -/
def execSubfze (rt ra : Reg) (oe rc : Bool) (s : State) : Out :=
  sumWithCarry rt (~~~(s.reg ra)) 0#32 s.ca oe rc s

/-- neg (R225): CA is not altered (90_conflicts.md C1). -/
def execNeg (rt ra : Reg) (oe rc : Bool) (s : State) : Out :=
  sumKeepCarry rt (~~~(s.reg ra)) 0#32 true oe rc s

/-- The exact signed product of two registers as a 64-bit value (R226, R229). -/
def productSigned (a b : Word) : BitVec 64 := BitVec.ofInt 64 (a.toInt * b.toInt)

/-- The exact unsigned product of two registers as a 64-bit value (R227). -/
def productUnsigned (a b : Word) : BitVec 64 := BitVec.ofNat 64 (a.toNat * b.toNat)

/-- mulhw (R226). -/
def execMulhw (rt ra rb : Reg) (rc : Bool) (s : State) : Out :=
  writeArith rt ((productSigned (s.reg ra) (s.reg rb)).extractLsb' 32 32) none false false rc s

/-- mulhwu (R227). -/
def execMulhwu (rt ra rb : Reg) (rc : Bool) (s : State) : Out :=
  writeArith rt ((productUnsigned (s.reg ra) (s.reg rb)).extractLsb' 32 32) none false false rc s

/-- mulli (R228): the low 32 bits of the exact product with the signed immediate. -/
def execMulli (rt ra : Reg) (im : BitVec 16) (s : State) : Out :=
  writeArith rt (BitVec.ofInt 32 ((s.reg ra).toInt * im.toInt)) none false false false s

/-- mullw (R229): overflow when the high word is not the sign extension of the low word. -/
def execMullw (rt ra rb : Reg) (oe rc : Bool) (s : State) : Out :=
  let p := productSigned (s.reg ra) (s.reg rb)
  let low : Word := p.extractLsb' 0 32
  let ov := p.extractLsb' 32 32 != (if low.msb then BitVec.allOnes 32 else 0#32)
  writeArith rt low none oe ov rc s

/-- A division without a defined quotient: RT is drawn, CR field 0 is drawn if Rc, OV and SO are set if OE
(R231, R232). -/
def undefinedQuotient (rt : Reg) (oe rc : Bool) (s : State) : Out :=
  let s1 := (s.setReg rt s.undef).drawn
  .next (((s1.drawCr0 rc).recordOv oe true).advance)

/-- divw (R231): the quotient is truncated toward zero. -/
def execDivw (rt ra rb : Reg) (oe rc : Bool) (s : State) : Out :=
  if s.reg rb = 0#32 ∨ (s.reg ra = 0x80000000#32 ∧ s.reg rb = 0xFFFFFFFF#32) then undefinedQuotient rt oe rc s
  else writeArith rt (BitVec.ofInt 32 (Int.tdiv (s.reg ra).toInt (s.reg rb).toInt)) none oe false rc s

/-- divwu (R232). -/
def execDivwu (rt ra rb : Reg) (oe rc : Bool) (s : State) : Out :=
  if s.reg rb = 0#32 then undefinedQuotient rt oe rc s
  else writeArith rt (BitVec.ofNat 32 ((s.reg ra).toNat / (s.reg rb).toNat)) none oe false rc s

end Sys2Proof.Machine
end

