-- ==== Sys2Proof/Machine/Branch.lean ====
section
/-! DEFINITION. The branch instructions (44_branch.md). -/

namespace Sys2Proof.Machine

/-- With LK = 1, LR receives the address of the next instruction, taken or not (44_branch.md R325). -/
def State.link (s : State) (lk : Bool) : State := if lk then s.setLr (s.pc + 4#32) else s

/-- A conditional branch: CTR counts first, then the target is chosen, then LR is written (R320, R325). The target is
a function of the state after the count. -/
def branchOn (bo bi : BitVec 5) (lk : Bool) (target : State → Word) (s : State) : Out :=
  let counted := s.setCtr (s.branchCtr bo)
  let dest := if s.branchTaken bo bi then target counted else s.pc + 4#32
  .next ((counted.link lk).jump dest)

/-- b, ba, bl, bla (R321). -/
def execB (li : BitVec 24) (aa lk : Bool) (s : State) : Out :=
  .next ((s.link lk).jump (if aa then dispI li else s.pc + dispI li))

/-- bc, bca, bcl, bcla (R322). -/
def execBc (bo bi : BitVec 5) (bd : BitVec 14) (aa lk : Bool) (s : State) : Out :=
  branchOn bo bi lk (fun c => if aa then dispB bd else c.pc + dispB bd) s

/-- bcctr, bcctrl (R323): with BO[2] = 0 the target is the decremented CTR. -/
def execBcctr (bo bi : BitVec 5) (lk : Bool) (s : State) : Out := branchOn bo bi lk (fun c => wordAligned c.ctr) s

/-- bclr, bclrl (R324): the target is LR before it is written. -/
def execBclr (bo bi : BitVec 5) (lk : Bool) (s : State) : Out := branchOn bo bi lk (fun c => wordAligned c.lr) s

end Sys2Proof.Machine
end

