-- ==== Sys2Proof/Machine/Translate.lean ====
section
/-! DEFINITION. Address translation, protection and storage attributes (20_memory.md R115 to R119). -/

namespace Sys2Proof.Machine

/-- The entry is valid and translates EA under the process tag: the top `22 - 2 * SIZE` bits of EPN are compared
(20_memory.md R116). -/
def TlbEntry.translates (e : TlbEntry) (ea : Word) (pid : BitVec 8) : Bool :=
  e.v && (e.tid == 0#8 || e.tid == pid) &&
  (e.epn >>> (2 * e.size.toNat) == ea.extractLsb' 10 22 >>> (2 * e.size.toNat))

/-- The real address: the page's bits from RPN, the rest from EA (20_memory.md R116). -/
def TlbEntry.realAddress (e : TlbEntry) (ea : Word) : Word :=
  let offset : Word := BitVec.allOnes 32 >>> (22 - 2 * e.size.toNat)
  ((e.rpn ++ 0#10) &&& ~~~offset) ||| (ea &&& offset)

/-- The indexes of the TLB entries that match, in rising order (48_system.md R478). -/
def State.tlbMatches (s : State) (ea : Word) : List (BitVec 6) :=
  ((List.range 64).map (BitVec.ofNat 6)).filter (fun i => (s.tlbEntry i).translates ea s.pidTag)

/-- One element of a list, chosen by a free value when there are several. -/
def State.choose {α : Type} (s : State) (l : List α) : Option α × State :=
  match l with
  | [] => (none, s)
  | [x] => (some x, s)
  | x :: y :: r => ((x :: y :: r)[s.undef.toNat % (r.length + 2)]?, s.drawn)

/-- Which matching entry is used. Which of several is not stated (20_memory.md R116): any one of them. -/
def State.tlbPick (s : State) (ea : Word) : Option (BitVec 6) × State := s.choose (s.tlbMatches ea)

/-- Where an access goes: the real address and its storage attributes (20_memory.md R119). -/
structure Place where
  real : Word
  cacheable : Bool
  writeThrough : Bool
deriving DecidableEq, Repr

/-- The bit of a real-mode attribute register for an address: one bit for each 128MB region, bit 0 the lowest
(20_memory.md R119). -/
def regionBit (r ea : Word) : Bool := bit r (ea >>> 27).toNat

/-- The field of ZPR that ZSEL selects. The spec says only that ZSEL is the index of a 2-bit field (10_state.md R76):
the fields are counted from the left, ZSEL 0 being ZPR[0:1]. DESIGN CHOICE, unsafe (log entry 15). -/
def State.zoneField (s : State) (e : TlbEntry) : BitVec 2 := s.spr.zpr.extractLsb' (30 - 2 * e.zsel.toNat) 2

/-- The zone of an entry forbids an access in problem state (60_exceptions.md R517; the rule itself is free). Which
bits of ZPR it reads is the model's choice: `State.zoneField` (log entry 15). -/
def State.zoneForbids (s : State) (e : TlbEntry) : Bool := s.problem && Config.zoneForbids (s.zoneField e)

/-- The protection bounds forbid a store-class access (60_exceptions.md R517; the rule itself is free). -/
def State.boundsForbid (s : State) (ea : Word) (store : Bool) : Bool :=
  store && s.msrBit msrPE &&
  Config.boundsForbid (s.msrBit msrDR) (s.msrBit msrPX) s.spr.pbl1 s.spr.pbu1 s.spr.pbl2 s.spr.pbu2 ea

/-- Whether an instruction works on the data side or is an instruction cache operation: the latter takes its
real-mode cacheability from ICCR (47_cache_sync.md R421). -/
inductive CacheSide where
  | data
  | instruction
deriving DecidableEq, Repr

/-- The place of an address when MSR.DR is 0 (20_memory.md R115, R119). The spec names DCWR and gives neither its
regions nor which value of a bit means write-through: it has the regions of DCCR, and a 1 is write-through. DESIGN
CHOICE, unsafe (log entry 16). -/
def State.realModePlace (s : State) (side : CacheSide) (ea : Word) : Place where
  real := ea
  cacheable := match side with
    | .data => regionBit s.spr.dccr ea
    | .instruction => regionBit s.spr.iccr ea
  writeThrough := regionBit s.spr.dcwr ea

/-- The place of an address under a TLB entry (20_memory.md R116, R119). -/
def TlbEntry.place (e : TlbEntry) (ea : Word) : Place := ⟨e.realAddress ea, !e.i, e.w⟩

/-- The protection bounds, tested last (60_exceptions.md R529). -/
def checkBounds (ea : Word) (store : Bool) (p : Place) (s : State) : Result Place :=
  if s.boundsForbid ea store then .exc (.dataStorage ea store false) s else .ok p s

/-- Translate a data address and test protection, `store` the class of the access: Data TLB Miss, then Data Storage
(20_memory.md R116, R117, 60_exceptions.md R517, R518, R529). -/
def dataPlace (side : CacheSide) (ea : Word) (store : Bool) (s : State) : Result Place :=
  if s.msrBit msrDR then
    match s.tlbPick ea with
    | (none, s1) => .exc (.dataTlbMiss ea) s1
    | (some i, s1) =>
      let e := s.tlbEntry i
      if s.zoneForbids e then .exc (.dataStorage ea store true) s1
      else if store && !e.wr then .exc (.dataStorage ea store false) s1
      else checkBounds ea store (e.place ea) s1
  else checkBounds ea store (s.realModePlace side ea) s

/-- Translate the address of the next instruction (60_exceptions.md R519, R520). -/
def fetchPlace (s : State) : Result Place :=
  if s.msrBit msrIR then
    match s.tlbPick s.pc with
    | (none, s1) => .exc .instructionTlbMiss s1
    | (some i, s1) =>
      let e := s.tlbEntry i
      if !e.ex || s.zoneForbids e then .exc .instructionStorage s1 else .ok (e.place s.pc) s1
  else .ok (s.realModePlace .instruction s.pc) s

end Sys2Proof.Machine
end

