-- ==== Sys2Proof/Machine/Cache.lean ====
section
/-! DEFINITION. The two caches as explicit lines (47_cache_sync.md R428, Level 2 of R429). Whether an ordinary access
fills a line, which side it takes and what becomes of LRU are free values (log entries 17 and 18). -/

namespace Sys2Proof.Machine

/-- `dclass(a) = a[23:27]` (47_cache_sync.md R428). -/
def dclass (a : Word) : BitVec 5 := a.extractLsb' 4 5
/-- `dtag(a) = a[0:22]` (47_cache_sync.md R428). -/
def dtag (a : Word) : BitVec 23 := a.extractLsb' 9 23
/-- `iclass(a) = a[22:27]` (47_cache_sync.md R428). -/
def iclass (a : Word) : BitVec 6 := a.extractLsb' 4 6
/-- `itag(a) = a[0:21]` (47_cache_sync.md R428). -/
def itag (a : Word) : BitVec 22 := a.extractLsb' 10 22
/-- The byte of a block that an address selects. -/
def blockByte (a : Word) : BitVec 4 := a.extractLsb' 0 4
/-- The address of a data cache line's block. -/
def dlineBase (c : BitVec 5) (tag : BitVec 23) : Word := tag ++ c ++ 0#4
/-- The address of an instruction cache line's block. -/
def ilineBase (c : BitVec 6) (tag : BitVec 22) : Word := tag ++ c ++ 0#4

/-- A congruence class of the data cache. -/
def State.dcls (s : State) (c : BitVec 5) : DClass := s.dcache.get c.toFin
/-- Replace a congruence class of the data cache. -/
def State.setDcls (s : State) (c : BitVec 5) (x : DClass) : State := s.setDcache (s.dcache.set c.toNat x c.isLt)
/-- The line of a side. -/
def DClass.line (x : DClass) : Side → DLine
  | .a => x.a
  | .b => x.b
/-- Replace the line of a side. -/
def DClass.setLine (x : DClass) (side : Side) (l : DLine) : DClass :=
  match side with
  | .a => { x with a := l }
  | .b => { x with b := l }
/-- A line of the data cache. -/
def State.dline (s : State) (c : BitVec 5) (side : Side) : DLine := (s.dcls c).line side
/-- Replace a line of the data cache. -/
def State.setDline (s : State) (c : BitVec 5) (side : Side) (l : DLine) : State :=
  s.setDcls c ((s.dcls c).setLine side l)
/-- Write the LRU bit of a data cache class. -/
def State.setDlru (s : State) (c : BitVec 5) (v : Bool) : State := s.setDcls c { s.dcls c with lru := v }

/-- A congruence class of the instruction cache. -/
def State.icls (s : State) (c : BitVec 6) : IClass := s.icache.get c.toFin
/-- Replace a congruence class of the instruction cache. -/
def State.setIcls (s : State) (c : BitVec 6) (x : IClass) : State := s.setIcache (s.icache.set c.toNat x c.isLt)
/-- The line of a side. -/
def IClass.line (x : IClass) : Side → ILine
  | .a => x.a
  | .b => x.b
/-- Replace the line of a side. -/
def IClass.setLine (x : IClass) (side : Side) (l : ILine) : IClass :=
  match side with
  | .a => { x with a := l }
  | .b => { x with b := l }
/-- A line of the instruction cache. -/
def State.iline (s : State) (c : BitVec 6) (side : Side) : ILine := (s.icls c).line side
/-- Replace a line of the instruction cache. -/
def State.setIline (s : State) (c : BitVec 6) (side : Side) (l : ILine) : State :=
  s.setIcls c ((s.icls c).setLine side l)
/-- Write the LRU bit of an instruction cache class. -/
def State.setIlru (s : State) (c : BitVec 6) (v : Bool) : State := s.setIcls c { s.icls c with lru := v }

/-- The side that holds the block of a real address in the data cache, if any (47_cache_sync.md R428). -/
def State.dhit (s : State) (a : Word) : Option Side :=
  if (s.dline (dclass a) .a).v && (s.dline (dclass a) .a).tag == dtag a then some .a
  else if (s.dline (dclass a) .b).v && (s.dline (dclass a) .b).tag == dtag a then some .b
  else none

/-- The side that holds the block of a real address in the instruction cache, if any. -/
def State.ihit (s : State) (a : Word) : Option Side :=
  if (s.iline (iclass a) .a).v && (s.iline (iclass a) .a).tag == itag a then some .a
  else if (s.iline (iclass a) .b).v && (s.iline (iclass a) .b).tag == itag a then some .b
  else none

/-- The byte the processor sees at a real address: from the line if the block is in the data cache, else from main
storage (20_memory.md R121). -/
def State.dataByte (s : State) (a : Word) : Byte :=
  match s.dhit a with
  | some side => (s.dline (dclass a) side).data.get (blockByte a).toFin
  | none => s.storage a

/-- The 16 bytes of main storage at a block. -/
def State.blockOf (s : State) (base : Word) : Vector Byte 16 :=
  Vector.ofFn (fun i : Fin 16 => s.storage (base + BitVec.ofNat 32 i.val))

/-- `MemWrite16`: the bytes of a line to main storage in address order (47_cache_sync.md R422). -/
def State.putBlock (s : State) (base : Word) (data : Vector Byte 16) : State :=
  (List.finRange 16).foldl (fun st i => st.putStorage (base + BitVec.ofNat 32 i.val) (data.get i)) s

/-- An access to `n` bytes of main storage: an absent address is stuck (60_exceptions.md R522), a device is refused
(20_memory.md R113). -/
def checkStorage (a : Word) (n : Nat) (s : State) : Result Unit :=
  if s.touches .absent a n then .stop .absentAddress
  else if s.touches .device a n then .refuse .deviceAccess
  else .ok () s

/-- Copy a modified line back to main storage (47_cache_sync.md R422). -/
def copyBack (c : BitVec 5) (side : Side) (s : State) : Result Unit :=
  let l := s.dline c side
  if l.d then
    (checkStorage (dlineBase c l.tag) 16 s).bind fun _ s1 => .ok () (s1.putBlock (dlineBase c l.tag) l.data)
  else .ok () s

/-- Make room on a side: a valid modified line is copied back first (47_cache_sync.md R427, programming note). -/
def castOut (c : BitVec 5) (side : Side) (s : State) : Result Unit :=
  if (s.dline c side).v then copyBack c side s else .ok () s

/-- Read a block from main storage into a side of the data cache, the line that was there cast out. -/
def dfill (a : Word) (side : Side) (s : State) : Result Unit :=
  (castOut (dclass a) side s).bind fun _ s1 =>
    .ok () (s1.setDline (dclass a) side ⟨true, false, dtag a, s1.blockOf (blockBase a)⟩)

/-- The side a free value selects. -/
def sideOf (u : Word) : Side := if u.getLsbD 1 then .b else .a

/-- What an ordinary access does to the data cache. A hit may change LRU; a miss at a cacheable address may fill a
line from plain storage and change LRU. All of it is free (47_cache_sync.md R429). -/
def dtouch (p : Place) (s : State) : Result Unit :=
  if !p.cacheable then .ok () s
  else
    let u := s.undef
    match s.dhit p.real with
    | some _ => .ok () ((s.setDlru (dclass p.real) (u.getLsbD 2)).drawn)
    | none =>
      if u.getLsbD 0 && s.blockPlain p.real then
        (dfill p.real (sideOf u) s.drawn).bind fun _ s1 => .ok () (s1.setDlru (dclass p.real) (u.getLsbD 2))
      else .ok () s.drawn

/-- Store one byte: into the line when the block is in the data cache, marking it modified; to main storage when it
is not, or when the address is write-through or non-cacheable. The byte the line had is kept for fetches
(20_memory.md R133). -/
def State.putData (s : State) (p : Place) (a : Word) (b : Byte) : State :=
  match s.dhit a with
  | none => s.putStorage a b
  | some side =>
    let l := s.dline (dclass a) side
    let data := l.data.set (blockByte a).toNat b (blockByte a).isLt
    let s1 := s.keepOld a (l.data.get (blockByte a).toFin)
    if p.cacheable && !p.writeThrough then s1.setDline (dclass a) side { l with data := data, d := true }
    else (s1.setDline (dclass a) side { l with data := data }).putStorage a b

/-- The bytes of a modified line of the data cache that are about to be replaced or lost are kept for fetches
(10_state.md R84, 20_memory.md R133). -/
def State.keepDline (s : State) (c : BitVec 5) (side : Side) : State :=
  let l := s.dline c side
  if l.v && l.d then
    (List.finRange 16).foldl (fun st i => st.keepOld (dlineBase c l.tag + BitVec.ofNat 32 i.val) (l.data.get i)) s
  else s

/-- A line of the instruction cache is dropped; its bytes may stay in the prefetch queue (10_state.md R84). -/
def State.dropIline (s : State) (c : BitVec 6) (side : Side) : State :=
  let l := s.iline c side
  if l.v then
    ((List.finRange 16).foldl (fun st i => st.keepQueued (ilineBase c l.tag + BitVec.ofNat 32 i.val) (l.data.get i))
      s).setIline c side { l with v := false }
  else s

/-- Read a block from main storage into a side of the instruction cache. -/
def State.ifill (s : State) (a : Word) (side : Side) : State :=
  (s.dropIline (iclass a) side).setIline (iclass a) side ⟨true, itag a, s.blockOf (blockBase a)⟩

/-- What a fetch does to the instruction cache: as `dtouch`, and there is nothing to copy back. -/
def State.itouch (s : State) (p : Place) : State :=
  if !p.cacheable then s
  else
    let u := s.undef
    match s.ihit p.real with
    | some _ => (s.setIlru (iclass p.real) (u.getLsbD 2)).drawn
    | none =>
      if u.getLsbD 0 && s.blockPlain p.real then
        ((s.ifill p.real (sideOf u)).setIlru (iclass p.real) (u.getLsbD 2)).drawn
      else s.drawn

end Sys2Proof.Machine
end

