-- ==== Sys2Proof/Machine/Access.lean ====
section
/-! DEFINITION. `MemRead` and `MemWrite` (20_memory.md R103, R104) with the tests that come before them, in the order
of 60_exceptions.md R529. -/

namespace Sys2Proof.Machine

/-- The `n` bytes the processor sees at a real address as one big-endian value (20_memory.md R103). -/
def State.dataValue (s : State) (a : Word) : Nat → Word
  | 0 => 0#32
  | n + 1 => (s.dataValue a n <<< 8) ||| (s.dataByte (a + BitVec.ofNat 32 n)).setWidth 32

/-- Byte `i` of an `n`-byte value, byte 0 the most significant (20_memory.md R103). -/
def valueByte (v : Word) (n i : Nat) : Byte := v.extractLsb' (8 * (n - 1 - i)) 8

/-- Store the `n` low bytes of a value at a real address, the most significant first (20_memory.md R104). -/
def State.putValue (s : State) (p : Place) (n : Nat) (v : Word) : State :=
  (List.range n).foldl (fun st i => st.putData p (p.real + BitVec.ofNat 32 i) (valueByte v n i)) s

/-- The access needs main storage: the block is not in the data cache, or the store goes through it. -/
def State.needsStorage (s : State) (p : Place) (store : Bool) : Bool :=
  (s.dhit p.real).isNone || (store && (p.writeThrough || !p.cacheable))

/-- Storage must answer where the access needs it. -/
def checkAccess (p : Place) (n : Nat) (store : Bool) (s : State) : Result Unit :=
  if s.needsStorage p store then checkStorage p.real n s else .ok () s

/-- An aligned `n`-byte access at EA passes its alignment test (20_memory.md R108). -/
def aligned (ea : Word) (n : Nat) : Bool := ea.toNat % n == 0

/-- The tests of an access, in order: little-endian mode is refused (20_memory.md R106), alignment, translation and
protection, storage; then what the access does to the data cache. -/
def access (ea : Word) (n : Nat) (store : Bool) (s : State) : Result Place :=
  if s.msrBit msrLE then .refuse .littleEndian
  else if !aligned ea n then .exc (.alignment ea) s
  else
    (dataPlace .data ea store s).bind fun p s1 =>
    (checkAccess p n store s1).bind fun _ s2 =>
    (dtouch p s2).bind fun _ s3 => .ok p s3

/-- `MemRead(EA, n)`: the value, the bits above it 0 (20_memory.md R104). -/
def memRead (ea : Word) (n : Nat) (s : State) : Result Word :=
  (access ea n false s).bind fun p s1 => .ok (s1.dataValue p.real n) s1

/-- `MemWrite(EA, n, v)` of the `n` low bytes of `v` (20_memory.md R104). -/
def memWrite (ea : Word) (n : Nat) (v : Word) (s : State) : Result Unit :=
  (access ea n true s).bind fun p s1 => .ok () (s1.putValue p n v)

end Sys2Proof.Machine
end

