-- ==== Sys2Proof/Machine/CacheControl.lean ====
section
/-! DEFINITION. The cache control, cache debug and synchronisation instructions (47_cache_sync.md), the caches at
Level 2 (R429). The steps of each are those of R420, the class of each that of R421. -/

namespace Sys2Proof.Machine

/-- A cache instruction whose EA is translated and tested as an access of its class; the work follows. -/
def cacheOp (side : CacheSide) (ea : Word) (store b31 : Bool) (work : Place → State → Result Unit) (s : State) : Out :=
  (((dataPlace side ea store s).bind work).bind fun _ s1 => .ok () (s1.advance31 b31)).finish

/-- A touch: an exception of the translation or protection makes it a no-op (R425, R426, R436). With bit 31 = 1 this
no-op draws CR field 0 too, as 10_state.md R51 and the sentence R420 quotes have it, though steps 4 and 5 of R420 let the
touch end before its step 8: DEDUCED, safe (log entry 43). -/
def touchOp (side : CacheSide) (ea : Word) (b31 : Bool) (work : Place → State → Result Unit) (s : State) : Out :=
  match dataPlace side ea false s with
  | .ok p s1 => ((work p s1).bind fun _ s2 => .ok () (s2.advance31 b31)).finish
  | .exc _ s1 => .next (s1.advance31 b31)
  | .stop f => .fault f
  | .refuse r => .refused r

/-- Mark the line of a side invalid in the data cache. -/
def State.dinvalidate (s : State) (c : BitVec 5) (side : Side) : State :=
  s.setDline c side { s.dline c side with v := false }

/-- Mark the line of a side invalid in the data cache, what it held and storage does not lost (10_state.md R84). -/
def State.discardDline (s : State) (c : BitVec 5) (side : Side) : State := (s.keepDline c side).dinvalidate c side

/-- dcbf: a modified line is copied back, then the line is invalid (R422). -/
def flushBlock (p : Place) (s : State) : Result Unit :=
  match s.dhit p.real with
  | none => .ok () s
  | some side => (copyBack (dclass p.real) side s).bind fun _ s1 => .ok () (s1.dinvalidate (dclass p.real) side)

/-- dcbf (R422). -/
def execDcbf (ra rb : Reg) (b31 : Bool) (s : State) : Out := cacheOp .data (s.eaX ra rb) false b31 flushBlock s

/-- dcbi: the line is invalid, nothing is copied back (R423). -/
def invalidateBlock (p : Place) (s : State) : Result Unit :=
  match s.dhit p.real with
  | none => .ok () s
  | some side => .ok () (s.discardDline (dclass p.real) side)

/-- dcbi (R423). -/
def execDcbi (ra rb : Reg) (b31 : Bool) (s : State) : Out :=
  privileged s (cacheOp .data (s.eaX ra rb) true b31 invalidateBlock s)

/-- dcbst: a modified line is copied back and no longer modified (R424). -/
def storeBlock (p : Place) (s : State) : Result Unit :=
  match s.dhit p.real with
  | none => .ok () s
  | some side =>
    (copyBack (dclass p.real) side s).bind fun _ s1 =>
      .ok () (s1.setDline (dclass p.real) side { s1.dline (dclass p.real) side with d := false })

/-- dcbst (R424); the second step of 20_memory.md R133. -/
def execDcbst (ra rb : Reg) (b31 : Bool) (s : State) : Out :=
  cacheOp .data (s.eaX ra rb) false b31
    (fun p s1 => (storeBlock p s1).bind fun _ s2 => .ok () (s2.markOld (inBlockOf p.real) .stored .pushed)) s

/-- Read the block into the data cache when it is cacheable and not there; the side and LRU are free. An absent block
makes it a no-op, a device is refused (R425). -/
def touchBlock (p : Place) (s : State) : Result Unit :=
  if !p.cacheable || (s.dhit p.real).isSome || s.touches .absent (blockBase p.real) 16 then .ok () s
  else if s.touches .device (blockBase p.real) 16 then .refuse .deviceAccess
  else
    (dfill p.real (sideOf s.undef) s.drawn).bind fun _ s1 =>
      .ok () (s1.setDlru (dclass p.real) (s.undef.getLsbD 2))

/-- dcbt (R425). -/
def execDcbt (ra rb : Reg) (b31 : Bool) (s : State) : Out := touchOp .data (s.eaX ra rb) b31 touchBlock s

/-- dcbtst (R426): as dcbt. -/
def execDcbtst (ra rb : Reg) (b31 : Bool) (s : State) : Out := touchOp .data (s.eaX ra rb) b31 touchBlock s

/-- Sixteen bytes of 0. -/
def zeroBlock : Vector Byte 16 := Vector.replicate 16 0#8

/-- dcbz: the block of a line that is there becomes 0, or a line of 0 is established on a free side without reading
storage; the line is modified. An absent block is stuck (R427). At an address that is not cacheable, or is
write-through, and absent as well, the alignment exception comes first, as in the pseudocode of R427, though
60_exceptions.md R529 lists the absent address before it: DESIGN CHOICE, unsafe (log entry 20). -/
def zeroBlockAt (ea : Word) (p : Place) (s : State) : Result Unit :=
  if !p.cacheable || p.writeThrough then .exc (.alignment ea) s
  else if s.touches .absent (blockBase p.real) 16 then .stop .absentAddress
  else
    match s.dhit p.real with
    | some side =>
      .ok () ((s.keepDline (dclass p.real) side).setDline (dclass p.real) side
        { s.dline (dclass p.real) side with data := zeroBlock, d := true })
    | none =>
      (castOut (dclass p.real) (sideOf s.undef) s.drawn).bind fun _ s1 =>
        .ok () ((s1.setDline (dclass p.real) (sideOf s.undef) ⟨true, true, dtag p.real, zeroBlock⟩).setDlru
          (dclass p.real) (s.undef.getLsbD 2))

/-- dcbz (R427). -/
def execDcbz (ra rb : Reg) (b31 : Bool) (s : State) : Out :=
  let ea := s.eaX ra rb
  cacheOp .data ea true b31 (zeroBlockAt ea) s

/-- dccci: both lines of the class of EA are invalid, nothing is copied back (R431). -/
def execDccci (ra rb : Reg) (b31 : Bool) (s : State) : Out :=
  let ea := s.eaX ra rb
  privileged s
    (cacheOp .data ea true b31
      (fun _ s1 => .ok () ((s1.discardDline (dclass ea) .a).discardDline (dclass ea) .b)) s)

/-- The side CDBCR.CSS selects (R433, R439). -/
def State.debugSide (s : State) : Side := if bit s.spr.cdbcr cdbcrCSS then .b else .a

/-- Word `w` of a line's bytes, word 0 at the lowest address (R433). -/
def lineWord (data : Vector Byte 16) (w : BitVec 2) : Word :=
  let at4 (i : BitVec 2) : Byte := data.get (w ++ i).toFin
  at4 0 ++ at4 1 ++ at4 2 ++ at4 3

/-- The tag word of dcread: TAG, D, V and LRU, the other bits 0 (R433). -/
def dtagWord (l : DLine) (lru : Bool) : Word :=
  l.tag ++ 0#3 ++ BitVec.ofBool l.d ++ BitVec.ofBool l.v ++ 0#3 ++ BitVec.ofBool lru

/-- What dcread puts in RT; the data of an invalid line is drawn (R433). -/
def dcreadWork (rt : Reg) (ea : Word) (s : State) : State :=
  let l := s.dline (dclass ea) s.debugSide
  if bit s.spr.cdbcr cdbcrCIS then s.setReg rt (dtagWord l (s.dcls (dclass ea)).lru)
  else if l.v then s.setReg rt (lineWord l.data (ea.extractLsb' 2 2))
  else (s.setReg rt s.undef).drawn

/-- dcread (R433): EA[30:31] must be 0. -/
def execDcread (rt ra rb : Reg) (b31 : Bool) (s : State) : Out :=
  let ea := s.eaX ra rb
  privileged s
    (if !aligned ea 4 then raise (.alignment ea) s
     else cacheOp .data ea false b31 (fun _ s1 => .ok () (dcreadWork rt ea s1)) s)

/-- icbi: the line of the block is invalid in the instruction cache (R435). -/
def iinvalidateBlock (p : Place) (s : State) : Result Unit :=
  match s.ihit p.real with
  | none => .ok () s
  | some side => .ok () (s.dropIline (iclass p.real) side)

/-- icbi (R435); the fourth step of 20_memory.md R133. -/
def execIcbi (ra rb : Reg) (b31 : Bool) (s : State) : Out :=
  cacheOp .instruction (s.eaX ra rb) false b31
    (fun p s1 => (iinvalidateBlock p s1).bind fun _ s2 => .ok () (s2.markOld (inBlockOf p.real) .synced .queued)) s

/-- Load the block into the instruction cache when it is cacheable and not there; the side and LRU are free. An
absent block makes it a no-op, a device is refused (R436). -/
def itouchBlock (p : Place) (s : State) : Result Unit :=
  if !p.cacheable || (s.ihit p.real).isSome || s.touches .absent (blockBase p.real) 16 then .ok () s
  else if s.touches .device (blockBase p.real) 16 then .refuse .deviceAccess
  else .ok () (((s.ifill p.real (sideOf s.undef)).setIlru (iclass p.real) (s.undef.getLsbD 2)).drawn)

/-- icbt (R436). -/
def execIcbt (ra rb : Reg) (b31 : Bool) (s : State) : Out :=
  privileged s (touchOp .instruction (s.eaX ra rb) b31 itouchBlock s)

/-- iccci: both lines of the class of EA are invalid in the instruction cache (R438). -/
def execIccci (ra rb : Reg) (b31 : Bool) (s : State) : Out :=
  let ea := s.eaX ra rb
  privileged s
    (cacheOp .instruction ea false b31
      (fun _ s1 => .ok () ((s1.dropIline (iclass ea) .a).dropIline (iclass ea) .b)) s)

/-- The tag word of icread: TAG, V and LRU, the other bits 0 (R439). -/
def itagWord (l : ILine) (lru : Bool) : Word :=
  l.tag ++ 0#5 ++ BitVec.ofBool l.v ++ 0#3 ++ BitVec.ofBool lru

/-- Write ICDBDR. -/
def State.setIcdbdr (s : State) (v : Word) : State := s.setSpr { s.spr with icdbdr := v }

/-- What icread puts in ICDBDR; the data of an invalid line is drawn (R439). -/
def icreadWork (ea : Word) (s : State) : State :=
  let l := s.iline (iclass ea) s.debugSide
  if bit s.spr.cdbcr cdbcrCIS then s.setIcdbdr (itagWord l (s.icls (iclass ea)).lru)
  else if l.v then s.setIcdbdr (lineWord l.data (ea.extractLsb' 2 2))
  else (s.setIcdbdr s.undef).drawn

/-- icread (R439): the next instruction must not read ICDBDR (70_reset_and_hazards.md R574). -/
def execIcread (ra rb : Reg) (b31 : Bool) (s : State) : Out :=
  let ea := s.eaX ra rb
  privileged s
    (((dataPlace .instruction ea false s).bind fun _ s1 =>
      .ok () (((icreadWork ea s1).advance31 b31).setAfterIcread true)).finish)

/-- All storage accesses complete: what dcbst sent to main storage has reached it, the third step of 20_memory.md
R133. With one processor in order nothing else changes (R122). -/
def State.syncStorage (s : State) : State := s.markOld (fun _ => true) .pushed .synced

/-- sync (R440). -/
def execSync (b31 : Bool) (s : State) : Out := .next (s.syncStorage.advance31 b31)

/-- eieio (R441): behaves as sync (90_conflicts.md C10). -/
def execEieio (b31 : Bool) (s : State) : Out := .next (s.syncStorage.advance31 b31)

/-- isync (R442): context synchronizing; the prefetch queue is discarded, the last step of 20_memory.md R133. -/
def execIsync (b31 : Bool) (s : State) : Out := .next (s.contextSync.advance31 b31)

end Sys2Proof.Machine
end

