-- ==== Sys2Proof/Machine/Compare.lean ====
section
/-! DEFINITION. The compare and condition-register instructions (43_compare_cr.md). -/

namespace Sys2Proof.Machine

/-- cmp (R290). -/
def execCmp (bf : BitVec 3) (ra rb : Reg) (b31 : Bool) (s : State) : Out :=
  .next ((s.setCrField bf (compareSigned (s.reg ra) (s.reg rb) s.so)).advance31 b31)

/-- cmpi (R291). -/
def execCmpi (bf : BitVec 3) (ra : Reg) (im : BitVec 16) (s : State) : Out :=
  .next ((s.setCrField bf (compareSigned (s.reg ra) (immSigned im) s.so)).advance)

/-- cmpl (R292). -/
def execCmpl (bf : BitVec 3) (ra rb : Reg) (b31 : Bool) (s : State) : Out :=
  .next ((s.setCrField bf (compareUnsigned (s.reg ra) (s.reg rb) s.so)).advance31 b31)

/-- cmpli (R293). -/
def execCmpli (bf : BitVec 3) (ra : Reg) (im : BitVec 16) (s : State) : Out :=
  .next ((s.setCrField bf (compareUnsigned (s.reg ra) (immUnsigned im) s.so)).advance)

/-- Write one CR bit and go on (R308). -/
def writeCrBit (bt : BitVec 5) (v : Bool) (s : State) : Out := .next ((s.setCr (setBit s.cr bt.toNat v)).advance)

/-- crand (R294). -/
def execCrand (bt ba bb : BitVec 5) (s : State) : Out := writeCrBit bt (s.crBit ba && s.crBit bb) s

/-- crandc (R295). -/
def execCrandc (bt ba bb : BitVec 5) (s : State) : Out := writeCrBit bt (s.crBit ba && !s.crBit bb) s

/-- creqv (R296). -/
def execCreqv (bt ba bb : BitVec 5) (s : State) : Out := writeCrBit bt (!(s.crBit ba ^^ s.crBit bb)) s

/-- crnand (R297). -/
def execCrnand (bt ba bb : BitVec 5) (s : State) : Out := writeCrBit bt (!(s.crBit ba && s.crBit bb)) s

/-- crnor (R298). -/
def execCrnor (bt ba bb : BitVec 5) (s : State) : Out := writeCrBit bt (!(s.crBit ba || s.crBit bb)) s

/-- cror (R299). -/
def execCror (bt ba bb : BitVec 5) (s : State) : Out := writeCrBit bt (s.crBit ba || s.crBit bb) s

/-- crorc (R300). -/
def execCrorc (bt ba bb : BitVec 5) (s : State) : Out := writeCrBit bt (s.crBit ba || !s.crBit bb) s

/-- crxor (R301). -/
def execCrxor (bt ba bb : BitVec 5) (s : State) : Out := writeCrBit bt (s.crBit ba ^^ s.crBit bb) s

/-- mcrf (R302). -/
def execMcrf (bf bfa : BitVec 3) (s : State) : Out := .next ((s.setCrField bf (s.crField bfa)).advance)

/-- mcrxr (R303): the four bits XER[0:3] move and are cleared (90_conflicts.md C3). -/
def execMcrxr (bf : BitVec 3) (b31 : Bool) (s : State) : Out :=
  .next (((s.setCrField bf (nibble s.xer 0)).setXer (setNibble s.xer 0 0#4)).advance31 b31)

/-- mfcr (R304). -/
def execMfcr (rt : Reg) (b31 : Bool) (s : State) : Out := .next ((s.setReg rt s.cr).advance31 b31)

/-- mtcrf (R305). -/
def execMtcrf (fxm : BitVec 8) (rs : Reg) (b31 : Bool) (s : State) : Out :=
  let m := fxmMask fxm
  .next ((s.setCr ((s.reg rs &&& m) ||| (s.cr &&& ~~~m))).advance31 b31)

end Sys2Proof.Machine
end

