-- ==== Sys2Proof/Machine/LoadStore.lean ====
section
/-! DEFINITION. The load and store instructions (45_load_store.md). -/

namespace Sys2Proof.Machine

/-- A load: read `n` bytes at EA, widen them, write RT (45_load_store.md R340). -/
def loadWith (n : Nat) (widen : Word → Word) (rt : Reg) (ea : Word) (b31 : Bool) (s : State) : Out :=
  ((memRead ea n s).bind fun w s1 => .ok () ((s1.setReg rt (widen w)).advance31 b31)).finish

/-- A load with update: EA is placed in RA as well (R341). The forms its page forbids are refused (R342). -/
def loadUpdateWith (n : Nat) (widen : Word → Word) (rt ra : Reg) (ea : Word) (b31 : Bool) (s : State) : Out :=
  if loadUpdateOk rt ra then
    ((memRead ea n s).bind fun w s1 => .ok () (((s1.setReg ra ea).setReg rt (widen w)).advance31 b31)).finish
  else .refused .invalidUpdateForm

/-- A store: the `n` low bytes of a value go to EA (R340). -/
def storeWith (n : Nat) (v ea : Word) (b31 : Bool) (s : State) : Out :=
  ((memWrite ea n v s).bind fun _ s1 => .ok () (s1.advance31 b31)).finish

/-- A store with update: the store precedes the write of RA (R341). RA = 0 is refused (R342). -/
def storeUpdateWith (n : Nat) (v : Word) (ra : Reg) (ea : Word) (b31 : Bool) (s : State) : Out :=
  if storeUpdateOk ra then
    ((memWrite ea n v s).bind fun _ s1 => .ok () ((s1.setReg ra ea).advance31 b31)).finish
  else .refused .invalidUpdateForm

/-- lbz (R350). -/
def execLbz (rt : Reg) (d : BitVec 16) (ra : Reg) (s : State) : Out :=
  loadWith 1 id rt (s.eaD ra d) false s

/-- lbzu (R351). -/
def execLbzu (rt : Reg) (d : BitVec 16) (ra : Reg) (s : State) : Out :=
  loadUpdateWith 1 id rt ra (s.eaD ra d) false s

/-- lbzux (R352). -/
def execLbzux (rt ra rb : Reg) (b31 : Bool) (s : State) : Out :=
  loadUpdateWith 1 id rt ra (s.eaX ra rb) b31 s

/-- lbzx (R353). -/
def execLbzx (rt ra rb : Reg) (b31 : Bool) (s : State) : Out :=
  loadWith 1 id rt (s.eaX ra rb) b31 s

/-- lha (R354). -/
def execLha (rt : Reg) (d : BitVec 16) (ra : Reg) (s : State) : Out :=
  loadWith 2 signHalf rt (s.eaD ra d) false s

/-- lhau (R355). -/
def execLhau (rt : Reg) (d : BitVec 16) (ra : Reg) (s : State) : Out :=
  loadUpdateWith 2 signHalf rt ra (s.eaD ra d) false s

/-- lhaux (R356). -/
def execLhaux (rt ra rb : Reg) (b31 : Bool) (s : State) : Out :=
  loadUpdateWith 2 signHalf rt ra (s.eaX ra rb) b31 s

/-- lhax (R357). -/
def execLhax (rt ra rb : Reg) (b31 : Bool) (s : State) : Out :=
  loadWith 2 signHalf rt (s.eaX ra rb) b31 s

/-- lhbrx (R358). -/
def execLhbrx (rt ra rb : Reg) (b31 : Bool) (s : State) : Out :=
  loadWith 2 swapHalf rt (s.eaX ra rb) b31 s

/-- lhz (R359). -/
def execLhz (rt : Reg) (d : BitVec 16) (ra : Reg) (s : State) : Out :=
  loadWith 2 id rt (s.eaD ra d) false s

/-- lhzu (R360). -/
def execLhzu (rt : Reg) (d : BitVec 16) (ra : Reg) (s : State) : Out :=
  loadUpdateWith 2 id rt ra (s.eaD ra d) false s

/-- lhzux (R361). -/
def execLhzux (rt ra rb : Reg) (b31 : Bool) (s : State) : Out :=
  loadUpdateWith 2 id rt ra (s.eaX ra rb) b31 s

/-- lhzx (R362). -/
def execLhzx (rt ra rb : Reg) (b31 : Bool) (s : State) : Out :=
  loadWith 2 id rt (s.eaX ra rb) b31 s

/-- lwbrx (R363). -/
def execLwbrx (rt ra rb : Reg) (b31 : Bool) (s : State) : Out :=
  loadWith 4 swapWord rt (s.eaX ra rb) b31 s

/-- lwz (R364). -/
def execLwz (rt : Reg) (d : BitVec 16) (ra : Reg) (s : State) : Out :=
  loadWith 4 id rt (s.eaD ra d) false s

/-- lwzu (R365). -/
def execLwzu (rt : Reg) (d : BitVec 16) (ra : Reg) (s : State) : Out :=
  loadUpdateWith 4 id rt ra (s.eaD ra d) false s

/-- lwzux (R366). -/
def execLwzux (rt ra rb : Reg) (b31 : Bool) (s : State) : Out :=
  loadUpdateWith 4 id rt ra (s.eaX ra rb) b31 s

/-- lwzx (R367). -/
def execLwzx (rt ra rb : Reg) (b31 : Bool) (s : State) : Out :=
  loadWith 4 id rt (s.eaX ra rb) b31 s

/-- stb (R370). -/
def execStb (rs : Reg) (d : BitVec 16) (ra : Reg) (s : State) : Out :=
  storeWith 1 (s.reg rs) (s.eaD ra d) false s

/-- stbu (R371). -/
def execStbu (rs : Reg) (d : BitVec 16) (ra : Reg) (s : State) : Out :=
  storeUpdateWith 1 (s.reg rs) ra (s.eaD ra d) false s

/-- stbux (R372). -/
def execStbux (rs ra rb : Reg) (b31 : Bool) (s : State) : Out :=
  storeUpdateWith 1 (s.reg rs) ra (s.eaX ra rb) b31 s

/-- stbx (R373). -/
def execStbx (rs ra rb : Reg) (b31 : Bool) (s : State) : Out :=
  storeWith 1 (s.reg rs) (s.eaX ra rb) b31 s

/-- sth (R374). -/
def execSth (rs : Reg) (d : BitVec 16) (ra : Reg) (s : State) : Out :=
  storeWith 2 (s.reg rs) (s.eaD ra d) false s

/-- sthbrx (R375). -/
def execSthbrx (rs ra rb : Reg) (b31 : Bool) (s : State) : Out :=
  storeWith 2 (swapHalf (s.reg rs)) (s.eaX ra rb) b31 s

/-- sthu (R376). -/
def execSthu (rs : Reg) (d : BitVec 16) (ra : Reg) (s : State) : Out :=
  storeUpdateWith 2 (s.reg rs) ra (s.eaD ra d) false s

/-- sthux (R377). -/
def execSthux (rs ra rb : Reg) (b31 : Bool) (s : State) : Out :=
  storeUpdateWith 2 (s.reg rs) ra (s.eaX ra rb) b31 s

/-- sthx (R378). -/
def execSthx (rs ra rb : Reg) (b31 : Bool) (s : State) : Out :=
  storeWith 2 (s.reg rs) (s.eaX ra rb) b31 s

/-- stw (R379). -/
def execStw (rs : Reg) (d : BitVec 16) (ra : Reg) (s : State) : Out :=
  storeWith 4 (s.reg rs) (s.eaD ra d) false s

/-- stwbrx (R380). -/
def execStwbrx (rs ra rb : Reg) (b31 : Bool) (s : State) : Out :=
  storeWith 4 (swapWord (s.reg rs)) (s.eaX ra rb) b31 s

/-- stwu (R381). -/
def execStwu (rs : Reg) (d : BitVec 16) (ra : Reg) (s : State) : Out :=
  storeUpdateWith 4 (s.reg rs) ra (s.eaD ra d) false s

/-- stwux (R382). -/
def execStwux (rs ra rb : Reg) (b31 : Bool) (s : State) : Out :=
  storeUpdateWith 4 (s.reg rs) ra (s.eaX ra rb) b31 s

/-- stwx (R383). -/
def execStwx (rs ra rb : Reg) (b31 : Bool) (s : State) : Out :=
  storeWith 4 (s.reg rs) (s.eaX ra rb) b31 s

/-- lwarx (R386): a load that sets RESERVE when it completes. -/
def execLwarx (rt ra rb : Reg) (b31 : Bool) (s : State) : Out :=
  ((memRead (s.eaX ra rb) 4 s).bind fun w s1 =>
    .ok () (((s1.setReserve true).setReg rt w).advance31 b31)).finish

/-- CR field 0 of stwcx.: LT and GT 0, EQ the reservation at the start, SO from XER (R388). -/
def State.recordReserve (s : State) (held : Bool) : State := s.setCrField 0 (nibbleOf false false held s.so)

/-- stwcx. (R388): the alignment test comes first whatever RESERVE is (20_memory.md R109); translation, protection
and the store only happen when RESERVE is 1. -/
def execStwcxRc (rs ra rb : Reg) (s : State) : Out :=
  let ea := s.eaX ra rb
  if s.reserve then
    ((memWrite ea 4 (s.reg rs) s).bind fun _ s1 =>
      .ok () (((s1.setReserve false).recordReserve true).advance)).finish
  else if !aligned ea 4 then raise (.alignment ea) s
  else .next ((s.recordReserve false).advance)

end Sys2Proof.Machine
end

