-- ==== Sys2Proof/Machine/Logical.lean ====
section
/-! DEFINITION. The logical, sign-extension and count instructions (41_logical.md). The target is RA (R240). -/

namespace Sys2Proof.Machine

/-- Write RA, record if asked, go on (41_logical.md R240). -/
def writeLogical (ra : Reg) (r : Word) (rc : Bool) (s : State) : Out :=
  .next (((s.setReg ra r).record rc r).advance)

/-- and (R241). -/
def execAnd (ra rs rb : Reg) (rc : Bool) (s : State) : Out := writeLogical ra (s.reg rs &&& s.reg rb) rc s

/-- andc (R242). -/
def execAndc (ra rs rb : Reg) (rc : Bool) (s : State) : Out := writeLogical ra (s.reg rs &&& ~~~(s.reg rb)) rc s

/-- andi. (R243): always records. -/
def execAndiRc (ra rs : Reg) (im : BitVec 16) (s : State) : Out :=
  writeLogical ra (s.reg rs &&& immUnsigned im) true s

/-- andis. (R244): always records. -/
def execAndisRc (ra rs : Reg) (im : BitVec 16) (s : State) : Out :=
  writeLogical ra (s.reg rs &&& immShifted im) true s

/-- How many bits from bit `n` on are 0 before the first 1, for `fuel` bits (R245). -/
def leadingZeros (w : Word) : Nat → Nat → Nat
  | 0, _ => 0
  | fuel + 1, n => if bit w n then 0 else 1 + leadingZeros w fuel (n + 1)

/-- cntlzw (R245). -/
def execCntlzw (ra rs : Reg) (rc : Bool) (s : State) : Out :=
  writeLogical ra (BitVec.ofNat 32 (leadingZeros (s.reg rs) 32 0)) rc s

/-- eqv (R246). -/
def execEqv (ra rs rb : Reg) (rc : Bool) (s : State) : Out := writeLogical ra (~~~(s.reg rs ^^^ s.reg rb)) rc s

/-- extsb (R247). -/
def execExtsb (ra rs : Reg) (rc : Bool) (s : State) : Out := writeLogical ra (signByte (s.reg rs)) rc s

/-- extsh (R248). -/
def execExtsh (ra rs : Reg) (rc : Bool) (s : State) : Out := writeLogical ra (signHalf (s.reg rs)) rc s

/-- nand (R249). -/
def execNand (ra rs rb : Reg) (rc : Bool) (s : State) : Out := writeLogical ra (~~~(s.reg rs &&& s.reg rb)) rc s

/-- nor (R250). -/
def execNor (ra rs rb : Reg) (rc : Bool) (s : State) : Out := writeLogical ra (~~~(s.reg rs ||| s.reg rb)) rc s

/-- or (R251). -/
def execOr (ra rs rb : Reg) (rc : Bool) (s : State) : Out := writeLogical ra (s.reg rs ||| s.reg rb) rc s

/-- orc (R252). -/
def execOrc (ra rs rb : Reg) (rc : Bool) (s : State) : Out := writeLogical ra (s.reg rs ||| ~~~(s.reg rb)) rc s

/-- ori (R253). -/
def execOri (ra rs : Reg) (im : BitVec 16) (s : State) : Out :=
  writeLogical ra (s.reg rs ||| immUnsigned im) false s

/-- oris (R254). -/
def execOris (ra rs : Reg) (im : BitVec 16) (s : State) : Out :=
  writeLogical ra (s.reg rs ||| immShifted im) false s

/-- xor (R255). -/
def execXor (ra rs rb : Reg) (rc : Bool) (s : State) : Out := writeLogical ra (s.reg rs ^^^ s.reg rb) rc s

/-- xori (R256). -/
def execXori (ra rs : Reg) (im : BitVec 16) (s : State) : Out :=
  writeLogical ra (s.reg rs ^^^ immUnsigned im) false s

/-- xoris (R257). -/
def execXoris (ra rs : Reg) (im : BitVec 16) (s : State) : Out :=
  writeLogical ra (s.reg rs ^^^ immShifted im) false s

end Sys2Proof.Machine
end

