-- ==== Sys2Proof/Machine/Multiple.lean ====
section
/-! DEFINITION. The load and store multiple and string instructions (46_multiple_string.md). The accesses are made
one by one; what the ones before an exception did stays (R407). -/

namespace Sys2Proof.Machine

/-- The registers from `r` up to GPR(31), `k` of them (R401). -/
def regsFrom (r : Reg) (k : Nat) : List Reg := (List.range k).map (fun i => r + BitVec.ofNat 5 i)

/-- How many registers RT to GPR(31) are. -/
def multipleCount (r : Reg) : Nat := 32 - r.toNat

/-- The loop of lmw: each register gets the next word, but RA, unless it is GPR(31), is passed over and its word is
not read (R401). -/
def loadWords (ra : Reg) : List Reg → Word → State → Result Unit
  | [], _, s => .ok () s
  | r :: rest, ea, s =>
    if r ≠ ra ∨ r = 31#5 then
      (memRead ea 4 s).bind fun w s1 => loadWords ra rest (ea + 4#32) (s1.setReg r w)
    else loadWords ra rest (ea + 4#32) s

/-- The loop of stmw (R402). -/
def storeWords : List Reg → Word → State → Result Unit
  | [], _, s => .ok () s
  | r :: rest, ea, s => (memWrite ea 4 (s.reg r) s).bind fun _ s1 => storeWords rest (ea + 4#32) s1

/-- The alignment test of lmw and stmw is made once, on the first EA (R407). -/
def alignedThen (ea : Word) (n : Nat) (s : State) (k : Result Unit) : Result Unit :=
  if !aligned ea n then .exc (.alignment ea) s else k

/-- lmw (R401). -/
def execLmw (rt : Reg) (d : BitVec 16) (ra : Reg) (s : State) : Out :=
  let ea := s.eaD ra d
  ((alignedThen ea 4 s (loadWords ra (regsFrom rt (multipleCount rt)) ea s)).bind fun _ s1 =>
    .ok () s1.advance).finish

/-- stmw (R402). -/
def execStmw (rs : Reg) (d : BitVec 16) (ra : Reg) (s : State) : Out :=
  let ea := s.eaD ra d
  ((alignedThen ea 4 s (storeWords (regsFrom rs (multipleCount rs)) ea s)).bind fun _ s1 =>
    .ok () s1.advance).finish

/-- The byte count of an immediate string: 0 means 32 (R403, R405). -/
def immediateCount (nb : BitVec 5) : Nat := if nb = 0 then 32 else nb.toNat

/-- The register that byte `k` of a string starting at `r` belongs to: four bytes a register, from GPR(31) on to
GPR(0) (R403). -/
def stringReg (r : Reg) (k : Nat) : Reg := r + BitVec.ofNat 5 (k / 4)

/-- RFINAL: the register of the last byte (R403, R404). -/
def stringFinal (r : Reg) (count : Nat) : Reg := stringReg r (count - 1)

/-- Byte `k` of a string load. A register that is skipped loses its byte; the first byte of another one clears it
(R403). -/
def loadStringByte (rt : Reg) (skip : Reg → Bool) (k : Nat) (ea : Word) (s : State) : Result Unit :=
  let r := stringReg rt k
  if skip r then .ok () s
  else
    let s1 := if k % 4 = 0 then s.setReg r 0#32 else s
    (memRead ea 1 s1).bind fun w s2 => .ok () (s2.setReg r (setByteOf (s2.reg r) (k % 4) (w.setWidth 8)))

/-- The loop of lswi and lswx over the byte numbers that are left. -/
def loadString (rt : Reg) (skip : Reg → Bool) (ea : Word) : List Nat → State → Result Unit
  | [], s => .ok () s
  | k :: rest, s =>
    (loadStringByte rt skip k (ea + BitVec.ofNat 32 k) s).bind fun _ s1 => loadString rt skip ea rest s1

/-- The loop of stswi and stswx over the byte numbers that are left (R405, R406). -/
def storeString (rs : Reg) (ea : Word) : List Nat → State → Result Unit
  | [], s => .ok () s
  | k :: rest, s =>
    (memWrite (ea + BitVec.ofNat 32 k) 1 ((byteOf (s.reg (stringReg rs k)) (k % 4)).setWidth 32) s).bind fun _ s1 =>
      storeString rs ea rest s1

/-- lswi (R403): RA is passed over unless it is RFINAL. -/
def execLswi (rt ra : Reg) (nb : BitVec 5) (b31 : Bool) (s : State) : Out :=
  let count := immediateCount nb
  let final := stringFinal rt count
  ((loadString rt (fun r => r == ra && r != final) (s.base ra) (List.range count) s).bind fun _ s1 =>
    .ok () (s1.advance31 b31)).finish

/-- The machine check of a zero-length string: the address passes protection, is cacheable, misses in the data cache
and is absent. No other exception is raised (R408). The line fill request that R408 says the miss results in leaves
no line behind and changes no LRU where the address answers: DESIGN CHOICE, unsafe (log entry 42). -/
def zeroLengthCheck (ea : Word) (store : Bool) (s : State) : Result Unit :=
  match dataPlace .data ea store s with
  | .ok p s1 =>
    if p.cacheable && (s1.dhit p.real).isNone && s1.touches .absent p.real 1 then .stop .machineCheck else .ok () s1
  | .exc _ s1 => .ok () s1
  | .stop f => .stop f
  | .refuse r => .refuse r

/-- lswx (R404, R408): with a count of 0, RT is drawn. RA and RB are passed over unless they are RFINAL. -/
def execLswx (rt ra rb : Reg) (b31 : Bool) (s : State) : Out :=
  let ea := s.eaX ra rb
  let count := xerTBC s.xer
  if count = 0 then
    ((zeroLengthCheck ea false s).bind fun _ s1 => .ok () (((s1.setReg rt s1.undef).drawn).advance31 b31)).finish
  else
    let final := stringFinal rt count
    ((loadString rt (fun r => (r == ra || r == rb) && r != final) ea (List.range count) s).bind fun _ s1 =>
      .ok () (s1.advance31 b31)).finish

/-- stswi (R405). -/
def execStswi (rs ra : Reg) (nb : BitVec 5) (b31 : Bool) (s : State) : Out :=
  ((storeString rs (s.base ra) (List.range (immediateCount nb)) s).bind fun _ s1 =>
    .ok () (s1.advance31 b31)).finish

/-- stswx (R406, R408): with a count of 0 nothing is stored. -/
def execStswx (rs ra rb : Reg) (b31 : Bool) (s : State) : Out :=
  let ea := s.eaX ra rb
  let count := xerTBC s.xer
  let body := if count = 0 then zeroLengthCheck ea true s else storeString rs ea (List.range count) s
  (body.bind fun _ s1 => .ok () (s1.advance31 b31)).finish

end Sys2Proof.Machine
end

