-- ==== Sys2Proof/Machine/Rotate.lean ====
section
/-! DEFINITION. The rotate and shift instructions (42_rotate_shift.md). -/

namespace Sys2Proof.Machine

/-- Write RA, record if asked, go on (42_rotate_shift.md R272). -/
def writeRotate (ra : Reg) (r : Word) (rc : Bool) (s : State) : Out :=
  .next (((s.setReg ra r).record rc r).advance)

/-- rlwimi (R273): the rotated data inserted under the mask. -/
def execRlwimi (ra rs : Reg) (sh mb me : BitVec 5) (rc : Bool) (s : State) : Out :=
  let r := rotl32 (s.reg rs) sh.toNat
  let m := maskBits mb.toNat me.toNat
  writeRotate ra ((r &&& m) ||| (s.reg ra &&& ~~~m)) rc s

/-- rlwinm (R274). -/
def execRlwinm (ra rs : Reg) (sh mb me : BitVec 5) (rc : Bool) (s : State) : Out :=
  writeRotate ra (rotl32 (s.reg rs) sh.toNat &&& maskBits mb.toNat me.toNat) rc s

/-- The shift amount of a register: bits 27:31 (R275 to R278). -/
def shiftCount (w : Word) : Nat := (w.extractLsb' 0 5).toNat

/-- rlwnm (R275). -/
def execRlwnm (ra rs rb : Reg) (mb me : BitVec 5) (rc : Bool) (s : State) : Out :=
  writeRotate ra (rotl32 (s.reg rs) (shiftCount (s.reg rb)) &&& maskBits mb.toNat me.toNat) rc s

/-- The mask of a right shift by a register: 0 when bit 26 is 1 (R277, R278). -/
def rightMask (b : Word) : Word := if bit b 26 then 0#32 else maskBits (shiftCount b) 31

/-- slw (R276): zero when bit 26 of RB is 1. -/
def execSlw (ra rs rb : Reg) (rc : Bool) (s : State) : Out :=
  let n := shiftCount (s.reg rb)
  let m := if bit (s.reg rb) 26 then 0#32 else maskBits 0 (31 - n)
  writeRotate ra (rotl32 (s.reg rs) n &&& m) rc s

/-- srw (R277). -/
def execSrw (ra rs rb : Reg) (rc : Bool) (s : State) : Out :=
  writeRotate ra (rotl32 (s.reg rs) (32 - shiftCount (s.reg rb)) &&& rightMask (s.reg rb)) rc s

/-- An algebraic right shift: the source rotated, the mask, and CA when a negative source loses a 1 bit
(R278, R279). -/
def shiftAlgebraic (ra rs : Reg) (n : Nat) (m : Word) (rc : Bool) (s : State) : Out :=
  let x := s.reg rs
  let r := rotl32 x (32 - n)
  let sign : Word := if bit x 0 then BitVec.allOnes 32 else 0#32
  let v := (r &&& m) ||| (sign &&& ~~~m)
  .next ((((s.setReg ra v).setCa (bit x 0 && (r &&& ~~~m) != 0#32)).record rc v).advance)

/-- sraw (R278). -/
def execSraw (ra rs rb : Reg) (rc : Bool) (s : State) : Out :=
  shiftAlgebraic ra rs (shiftCount (s.reg rb)) (rightMask (s.reg rb)) rc s

/-- srawi (R279). -/
def execSrawi (ra rs : Reg) (sh : BitVec 5) (rc : Bool) (s : State) : Out :=
  shiftAlgebraic ra rs sh.toNat (maskBits sh.toNat 31) rc s

end Sys2Proof.Machine
end

