-- ==== Sys2Proof/Machine/System.lean ====
section
/-! DEFINITION. System call, interrupt return, MSR, special purpose and device control registers, traps and the TLB
(48_system.md). -/

namespace Sys2Proof.Machine

/-- sc (R450). -/
def execSc (s : State) : Out := raise .systemCall s

/-- rfi (R451). -/
def execRfi (s : State) : Out := privileged s (returnFrom s.spr.srr0 s.spr.srr1 s)

/-- rfci (R452). -/
def execRfci (s : State) : Out := privileged s (returnFrom s.spr.srr2 s.spr.srr3 s)

/-- mfmsr (R455). -/
def execMfmsr (rt : Reg) (b31 : Bool) (s : State) : Out :=
  privileged s (.next ((s.setReg rt s.msr).advance31 b31))

/-- Write the whole MSR; a value with LE = 1 is refused (R454, 20_memory.md R106). -/
def writeMsr (v : Word) (b31 : Bool) (s : State) : Out :=
  if bit v msrLE then .refused .littleEndian else .next ((s.setMsr v).advance31 b31)

/-- mtmsr (R456). -/
def execMtmsr (rs : Reg) (b31 : Bool) (s : State) : Out := privileged s (writeMsr (s.reg rs) b31 s)

/-- Write MSR.EE alone (R457, R458). -/
def writeEe (e b31 : Bool) (s : State) : Out :=
  privileged s (.next ((s.setMsr (setBit s.msr msrEE e)).advance31 b31))

/-- wrtee (R457). -/
def execWrtee (rs : Reg) (b31 : Bool) (s : State) : Out := writeEe (bit (s.reg rs) 16) b31 s

/-- wrteei (R458). -/
def execWrteei (e b31 : Bool) (s : State) : Out := writeEe e b31 s

/-- The move to or from a register whose number has the privilege bit is privileged (10_state.md R70). -/
def sprGuard (sprn : BitVec 10) (s : State) (k : Out) : Out := if sprPrivileged sprn then privileged s k else k

/-- The registers whose reads give the running counters of `TIME_BASE`: free values (R460, 60_exceptions.md R540). -/
def sprRunning : Spr → Bool
  | .tbhi | .tblo | .tbhu | .tblu | .pit => true
  | .xer | .lr | .ctr | .srr0 | .srr1 | .srr2 | .srr3 | .sprg0 | .sprg1 | .sprg2 | .sprg3 | .pvr | .zpr | .pid
  | .sgr | .dcwr | .icdbdr | .esr | .dear | .evpr | .cdbcr | .tsr | .tcr | .dbsr | .dbcr | .iac1 | .iac2 | .dac1
  | .dac2 | .dccr | .iccr | .pbl1 | .pbu1 | .pbl2 | .pbu2 => false

/-- mfspr from a register: a running counter, and ICDBDR right after icread, give a free value (R460,
70_reset_and_hazards.md R574). -/
def readSpr (r : Spr) (rt : Reg) (s : State) : State :=
  if sprRunning r || (r == .icdbdr && s.afterIcread) then (s.setReg rt s.undef).drawn
  else s.setReg rt (s.sprVal r)

/-- mfspr (R460). -/
def execMfspr (rt : Reg) (sprn : BitVec 10) (b31 : Bool) (s : State) : Out :=
  sprGuard sprn s
    (match sprOfNumber sprn with
     | none => .refused .invalidSpr
     | some r => .next ((readSpr r rt s).advance31 b31))

/-- mtspr to a register: the value is stored, but a 1 clears its bit of TSR or DBSR (R461; the default of TIME_BASE,
which stores TSR plainly, is not taken: log entry 25). -/
def writeSpr (r : Spr) (v : Word) (s : State) : State :=
  match r with
  | .tsr => s.setSprVal .tsr (s.spr.tsr &&& ~~~v)
  | .dbsr => s.setSprVal .dbsr (s.spr.dbsr &&& ~~~v)
  | other => s.setSprVal other v

/-- mtspr (R461). -/
def execMtspr (sprn : BitVec 10) (rs : Reg) (b31 : Bool) (s : State) : Out :=
  sprGuard sprn s
    (match sprOfNumber sprn with
     | none => .refused .invalidSpr
     | some r => if sprWritable r then .next ((writeSpr r (s.reg rs) s).advance31 b31) else .refused .invalidSpr)

/-- mfdcr (R462). -/
def execMfdcr (rt : Reg) (dcrn : BitVec 10) (b31 : Bool) (s : State) : Out :=
  privileged s
    (match dcrOfNumber dcrn with
     | none => .refused .invalidDcr
     | some d => .next ((s.setReg rt (s.dcrVal d)).advance31 b31))

/-- mtdcr (R463). -/
def execMtdcr (dcrn : BitVec 10) (rs : Reg) (b31 : Bool) (s : State) : Out :=
  privileged s
    (match dcrOfNumber dcrn with
     | none => .refused .invalidDcr
     | some d => .next ((s.setDcrVal d (s.reg rs)).advance31 b31))

/-- Set a bit of DBSR. -/
def State.setDbsrBit (s : State) (b : Nat) : State := s.setSpr { s.spr with dbsr := setBit s.spr.dbsr b true }

/-- Case 2 of a trap: DBSR reports the event, and the processor stops at the instruction (R471). -/
def debugStop (s : State) : Out :=
  let s1 := s.setDbsrBit dbsrTIE
  let s2 := if bit s.spr.dbcr dbcrIDM && !s.msrBit msrDE then s1.setDbsrBit dbsrIDE else s1
  .next ((s2.setDebugStopped true).setAfterIcread false)

/-- TRAP, its four cases by DBCR and MSR.DE (R471). -/
def takeTrap (s : State) : Out :=
  let edm := bit s.spr.dbcr dbcrEDM
  let idm := bit s.spr.dbcr dbcrIDM
  if !(bit s.spr.dbcr dbcrTDE) || (!edm && !idm) then raise .trap s
  else if edm then debugStop s
  else if s.msrBit msrDE then raise .debug (s.setDbsrBit dbsrTIE)
  else raise .trap ((s.setDbsrBit dbsrTIE).setDbsrBit dbsrIDE)

/-- tw (R472): bit 31 draws CR field 0 when no trap is taken. -/
def execTw (tcond : BitVec 5) (ra rb : Reg) (b31 : Bool) (s : State) : Out :=
  if trapCond tcond (s.reg ra) (s.reg rb) then takeTrap s else .next (s.advance31 b31)

/-- twi (R473). -/
def execTwi (tcond : BitVec 5) (ra : Reg) (im : BitVec 16) (s : State) : Out :=
  if trapCond tcond (s.reg ra) (immSigned im) then takeTrap s else .next s.advance

/-- tlbia (R474): every V is 0, the other fields stay. -/
def execTlbia (s : State) : Out :=
  privileged s (.next ((s.setTlb (s.tlb.map (fun e => { e with v := false }))).advance))

/-- The index bits of a TLB register operand: bits 26:31 (R475, R476). -/
def tlbIndex (w : Word) : BitVec 6 := w.extractLsb' 0 6

/-- The index register is above 63: bits 0:25 are not 0 (R475, R476). -/
def tlbIndexUndefined (w : Word) : Bool := w.extractLsb' 6 26 != 0#26

/-- The TLBHI image of an entry (10_state.md R77). -/
def TlbEntry.hi (e : TlbEntry) : Word := e.epn ++ e.size ++ BitVec.ofBool e.v ++ 0#6

/-- The TLBLO image of an entry (10_state.md R77). -/
def TlbEntry.lo (e : TlbEntry) : Word :=
  e.rpn ++ BitVec.ofBool e.ex ++ BitVec.ofBool e.wr ++ e.zsel ++ BitVec.ofBool e.w ++ BitVec.ofBool e.i ++
    BitVec.ofBool e.m ++ BitVec.ofBool e.g

/-- The entry with its TLBHI part replaced, TID from PID (R476). -/
def TlbEntry.withHi (e : TlbEntry) (v : Word) (tid : BitVec 8) : TlbEntry :=
  { e with epn := v.extractLsb' 10 22, size := v.extractLsb' 7 3, v := bit v 25, tid := tid }

/-- The entry with its TLBLO part replaced (R476). -/
def TlbEntry.withLo (e : TlbEntry) (v : Word) : TlbEntry :=
  { e with rpn := v.extractLsb' 10 22, ex := bit v 22, wr := bit v 23, zsel := v.extractLsb' 4 4,
           w := bit v 28, i := bit v 29, m := bit v 30, g := bit v 31 }

/-- Write PID. -/
def State.setPid (s : State) (v : Word) : State := s.setSpr { s.spr with pid := v }

/-- What tlbre writes: a part of the entry in RT, and for TLBHI the TID in PID; drawn values when the index is
undefined (R475). -/
def tlbRead (rt ra : Reg) (hi : Bool) (s : State) : State :=
  let x := s.reg ra
  let e := s.tlbEntry (tlbIndex x)
  if tlbIndexUndefined x then
    let s1 := (s.setReg rt s.undef).drawn
    if hi then (s1.setPid ((s1.undef.setWidth 8).setWidth 32)).drawn else s1
  else if hi then (s.setReg rt e.hi).setPid (e.tid.setWidth 32)
  else s.setReg rt e.lo

/-- tlbre (R475): RA = 0 names GPR(0). -/
def execTlbre (rt ra : Reg) (ws : BitVec 5) (b31 : Bool) (s : State) : Out :=
  privileged s
    (if wsOk ws then .next ((tlbRead rt ra (ws == 0) s).advance31 b31) else .refused .invalidWs)

/-- tlbwe (R476). -/
def execTlbwe (rs ra : Reg) (ws : BitVec 5) (b31 : Bool) (s : State) : Out :=
  let x := s.reg ra
  let e := s.tlbEntry (tlbIndex x)
  privileged s
    (if !wsOk ws then .refused .invalidWs
     else if tlbIndexUndefined x then .refused .tlbweIndexUndefined
     else
       let e' := if ws == 0 then e.withHi (s.reg rs) s.pidTag else e.withLo (s.reg rs)
       .next ((s.setTlbEntry (tlbIndex x) e').advance31 b31))

/-- tlbsx (R478): the index of a matching entry, any one of them, or a drawn value; CR field 0 says which. -/
def execTlbsx (rt ra rb : Reg) (rc : Bool) (s : State) : Out :=
  let (found, s1) := s.tlbPick (s.eaX ra rb)
  let s2 := match found with
    | some i => s1.setReg rt (i.setWidth 32)
    | none => (s1.setReg rt s1.undef).drawn
  let s3 := if rc then s2.setCrField 0 (nibbleOf false false found.isSome s.so) else s2
  privileged s (.next s3.advance)

/-- tlbsync (R477): no operation. -/
def execTlbsync (s : State) : Out := privileged s (.next s.advance)

end Sys2Proof.Machine
end

