-- ==== Sys2Proof/Machine/Dispatch.lean ====
section
/-! DEFINITION. The meaning of every instruction, one arm for each. -/

namespace Sys2Proof.Machine

def exec (i : Instr) (s : State) : Host.Outcome State Fault Refusal :=
  match i with
  -- 40_arithmetic.md
  | .add rt ra rb oe rc => Sys2Proof.Machine.execAdd rt ra rb oe rc s
  | .addc rt ra rb oe rc => Sys2Proof.Machine.execAddc rt ra rb oe rc s
  | .adde rt ra rb oe rc => Sys2Proof.Machine.execAdde rt ra rb oe rc s
  | .addi rt ra im => Sys2Proof.Machine.execAddi rt ra im s
  | .addic rt ra im => Sys2Proof.Machine.execAddic rt ra im s
  | .addicRc rt ra im => Sys2Proof.Machine.execAddicRc rt ra im s
  | .addis rt ra im => Sys2Proof.Machine.execAddis rt ra im s
  | .addme rt ra oe rc => Sys2Proof.Machine.execAddme rt ra oe rc s
  | .addze rt ra oe rc => Sys2Proof.Machine.execAddze rt ra oe rc s
  | .divw rt ra rb oe rc => Sys2Proof.Machine.execDivw rt ra rb oe rc s
  | .divwu rt ra rb oe rc => Sys2Proof.Machine.execDivwu rt ra rb oe rc s
  | .mulhw rt ra rb rc => Sys2Proof.Machine.execMulhw rt ra rb rc s
  | .mulhwu rt ra rb rc => Sys2Proof.Machine.execMulhwu rt ra rb rc s
  | .mulli rt ra im => Sys2Proof.Machine.execMulli rt ra im s
  | .mullw rt ra rb oe rc => Sys2Proof.Machine.execMullw rt ra rb oe rc s
  | .neg rt ra oe rc => Sys2Proof.Machine.execNeg rt ra oe rc s
  | .subf rt ra rb oe rc => Sys2Proof.Machine.execSubf rt ra rb oe rc s
  | .subfc rt ra rb oe rc => Sys2Proof.Machine.execSubfc rt ra rb oe rc s
  | .subfe rt ra rb oe rc => Sys2Proof.Machine.execSubfe rt ra rb oe rc s
  | .subfic rt ra im => Sys2Proof.Machine.execSubfic rt ra im s
  | .subfme rt ra oe rc => Sys2Proof.Machine.execSubfme rt ra oe rc s
  | .subfze rt ra oe rc => Sys2Proof.Machine.execSubfze rt ra oe rc s
  -- 41_logical.md
  | .and ra rs rb rc => Sys2Proof.Machine.execAnd ra rs rb rc s
  | .andc ra rs rb rc => Sys2Proof.Machine.execAndc ra rs rb rc s
  | .andiRc ra rs im => Sys2Proof.Machine.execAndiRc ra rs im s
  | .andisRc ra rs im => Sys2Proof.Machine.execAndisRc ra rs im s
  | .cntlzw ra rs rc => Sys2Proof.Machine.execCntlzw ra rs rc s
  | .eqv ra rs rb rc => Sys2Proof.Machine.execEqv ra rs rb rc s
  | .extsb ra rs rc => Sys2Proof.Machine.execExtsb ra rs rc s
  | .extsh ra rs rc => Sys2Proof.Machine.execExtsh ra rs rc s
  | .nand ra rs rb rc => Sys2Proof.Machine.execNand ra rs rb rc s
  | .nor ra rs rb rc => Sys2Proof.Machine.execNor ra rs rb rc s
  | .or ra rs rb rc => Sys2Proof.Machine.execOr ra rs rb rc s
  | .orc ra rs rb rc => Sys2Proof.Machine.execOrc ra rs rb rc s
  | .ori ra rs im => Sys2Proof.Machine.execOri ra rs im s
  | .oris ra rs im => Sys2Proof.Machine.execOris ra rs im s
  | .xor ra rs rb rc => Sys2Proof.Machine.execXor ra rs rb rc s
  | .xori ra rs im => Sys2Proof.Machine.execXori ra rs im s
  | .xoris ra rs im => Sys2Proof.Machine.execXoris ra rs im s
  -- 42_rotate_shift.md
  | .rlwimi ra rs sh mb me rc => Sys2Proof.Machine.execRlwimi ra rs sh mb me rc s
  | .rlwinm ra rs sh mb me rc => Sys2Proof.Machine.execRlwinm ra rs sh mb me rc s
  | .rlwnm ra rs rb mb me rc => Sys2Proof.Machine.execRlwnm ra rs rb mb me rc s
  | .slw ra rs rb rc => Sys2Proof.Machine.execSlw ra rs rb rc s
  | .sraw ra rs rb rc => Sys2Proof.Machine.execSraw ra rs rb rc s
  | .srawi ra rs sh rc => Sys2Proof.Machine.execSrawi ra rs sh rc s
  | .srw ra rs rb rc => Sys2Proof.Machine.execSrw ra rs rb rc s
  -- 43_compare_cr.md
  | .cmp bf ra rb b31 => Sys2Proof.Machine.execCmp bf ra rb b31 s
  | .cmpi bf ra im => Sys2Proof.Machine.execCmpi bf ra im s
  | .cmpl bf ra rb b31 => Sys2Proof.Machine.execCmpl bf ra rb b31 s
  | .cmpli bf ra im => Sys2Proof.Machine.execCmpli bf ra im s
  | .crand bt ba bb => Sys2Proof.Machine.execCrand bt ba bb s
  | .crandc bt ba bb => Sys2Proof.Machine.execCrandc bt ba bb s
  | .creqv bt ba bb => Sys2Proof.Machine.execCreqv bt ba bb s
  | .crnand bt ba bb => Sys2Proof.Machine.execCrnand bt ba bb s
  | .crnor bt ba bb => Sys2Proof.Machine.execCrnor bt ba bb s
  | .cror bt ba bb => Sys2Proof.Machine.execCror bt ba bb s
  | .crorc bt ba bb => Sys2Proof.Machine.execCrorc bt ba bb s
  | .crxor bt ba bb => Sys2Proof.Machine.execCrxor bt ba bb s
  | .mcrf bf bfa => Sys2Proof.Machine.execMcrf bf bfa s
  | .mcrxr bf b31 => Sys2Proof.Machine.execMcrxr bf b31 s
  | .mfcr rt b31 => Sys2Proof.Machine.execMfcr rt b31 s
  | .mtcrf fxm rs b31 => Sys2Proof.Machine.execMtcrf fxm rs b31 s
  -- 44_branch.md
  | .b li aa lk => Sys2Proof.Machine.execB li aa lk s
  | .bc bo bi bd aa lk => Sys2Proof.Machine.execBc bo bi bd aa lk s
  | .bcctr bo bi lk => Sys2Proof.Machine.execBcctr bo bi lk s
  | .bclr bo bi lk => Sys2Proof.Machine.execBclr bo bi lk s
  -- 45_load_store.md
  | .lbz rt d ra => Sys2Proof.Machine.execLbz rt d ra s
  | .lbzu rt d ra => Sys2Proof.Machine.execLbzu rt d ra s
  | .lbzux rt ra rb b31 => Sys2Proof.Machine.execLbzux rt ra rb b31 s
  | .lbzx rt ra rb b31 => Sys2Proof.Machine.execLbzx rt ra rb b31 s
  | .lha rt d ra => Sys2Proof.Machine.execLha rt d ra s
  | .lhau rt d ra => Sys2Proof.Machine.execLhau rt d ra s
  | .lhaux rt ra rb b31 => Sys2Proof.Machine.execLhaux rt ra rb b31 s
  | .lhax rt ra rb b31 => Sys2Proof.Machine.execLhax rt ra rb b31 s
  | .lhbrx rt ra rb b31 => Sys2Proof.Machine.execLhbrx rt ra rb b31 s
  | .lhz rt d ra => Sys2Proof.Machine.execLhz rt d ra s
  | .lhzu rt d ra => Sys2Proof.Machine.execLhzu rt d ra s
  | .lhzux rt ra rb b31 => Sys2Proof.Machine.execLhzux rt ra rb b31 s
  | .lhzx rt ra rb b31 => Sys2Proof.Machine.execLhzx rt ra rb b31 s
  | .lwarx rt ra rb b31 => Sys2Proof.Machine.execLwarx rt ra rb b31 s
  | .lwbrx rt ra rb b31 => Sys2Proof.Machine.execLwbrx rt ra rb b31 s
  | .lwz rt d ra => Sys2Proof.Machine.execLwz rt d ra s
  | .lwzu rt d ra => Sys2Proof.Machine.execLwzu rt d ra s
  | .lwzux rt ra rb b31 => Sys2Proof.Machine.execLwzux rt ra rb b31 s
  | .lwzx rt ra rb b31 => Sys2Proof.Machine.execLwzx rt ra rb b31 s
  -- 45_load_store.md
  | .stb rs d ra => Sys2Proof.Machine.execStb rs d ra s
  | .stbu rs d ra => Sys2Proof.Machine.execStbu rs d ra s
  | .stbux rs ra rb b31 => Sys2Proof.Machine.execStbux rs ra rb b31 s
  | .stbx rs ra rb b31 => Sys2Proof.Machine.execStbx rs ra rb b31 s
  | .sth rs d ra => Sys2Proof.Machine.execSth rs d ra s
  | .sthbrx rs ra rb b31 => Sys2Proof.Machine.execSthbrx rs ra rb b31 s
  | .sthu rs d ra => Sys2Proof.Machine.execSthu rs d ra s
  | .sthux rs ra rb b31 => Sys2Proof.Machine.execSthux rs ra rb b31 s
  | .sthx rs ra rb b31 => Sys2Proof.Machine.execSthx rs ra rb b31 s
  | .stw rs d ra => Sys2Proof.Machine.execStw rs d ra s
  | .stwbrx rs ra rb b31 => Sys2Proof.Machine.execStwbrx rs ra rb b31 s
  | .stwcxRc rs ra rb => Sys2Proof.Machine.execStwcxRc rs ra rb s
  | .stwu rs d ra => Sys2Proof.Machine.execStwu rs d ra s
  | .stwux rs ra rb b31 => Sys2Proof.Machine.execStwux rs ra rb b31 s
  | .stwx rs ra rb b31 => Sys2Proof.Machine.execStwx rs ra rb b31 s
  -- 46_multiple_string.md
  | .lmw rt d ra => Sys2Proof.Machine.execLmw rt d ra s
  | .lswi rt ra nb b31 => Sys2Proof.Machine.execLswi rt ra nb b31 s
  | .lswx rt ra rb b31 => Sys2Proof.Machine.execLswx rt ra rb b31 s
  | .stmw rs d ra => Sys2Proof.Machine.execStmw rs d ra s
  | .stswi rs ra nb b31 => Sys2Proof.Machine.execStswi rs ra nb b31 s
  | .stswx rs ra rb b31 => Sys2Proof.Machine.execStswx rs ra rb b31 s
  -- 47_cache_sync.md
  | .dcbf ra rb b31 => Sys2Proof.Machine.execDcbf ra rb b31 s
  | .dcbi ra rb b31 => Sys2Proof.Machine.execDcbi ra rb b31 s
  | .dcbst ra rb b31 => Sys2Proof.Machine.execDcbst ra rb b31 s
  | .dcbt ra rb b31 => Sys2Proof.Machine.execDcbt ra rb b31 s
  | .dcbtst ra rb b31 => Sys2Proof.Machine.execDcbtst ra rb b31 s
  | .dcbz ra rb b31 => Sys2Proof.Machine.execDcbz ra rb b31 s
  | .dccci ra rb b31 => Sys2Proof.Machine.execDccci ra rb b31 s
  | .dcread rt ra rb b31 => Sys2Proof.Machine.execDcread rt ra rb b31 s
  | .icbi ra rb b31 => Sys2Proof.Machine.execIcbi ra rb b31 s
  | .icbt ra rb b31 => Sys2Proof.Machine.execIcbt ra rb b31 s
  | .iccci ra rb b31 => Sys2Proof.Machine.execIccci ra rb b31 s
  | .icread ra rb b31 => Sys2Proof.Machine.execIcread ra rb b31 s
  | .sync b31 => Sys2Proof.Machine.execSync b31 s
  | .eieio b31 => Sys2Proof.Machine.execEieio b31 s
  | .isync b31 => Sys2Proof.Machine.execIsync b31 s
  -- 48_system.md
  | .sc => Sys2Proof.Machine.execSc s
  | .rfi => Sys2Proof.Machine.execRfi s
  | .rfci => Sys2Proof.Machine.execRfci s
  | .mfmsr rt b31 => Sys2Proof.Machine.execMfmsr rt b31 s
  | .mtmsr rs b31 => Sys2Proof.Machine.execMtmsr rs b31 s
  | .wrtee rs b31 => Sys2Proof.Machine.execWrtee rs b31 s
  | .wrteei e b31 => Sys2Proof.Machine.execWrteei e b31 s
  | .mfspr rt sprn b31 => Sys2Proof.Machine.execMfspr rt sprn b31 s
  | .mtspr sprn rs b31 => Sys2Proof.Machine.execMtspr sprn rs b31 s
  | .mfdcr rt dcrn b31 => Sys2Proof.Machine.execMfdcr rt dcrn b31 s
  | .mtdcr dcrn rs b31 => Sys2Proof.Machine.execMtdcr dcrn rs b31 s
  | .tw tcond ra rb b31 => Sys2Proof.Machine.execTw tcond ra rb b31 s
  | .twi tcond ra im => Sys2Proof.Machine.execTwi tcond ra im s
  | .tlbia => Sys2Proof.Machine.execTlbia s
  | .tlbre rt ra ws b31 => Sys2Proof.Machine.execTlbre rt ra ws b31 s
  | .tlbsx rt ra rb rc => Sys2Proof.Machine.execTlbsx rt ra rb rc s
  | .tlbsync => Sys2Proof.Machine.execTlbsync s
  | .tlbwe rs ra ws b31 => Sys2Proof.Machine.execTlbwe rs ra ws b31 s

end Sys2Proof.Machine
end

