-- ==== Sys2Proof/Decode.lean ====
section
/-! DEFINITION. The decoder and the encoder, both from the match, mask, reserved and field columns of
30_encoding.md R166 (spec/opcode_table.json). -/

namespace Sys2Proof

/-- The `n` bits of a word from the bit of weight `2 ^ s` up. -/
def field (w : Word) (s n : Nat) : BitVec n := w.extractLsb' s n

/-- The bit of weight `2 ^ s` of a word. -/
def flag (w : Word) (s : Nat) : Bool := w.getLsbD s

/-- A field value put at the bit of weight `2 ^ s` of a word. -/
def place {n : Nat} (v : BitVec n) (s : Nat) : Word := v.setWidth 32 <<< s

/-- A single bit put at weight `2 ^ s` of a word. -/
def placeBit (b : Bool) (s : Nat) : Word := place (BitVec.ofBool b) s

/-- SPRF and DCRF hold the register number with its five-bit halves swapped (30_encoding.md R164). -/
def swapHalves (v : BitVec 10) : BitVec 10 := v.extractLsb' 0 5 ++ v.extractLsb' 5 5

/-- One row of the opcode table: the defined bits (`code` under `mask`), the reserved bits that must be 0, and how
the operand fields are read. Bit 31 of the instructions of 10_state.md R51 is read as an operand. -/
structure Row where
  /-- The row's mnemonic, as the table has it. -/
  mnemonic : String
  /-- The `match` column. -/
  code : Word
  /-- The `mask` column. -/
  mask : Word
  /-- The bits of the `reserved` column. -/
  reserved : Word
  /-- The instruction of a word that matches. -/
  build : Word → Instr

/-- The rows of 40_arithmetic.md (Arithmetic). -/
def arithmeticRows : List Row :=
  [⟨"add", 0x7C000214#32, 0xFC0003FE#32, 0x00000000#32,
      fun w => .add (field w 21 5) (field w 16 5) (field w 11 5) (flag w 10) (flag w 0)⟩,
   ⟨"addc", 0x7C000014#32, 0xFC0003FE#32, 0x00000000#32,
      fun w => .addc (field w 21 5) (field w 16 5) (field w 11 5) (flag w 10) (flag w 0)⟩,
   ⟨"adde", 0x7C000114#32, 0xFC0003FE#32, 0x00000000#32,
      fun w => .adde (field w 21 5) (field w 16 5) (field w 11 5) (flag w 10) (flag w 0)⟩,
   ⟨"addi", 0x38000000#32, 0xFC000000#32, 0x00000000#32,
      fun w => .addi (field w 21 5) (field w 16 5) (field w 0 16)⟩,
   ⟨"addic", 0x30000000#32, 0xFC000000#32, 0x00000000#32,
      fun w => .addic (field w 21 5) (field w 16 5) (field w 0 16)⟩,
   ⟨"addic.", 0x34000000#32, 0xFC000000#32, 0x00000000#32,
      fun w => .addicRc (field w 21 5) (field w 16 5) (field w 0 16)⟩,
   ⟨"addis", 0x3C000000#32, 0xFC000000#32, 0x00000000#32,
      fun w => .addis (field w 21 5) (field w 16 5) (field w 0 16)⟩,
   ⟨"addme", 0x7C0001D4#32, 0xFC0003FE#32, 0x0000F800#32,
      fun w => .addme (field w 21 5) (field w 16 5) (flag w 10) (flag w 0)⟩,
   ⟨"addze", 0x7C000194#32, 0xFC0003FE#32, 0x0000F800#32,
      fun w => .addze (field w 21 5) (field w 16 5) (flag w 10) (flag w 0)⟩,
   ⟨"divw", 0x7C0003D6#32, 0xFC0003FE#32, 0x00000000#32,
      fun w => .divw (field w 21 5) (field w 16 5) (field w 11 5) (flag w 10) (flag w 0)⟩,
   ⟨"divwu", 0x7C000396#32, 0xFC0003FE#32, 0x00000000#32,
      fun w => .divwu (field w 21 5) (field w 16 5) (field w 11 5) (flag w 10) (flag w 0)⟩,
   ⟨"mulhw", 0x7C000096#32, 0xFC0003FE#32, 0x00000400#32,
      fun w => .mulhw (field w 21 5) (field w 16 5) (field w 11 5) (flag w 0)⟩,
   ⟨"mulhwu", 0x7C000016#32, 0xFC0003FE#32, 0x00000400#32,
      fun w => .mulhwu (field w 21 5) (field w 16 5) (field w 11 5) (flag w 0)⟩,
   ⟨"mulli", 0x1C000000#32, 0xFC000000#32, 0x00000000#32,
      fun w => .mulli (field w 21 5) (field w 16 5) (field w 0 16)⟩,
   ⟨"mullw", 0x7C0001D6#32, 0xFC0003FE#32, 0x00000000#32,
      fun w => .mullw (field w 21 5) (field w 16 5) (field w 11 5) (flag w 10) (flag w 0)⟩,
   ⟨"neg", 0x7C0000D0#32, 0xFC0003FE#32, 0x0000F800#32,
      fun w => .neg (field w 21 5) (field w 16 5) (flag w 10) (flag w 0)⟩,
   ⟨"subf", 0x7C000050#32, 0xFC0003FE#32, 0x00000000#32,
      fun w => .subf (field w 21 5) (field w 16 5) (field w 11 5) (flag w 10) (flag w 0)⟩,
   ⟨"subfc", 0x7C000010#32, 0xFC0003FE#32, 0x00000000#32,
      fun w => .subfc (field w 21 5) (field w 16 5) (field w 11 5) (flag w 10) (flag w 0)⟩,
   ⟨"subfe", 0x7C000110#32, 0xFC0003FE#32, 0x00000000#32,
      fun w => .subfe (field w 21 5) (field w 16 5) (field w 11 5) (flag w 10) (flag w 0)⟩,
   ⟨"subfic", 0x20000000#32, 0xFC000000#32, 0x00000000#32,
      fun w => .subfic (field w 21 5) (field w 16 5) (field w 0 16)⟩,
   ⟨"subfme", 0x7C0001D0#32, 0xFC0003FE#32, 0x0000F800#32,
      fun w => .subfme (field w 21 5) (field w 16 5) (flag w 10) (flag w 0)⟩,
   ⟨"subfze", 0x7C000190#32, 0xFC0003FE#32, 0x0000F800#32,
      fun w => .subfze (field w 21 5) (field w 16 5) (flag w 10) (flag w 0)⟩]

/-- The rows of 41_logical.md (Logical). -/
def logicalRows : List Row :=
  [⟨"and", 0x7C000038#32, 0xFC0007FE#32, 0x00000000#32,
      fun w => .and (field w 16 5) (field w 21 5) (field w 11 5) (flag w 0)⟩,
   ⟨"andc", 0x7C000078#32, 0xFC0007FE#32, 0x00000000#32,
      fun w => .andc (field w 16 5) (field w 21 5) (field w 11 5) (flag w 0)⟩,
   ⟨"andi.", 0x70000000#32, 0xFC000000#32, 0x00000000#32,
      fun w => .andiRc (field w 16 5) (field w 21 5) (field w 0 16)⟩,
   ⟨"andis.", 0x74000000#32, 0xFC000000#32, 0x00000000#32,
      fun w => .andisRc (field w 16 5) (field w 21 5) (field w 0 16)⟩,
   ⟨"cntlzw", 0x7C000034#32, 0xFC0007FE#32, 0x0000F800#32,
      fun w => .cntlzw (field w 16 5) (field w 21 5) (flag w 0)⟩,
   ⟨"eqv", 0x7C000238#32, 0xFC0007FE#32, 0x00000000#32,
      fun w => .eqv (field w 16 5) (field w 21 5) (field w 11 5) (flag w 0)⟩,
   ⟨"extsb", 0x7C000774#32, 0xFC0007FE#32, 0x0000F800#32,
      fun w => .extsb (field w 16 5) (field w 21 5) (flag w 0)⟩,
   ⟨"extsh", 0x7C000734#32, 0xFC0007FE#32, 0x0000F800#32,
      fun w => .extsh (field w 16 5) (field w 21 5) (flag w 0)⟩,
   ⟨"nand", 0x7C0003B8#32, 0xFC0007FE#32, 0x00000000#32,
      fun w => .nand (field w 16 5) (field w 21 5) (field w 11 5) (flag w 0)⟩,
   ⟨"nor", 0x7C0000F8#32, 0xFC0007FE#32, 0x00000000#32,
      fun w => .nor (field w 16 5) (field w 21 5) (field w 11 5) (flag w 0)⟩,
   ⟨"or", 0x7C000378#32, 0xFC0007FE#32, 0x00000000#32,
      fun w => .or (field w 16 5) (field w 21 5) (field w 11 5) (flag w 0)⟩,
   ⟨"orc", 0x7C000338#32, 0xFC0007FE#32, 0x00000000#32,
      fun w => .orc (field w 16 5) (field w 21 5) (field w 11 5) (flag w 0)⟩,
   ⟨"ori", 0x60000000#32, 0xFC000000#32, 0x00000000#32,
      fun w => .ori (field w 16 5) (field w 21 5) (field w 0 16)⟩,
   ⟨"oris", 0x64000000#32, 0xFC000000#32, 0x00000000#32,
      fun w => .oris (field w 16 5) (field w 21 5) (field w 0 16)⟩,
   ⟨"xor", 0x7C000278#32, 0xFC0007FE#32, 0x00000000#32,
      fun w => .xor (field w 16 5) (field w 21 5) (field w 11 5) (flag w 0)⟩,
   ⟨"xori", 0x68000000#32, 0xFC000000#32, 0x00000000#32,
      fun w => .xori (field w 16 5) (field w 21 5) (field w 0 16)⟩,
   ⟨"xoris", 0x6C000000#32, 0xFC000000#32, 0x00000000#32,
      fun w => .xoris (field w 16 5) (field w 21 5) (field w 0 16)⟩]

/-- The rows of 42_rotate_shift.md (Rotate). -/
def rotateRows : List Row :=
  [⟨"rlwimi", 0x50000000#32, 0xFC000000#32, 0x00000000#32,
      fun w => .rlwimi (field w 16 5) (field w 21 5) (field w 11 5) (field w 6 5) (field w 1 5) (flag w 0)⟩,
   ⟨"rlwinm", 0x54000000#32, 0xFC000000#32, 0x00000000#32,
      fun w => .rlwinm (field w 16 5) (field w 21 5) (field w 11 5) (field w 6 5) (field w 1 5) (flag w 0)⟩,
   ⟨"rlwnm", 0x5C000000#32, 0xFC000000#32, 0x00000000#32,
      fun w => .rlwnm (field w 16 5) (field w 21 5) (field w 11 5) (field w 6 5) (field w 1 5) (flag w 0)⟩,
   ⟨"slw", 0x7C000030#32, 0xFC0007FE#32, 0x00000000#32,
      fun w => .slw (field w 16 5) (field w 21 5) (field w 11 5) (flag w 0)⟩,
   ⟨"sraw", 0x7C000630#32, 0xFC0007FE#32, 0x00000000#32,
      fun w => .sraw (field w 16 5) (field w 21 5) (field w 11 5) (flag w 0)⟩,
   ⟨"srawi", 0x7C000670#32, 0xFC0007FE#32, 0x00000000#32,
      fun w => .srawi (field w 16 5) (field w 21 5) (field w 11 5) (flag w 0)⟩,
   ⟨"srw", 0x7C000430#32, 0xFC0007FE#32, 0x00000000#32,
      fun w => .srw (field w 16 5) (field w 21 5) (field w 11 5) (flag w 0)⟩]

/-- The rows of 43_compare_cr.md (Compare). -/
def compareRows : List Row :=
  [⟨"cmp", 0x7C000000#32, 0xFC0007FE#32, 0x00600000#32,
      fun w => .cmp (field w 23 3) (field w 16 5) (field w 11 5) (flag w 0)⟩,
   ⟨"cmpi", 0x2C000000#32, 0xFC000000#32, 0x00600000#32,
      fun w => .cmpi (field w 23 3) (field w 16 5) (field w 0 16)⟩,
   ⟨"cmpl", 0x7C000040#32, 0xFC0007FE#32, 0x00600000#32,
      fun w => .cmpl (field w 23 3) (field w 16 5) (field w 11 5) (flag w 0)⟩,
   ⟨"cmpli", 0x28000000#32, 0xFC000000#32, 0x00600000#32,
      fun w => .cmpli (field w 23 3) (field w 16 5) (field w 0 16)⟩,
   ⟨"crand", 0x4C000202#32, 0xFC0007FE#32, 0x00000001#32,
      fun w => .crand (field w 21 5) (field w 16 5) (field w 11 5)⟩,
   ⟨"crandc", 0x4C000102#32, 0xFC0007FE#32, 0x00000001#32,
      fun w => .crandc (field w 21 5) (field w 16 5) (field w 11 5)⟩,
   ⟨"creqv", 0x4C000242#32, 0xFC0007FE#32, 0x00000001#32,
      fun w => .creqv (field w 21 5) (field w 16 5) (field w 11 5)⟩,
   ⟨"crnand", 0x4C0001C2#32, 0xFC0007FE#32, 0x00000001#32,
      fun w => .crnand (field w 21 5) (field w 16 5) (field w 11 5)⟩,
   ⟨"crnor", 0x4C000042#32, 0xFC0007FE#32, 0x00000001#32,
      fun w => .crnor (field w 21 5) (field w 16 5) (field w 11 5)⟩,
   ⟨"cror", 0x4C000382#32, 0xFC0007FE#32, 0x00000001#32,
      fun w => .cror (field w 21 5) (field w 16 5) (field w 11 5)⟩,
   ⟨"crorc", 0x4C000342#32, 0xFC0007FE#32, 0x00000001#32,
      fun w => .crorc (field w 21 5) (field w 16 5) (field w 11 5)⟩,
   ⟨"crxor", 0x4C000182#32, 0xFC0007FE#32, 0x00000001#32,
      fun w => .crxor (field w 21 5) (field w 16 5) (field w 11 5)⟩,
   ⟨"mcrf", 0x4C000000#32, 0xFC0007FE#32, 0x0063F801#32,
      fun w => .mcrf (field w 23 3) (field w 18 3)⟩,
   ⟨"mcrxr", 0x7C000400#32, 0xFC0007FE#32, 0x007FF800#32,
      fun w => .mcrxr (field w 23 3) (flag w 0)⟩,
   ⟨"mfcr", 0x7C000026#32, 0xFC0007FE#32, 0x001FF800#32,
      fun w => .mfcr (field w 21 5) (flag w 0)⟩,
   ⟨"mtcrf", 0x7C000120#32, 0xFC0007FE#32, 0x00100800#32,
      fun w => .mtcrf (field w 12 8) (field w 21 5) (flag w 0)⟩]

/-- The rows of 44_branch.md (Branch). -/
def branchRows : List Row :=
  [⟨"b", 0x48000000#32, 0xFC000000#32, 0x00000000#32,
      fun w => .b (field w 2 24) (flag w 1) (flag w 0)⟩,
   ⟨"bc", 0x40000000#32, 0xFC000000#32, 0x00000000#32,
      fun w => .bc (field w 21 5) (field w 16 5) (field w 2 14) (flag w 1) (flag w 0)⟩,
   ⟨"bcctr", 0x4C000420#32, 0xFC0007FE#32, 0x0000F800#32,
      fun w => .bcctr (field w 21 5) (field w 16 5) (flag w 0)⟩,
   ⟨"bclr", 0x4C000020#32, 0xFC0007FE#32, 0x0000F800#32,
      fun w => .bclr (field w 21 5) (field w 16 5) (flag w 0)⟩]

/-- The rows of 45_load_store.md (Load). -/
def loadRows : List Row :=
  [⟨"lbz", 0x88000000#32, 0xFC000000#32, 0x00000000#32,
      fun w => .lbz (field w 21 5) (field w 0 16) (field w 16 5)⟩,
   ⟨"lbzu", 0x8C000000#32, 0xFC000000#32, 0x00000000#32,
      fun w => .lbzu (field w 21 5) (field w 0 16) (field w 16 5)⟩,
   ⟨"lbzux", 0x7C0000EE#32, 0xFC0007FE#32, 0x00000000#32,
      fun w => .lbzux (field w 21 5) (field w 16 5) (field w 11 5) (flag w 0)⟩,
   ⟨"lbzx", 0x7C0000AE#32, 0xFC0007FE#32, 0x00000000#32,
      fun w => .lbzx (field w 21 5) (field w 16 5) (field w 11 5) (flag w 0)⟩,
   ⟨"lha", 0xA8000000#32, 0xFC000000#32, 0x00000000#32,
      fun w => .lha (field w 21 5) (field w 0 16) (field w 16 5)⟩,
   ⟨"lhau", 0xAC000000#32, 0xFC000000#32, 0x00000000#32,
      fun w => .lhau (field w 21 5) (field w 0 16) (field w 16 5)⟩,
   ⟨"lhaux", 0x7C0002EE#32, 0xFC0007FE#32, 0x00000000#32,
      fun w => .lhaux (field w 21 5) (field w 16 5) (field w 11 5) (flag w 0)⟩,
   ⟨"lhax", 0x7C0002AE#32, 0xFC0007FE#32, 0x00000000#32,
      fun w => .lhax (field w 21 5) (field w 16 5) (field w 11 5) (flag w 0)⟩,
   ⟨"lhbrx", 0x7C00062C#32, 0xFC0007FE#32, 0x00000000#32,
      fun w => .lhbrx (field w 21 5) (field w 16 5) (field w 11 5) (flag w 0)⟩,
   ⟨"lhz", 0xA0000000#32, 0xFC000000#32, 0x00000000#32,
      fun w => .lhz (field w 21 5) (field w 0 16) (field w 16 5)⟩,
   ⟨"lhzu", 0xA4000000#32, 0xFC000000#32, 0x00000000#32,
      fun w => .lhzu (field w 21 5) (field w 0 16) (field w 16 5)⟩,
   ⟨"lhzux", 0x7C00026E#32, 0xFC0007FE#32, 0x00000000#32,
      fun w => .lhzux (field w 21 5) (field w 16 5) (field w 11 5) (flag w 0)⟩,
   ⟨"lhzx", 0x7C00022E#32, 0xFC0007FE#32, 0x00000000#32,
      fun w => .lhzx (field w 21 5) (field w 16 5) (field w 11 5) (flag w 0)⟩,
   ⟨"lwarx", 0x7C000028#32, 0xFC0007FE#32, 0x00000000#32,
      fun w => .lwarx (field w 21 5) (field w 16 5) (field w 11 5) (flag w 0)⟩,
   ⟨"lwbrx", 0x7C00042C#32, 0xFC0007FE#32, 0x00000000#32,
      fun w => .lwbrx (field w 21 5) (field w 16 5) (field w 11 5) (flag w 0)⟩,
   ⟨"lwz", 0x80000000#32, 0xFC000000#32, 0x00000000#32,
      fun w => .lwz (field w 21 5) (field w 0 16) (field w 16 5)⟩,
   ⟨"lwzu", 0x84000000#32, 0xFC000000#32, 0x00000000#32,
      fun w => .lwzu (field w 21 5) (field w 0 16) (field w 16 5)⟩,
   ⟨"lwzux", 0x7C00006E#32, 0xFC0007FE#32, 0x00000000#32,
      fun w => .lwzux (field w 21 5) (field w 16 5) (field w 11 5) (flag w 0)⟩,
   ⟨"lwzx", 0x7C00002E#32, 0xFC0007FE#32, 0x00000000#32,
      fun w => .lwzx (field w 21 5) (field w 16 5) (field w 11 5) (flag w 0)⟩]

/-- The rows of 45_load_store.md (Store). -/
def storeRows : List Row :=
  [⟨"stb", 0x98000000#32, 0xFC000000#32, 0x00000000#32,
      fun w => .stb (field w 21 5) (field w 0 16) (field w 16 5)⟩,
   ⟨"stbu", 0x9C000000#32, 0xFC000000#32, 0x00000000#32,
      fun w => .stbu (field w 21 5) (field w 0 16) (field w 16 5)⟩,
   ⟨"stbux", 0x7C0001EE#32, 0xFC0007FE#32, 0x00000000#32,
      fun w => .stbux (field w 21 5) (field w 16 5) (field w 11 5) (flag w 0)⟩,
   ⟨"stbx", 0x7C0001AE#32, 0xFC0007FE#32, 0x00000000#32,
      fun w => .stbx (field w 21 5) (field w 16 5) (field w 11 5) (flag w 0)⟩,
   ⟨"sth", 0xB0000000#32, 0xFC000000#32, 0x00000000#32,
      fun w => .sth (field w 21 5) (field w 0 16) (field w 16 5)⟩,
   ⟨"sthbrx", 0x7C00072C#32, 0xFC0007FE#32, 0x00000000#32,
      fun w => .sthbrx (field w 21 5) (field w 16 5) (field w 11 5) (flag w 0)⟩,
   ⟨"sthu", 0xB4000000#32, 0xFC000000#32, 0x00000000#32,
      fun w => .sthu (field w 21 5) (field w 0 16) (field w 16 5)⟩,
   ⟨"sthux", 0x7C00036E#32, 0xFC0007FE#32, 0x00000000#32,
      fun w => .sthux (field w 21 5) (field w 16 5) (field w 11 5) (flag w 0)⟩,
   ⟨"sthx", 0x7C00032E#32, 0xFC0007FE#32, 0x00000000#32,
      fun w => .sthx (field w 21 5) (field w 16 5) (field w 11 5) (flag w 0)⟩,
   ⟨"stw", 0x90000000#32, 0xFC000000#32, 0x00000000#32,
      fun w => .stw (field w 21 5) (field w 0 16) (field w 16 5)⟩,
   ⟨"stwbrx", 0x7C00052C#32, 0xFC0007FE#32, 0x00000000#32,
      fun w => .stwbrx (field w 21 5) (field w 16 5) (field w 11 5) (flag w 0)⟩,
   ⟨"stwcx.", 0x7C00012D#32, 0xFC0007FF#32, 0x00000000#32,
      fun w => .stwcxRc (field w 21 5) (field w 16 5) (field w 11 5)⟩,
   ⟨"stwu", 0x94000000#32, 0xFC000000#32, 0x00000000#32,
      fun w => .stwu (field w 21 5) (field w 0 16) (field w 16 5)⟩,
   ⟨"stwux", 0x7C00016E#32, 0xFC0007FE#32, 0x00000000#32,
      fun w => .stwux (field w 21 5) (field w 16 5) (field w 11 5) (flag w 0)⟩,
   ⟨"stwx", 0x7C00012E#32, 0xFC0007FE#32, 0x00000000#32,
      fun w => .stwx (field w 21 5) (field w 16 5) (field w 11 5) (flag w 0)⟩]

/-- The rows of 46_multiple_string.md (Multiple). -/
def multipleRows : List Row :=
  [⟨"lmw", 0xB8000000#32, 0xFC000000#32, 0x00000000#32,
      fun w => .lmw (field w 21 5) (field w 0 16) (field w 16 5)⟩,
   ⟨"lswi", 0x7C0004AA#32, 0xFC0007FE#32, 0x00000000#32,
      fun w => .lswi (field w 21 5) (field w 16 5) (field w 11 5) (flag w 0)⟩,
   ⟨"lswx", 0x7C00042A#32, 0xFC0007FE#32, 0x00000000#32,
      fun w => .lswx (field w 21 5) (field w 16 5) (field w 11 5) (flag w 0)⟩,
   ⟨"stmw", 0xBC000000#32, 0xFC000000#32, 0x00000000#32,
      fun w => .stmw (field w 21 5) (field w 0 16) (field w 16 5)⟩,
   ⟨"stswi", 0x7C0005AA#32, 0xFC0007FE#32, 0x00000000#32,
      fun w => .stswi (field w 21 5) (field w 16 5) (field w 11 5) (flag w 0)⟩,
   ⟨"stswx", 0x7C00052A#32, 0xFC0007FE#32, 0x00000000#32,
      fun w => .stswx (field w 21 5) (field w 16 5) (field w 11 5) (flag w 0)⟩]

/-- The rows of 47_cache_sync.md (CacheControl). -/
def cacheControlRows : List Row :=
  [⟨"dcbf", 0x7C0000AC#32, 0xFC0007FE#32, 0x03E00000#32,
      fun w => .dcbf (field w 16 5) (field w 11 5) (flag w 0)⟩,
   ⟨"dcbi", 0x7C0003AC#32, 0xFC0007FE#32, 0x03E00000#32,
      fun w => .dcbi (field w 16 5) (field w 11 5) (flag w 0)⟩,
   ⟨"dcbst", 0x7C00006C#32, 0xFC0007FE#32, 0x03E00000#32,
      fun w => .dcbst (field w 16 5) (field w 11 5) (flag w 0)⟩,
   ⟨"dcbt", 0x7C00022C#32, 0xFC0007FE#32, 0x03E00000#32,
      fun w => .dcbt (field w 16 5) (field w 11 5) (flag w 0)⟩,
   ⟨"dcbtst", 0x7C0001EC#32, 0xFC0007FE#32, 0x03E00000#32,
      fun w => .dcbtst (field w 16 5) (field w 11 5) (flag w 0)⟩,
   ⟨"dcbz", 0x7C0007EC#32, 0xFC0007FE#32, 0x03E00000#32,
      fun w => .dcbz (field w 16 5) (field w 11 5) (flag w 0)⟩,
   ⟨"dccci", 0x7C00038C#32, 0xFC0007FE#32, 0x03E00000#32,
      fun w => .dccci (field w 16 5) (field w 11 5) (flag w 0)⟩,
   ⟨"dcread", 0x7C0003CC#32, 0xFC0007FE#32, 0x00000000#32,
      fun w => .dcread (field w 21 5) (field w 16 5) (field w 11 5) (flag w 0)⟩,
   ⟨"icbi", 0x7C0007AC#32, 0xFC0007FE#32, 0x03E00000#32,
      fun w => .icbi (field w 16 5) (field w 11 5) (flag w 0)⟩,
   ⟨"icbt", 0x7C00020C#32, 0xFC0007FE#32, 0x03E00000#32,
      fun w => .icbt (field w 16 5) (field w 11 5) (flag w 0)⟩,
   ⟨"iccci", 0x7C00078C#32, 0xFC0007FE#32, 0x03E00000#32,
      fun w => .iccci (field w 16 5) (field w 11 5) (flag w 0)⟩,
   ⟨"icread", 0x7C0007CC#32, 0xFC0007FE#32, 0x03E00000#32,
      fun w => .icread (field w 16 5) (field w 11 5) (flag w 0)⟩,
   ⟨"sync", 0x7C0004AC#32, 0xFC0007FE#32, 0x03FFF800#32,
      fun w => .sync (flag w 0)⟩,
   ⟨"eieio", 0x7C0006AC#32, 0xFC0007FE#32, 0x03FFF800#32,
      fun w => .eieio (flag w 0)⟩,
   ⟨"isync", 0x4C00012C#32, 0xFC0007FE#32, 0x03FFF800#32,
      fun w => .isync (flag w 0)⟩]

/-- The rows of 48_system.md (System). -/
def systemRows : List Row :=
  [⟨"sc", 0x44000002#32, 0xFC000002#32, 0x03FFFFFD#32,
      fun _ => .sc⟩,
   ⟨"rfi", 0x4C000064#32, 0xFC0007FE#32, 0x03FFF801#32,
      fun _ => .rfi⟩,
   ⟨"rfci", 0x4C000066#32, 0xFC0007FE#32, 0x03FFF801#32,
      fun _ => .rfci⟩,
   ⟨"mfmsr", 0x7C0000A6#32, 0xFC0007FE#32, 0x001FF800#32,
      fun w => .mfmsr (field w 21 5) (flag w 0)⟩,
   ⟨"mtmsr", 0x7C000124#32, 0xFC0007FE#32, 0x001FF800#32,
      fun w => .mtmsr (field w 21 5) (flag w 0)⟩,
   ⟨"wrtee", 0x7C000106#32, 0xFC0007FE#32, 0x001FF800#32,
      fun w => .wrtee (field w 21 5) (flag w 0)⟩,
   ⟨"wrteei", 0x7C000146#32, 0xFC0007FE#32, 0x03FF7800#32,
      fun w => .wrteei (flag w 15) (flag w 0)⟩,
   ⟨"mfspr", 0x7C0002A6#32, 0xFC0007FE#32, 0x00000000#32,
      fun w => .mfspr (field w 21 5) (swapHalves (field w 11 10)) (flag w 0)⟩,
   ⟨"mtspr", 0x7C0003A6#32, 0xFC0007FE#32, 0x00000000#32,
      fun w => .mtspr (swapHalves (field w 11 10)) (field w 21 5) (flag w 0)⟩,
   ⟨"mfdcr", 0x7C000286#32, 0xFC0007FE#32, 0x00000000#32,
      fun w => .mfdcr (field w 21 5) (swapHalves (field w 11 10)) (flag w 0)⟩,
   ⟨"mtdcr", 0x7C000386#32, 0xFC0007FE#32, 0x00000000#32,
      fun w => .mtdcr (swapHalves (field w 11 10)) (field w 21 5) (flag w 0)⟩,
   ⟨"tw", 0x7C000008#32, 0xFC0007FE#32, 0x00000000#32,
      fun w => .tw (field w 21 5) (field w 16 5) (field w 11 5) (flag w 0)⟩,
   ⟨"twi", 0x0C000000#32, 0xFC000000#32, 0x00000000#32,
      fun w => .twi (field w 21 5) (field w 16 5) (field w 0 16)⟩,
   ⟨"tlbia", 0x7C0002E4#32, 0xFC0007FE#32, 0x03FFF801#32,
      fun _ => .tlbia⟩,
   ⟨"tlbre", 0x7C000764#32, 0xFC0007FE#32, 0x00000000#32,
      fun w => .tlbre (field w 21 5) (field w 16 5) (field w 11 5) (flag w 0)⟩,
   ⟨"tlbsx", 0x7C000724#32, 0xFC0007FE#32, 0x00000000#32,
      fun w => .tlbsx (field w 21 5) (field w 16 5) (field w 11 5) (flag w 0)⟩,
   ⟨"tlbsync", 0x7C00046C#32, 0xFC0007FE#32, 0x03FFF801#32,
      fun _ => .tlbsync⟩,
   ⟨"tlbwe", 0x7C0007A4#32, 0xFC0007FE#32, 0x00000000#32,
      fun w => .tlbwe (field w 21 5) (field w 16 5) (field w 11 5) (flag w 0)⟩]

/-- The opcode table (30_encoding.md R166). -/
def opcodeRows : List Row :=
  arithmeticRows ++ logicalRows ++ rotateRows ++ compareRows ++ branchRows ++
  loadRows ++ storeRows ++ multipleRows ++ cacheControlRows ++ systemRows

/-- What a word is (30_encoding.md R151, R152). -/
inductive Decoded where
  /-- No row matches: an illegal instruction. -/
  | illegal
  /-- The named row matches but a reserved bit is 1: an invalid form. -/
  | reservedBits (mnemonic : String)
  /-- An instruction. -/
  | ok (i : Instr)
deriving DecidableEq, Repr

/-- The defined bits of the row are those of the word. -/
def Row.matches (r : Row) (w : Word) : Bool := w &&& r.mask == r.code

/-- What the row makes of a word that matches it. -/
def Row.read (r : Row) (w : Word) : Decoded :=
  if w &&& r.reserved = 0#32 then .ok (r.build w) else .reservedBits r.mnemonic

/-- Decode one instruction word: the first row that matches reads it. -/
def decodeWord (w : Word) : Decoded :=
  match opcodeRows.find? (fun r => r.matches w) with
  | none => .illegal
  | some r => r.read w

/-- The word of four bytes, the first the most significant (20_memory.md R105). -/
def wordOfBytes (b0 b1 b2 b3 : Byte) : Word := b0 ++ b1 ++ b2 ++ b3

/-- Byte `i` of a word in storage order, byte 0 the most significant (20_memory.md R103). -/
def byteOfWord (w : Word) (i : Nat) : Byte := w.extractLsb' (8 * (3 - i)) 8

/-- The four bytes of a word in storage order. -/
def bytesOfWord (w : Word) : List Byte := [byteOfWord w 0, byteOfWord w 1, byteOfWord w 2, byteOfWord w 3]

/-- Decode the instruction at the front of a list of bytes and answer the bytes left; fewer than four bytes are no
instruction (30_encoding.md R150). -/
def decodeBytes : List Byte → Option (Decoded × List Byte)
  | b0 :: b1 :: b2 :: b3 :: rest => some (decodeWord (wordOfBytes b0 b1 b2 b3), rest)
  | _ => none

/-- The instruction the decoder reads from an opcode-table word of `nbits` bits: the word is laid out in storage
order and decoded. -/
def decodeTableWord (nbits w : Nat) : Option Instr :=
  match decodeBytes (bytesOfWord (BitVec.ofNat 32 (w % 2 ^ nbits))) with
  | some (.ok i, _) => some i
  | _ => none

/-- The word of an instruction: its row's `match` with the operand fields put in their places. -/
def encode : Instr → Word
  | .add rt ra rb oe rc =>
    0x7C000214#32 ||| place rt 21 ||| place ra 16 ||| place rb 11 ||| placeBit oe 10 ||| placeBit rc 0
  | .addc rt ra rb oe rc =>
    0x7C000014#32 ||| place rt 21 ||| place ra 16 ||| place rb 11 ||| placeBit oe 10 ||| placeBit rc 0
  | .adde rt ra rb oe rc =>
    0x7C000114#32 ||| place rt 21 ||| place ra 16 ||| place rb 11 ||| placeBit oe 10 ||| placeBit rc 0
  | .addi rt ra im => 0x38000000#32 ||| place rt 21 ||| place ra 16 ||| place im 0
  | .addic rt ra im => 0x30000000#32 ||| place rt 21 ||| place ra 16 ||| place im 0
  | .addicRc rt ra im => 0x34000000#32 ||| place rt 21 ||| place ra 16 ||| place im 0
  | .addis rt ra im => 0x3C000000#32 ||| place rt 21 ||| place ra 16 ||| place im 0
  | .addme rt ra oe rc => 0x7C0001D4#32 ||| place rt 21 ||| place ra 16 ||| placeBit oe 10 ||| placeBit rc 0
  | .addze rt ra oe rc => 0x7C000194#32 ||| place rt 21 ||| place ra 16 ||| placeBit oe 10 ||| placeBit rc 0
  | .divw rt ra rb oe rc =>
    0x7C0003D6#32 ||| place rt 21 ||| place ra 16 ||| place rb 11 ||| placeBit oe 10 ||| placeBit rc 0
  | .divwu rt ra rb oe rc =>
    0x7C000396#32 ||| place rt 21 ||| place ra 16 ||| place rb 11 ||| placeBit oe 10 ||| placeBit rc 0
  | .mulhw rt ra rb rc => 0x7C000096#32 ||| place rt 21 ||| place ra 16 ||| place rb 11 ||| placeBit rc 0
  | .mulhwu rt ra rb rc => 0x7C000016#32 ||| place rt 21 ||| place ra 16 ||| place rb 11 ||| placeBit rc 0
  | .mulli rt ra im => 0x1C000000#32 ||| place rt 21 ||| place ra 16 ||| place im 0
  | .mullw rt ra rb oe rc =>
    0x7C0001D6#32 ||| place rt 21 ||| place ra 16 ||| place rb 11 ||| placeBit oe 10 ||| placeBit rc 0
  | .neg rt ra oe rc => 0x7C0000D0#32 ||| place rt 21 ||| place ra 16 ||| placeBit oe 10 ||| placeBit rc 0
  | .subf rt ra rb oe rc =>
    0x7C000050#32 ||| place rt 21 ||| place ra 16 ||| place rb 11 ||| placeBit oe 10 ||| placeBit rc 0
  | .subfc rt ra rb oe rc =>
    0x7C000010#32 ||| place rt 21 ||| place ra 16 ||| place rb 11 ||| placeBit oe 10 ||| placeBit rc 0
  | .subfe rt ra rb oe rc =>
    0x7C000110#32 ||| place rt 21 ||| place ra 16 ||| place rb 11 ||| placeBit oe 10 ||| placeBit rc 0
  | .subfic rt ra im => 0x20000000#32 ||| place rt 21 ||| place ra 16 ||| place im 0
  | .subfme rt ra oe rc => 0x7C0001D0#32 ||| place rt 21 ||| place ra 16 ||| placeBit oe 10 ||| placeBit rc 0
  | .subfze rt ra oe rc => 0x7C000190#32 ||| place rt 21 ||| place ra 16 ||| placeBit oe 10 ||| placeBit rc 0
  | .and ra rs rb rc => 0x7C000038#32 ||| place ra 16 ||| place rs 21 ||| place rb 11 ||| placeBit rc 0
  | .andc ra rs rb rc => 0x7C000078#32 ||| place ra 16 ||| place rs 21 ||| place rb 11 ||| placeBit rc 0
  | .andiRc ra rs im => 0x70000000#32 ||| place ra 16 ||| place rs 21 ||| place im 0
  | .andisRc ra rs im => 0x74000000#32 ||| place ra 16 ||| place rs 21 ||| place im 0
  | .cntlzw ra rs rc => 0x7C000034#32 ||| place ra 16 ||| place rs 21 ||| placeBit rc 0
  | .eqv ra rs rb rc => 0x7C000238#32 ||| place ra 16 ||| place rs 21 ||| place rb 11 ||| placeBit rc 0
  | .extsb ra rs rc => 0x7C000774#32 ||| place ra 16 ||| place rs 21 ||| placeBit rc 0
  | .extsh ra rs rc => 0x7C000734#32 ||| place ra 16 ||| place rs 21 ||| placeBit rc 0
  | .nand ra rs rb rc => 0x7C0003B8#32 ||| place ra 16 ||| place rs 21 ||| place rb 11 ||| placeBit rc 0
  | .nor ra rs rb rc => 0x7C0000F8#32 ||| place ra 16 ||| place rs 21 ||| place rb 11 ||| placeBit rc 0
  | .or ra rs rb rc => 0x7C000378#32 ||| place ra 16 ||| place rs 21 ||| place rb 11 ||| placeBit rc 0
  | .orc ra rs rb rc => 0x7C000338#32 ||| place ra 16 ||| place rs 21 ||| place rb 11 ||| placeBit rc 0
  | .ori ra rs im => 0x60000000#32 ||| place ra 16 ||| place rs 21 ||| place im 0
  | .oris ra rs im => 0x64000000#32 ||| place ra 16 ||| place rs 21 ||| place im 0
  | .xor ra rs rb rc => 0x7C000278#32 ||| place ra 16 ||| place rs 21 ||| place rb 11 ||| placeBit rc 0
  | .xori ra rs im => 0x68000000#32 ||| place ra 16 ||| place rs 21 ||| place im 0
  | .xoris ra rs im => 0x6C000000#32 ||| place ra 16 ||| place rs 21 ||| place im 0
  | .rlwimi ra rs sh mb me rc =>
    0x50000000#32 ||| place ra 16 ||| place rs 21 ||| place sh 11 ||| place mb 6 ||| place me 1 ||| placeBit rc 0
  | .rlwinm ra rs sh mb me rc =>
    0x54000000#32 ||| place ra 16 ||| place rs 21 ||| place sh 11 ||| place mb 6 ||| place me 1 ||| placeBit rc 0
  | .rlwnm ra rs rb mb me rc =>
    0x5C000000#32 ||| place ra 16 ||| place rs 21 ||| place rb 11 ||| place mb 6 ||| place me 1 ||| placeBit rc 0
  | .slw ra rs rb rc => 0x7C000030#32 ||| place ra 16 ||| place rs 21 ||| place rb 11 ||| placeBit rc 0
  | .sraw ra rs rb rc => 0x7C000630#32 ||| place ra 16 ||| place rs 21 ||| place rb 11 ||| placeBit rc 0
  | .srawi ra rs sh rc => 0x7C000670#32 ||| place ra 16 ||| place rs 21 ||| place sh 11 ||| placeBit rc 0
  | .srw ra rs rb rc => 0x7C000430#32 ||| place ra 16 ||| place rs 21 ||| place rb 11 ||| placeBit rc 0
  | .cmp bf ra rb b31 => 0x7C000000#32 ||| place bf 23 ||| place ra 16 ||| place rb 11 ||| placeBit b31 0
  | .cmpi bf ra im => 0x2C000000#32 ||| place bf 23 ||| place ra 16 ||| place im 0
  | .cmpl bf ra rb b31 => 0x7C000040#32 ||| place bf 23 ||| place ra 16 ||| place rb 11 ||| placeBit b31 0
  | .cmpli bf ra im => 0x28000000#32 ||| place bf 23 ||| place ra 16 ||| place im 0
  | .crand bt ba bb => 0x4C000202#32 ||| place bt 21 ||| place ba 16 ||| place bb 11
  | .crandc bt ba bb => 0x4C000102#32 ||| place bt 21 ||| place ba 16 ||| place bb 11
  | .creqv bt ba bb => 0x4C000242#32 ||| place bt 21 ||| place ba 16 ||| place bb 11
  | .crnand bt ba bb => 0x4C0001C2#32 ||| place bt 21 ||| place ba 16 ||| place bb 11
  | .crnor bt ba bb => 0x4C000042#32 ||| place bt 21 ||| place ba 16 ||| place bb 11
  | .cror bt ba bb => 0x4C000382#32 ||| place bt 21 ||| place ba 16 ||| place bb 11
  | .crorc bt ba bb => 0x4C000342#32 ||| place bt 21 ||| place ba 16 ||| place bb 11
  | .crxor bt ba bb => 0x4C000182#32 ||| place bt 21 ||| place ba 16 ||| place bb 11
  | .mcrf bf bfa => 0x4C000000#32 ||| place bf 23 ||| place bfa 18
  | .mcrxr bf b31 => 0x7C000400#32 ||| place bf 23 ||| placeBit b31 0
  | .mfcr rt b31 => 0x7C000026#32 ||| place rt 21 ||| placeBit b31 0
  | .mtcrf fxm rs b31 => 0x7C000120#32 ||| place fxm 12 ||| place rs 21 ||| placeBit b31 0
  | .b li aa lk => 0x48000000#32 ||| place li 2 ||| placeBit aa 1 ||| placeBit lk 0
  | .bc bo bi bd aa lk =>
    0x40000000#32 ||| place bo 21 ||| place bi 16 ||| place bd 2 ||| placeBit aa 1 ||| placeBit lk 0
  | .bcctr bo bi lk => 0x4C000420#32 ||| place bo 21 ||| place bi 16 ||| placeBit lk 0
  | .bclr bo bi lk => 0x4C000020#32 ||| place bo 21 ||| place bi 16 ||| placeBit lk 0
  | .lbz rt d ra => 0x88000000#32 ||| place rt 21 ||| place d 0 ||| place ra 16
  | .lbzu rt d ra => 0x8C000000#32 ||| place rt 21 ||| place d 0 ||| place ra 16
  | .lbzux rt ra rb b31 => 0x7C0000EE#32 ||| place rt 21 ||| place ra 16 ||| place rb 11 ||| placeBit b31 0
  | .lbzx rt ra rb b31 => 0x7C0000AE#32 ||| place rt 21 ||| place ra 16 ||| place rb 11 ||| placeBit b31 0
  | .lha rt d ra => 0xA8000000#32 ||| place rt 21 ||| place d 0 ||| place ra 16
  | .lhau rt d ra => 0xAC000000#32 ||| place rt 21 ||| place d 0 ||| place ra 16
  | .lhaux rt ra rb b31 => 0x7C0002EE#32 ||| place rt 21 ||| place ra 16 ||| place rb 11 ||| placeBit b31 0
  | .lhax rt ra rb b31 => 0x7C0002AE#32 ||| place rt 21 ||| place ra 16 ||| place rb 11 ||| placeBit b31 0
  | .lhbrx rt ra rb b31 => 0x7C00062C#32 ||| place rt 21 ||| place ra 16 ||| place rb 11 ||| placeBit b31 0
  | .lhz rt d ra => 0xA0000000#32 ||| place rt 21 ||| place d 0 ||| place ra 16
  | .lhzu rt d ra => 0xA4000000#32 ||| place rt 21 ||| place d 0 ||| place ra 16
  | .lhzux rt ra rb b31 => 0x7C00026E#32 ||| place rt 21 ||| place ra 16 ||| place rb 11 ||| placeBit b31 0
  | .lhzx rt ra rb b31 => 0x7C00022E#32 ||| place rt 21 ||| place ra 16 ||| place rb 11 ||| placeBit b31 0
  | .lwarx rt ra rb b31 => 0x7C000028#32 ||| place rt 21 ||| place ra 16 ||| place rb 11 ||| placeBit b31 0
  | .lwbrx rt ra rb b31 => 0x7C00042C#32 ||| place rt 21 ||| place ra 16 ||| place rb 11 ||| placeBit b31 0
  | .lwz rt d ra => 0x80000000#32 ||| place rt 21 ||| place d 0 ||| place ra 16
  | .lwzu rt d ra => 0x84000000#32 ||| place rt 21 ||| place d 0 ||| place ra 16
  | .lwzux rt ra rb b31 => 0x7C00006E#32 ||| place rt 21 ||| place ra 16 ||| place rb 11 ||| placeBit b31 0
  | .lwzx rt ra rb b31 => 0x7C00002E#32 ||| place rt 21 ||| place ra 16 ||| place rb 11 ||| placeBit b31 0
  | .stb rs d ra => 0x98000000#32 ||| place rs 21 ||| place d 0 ||| place ra 16
  | .stbu rs d ra => 0x9C000000#32 ||| place rs 21 ||| place d 0 ||| place ra 16
  | .stbux rs ra rb b31 => 0x7C0001EE#32 ||| place rs 21 ||| place ra 16 ||| place rb 11 ||| placeBit b31 0
  | .stbx rs ra rb b31 => 0x7C0001AE#32 ||| place rs 21 ||| place ra 16 ||| place rb 11 ||| placeBit b31 0
  | .sth rs d ra => 0xB0000000#32 ||| place rs 21 ||| place d 0 ||| place ra 16
  | .sthbrx rs ra rb b31 => 0x7C00072C#32 ||| place rs 21 ||| place ra 16 ||| place rb 11 ||| placeBit b31 0
  | .sthu rs d ra => 0xB4000000#32 ||| place rs 21 ||| place d 0 ||| place ra 16
  | .sthux rs ra rb b31 => 0x7C00036E#32 ||| place rs 21 ||| place ra 16 ||| place rb 11 ||| placeBit b31 0
  | .sthx rs ra rb b31 => 0x7C00032E#32 ||| place rs 21 ||| place ra 16 ||| place rb 11 ||| placeBit b31 0
  | .stw rs d ra => 0x90000000#32 ||| place rs 21 ||| place d 0 ||| place ra 16
  | .stwbrx rs ra rb b31 => 0x7C00052C#32 ||| place rs 21 ||| place ra 16 ||| place rb 11 ||| placeBit b31 0
  | .stwcxRc rs ra rb => 0x7C00012D#32 ||| place rs 21 ||| place ra 16 ||| place rb 11
  | .stwu rs d ra => 0x94000000#32 ||| place rs 21 ||| place d 0 ||| place ra 16
  | .stwux rs ra rb b31 => 0x7C00016E#32 ||| place rs 21 ||| place ra 16 ||| place rb 11 ||| placeBit b31 0
  | .stwx rs ra rb b31 => 0x7C00012E#32 ||| place rs 21 ||| place ra 16 ||| place rb 11 ||| placeBit b31 0
  | .lmw rt d ra => 0xB8000000#32 ||| place rt 21 ||| place d 0 ||| place ra 16
  | .lswi rt ra nb b31 => 0x7C0004AA#32 ||| place rt 21 ||| place ra 16 ||| place nb 11 ||| placeBit b31 0
  | .lswx rt ra rb b31 => 0x7C00042A#32 ||| place rt 21 ||| place ra 16 ||| place rb 11 ||| placeBit b31 0
  | .stmw rs d ra => 0xBC000000#32 ||| place rs 21 ||| place d 0 ||| place ra 16
  | .stswi rs ra nb b31 => 0x7C0005AA#32 ||| place rs 21 ||| place ra 16 ||| place nb 11 ||| placeBit b31 0
  | .stswx rs ra rb b31 => 0x7C00052A#32 ||| place rs 21 ||| place ra 16 ||| place rb 11 ||| placeBit b31 0
  | .dcbf ra rb b31 => 0x7C0000AC#32 ||| place ra 16 ||| place rb 11 ||| placeBit b31 0
  | .dcbi ra rb b31 => 0x7C0003AC#32 ||| place ra 16 ||| place rb 11 ||| placeBit b31 0
  | .dcbst ra rb b31 => 0x7C00006C#32 ||| place ra 16 ||| place rb 11 ||| placeBit b31 0
  | .dcbt ra rb b31 => 0x7C00022C#32 ||| place ra 16 ||| place rb 11 ||| placeBit b31 0
  | .dcbtst ra rb b31 => 0x7C0001EC#32 ||| place ra 16 ||| place rb 11 ||| placeBit b31 0
  | .dcbz ra rb b31 => 0x7C0007EC#32 ||| place ra 16 ||| place rb 11 ||| placeBit b31 0
  | .dccci ra rb b31 => 0x7C00038C#32 ||| place ra 16 ||| place rb 11 ||| placeBit b31 0
  | .dcread rt ra rb b31 => 0x7C0003CC#32 ||| place rt 21 ||| place ra 16 ||| place rb 11 ||| placeBit b31 0
  | .icbi ra rb b31 => 0x7C0007AC#32 ||| place ra 16 ||| place rb 11 ||| placeBit b31 0
  | .icbt ra rb b31 => 0x7C00020C#32 ||| place ra 16 ||| place rb 11 ||| placeBit b31 0
  | .iccci ra rb b31 => 0x7C00078C#32 ||| place ra 16 ||| place rb 11 ||| placeBit b31 0
  | .icread ra rb b31 => 0x7C0007CC#32 ||| place ra 16 ||| place rb 11 ||| placeBit b31 0
  | .sync b31 => 0x7C0004AC#32 ||| placeBit b31 0
  | .eieio b31 => 0x7C0006AC#32 ||| placeBit b31 0
  | .isync b31 => 0x4C00012C#32 ||| placeBit b31 0
  | .sc => 0x44000002#32
  | .rfi => 0x4C000064#32
  | .rfci => 0x4C000066#32
  | .mfmsr rt b31 => 0x7C0000A6#32 ||| place rt 21 ||| placeBit b31 0
  | .mtmsr rs b31 => 0x7C000124#32 ||| place rs 21 ||| placeBit b31 0
  | .wrtee rs b31 => 0x7C000106#32 ||| place rs 21 ||| placeBit b31 0
  | .wrteei e b31 => 0x7C000146#32 ||| placeBit e 15 ||| placeBit b31 0
  | .mfspr rt sprn b31 => 0x7C0002A6#32 ||| place rt 21 ||| place (swapHalves sprn) 11 ||| placeBit b31 0
  | .mtspr sprn rs b31 => 0x7C0003A6#32 ||| place (swapHalves sprn) 11 ||| place rs 21 ||| placeBit b31 0
  | .mfdcr rt dcrn b31 => 0x7C000286#32 ||| place rt 21 ||| place (swapHalves dcrn) 11 ||| placeBit b31 0
  | .mtdcr dcrn rs b31 => 0x7C000386#32 ||| place (swapHalves dcrn) 11 ||| place rs 21 ||| placeBit b31 0
  | .tw tcond ra rb b31 => 0x7C000008#32 ||| place tcond 21 ||| place ra 16 ||| place rb 11 ||| placeBit b31 0
  | .twi tcond ra im => 0x0C000000#32 ||| place tcond 21 ||| place ra 16 ||| place im 0
  | .tlbia => 0x7C0002E4#32
  | .tlbre rt ra ws b31 => 0x7C000764#32 ||| place rt 21 ||| place ra 16 ||| place ws 11 ||| placeBit b31 0
  | .tlbsx rt ra rb rc => 0x7C000724#32 ||| place rt 21 ||| place ra 16 ||| place rb 11 ||| placeBit rc 0
  | .tlbsync => 0x7C00046C#32
  | .tlbwe rs ra ws b31 => 0x7C0007A4#32 ||| place rs 21 ||| place ra 16 ||| place ws 11 ||| placeBit b31 0

/-- The four bytes of an instruction in storage order. -/
def encodeBytes (i : Instr) : List Byte := bytesOfWord (encode i)

end Sys2Proof
end

