-- ==== Sys2Proof/Machine/Fetch.lean ====
section
/-! DEFINITION. Fetching the next instruction (20_memory.md R105), the prefetch queue (R133), taking a pending
interrupt (60_exceptions.md R526, R528), and placing an instruction where it will be fetched. -/

namespace Sys2Proof.Machine

/-- The byte a fetch finds in the instruction cache, or in main storage when the block is not there or the address is
not cacheable. -/
def State.instrByte (s : State) (p : Place) (a : Word) : Byte :=
  match if p.cacheable then s.ihit a else none with
  | some side => (s.iline (iclass a) side).data.get (blockByte a).toFin
  | none => s.storage a

/-- Every byte a fetch may see at a real address: that of main storage, that of a line of the instruction cache, that
of a modified line of the data cache, and the old bytes that are still kept (10_state.md R84, 20_memory.md R133). -/
def State.fetchable (s : State) (a : Word) : List Byte :=
  s.storage a ::
    ((match s.ihit a with
      | some side => [(s.iline (iclass a) side).data.get (blockByte a).toFin]
      | none => []) ++
     (match s.dhit a with
      | some side => if (s.dline (dclass a) side).d then [(s.dline (dclass a) side).data.get (blockByte a).toFin] else []
      | none => []) ++
     (s.stale.filter (fun o => o.addr == a)).map (·.byte))

/-- One byte of an instruction: the byte found, or, when the address may show another one, one of them freely chosen
(20_memory.md R133). -/
def fetchByte (p : Place) (a : Word) (s : State) : Byte × State :=
  let b := s.instrByte p a
  match s.choose (b :: (s.fetchable a).filter (fun x => x != b)) with
  | (some x, s1) => (x, s1)
  | (none, s1) => (b, s1)

/-- The four bytes of the instruction at a place, the lowest address the most significant (20_memory.md R105). -/
def fetchBytes (p : Place) (s : State) : List Byte × State :=
  let (b0, s0) := fetchByte p p.real s
  let (b1, s1) := fetchByte p (p.real + 1#32) s0
  let (b2, s2) := fetchByte p (p.real + 2#32) s1
  let (b3, s3) := fetchByte p (p.real + 3#32) s2
  ([b0, b1, b2, b3], s3)

/-- A fetch that misses the instruction cache needs main storage. -/
def checkFetch (p : Place) (s : State) : Result Unit :=
  if p.cacheable && (s.ihit p.real).isSome then .ok () s else checkStorage p.real 4 s

/-- Fetch the bytes of the next instruction: little-endian mode is refused (20_memory.md R106), then translation and
protection, then storage (60_exceptions.md R529). -/
def fetch (s : State) : Result (List Byte) :=
  if s.msrBit msrLE then .refuse .littleEndian
  else
    (fetchPlace s).bind fun p s1 =>
    (checkFetch p s1).bind fun _ s2 =>
    let (bs, s3) := fetchBytes p (s2.itouch p)
    .ok bs s3

/-- Whether the class of an interrupt is enabled (60_exceptions.md R526). -/
def State.irqEnabled (s : State) : Irq → Bool
  | .machineCheck => s.msrBit msrME
  | .criticalPin => s.msrBit msrCE
  | .watchdog => s.msrBit msrCE
  | .external => s.msrBit msrEE
  | .fit => s.msrBit msrEE
  | .pit => s.msrBit msrEE

/-- The order in which pending interrupts are taken (60_exceptions.md R528). -/
def irqOrder : List Irq := [.machineCheck, .criticalPin, .watchdog, .external, .fit, .pit]

/-- The pending and enabled interrupt that is taken next, if any. -/
def State.nextIrq (s : State) : Option Irq := irqOrder.find? (fun i => s.pending.contains i && s.irqEnabled i)

/-- Take an interrupt instead of the next instruction (60_exceptions.md R503, R526). A machine check has no handler
entry in the spec (R522). -/
def takeIrq (i : Irq) (s : State) : Out :=
  let s1 := s.setPending (s.pending.erase i)
  match i with
  | .machineCheck => .fault .machineCheck
  | .criticalPin => enter true s.pc 0x0100#16 s1
  | .watchdog => enter true s.pc 0x1020#16 s1
  | .external => enter false s.pc 0x0500#16 s1
  | .fit => enter false s.pc 0x1010#16 s1
  | .pit => enter false s.pc 0x1000#16 s1

/-- What the decoder makes of the fetched bytes. -/
def decodeFetched (bs : List Byte) : Decoded :=
  match decodeBytes bs with
  | some (d, _) => d
  | none => .illegal

/-- The real address the next fetch goes to; the pc itself where nothing translates it. -/
def State.fetchAddress (s : State) : Word :=
  if s.msrBit msrIR then
    match (s.tlbPick s.pc).1 with
    | some i => (s.tlbEntry i).realAddress s.pc
    | none => s.pc
  else s.pc

/-- Put a byte where the next fetch finds it and nothing else: in main storage, in a data cache line that has the
address, with no older byte left in the prefetch queue. -/
def State.placeByte (s : State) (a : Word) (b : Byte) : State :=
  let s1 := (s.setMem (memSet s.mem a.toNat b)).setStale (s.stale.filter (fun o => o.addr != a))
  match s1.dhit a with
  | none => s1
  | some side =>
    let l := s1.dline (dclass a) side
    s1.setDline (dclass a) side { l with data := l.data.set (blockByte a).toNat b (blockByte a).isLt }

/-- Put an instruction word at a real address, in storage order, and drop the block from the instruction cache. -/
def State.placeWord (s : State) (a w : Word) : State :=
  let s1 := (s.setIline (iclass a) .a { s.iline (iclass a) .a with v := false }).setIline (iclass a) .b
    { s.iline (iclass a) .b with v := false }
  let s2 := match s.ihit a with
    | some _ => s1
    | none => s
  (((s2.placeByte a (byteOfWord w 0)).placeByte (a + 1#32) (byteOfWord w 1)).placeByte (a + 2#32)
    (byteOfWord w 2)).placeByte (a + 3#32) (byteOfWord w 3)

end Sys2Proof.Machine
end

