-- ==== Sys2Proof/Machine/Step.lean ====
section
/-! DEFINITION. One step of the machine. -/

namespace Sys2Proof.Machine

/-- Run what was fetched: an illegal word raises Program(illegal), an invalid form is refused by name
(30_encoding.md R152, 60_exceptions.md R512). -/
def runDecoded (d : Decoded) (s : State) : Out :=
  match d with
  | .ok i => exec i s
  | .illegal => raise .illegal s
  | .reservedBits m => .refused (.reservedField m)

/-- Fetch, decode and run one instruction; an exception of the fetch is taken instead. -/
def runNext (s : State) : Out :=
  match fetch s with
  | .ok bs s1 => runDecoded (decodeFetched bs) s1
  | .exc x s1 => raise x s1
  | .stop f => .fault f
  | .refuse r => .refused r

/-- One step: Debug Stop has none; a pending and enabled interrupt is taken; else the wait state has no step; else
the next instruction runs (70_reset_and_hazards.md R582, 60_exceptions.md R526, R529, R544). -/
def step (s : State) : Host.Outcome State Fault Refusal :=
  if s.debugStopped then .fault .debugStop
  else
    match s.nextIrq with
    | some i => takeIrq i s
    | none => if s.msrBit msrWE then .fault .waitState else runNext s

/-- The state with an instruction of `nbits` bits, numbered from the least significant, stored where step fetches its
next instruction. -/
def State.withFetchWord (s : State) (nbits w : Nat) : State :=
  s.placeWord s.fetchAddress (BitVec.ofNat 32 (w % 2 ^ nbits))

end Sys2Proof.Machine
end

