-- ==== Sys2Proof/Safety.lean ====
section
/-! DEFINITION. What every run keeps, and the words in which the statements say what an instruction changes. -/

namespace Sys2Proof.Machine

/-- Main storage has its one canonical form. -/
def State.MemoryCanonical (s : State) : Prop := Memory.wf s.mem = true

/-- The program counter is a multiple of 4 (10_state.md R44, R45). -/
def State.PcAligned (s : State) : Prop := s.pc &&& 3#32 = 0#32

/-- MSR.LE is 0 (20_memory.md R106). -/
def State.BigEndian (s : State) : Prop := s.msrBit msrLE = false

/-- The two valid lines of a data cache class hold different blocks. -/
def State.DataLinesUnique (s : State) : Prop :=
  ∀ c, (s.dline c .a).v = true → (s.dline c .b).v = true → (s.dline c .a).tag ≠ (s.dline c .b).tag

/-- The two valid lines of an instruction cache class hold different blocks. -/
def State.InstrLinesUnique (s : State) : Prop :=
  ∀ c, (s.iline c .a).v = true → (s.iline c .b).v = true → (s.iline c .a).tag ≠ (s.iline c .b).tag

/-- A valid data cache line that is not modified holds what main storage holds (47_cache_sync.md R422). -/
def State.CleanLinesAgree (s : State) : Prop :=
  ∀ c side, (s.dline c side).v = true → (s.dline c side).d = false →
    ∀ i : Fin 16, (s.dline c side).data.get i =
      s.storage (dlineBase c (s.dline c side).tag + BitVec.ofNat 32 i.val)

/-- Main storage and the data cache are in order: every step keeps this. -/
structure State.MemoryCoherent (s : State) : Prop where
  canonical : s.MemoryCanonical
  unique : s.DataLinesUnique
  clean : s.CleanLinesAgree

/-- The machine is at Level 0 of 47_cache_sync.md R429, or knows that it has left it since reset. -/
def State.LevelKnown (s : State) : Prop := s.levelZero = true ∨ s.cachingSeen = true

/-- `n` addresses from `a` on are plain storage (20_memory.md R113, R114). -/
def State.PlainAt (s : State) (a : Word) (n : Nat) : Prop :=
  s.touches .absent a n = false ∧ s.touches .device a n = false

/-- Every block that the data cache may have to copy back is plain storage. -/
def State.LinesPlain (s : State) : Prop :=
  ∀ c side, (s.dline c side).v = true → (s.dline c side).d = true → s.PlainAt (dlineBase c (s.dline c side).tag) 16

/-- Data addresses are real addresses, no bounds are tested, and all of the address space is plain storage. -/
structure State.RealStorage (s : State) : Prop where
  bigEndian : s.BigEndian
  coherent : s.MemoryCoherent
  untranslated : s.msrBit msrDR = false
  unbounded : s.msrBit msrPE = false
  plain : s.memMap = []

/-- A load or store of `n` bytes at EA goes through, to the place `p`: the mode is big-endian, EA is aligned,
translation and protection pass, and storage answers (60_exceptions.md R529). -/
structure State.CanAccess (s : State) (ea : Word) (n : Nat) (store : Bool) (p : Place) : Prop where
  bigEndian : s.BigEndian
  coherent : s.MemoryCoherent
  linesPlain : s.LinesPlain
  aligned : ea.toNat % n = 0
  translated : ∃ s1, dataPlace .data ea store s = .ok p s1
  plain : s.PlainAt p.real n

/-- Every block that is in the data cache is plain storage: it can be copied back whatever is stored in it. -/
def State.BlocksPlain (s : State) : Prop :=
  ∀ c side, (s.dline c side).v = true → s.PlainAt (dlineBase c (s.dline c side).tag) 16

/-- The accesses of a multiple or string go through: the one numbered `k`, of `n` bytes at `n * k` from EA, to the
place `place k`, whatever is drawn before it. The numbers are those that `made` holds of (46_multiple_string.md R400,
60_exceptions.md R529). -/
structure State.CanAccessEach (s : State) (ea : Word) (n : Nat) (store : Bool) (made : Nat → Prop)
    (place : Nat → Place) : Prop where
  bigEndian : s.BigEndian
  coherent : s.MemoryCoherent
  blocksPlain : s.BlocksPlain
  aligned : ea.toNat % n = 0
  translated : ∀ k, made k → ∀ draws, ∃ s1,
    dataPlace .data (ea + BitVec.ofNat 32 (n * k)) store (s.setDraws draws) = .ok (place k) s1
  plain : ∀ k, made k → s.PlainAt (place k).real n

/-- The pieces of State that a statement may say are unchanged. The pc, the draws, the prefetch queue, the mark of
icread and the mark that Level 0 has been left are not among them. -/
inductive Part where
  | reg (r : Reg)
  | crField (n : BitVec 3)
  | spr (r : Spr)
  | msr
  | tlb
  | dcr
  | reserve
  /-- Every byte the processor sees. -/
  | memory
  /-- Every byte of main storage. -/
  | storage
  | dataCache
  | instrCache
  /-- The Debug Stop state. -/
  | stopped
  /-- The memory map and the pending interrupts. -/
  | outside
deriving DecidableEq, Repr

/-- A piece of State is the same in both states. -/
def Part.Same (s t : State) : Part → Prop
  | .reg r => t.reg r = s.reg r
  | .crField n => t.crField n = s.crField n
  | .spr r => t.sprVal r = s.sprVal r
  | .msr => t.msr = s.msr
  | .tlb => t.tlb = s.tlb
  | .dcr => t.dcr = s.dcr
  | .reserve => t.reserve = s.reserve
  | .memory => ∀ a, t.dataByte a = s.dataByte a
  | .storage => ∀ a, t.storage a = s.storage a
  | .dataCache => t.dcache = s.dcache
  | .instrCache => t.icache = s.icache
  | .stopped => t.debugStopped = s.debugStopped
  | .outside => t.memMap = s.memMap ∧ t.pending = s.pending

/-- Every piece but the listed ones is the same. -/
def Unchanged (changed : List Part) (s t : State) : Prop := ∀ p, p ∉ changed → Part.Same s t p

/-- All the fields of the condition register. -/
def crFields : List Part :=
  [.crField 0, .crField 1, .crField 2, .crField 3, .crField 4, .crField 5, .crField 6, .crField 7]

/-- CR field 0 among the changed pieces: when the record bit is 1, or the reserved bit 31 is (10_state.md R50, R51). -/
def cr0If (b : Bool) : List Part := if b then [.crField 0] else []

/-- CR field 0 holds the signed comparison of a result with 0 and the SO of the state (10_state.md R50). -/
def State.RecordsResult (t : State) (r : Word) : Prop :=
  t.crBit 0 = decide (r.toInt < 0) ∧ t.crBit 1 = decide (r.toInt > 0) ∧ t.crBit 2 = decide (r.toInt = 0) ∧
    t.crBit 3 = t.so

/-- An instruction completes in a next state with the pc at the next instruction, `done` holding of it, and every
piece but the listed ones the same. -/
def Completes (i : Instr) (s : State) (changed : List Part) (done : State → Prop) : Prop :=
  ∃ t, exec i s = .next t ∧ t.pc = s.pc + 4#32 ∧ Unchanged changed s t ∧ done t

/-- An instruction writes one register, records if asked, and changes nothing else. -/
def WritesReg (i : Instr) (s : State) (r : Reg) (v : Word) (rc : Bool) : Prop :=
  Completes i s (.reg r :: cr0If rc) fun t => t.reg r = v ∧ (rc = true → t.RecordsResult v)

/-- What an arithmetic instruction leaves in XER: CA when it is written, OV and the sticky SO when OE is 1, the other
bits as they were (10_state.md R53, R54). -/
def XerAfter (s t : State) (ca : Option Bool) (oe ov : Bool) : Prop :=
  bit t.xer xerCA = ca.getD (bit s.xer xerCA) ∧
  bit t.xer xerOV = (if oe then ov else bit s.xer xerOV) ∧
  bit t.xer xerSO = (if oe then bit s.xer xerSO || ov else bit s.xer xerSO) ∧
  ∀ k, 3 ≤ k → k < 32 → bit t.xer k = bit s.xer k

/-- An arithmetic instruction writes one register, leaves XER as said, records if asked, and changes nothing else. -/
def WritesArith (i : Instr) (s : State) (r : Reg) (v : Word) (ca : Option Bool) (oe ov rc : Bool) : Prop :=
  Completes i s (.reg r :: .spr .xer :: cr0If rc) fun t =>
    t.reg r = v ∧ XerAfter s t ca oe ov ∧ (rc = true → t.RecordsResult v)

/-- A load: the target, the base when it is updated, and nothing else that the processor sees. Lines may be read
into the data cache, and modified ones copied back. -/
def LoadsReg (i : Instr) (s : State) (rt : Reg) (v : Word) (base : Option (Reg × Word)) (b31 : Bool) : Prop :=
  Completes i s (.reg rt :: .storage :: .dataCache :: (base.toList.map fun u => Part.reg u.1) ++ cr0If b31) fun t =>
    t.reg rt = v ∧ ∀ u ∈ base, t.reg u.1 = u.2

/-- A store of `n` bytes at the real address `a`: those bytes, the base when it is updated, and nothing else that the
processor sees. -/
def StoresBytes (i : Instr) (s : State) (a : Word) (n : Nat) (bytes : Nat → Byte) (base : Option (Reg × Word))
    (b31 : Bool) : Prop :=
  Completes i s (.memory :: .storage :: .dataCache :: (base.toList.map fun u => Part.reg u.1) ++ cr0If b31) fun t =>
    (∀ k < n, t.dataByte (a + BitVec.ofNat 32 k) = bytes k) ∧
    (∀ x, (∀ k < n, x ≠ a + BitVec.ofNat 32 k) → t.dataByte x = s.dataByte x) ∧ ∀ u ∈ base, t.reg u.1 = u.2

/-- All the general registers. -/
def allRegs : List Part := (List.range 32).map fun k => Part.reg (BitVec.ofNat 5 k)

/-- The halfword the processor sees at a real address (20_memory.md R103). -/
def State.seenHalf (s : State) (a : Word) : Half := s.dataByte a ++ s.dataByte (a + 1#32)

/-- The word the processor sees at a real address (20_memory.md R103). -/
def State.seenWord (s : State) (a : Word) : Word :=
  s.dataByte a ++ s.dataByte (a + 1#32) ++ s.dataByte (a + 2#32) ++ s.dataByte (a + 3#32)

/-- CR field 0 holds these four bits. -/
def State.Cr0Is (t : State) (lt gt eq so : Bool) : Prop :=
  t.crBit 0 = lt ∧ t.crBit 1 = gt ∧ t.crBit 2 = eq ∧ t.crBit 3 = so

/-- A signed value that 32 bits do not hold (10_state.md R54). -/
def outOfRange (x : Int) : Bool := decide (x < -(2 ^ 31)) || decide (2 ^ 31 ≤ x)

/-- Bit `k`, counted from the left, is in the mask of MB and ME, which wraps when MB is above ME
(42_rotate_shift.md R271). -/
def inMask (mb me k : Nat) : Bool :=
  if mb ≤ me then decide (mb ≤ k) && decide (k ≤ me) else decide (k ≤ me) || decide (mb ≤ k)

/-- Two addresses are in one 16-byte block (47_cache_sync.md R420). -/
def sameBlock (a b : Word) : Bool := dclass a == dclass b && dtag a == dtag b

/-- A cache instruction's address passes translation and protection, to the place `p`, and no copy back can stop. -/
structure State.CanOperate (s : State) (side : CacheSide) (ea : Word) (store : Bool) (p : Place) : Prop where
  coherent : s.MemoryCoherent
  linesPlain : s.LinesPlain
  translated : ∃ s1, dataPlace side ea store s = .ok p s1

/-- The MSR bits an entry clears (60_exceptions.md R502). -/
def clearedBits (critical : Bool) : List Nat :=
  if critical then [13, 14, 16, 17, 22, 26, 27, 28] else [13, 16, 17, 26, 27, 28]

/-- What a context-synchronizing operation leaves of the old bytes a fetch may still see: none when the
run has been at Level 0 of 47_cache_sync.md R429 from reset on, else all but those that the prefetch queue alone may still have (20_memory.md R124, R133). -/
def QueueDiscarded (s t : State) : Prop :=
  ∀ o, o ∈ t.stale ↔ o ∈ s.stale ∧ s.levelZero = false ∧ o.stage ≠ .queued

/-- The state after an entry of a class to `EVPR[0:15] || offset` with a saved address: the save registers of the
class, the MSR and the pc, every other register and memory as they were but for the listed special purpose registers,
the prefetch queue discarded (60_exceptions.md R501 to R503, R505). -/
structure Entered (critical : Bool) (saved : Word) (offset : BitVec 16) (also : List Spr) (s t : State) : Prop where
  savedPc : t.sprVal (if critical then .srr2 else .srr0) = saved
  savedMsr : t.sprVal (if critical then .srr3 else .srr1) = s.msr
  msr : ∀ k < 31, bit t.msr k = (if k ∈ clearedBits critical then false else bit s.msr k)
  endian : bit t.msr 31 = bit s.msr 15
  pc : t.pc = s.spr.evpr.extractLsb' 16 16 ++ offset
  others : Unchanged (.msr :: (if critical then [.spr .srr2, .spr .srr3] else [.spr .srr0, .spr .srr1]) ++
    also.map Part.spr) s t
  queue : QueueDiscarded s t

/-- An instruction takes a synchronous exception at its own address, in the state `u` its earlier effects have led
to. -/
def TrapsFrom (i : Instr) (s u : State) (offset : BitVec 16) (also : List Spr) (done : State → Prop) : Prop :=
  ∃ t, exec i s = .next t ∧ Entered false s.pc offset also u t ∧ done t

/-- An instruction takes a synchronous exception at its own address, and has no other effect. -/
def Traps (i : Instr) (s : State) (offset : BitVec 16) (also : List Spr) (done : State → Prop) : Prop :=
  TrapsFrom i s s offset also done

/-- The alignment exception at EA, and no other effect (60_exceptions.md R514). -/
def TrapsAlignment (i : Instr) (s : State) (ea : Word) : Prop :=
  Traps i s 0x0600#16 [.dear] fun t => t.sprVal .dear = ea

/-- Entry `k` of the TLB is the only one that translates an address (20_memory.md R116). -/
def State.OnlyEntry (s : State) (ea : Word) (k : BitVec 6) : Prop :=
  ∀ j, (s.tlbEntry j).translates ea s.pidTag = true ↔ j = k

/-- No entry of the TLB translates an address. -/
def State.NoEntry (s : State) (ea : Word) : Prop := ∀ j, (s.tlbEntry j).translates ea s.pidTag = false

/-- The data storage exception at EA: ESR[DST] is set for a store, ESR[DIZ] when the zone forbids the access, and the
other bits stay (60_exceptions.md R517). -/
def StorageForbidden (i : Instr) (s u : State) (ea : Word) (store zone : Bool) : Prop :=
  TrapsFrom i s u 0x0300#16 [.dear, .esr] fun t => t.sprVal .dear = ea ∧ ∀ k < 32, bit (t.sprVal .esr) k =
    ((decide (k = 8) && store) || (decide (k = 9) && zone) || bit (s.sprVal .esr) k)

/-- The exceptions of a data access at EA that an instruction makes from the state `u`: data TLB miss, and data storage
where the zone, WR = 0 or the bounds forbid it; else the access has a place (60_exceptions.md R517, R518, R529). -/
def DataExceptions (i : Instr) (s u : State) (ea : Word) (store : Bool) : Prop :=
  (s.msrBit msrDR = true → s.NoEntry ea → TrapsFrom i s u 0x1100#16 [.dear] fun t => t.sprVal .dear = ea) ∧
  (s.msrBit msrDR = true → ∀ k, s.OnlyEntry ea k →
    if (s.zoneForbids (s.tlbEntry k) || (store && !(s.tlbEntry k).wr) || s.boundsForbid ea store) = true then
      StorageForbidden i s u ea store (s.zoneForbids (s.tlbEntry k))
    else ∃ p, dataPlace .data ea store s = .ok p s) ∧
  (s.msrBit msrDR = false →
    if s.boundsForbid ea store = true then StorageForbidden i s u ea store false
    else ∃ p, dataPlace .data ea store s = .ok p s)

/-! ### Multiples and strings -/

/-- lmw reads a word into a register: RA is passed over unless it is GPR(31) (46_multiple_string.md R401). -/
def wordLoads (ra r : Reg) : Bool := r != ra || r == 31

/-- The registers after the first `k` words of an lmw: the words the processor saw at the places of the accesses. -/
def WordsLoaded (s t : State) (rt ra : Reg) (place : Nat → Place) (k : Nat) : Prop :=
  ∀ r : Reg, t.reg r =
    if rt.toNat ≤ r.toNat ∧ r.toNat < rt.toNat + k ∧ wordLoads ra r = true then
      s.seenWord (place (r.toNat - rt.toNat)).real
    else s.reg r

/-- An lswi or lswx with its EA, its byte count, and the registers it passes over (46_multiple_string.md R403,
R404). -/
def IsStringLoad (i : Instr) (s : State) (rt : Reg) (ea : Word) (count : Nat) (skip : List Reg) (b31 : Bool) : Prop :=
  (∃ ra nb, i = .lswi rt ra nb b31 ∧ ea = (if ra = 0 then 0#32 else s.reg ra) ∧
    count = (if nb = 0 then 32 else nb.toNat) ∧ skip = [ra]) ∨
  (∃ ra rb, i = .lswx rt ra rb b31 ∧ ea = s.eaX ra rb ∧ count = s.xer.toNat % 128 ∧ skip = [ra, rb])

/-- An stswi or stswx with its EA and its byte count (46_multiple_string.md R405, R406). -/
def IsStringStore (i : Instr) (s : State) (rs : Reg) (ea : Word) (count : Nat) (b31 : Bool) : Prop :=
  (∃ ra nb, i = .stswi rs ra nb b31 ∧ ea = (if ra = 0 then 0#32 else s.reg ra) ∧
    count = (if nb = 0 then 32 else nb.toNat)) ∨
  (∃ ra rb, i = .stswx rs ra rb b31 ∧ ea = s.eaX ra rb ∧ count = s.xer.toNat % 128)

/-- A string load reads bytes into a register: those named are passed over, but RFINAL (46_multiple_string.md R403,
R404). -/
def stringLoads (rt : Reg) (count : Nat) (skip : List Reg) (r : Reg) : Bool :=
  !skip.contains r || r == rt + BitVec.ofNat 5 ((count - 1) / 4)

/-- The registers after the first `k` bytes of a string load, those of the first `begun` bytes cleared before their
first byte: the bytes the processor saw at the places of the accesses, four to a register, and 0 on the right. -/
def BytesLoaded (s t : State) (rt : Reg) (count : Nat) (skip : List Reg) (place : Nat → Place) (begun k : Nat) : Prop :=
  ∀ r : Reg, let j := (r - rt).toNat
    if 4 * j < begun ∧ stringLoads rt count skip r = true then
      ∀ m < 4, byteOf (t.reg r) m = if 4 * j + m < k then s.dataByte (place (4 * j + m)).real else 0
    else t.reg r = s.reg r

/-- The processor sees the bytes of `k` stores at their real addresses, the last one where two are at one address, and
every other byte as before. -/
def BytesStored (s t : State) (k : Nat) (address : Nat → Word) (bytes : Nat → Byte) : Prop :=
  (∀ j < k, (∀ l, j < l → l < k → address l ≠ address j) → t.dataByte (address j) = bytes j) ∧
  ∀ x, (∀ j < k, x ≠ address j) → t.dataByte x = s.dataByte x

/-- Byte `k` of the registers from `r` on, counted modulo 32, four of each (46_multiple_string.md R400). -/
def State.runByte (s : State) (r : Reg) (k : Nat) : Byte := byteOf (s.reg (r + BitVec.ofNat 5 (k / 4))) (k % 4)

/-- The line fill request of a zero-length string meets an absent address: the place is cacheable and misses
(46_multiple_string.md R408). -/
def State.AbsentMiss (s : State) (p : Place) : Prop :=
  p.cacheable = true ∧ s.dhit p.real = none ∧ s.touches .absent p.real 1 = true

/-- A program exception: one bit of ESR is set and the others stay (60_exceptions.md R511). -/
def TrapsProgram (i : Instr) (s : State) (esrBit : Nat) : Prop :=
  Traps i s 0x0700#16 [.esr] fun t =>
    ∀ k < 32, bit (t.sprVal .esr) k = (decide (k = esrBit) || bit (s.sprVal .esr) k)

/-- One of the relations that TO asks for holds (48_system.md R470). -/
def trapHolds (tcond : BitVec 5) (a b : Word) : Bool :=
  (tcond.getMsbD 0 && decide (a.toInt < b.toInt)) || (tcond.getMsbD 1 && decide (b.toInt < a.toInt)) ||
    (tcond.getMsbD 2 && decide (a = b)) || (tcond.getMsbD 3 && decide (a.toNat < b.toNat)) ||
    (tcond.getMsbD 4 && decide (b.toNat < a.toNat))

/-- A tw or twi, with its condition, its first operand, the value of its second, and bit 31 (48_system.md R472,
R473). -/
def IsTrap (i : Instr) (s : State) (tcond : BitVec 5) (ra : Reg) (b : Word) (b31 : Bool) : Prop :=
  (∃ im : BitVec 16, i = .twi tcond ra im ∧ b = im.signExtend 32 ∧ b31 = false) ∨
    ∃ rb, i = .tw tcond ra rb b31 ∧ b = s.reg rb

/-- The instruction cannot be run in problem state (60_exceptions.md R513, R536). -/
def privilegedInstr : Instr → Bool
  | .dcbi _ _ _ | .dccci _ _ _ | .dcread _ _ _ _ | .icbt _ _ _ | .iccci _ _ _ | .icread _ _ _ | .mfdcr _ _ _
  | .mtdcr _ _ _ | .mfmsr _ _ | .mtmsr _ _ | .rfi | .rfci | .tlbia | .tlbre _ _ _ _ | .tlbsx _ _ _ _ | .tlbsync
  | .tlbwe _ _ _ _ | .wrtee _ _ | .wrteei _ _ => true
  | .mfspr _ n _ => n.getLsbD 4
  | .mtspr n _ _ => n.getLsbD 4
  | _ => false

/-- The offsets of the vectors (60_exceptions.md R503). -/
def vectorOffsets : List (BitVec 16) :=
  [0x0100#16, 0x0300#16, 0x0400#16, 0x0500#16, 0x0600#16, 0x0700#16, 0x0C00#16, 0x1000#16, 0x1010#16, 0x1020#16,
   0x1100#16, 0x1200#16, 0x2000#16]

end Sys2Proof.Machine
end

