-- ==== Sys2Proof/WellFormed.lean ====
section
/-! DEFINITION. The operand restrictions of the instruction pages: what makes a decoded instruction an invalid
form that the pages give no narrower effect (93_implementation_defined.md section 2.2). -/

namespace Sys2Proof

/-- No restriction of its page is broken. -/
def Instr.wellFormed : Instr → Bool
  | .add _ _ _ _ _ => true
  | .addc _ _ _ _ _ => true
  | .adde _ _ _ _ _ => true
  | .addi _ _ _ => true
  | .addic _ _ _ => true
  | .addicRc _ _ _ => true
  | .addis _ _ _ => true
  | .addme _ _ _ _ => true
  | .addze _ _ _ _ => true
  | .divw _ _ _ _ _ => true
  | .divwu _ _ _ _ _ => true
  | .mulhw _ _ _ _ => true
  | .mulhwu _ _ _ _ => true
  | .mulli _ _ _ => true
  | .mullw _ _ _ _ _ => true
  | .neg _ _ _ _ => true
  | .subf _ _ _ _ _ => true
  | .subfc _ _ _ _ _ => true
  | .subfe _ _ _ _ _ => true
  | .subfic _ _ _ => true
  | .subfme _ _ _ _ => true
  | .subfze _ _ _ _ => true
  | .and _ _ _ _ => true
  | .andc _ _ _ _ => true
  | .andiRc _ _ _ => true
  | .andisRc _ _ _ => true
  | .cntlzw _ _ _ => true
  | .eqv _ _ _ _ => true
  | .extsb _ _ _ => true
  | .extsh _ _ _ => true
  | .nand _ _ _ _ => true
  | .nor _ _ _ _ => true
  | .or _ _ _ _ => true
  | .orc _ _ _ _ => true
  | .ori _ _ _ => true
  | .oris _ _ _ => true
  | .xor _ _ _ _ => true
  | .xori _ _ _ => true
  | .xoris _ _ _ => true
  | .rlwimi _ _ _ _ _ _ => true
  | .rlwinm _ _ _ _ _ _ => true
  | .rlwnm _ _ _ _ _ _ => true
  | .slw _ _ _ _ => true
  | .sraw _ _ _ _ => true
  | .srawi _ _ _ _ => true
  | .srw _ _ _ _ => true
  | .cmp _ _ _ _ => true
  | .cmpi _ _ _ => true
  | .cmpl _ _ _ _ => true
  | .cmpli _ _ _ => true
  | .crand _ _ _ => true
  | .crandc _ _ _ => true
  | .creqv _ _ _ => true
  | .crnand _ _ _ => true
  | .crnor _ _ _ => true
  | .cror _ _ _ => true
  | .crorc _ _ _ => true
  | .crxor _ _ _ => true
  | .mcrf _ _ => true
  | .mcrxr _ _ => true
  | .mfcr _ _ => true
  | .mtcrf _ _ _ => true
  | .b _ _ _ => true
  | .bc _ _ _ _ _ => true
  | .bcctr _ _ _ => true
  | .bclr _ _ _ => true
  | .lbz _ _ _ => true
  | .lbzu rt _ ra => Machine.loadUpdateOk rt ra
  | .lbzux rt ra _ _ => Machine.loadUpdateOk rt ra
  | .lbzx _ _ _ _ => true
  | .lha _ _ _ => true
  | .lhau rt _ ra => Machine.loadUpdateOk rt ra
  | .lhaux rt ra _ _ => Machine.loadUpdateOk rt ra
  | .lhax _ _ _ _ => true
  | .lhbrx _ _ _ _ => true
  | .lhz _ _ _ => true
  | .lhzu rt _ ra => Machine.loadUpdateOk rt ra
  | .lhzux rt ra _ _ => Machine.loadUpdateOk rt ra
  | .lhzx _ _ _ _ => true
  | .lwarx _ _ _ _ => true
  | .lwbrx _ _ _ _ => true
  | .lwz _ _ _ => true
  | .lwzu rt _ ra => Machine.loadUpdateOk rt ra
  | .lwzux rt ra _ _ => Machine.loadUpdateOk rt ra
  | .lwzx _ _ _ _ => true
  | .stb _ _ _ => true
  | .stbu _ _ ra => Machine.storeUpdateOk ra
  | .stbux _ ra _ _ => Machine.storeUpdateOk ra
  | .stbx _ _ _ _ => true
  | .sth _ _ _ => true
  | .sthbrx _ _ _ _ => true
  | .sthu _ _ ra => Machine.storeUpdateOk ra
  | .sthux _ ra _ _ => Machine.storeUpdateOk ra
  | .sthx _ _ _ _ => true
  | .stw _ _ _ => true
  | .stwbrx _ _ _ _ => true
  | .stwcxRc _ _ _ => true
  | .stwu _ _ ra => Machine.storeUpdateOk ra
  | .stwux _ ra _ _ => Machine.storeUpdateOk ra
  | .stwx _ _ _ _ => true
  | .lmw _ _ _ => true
  | .lswi _ _ _ _ => true
  | .lswx _ _ _ _ => true
  | .stmw _ _ _ => true
  | .stswi _ _ _ _ => true
  | .stswx _ _ _ _ => true
  | .dcbf _ _ _ => true
  | .dcbi _ _ _ => true
  | .dcbst _ _ _ => true
  | .dcbt _ _ _ => true
  | .dcbtst _ _ _ => true
  | .dcbz _ _ _ => true
  | .dccci _ _ _ => true
  | .dcread _ _ _ _ => true
  | .icbi _ _ _ => true
  | .icbt _ _ _ => true
  | .iccci _ _ _ => true
  | .icread _ _ _ => true
  | .sync _ => true
  | .eieio _ => true
  | .isync _ => true
  | .sc => true
  | .rfi => true
  | .rfci => true
  | .mfmsr _ _ => true
  | .mtmsr _ _ => true
  | .wrtee _ _ => true
  | .wrteei _ _ => true
  | .mfspr _ sprn _ => Machine.sprReadOk sprn
  | .mtspr sprn _ _ => Machine.sprWriteOk sprn
  | .mfdcr _ dcrn _ => Machine.dcrOk dcrn
  | .mtdcr dcrn _ _ => Machine.dcrOk dcrn
  | .tw _ _ _ _ => true
  | .twi _ _ _ => true
  | .tlbia => true
  | .tlbre _ _ ws _ => Machine.wsOk ws
  | .tlbsx _ _ _ _ => true
  | .tlbsync => true
  | .tlbwe _ _ ws _ => Machine.wsOk ws

end Sys2Proof
end

