-- ==== Sys2Proof/Certificates/Slice0/Obligations.lean ====
section
/-! DEFINITION. The statements about the model. `OBLIGATIONS.json` lists them with their tiers and the rules they
rest on. -/

section

open Sys2Proof Sys2Proof.Machine

/-! ### Encoding -/

/-- Decoding the word of an instruction gives that instruction, whatever its operands (30_encoding.md R163 to R166).
-/
def Obligations.DecodingAnEncodedInstructionGivesItBack : Prop :=
  ∀ i : Instr, decodeWord (encode i) = .ok i

/-- Encoding what a word decodes to gives the word back: no bit of a word is dropped (30_encoding.md R151, R166). -/
def Obligations.EncodingADecodedWordGivesItBack : Prop :=
  ∀ (w : Word) (i : Instr), decodeWord w = .ok i → encode i = w

/-- A word matches one row of the opcode table at most, so a word decodes in one way (30_encoding.md R166, R167). -/
def Obligations.AWordMatchesAtMostOneRow : Prop :=
  ∀ (w : Word) (j k : Nat) (r q : Row), opcodeRows[j]? = some r → opcodeRows[k]? = some q → r.matches w = true →
    q.matches w = true → j = k

/-- Words written out from the spec's examples decode to the instructions they stand for. -/
def Obligations.WordsOfTheSpecDecodeAsTheyRead : Prop :=
  decodeWord 0x7C642E15#32 = .ok (.add 3 4 5 true true) ∧
  decodeWord 0x7C830034#32 = .ok (.cntlzw 3 4 false) ∧
  decodeWord 0x7C832E30#32 = .ok (.sraw 3 4 5 false) ∧
  decodeWord 0x4E800420#32 = .ok (.bcctr 20 0 false) ∧
  decodeWord 0x7C64292D#32 = .ok (.stwcxRc 3 4 5) ∧
  decodeWord 0xBBA40000#32 = .ok (.lmw 29 0 4) ∧
  decodeWord 0x7CA434AA#32 = .ok (.lswi 5 4 6 false) ∧
  decodeWord 0x7C001B8C#32 = .ok (.dccci 0 3 false) ∧
  decodeWord 0x7C602F25#32 = .ok (.tlbsx 3 0 5 true) ∧
  decodeWord 0x7C64292C#32 = .illegal ∧
  decodeWord 0x00000000#32 = .illegal

/-- An instruction that breaks a restriction of its page is refused, in supervisor state whatever it is, in problem
state where it is not a privileged one: an update form with RA = 0, or a load with RA = RT, a number that names no
special purpose or device control register, an mtspr of PVR, TBHU, TBLU, DEAR or DBCR, a WS above 1
(93_implementation_defined.md section 2.2; for mtspr of DBCR 90_conflicts.md C11). The model's choices: log entries 7,
23, 31 and 38. -/
def Obligations.InvalidOperandFormsAreRefused : Prop :=
  ∀ (i : Instr) (s : State), i.wellFormed = false → s.problem = false ∨ privilegedInstr i = false →
    ∃ r, exec i s = .refused r

/-! ### The step -/

/-- When no interrupt is taken and the fetched bytes decode to an instruction, step is exec of it in the state after
the fetch; the fetch may fill a line of the instruction cache and take draws, and changes nothing else. -/
def Obligations.AStepRunsTheDecodedInstruction : Prop :=
  ∀ (s s1 : State) (bs : List Byte) (i : Instr),
    s.debugStopped = false → s.nextIrq = none → s.msrBit msrWE = false → fetch s = .ok bs s1 →
    decodeBytes bs = some (.ok i, []) → step s = exec i s1 ∧ s1.pc = s.pc ∧ Unchanged [.instrCache] s s1

/-- With the fetch untranslated, not cacheable, and nothing left in the prefetch queue or a cache to be seen in place
of main storage, step runs exactly the instruction whose word is stored at the pc, the lowest address the most
significant byte (20_memory.md R105). -/
def Obligations.AStepRunsTheWordStoredAtThePc : Prop :=
  ∀ (s : State) (i : Instr),
    s.debugStopped = false → s.nextIrq = none → s.msrBit msrWE = false → s.BigEndian → s.msrBit msrIR = false →
    regionBit s.spr.iccr s.pc = false → s.stale = [] → s.PlainAt s.pc 4 →
    (∀ k < 4, s.dhit (s.pc + BitVec.ofNat 32 k) = none ∧ s.ihit (s.pc + BitVec.ofNat 32 k) = none) →
    decodeWord (s.storage s.pc ++ s.storage (s.pc + 1#32) ++ s.storage (s.pc + 2#32) ++ s.storage (s.pc + 3#32)) =
      .ok i →
    step s = exec i s

/-- A fetched word that is no row of the table is the illegal-instruction program exception at its address, ESR[PIL]
set (60_exceptions.md R512). The model's choices: log entries 9, 10, 19 and 37. -/
def Obligations.AnIllegalWordRaisesTheProgramException : Prop :=
  ∀ (s s1 : State) (bs : List Byte),
    s.debugStopped = false → s.nextIrq = none → s.msrBit msrWE = false → s.msrBit msrILE = false →
    fetch s = .ok bs s1 → decodeBytes bs = some (.illegal, []) →
    ∃ t, step s = .next t ∧ Entered false s.pc 0x0700#16 [.esr] s1 t ∧
      ∀ k < 32, bit (t.sprVal .esr) k = (decide (k = 4) || bit (s.sprVal .esr) k)

/-- The interrupts, in the order they are taken in: machine check, enabled by MSR.ME, critical pin and watchdog, by
MSR.CE, external, FIT and PIT, by MSR.EE. The first one of the list that is pending and enabled is taken instead of
the instruction at the pc, at its own vector, and the others stay pending; a machine check stops the run. With none,
the next instruction runs, but not in the wait state (60_exceptions.md R503, R522, R525, R526, R528, R544). The
model's choices: log entries 9, 19 and 27. -/
def Obligations.InterruptsAreTakenInOrderAtTheirVectors : Prop :=
  ∀ (s : State) (rows : List (Irq × Nat)), rows = [(.machineCheck, 19), (.criticalPin, 14), (.watchdog, 14),
      (.external, 16), (.fit, 16), (.pit, 16)] → s.debugStopped = false →
    ((∀ row ∈ rows, row.1 ∈ s.pending → bit s.msr row.2 = false) →
      step s = if bit s.msr 13 then .fault .waitState else runNext s) ∧
    ∀ (k : Nat) (i : Irq) (enable : Nat), rows[k]? = some (i, enable) → i ∈ s.pending → bit s.msr enable = true →
      (∀ (j : Nat) (row : Irq × Nat), j < k → rows[j]? = some row → row.1 ∈ s.pending → bit s.msr row.2 = false) →
      (i = .machineCheck → step s = .fault .machineCheck) ∧
      ∀ (critical : Bool) (offset : BitVec 16), s.msrBit msrILE = false →
        (i, critical, offset) ∈ [(Irq.criticalPin, true, 0x0100#16), (.watchdog, true, 0x1020#16),
          (.external, false, 0x0500#16), (.fit, false, 0x1010#16), (.pit, false, 0x1000#16)] →
        ∃ t, step s = .next t ∧ t.pending = s.pending.erase i ∧
          Entered critical s.pc offset [] (s.setPending (s.pending.erase i)) t

/-- An instruction address that no TLB entry translates raises the instruction TLB miss, one whose only entry has EX =
0, or a zone that forbids the access, the instruction storage exception; else the fetch has a place. SRR0 is the
address (60_exceptions.md R519, R520). The model's choices: log entries 9, 15 and 19. -/
def Obligations.AFetchThatCannotBeTranslatedTraps : Prop :=
  ∀ s : State, s.debugStopped = false → s.nextIrq = none → s.msrBit msrWE = false → s.BigEndian →
    s.msrBit msrILE = false → s.msrBit msrIR = true →
    (s.NoEntry s.pc → ∃ t, step s = .next t ∧ Entered false s.pc 0x1200#16 [] s t) ∧
    (∀ k, s.OnlyEntry s.pc k →
      if (!(s.tlbEntry k).ex || s.zoneForbids (s.tlbEntry k)) = true then
        ∃ t, step s = .next t ∧ Entered false s.pc 0x0400#16 [] s t
      else ∃ p, fetchPlace s = .ok p s)

/-! ### What every step keeps -/

/-- The reset state as the spec states it: the values of 70_reset_and_hazards.md R561 that are not left open. -/
def Obligations.ResetHoldsTheStatedValues : Prop :=
  State.reset.pc = 0xFFFFFFFC#32 ∧ State.reset.msr = 0#32 ∧ State.reset.sprVal .dccr = 0#32 ∧
    State.reset.sprVal .iccr = 0#32 ∧ State.reset.sprVal .dbcr = 0#32 ∧ State.reset.pending = []

/-- The invariants of the statements below hold after reset. The model's choices: log entries 1, 3 and 19. -/
def Obligations.ResetMeetsTheInvariants : Prop :=
  State.reset.MemoryCanonical ∧ State.reset.PcAligned ∧ State.reset.BigEndian ∧ State.reset.MemoryCoherent ∧
    State.reset.InstrLinesUnique ∧ State.reset.LevelKnown

/-- Every step keeps main storage in its one canonical form. The model's choices: log entry 3. -/
def Obligations.EveryStepKeepsMemoryCanonical : Prop :=
  ∀ s t : State, s.MemoryCanonical → step s = .next t → t.MemoryCanonical

/-- Every step leaves the pc a multiple of 4 (10_state.md R45). The model's choices: log entry 13. -/
def Obligations.EveryStepKeepsThePcAligned : Prop :=
  ∀ s t : State, s.PcAligned → step s = .next t → t.PcAligned

/-- Every step keeps MSR.LE at 0: the model makes no little-endian access (20_memory.md R106). The model's choices:
log entry 12. -/
def Obligations.EveryStepKeepsBigEndianMode : Prop :=
  ∀ s t : State, s.BigEndian → step s = .next t → t.BigEndian

/-- Every step keeps main storage and the data cache in order: no block is in two lines, and a line that is not
modified agrees with main storage (47_cache_sync.md R422, R428). The model's choices: log entry 17. -/
def Obligations.EveryStepKeepsTheDataCacheCoherent : Prop :=
  ∀ s t : State, s.MemoryCoherent → step s = .next t → t.MemoryCoherent

/-- Every step keeps a block out of two lines of the instruction cache. The model's choices: log entry 18. -/
def Obligations.EveryStepKeepsInstructionLinesUnique : Prop :=
  ∀ s t : State, s.InstrLinesUnique → step s = .next t → t.InstrLinesUnique

/-- RESERVE is set by lwarx alone and cleared by stwcx. alone (10_state.md R82). The model's choices: log entry 33. -/
def Obligations.OnlyLwarxSetsAndStwcxClearsTheReservation : Prop :=
  ∀ (i : Instr) (s t : State), exec i s = .next t → t.reserve ≠ s.reserve →
    (t.reserve = true ∧ ∃ rt ra rb b31, i = .lwarx rt ra rb b31) ∨
      (t.reserve = false ∧ ∃ rs ra rb, i = .stwcxRc rs ra rb)

/-- In problem state a step either is an entry, which leaves problem state for a vector under EVPR, or leaves the MSR,
the registers outside XER, LR and CTR, the TLB and the device control registers as they were, but for DBSR where a
trap stops the processor in Debug Stop (60_exceptions.md R513, R535, R536). The model's choices: log entries 9, 11, 15
and 23. -/
def Obligations.ProblemStateReachesSystemStateOnlyThroughAVector : Prop :=
  ∀ s t : State, s.problem = true → step s = .next t →
    (t.problem = false ∧ ∃ offset ∈ vectorOffsets, t.pc = s.spr.evpr.extractLsb' 16 16 ++ offset) ∨
      (t.msr = s.msr ∧ (∀ r : Spr, r ∉ [Spr.xer, .lr, .ctr] → ¬ (r = .dbsr ∧ t.debugStopped = true) →
        t.sprVal r = s.sprVal r) ∧ t.tlb = s.tlb ∧ t.dcr = s.dcr)

/-- A privileged instruction in problem state is the privileged program exception and nothing else, ESR[PPR] set: even
a form that would be invalid (60_exceptions.md R513). The model's choices: log entries 9, 10, 19, 37 and 38. -/
def Obligations.PrivilegedInstructionsTrapInProblemState : Prop :=
  ∀ (i : Instr) (s : State), privilegedInstr i = true → s.problem = true → s.msrBit msrILE = false →
    TrapsProgram i s 5

/-! ### Arithmetic -/

/-- The add family: the sum, the carry out where it is written, overflow of the exact signed sum (40_arithmetic.md
R202, R203, R210 to R218). The model's choices: log entry 14. -/
def Obligations.AddInstructionsSumAndSetFlags : Prop :=
  (∀ s rt ra rb oe rc, WritesArith (.add rt ra rb oe rc) s rt (s.reg ra + s.reg rb) none oe
    (outOfRange ((s.reg ra).toInt + (s.reg rb).toInt)) rc) ∧
  (∀ s rt ra rb oe rc, WritesArith (.addc rt ra rb oe rc) s rt (s.reg ra + s.reg rb)
    (some (decide (2 ^ 32 ≤ (s.reg ra).toNat + (s.reg rb).toNat))) oe
    (outOfRange ((s.reg ra).toInt + (s.reg rb).toInt)) rc) ∧
  (∀ s rt ra rb oe rc, WritesArith (.adde rt ra rb oe rc) s rt (s.reg ra + s.reg rb + (if s.ca then 1#32 else 0#32))
    (some (decide (2 ^ 32 ≤ (s.reg ra).toNat + (s.reg rb).toNat + s.ca.toNat))) oe
    (outOfRange ((s.reg ra).toInt + (s.reg rb).toInt + s.ca.toNat)) rc) ∧
  (∀ s rt ra im, WritesReg (.addi rt ra im) s rt ((if ra = 0 then 0#32 else s.reg ra) + im.signExtend 32) false) ∧
  (∀ s rt ra im, WritesReg (.addis rt ra im) s rt ((if ra = 0 then 0#32 else s.reg ra) + (im ++ 0#16)) false) ∧
  (∀ s rt ra im, WritesArith (.addic rt ra im) s rt (s.reg ra + im.signExtend 32)
    (some (decide (2 ^ 32 ≤ (s.reg ra).toNat + (im.signExtend 32).toNat))) false false false) ∧
  (∀ s rt ra im, WritesArith (.addicRc rt ra im) s rt (s.reg ra + im.signExtend 32)
    (some (decide (2 ^ 32 ≤ (s.reg ra).toNat + (im.signExtend 32).toNat))) false false true) ∧
  (∀ s rt ra oe rc, WritesArith (.addme rt ra oe rc) s rt (s.reg ra + (if s.ca then 0#32 else 0xFFFFFFFF#32))
    (some (decide (1 ≤ (s.reg ra).toNat + s.ca.toNat))) oe
    (outOfRange ((s.reg ra).toInt + s.ca.toNat - 1)) rc) ∧
  (∀ s rt ra oe rc, WritesArith (.addze rt ra oe rc) s rt (s.reg ra + (if s.ca then 1#32 else 0#32))
    (some (decide (2 ^ 32 ≤ (s.reg ra).toNat + s.ca.toNat))) oe
    (outOfRange ((s.reg ra).toInt + s.ca.toNat)) rc)

/-- The subtract-from family and neg: the difference, the carry, which is the absence of a borrow, overflow of the
exact signed difference (40_arithmetic.md R202, R203, R219 to R225). The model's choices: log entry 14. -/
def Obligations.SubtractInstructionsSubtractAndSetFlags : Prop :=
  (∀ s rt ra rb oe rc, WritesArith (.subf rt ra rb oe rc) s rt (s.reg rb - s.reg ra) none oe
    (outOfRange ((s.reg rb).toInt - (s.reg ra).toInt)) rc) ∧
  (∀ s rt ra rb oe rc, WritesArith (.subfc rt ra rb oe rc) s rt (s.reg rb - s.reg ra)
    (some (decide ((s.reg ra).toNat ≤ (s.reg rb).toNat))) oe
    (outOfRange ((s.reg rb).toInt - (s.reg ra).toInt)) rc) ∧
  (∀ s rt ra rb oe rc, WritesArith (.subfe rt ra rb oe rc) s rt
    (s.reg rb - s.reg ra - (if s.ca then 0#32 else 1#32))
    (some (decide ((s.reg ra).toNat < (s.reg rb).toNat + s.ca.toNat))) oe
    (outOfRange ((s.reg rb).toInt - (s.reg ra).toInt - 1 + s.ca.toNat)) rc) ∧
  (∀ s rt ra im, WritesArith (.subfic rt ra im) s rt (im.signExtend 32 - s.reg ra)
    (some (decide ((s.reg ra).toNat ≤ (im.signExtend 32).toNat))) false false false) ∧
  (∀ s rt ra oe rc, WritesArith (.subfme rt ra oe rc) s rt (0xFFFFFFFE#32 - s.reg ra + (if s.ca then 1#32 else 0#32))
    (some (decide ((s.reg ra).toNat + 1 < 2 ^ 32 + s.ca.toNat))) oe
    (outOfRange (-(s.reg ra).toInt - 2 + s.ca.toNat)) rc) ∧
  (∀ s rt ra oe rc, WritesArith (.subfze rt ra oe rc) s rt (0xFFFFFFFF#32 - s.reg ra + (if s.ca then 1#32 else 0#32))
    (some (s.ca && decide (s.reg ra = 0#32))) oe
    (outOfRange (-(s.reg ra).toInt - 1 + s.ca.toNat)) rc) ∧
  (∀ s rt ra oe rc, WritesArith (.neg rt ra oe rc) s rt (0#32 - s.reg ra) none oe
    (decide (s.reg ra = 0x80000000#32)) rc)

/-- The multiplies: the high or the low word of the exact product; mullw overflows when 32 signed bits do not hold it
(40_arithmetic.md R226 to R229). The model's choices: log entry 14. -/
def Obligations.MultiplyInstructionsGiveTheProduct : Prop :=
  (∀ s rt ra rb rc, WritesReg (.mulhw rt ra rb rc) s rt
    (BitVec.ofInt 32 ((s.reg ra).toInt * (s.reg rb).toInt / 2 ^ 32)) rc) ∧
  (∀ s rt ra rb rc, WritesReg (.mulhwu rt ra rb rc) s rt
    (BitVec.ofNat 32 ((s.reg ra).toNat * (s.reg rb).toNat / 2 ^ 32)) rc) ∧
  (∀ s rt ra im, WritesReg (.mulli rt ra im) s rt (s.reg ra * im.signExtend 32) false) ∧
  (∀ s rt ra rb oe rc, WritesArith (.mullw rt ra rb oe rc) s rt (s.reg ra * s.reg rb) none oe
    (outOfRange ((s.reg ra).toInt * (s.reg rb).toInt)) rc)

/-- A division with a defined quotient gives the unique one whose remainder is smaller than the divisor and has the
dividend's sign; one without completes, RT, and CR field 0 if Rc, free, OV and SO set if OE, and nothing else changed
(40_arithmetic.md R231, R232). The model's choices: log entries 6 and 14. -/
def Obligations.DivideInstructionsGiveTheQuotientOrAFreeValue : Prop :=
  (∀ s rt ra rb oe rc, s.reg rb ≠ 0#32 → ¬ (s.reg ra = 0x80000000#32 ∧ s.reg rb = 0xFFFFFFFF#32) →
    ∃ (q : Word) (r : Int), WritesArith (.divw rt ra rb oe rc) s rt q none oe false rc ∧
      (s.reg ra).toInt = q.toInt * (s.reg rb).toInt + r ∧ r.natAbs < (s.reg rb).toInt.natAbs ∧
      (0 ≤ (s.reg ra).toInt → 0 ≤ r) ∧ ((s.reg ra).toInt ≤ 0 → r ≤ 0)) ∧
  (∀ s rt ra rb oe rc, s.reg rb ≠ 0#32 →
    ∃ (q : Word) (r : Nat), WritesArith (.divwu rt ra rb oe rc) s rt q none oe false rc ∧
      (s.reg ra).toNat = q.toNat * (s.reg rb).toNat + r ∧ r < (s.reg rb).toNat) ∧
  (∀ s rt ra rb oe rc, s.reg rb = 0#32 ∨ (s.reg ra = 0x80000000#32 ∧ s.reg rb = 0xFFFFFFFF#32) →
    Completes (.divw rt ra rb oe rc) s (.reg rt :: .spr .xer :: cr0If rc) fun t => XerAfter s t none oe true) ∧
  (∀ s rt ra rb oe rc, s.reg rb = 0#32 →
    Completes (.divwu rt ra rb oe rc) s (.reg rt :: .spr .xer :: cr0If rc) fun t => XerAfter s t none oe true)

/-! ### Logical, rotate and shift -/

/-- The bitwise instructions: RA receives the operation of RS and the second operand, CR field 0 records where the
instruction does, and nothing else changes (41_logical.md R240 to R244, R246, R249 to R257). The model's choices: log
entry 14. -/
def Obligations.BitwiseInstructionsCombineTheirOperands : Prop :=
  (∀ s ra rs rb rc, WritesReg (.and ra rs rb rc) s ra (s.reg rs &&& s.reg rb) rc) ∧
  (∀ s ra rs rb rc, WritesReg (.andc ra rs rb rc) s ra (s.reg rs &&& ~~~(s.reg rb)) rc) ∧
  (∀ s ra rs im, WritesReg (.andiRc ra rs im) s ra (s.reg rs &&& (0#16 ++ im)) true) ∧
  (∀ s ra rs im, WritesReg (.andisRc ra rs im) s ra (s.reg rs &&& (im ++ 0#16)) true) ∧
  (∀ s ra rs rb rc, WritesReg (.eqv ra rs rb rc) s ra (~~~(s.reg rs ^^^ s.reg rb)) rc) ∧
  (∀ s ra rs rb rc, WritesReg (.nand ra rs rb rc) s ra (~~~(s.reg rs &&& s.reg rb)) rc) ∧
  (∀ s ra rs rb rc, WritesReg (.nor ra rs rb rc) s ra (~~~(s.reg rs ||| s.reg rb)) rc) ∧
  (∀ s ra rs rb rc, WritesReg (.or ra rs rb rc) s ra (s.reg rs ||| s.reg rb) rc) ∧
  (∀ s ra rs rb rc, WritesReg (.orc ra rs rb rc) s ra (s.reg rs ||| ~~~(s.reg rb)) rc) ∧
  (∀ s ra rs im, WritesReg (.ori ra rs im) s ra (s.reg rs ||| (0#16 ++ im)) false) ∧
  (∀ s ra rs im, WritesReg (.oris ra rs im) s ra (s.reg rs ||| (im ++ 0#16)) false) ∧
  (∀ s ra rs rb rc, WritesReg (.xor ra rs rb rc) s ra (s.reg rs ^^^ s.reg rb) rc) ∧
  (∀ s ra rs im, WritesReg (.xori ra rs im) s ra (s.reg rs ^^^ (0#16 ++ im)) false) ∧
  (∀ s ra rs im, WritesReg (.xoris ra rs im) s ra (s.reg rs ^^^ (im ++ 0#16)) false)

/-- extsb and extsh give the signed value of the low byte or halfword, cntlzw the number of 0 bits before the first 1
(41_logical.md R245, R247, R248). The model's choices: log entry 14. -/
def Obligations.ExtendAndCountInstructionsGiveTheirValue : Prop :=
  (∀ s ra rs rc, WritesReg (.extsb ra rs rc) s ra (BitVec.ofInt 32 ((s.reg rs).setWidth 8).toInt) rc) ∧
  (∀ s ra rs rc, WritesReg (.extsh ra rs rc) s ra (BitVec.ofInt 32 ((s.reg rs).setWidth 16).toInt) rc) ∧
  (∀ s ra rs rc, ∃ n, n ≤ 32 ∧ (∀ k < n, bit (s.reg rs) k = false) ∧ (n < 32 → bit (s.reg rs) n = true) ∧
    WritesReg (.cntlzw ra rs rc) s ra (BitVec.ofNat 32 n) rc)

/-- A rotate and mask: bit `k` of RA is bit `k + n` of RS, counted modulo 32, where the mask has a 1; elsewhere it is
0, or what it was for rlwimi (42_rotate_shift.md R270, R271, R273 to R275). The model's choices: log entry 14. -/
def Obligations.RotateInstructionsRotateAndMask : Prop :=
  (∀ s ra rs sh mb me rc, ∃ v : Word, WritesReg (.rlwinm ra rs sh mb me rc) s ra v rc ∧ ∀ k < 32, bit v k =
    (inMask mb.toNat me.toNat k && bit (s.reg rs) ((k + sh.toNat) % 32))) ∧
  (∀ s ra rs rb mb me rc, ∃ v : Word, WritesReg (.rlwnm ra rs rb mb me rc) s ra v rc ∧ ∀ k < 32, bit v k =
    (inMask mb.toNat me.toNat k && bit (s.reg rs) ((k + (s.reg rb).toNat) % 32))) ∧
  (∀ s ra rs sh mb me rc, ∃ v : Word, WritesReg (.rlwimi ra rs sh mb me rc) s ra v rc ∧ ∀ k < 32, bit v k =
    (if inMask mb.toNat me.toNat k then bit (s.reg rs) ((k + sh.toNat) % 32) else bit (s.reg ra) k))

/-- The shifts, as arithmetic on the value of RS: by the low six bits of RB, or by SH. An algebraic shift divides by
the power of 2 rounding down, and CA says that the source is negative and lost a 1 bit (42_rotate_shift.md R276 to
R279). The model's choices: log entry 14. -/
def Obligations.ShiftInstructionsMultiplyAndDivideByPowersOfTwo : Prop :=
  (∀ s ra rs rb rc, WritesReg (.slw ra rs rb rc) s ra
    (BitVec.ofNat 32 ((s.reg rs).toNat * 2 ^ ((s.reg rb).toNat % 64))) rc) ∧
  (∀ s ra rs rb rc, WritesReg (.srw ra rs rb rc) s ra
    (BitVec.ofNat 32 ((s.reg rs).toNat / 2 ^ ((s.reg rb).toNat % 64))) rc) ∧
  (∀ s ra rs rb rc, WritesArith (.sraw ra rs rb rc) s ra
    (BitVec.ofInt 32 ((s.reg rs).toInt / 2 ^ ((s.reg rb).toNat % 64)))
    (some (decide ((s.reg rs).toInt < 0 ∧ (s.reg rs).toInt % 2 ^ ((s.reg rb).toNat % 64) ≠ 0))) false false rc) ∧
  (∀ s ra rs sh rc, WritesArith (.srawi ra rs sh rc) s ra (BitVec.ofInt 32 ((s.reg rs).toInt / 2 ^ sh.toNat))
    (some (decide ((s.reg rs).toInt < 0 ∧ (s.reg rs).toInt % 2 ^ sh.toNat ≠ 0))) false false rc)

/-! ### Compare and condition register -/

/-- The compares: the CR field says less, greater or equal by the signed or unsigned value, and has XER.SO; where bit
31 is a reserved 1, CR field 0 is free (43_compare_cr.md R290 to R293, R307). The model's choices: log entry 6. -/
def Obligations.CompareInstructionsSetTheField : Prop :=
  (∀ s bf ra rb b31, Completes (.cmp bf ra rb b31) s (.crField bf :: cr0If b31) fun t => b31 = false ∨ bf ≠ 0 →
    t.crField bf = nibbleOf (decide ((s.reg ra).toInt < (s.reg rb).toInt)) (decide ((s.reg rb).toInt < (s.reg ra).toInt))
      (decide (s.reg ra = s.reg rb)) s.so) ∧
  (∀ s bf ra im, Completes (.cmpi bf ra im) s [.crField bf] fun t =>
    t.crField bf = nibbleOf (decide ((s.reg ra).toInt < im.toInt)) (decide (im.toInt < (s.reg ra).toInt))
      (decide ((s.reg ra).toInt = im.toInt)) s.so) ∧
  (∀ s bf ra rb b31, Completes (.cmpl bf ra rb b31) s (.crField bf :: cr0If b31) fun t => b31 = false ∨ bf ≠ 0 →
    t.crField bf = nibbleOf (decide ((s.reg ra).toNat < (s.reg rb).toNat)) (decide ((s.reg rb).toNat < (s.reg ra).toNat))
      (decide (s.reg ra = s.reg rb)) s.so) ∧
  (∀ s bf ra im, Completes (.cmpli bf ra im) s [.crField bf] fun t =>
    t.crField bf = nibbleOf (decide ((s.reg ra).toNat < im.toNat)) (decide (im.toNat < (s.reg ra).toNat))
      (decide ((s.reg ra).toNat = im.toNat)) s.so)

/-- The CR logical instructions write one CR bit with the operation of two, and mcrf copies a field; every other bit
of the CR and everything else stays (43_compare_cr.md R294 to R302, R308). -/
def Obligations.CrInstructionsWriteOneBitOrField : Prop :=
  (∀ s bt ba bb, Completes (.crand bt ba bb) s crFields fun t =>
    ∀ k, t.crBit k = if k = bt then s.crBit ba && s.crBit bb else s.crBit k) ∧
  (∀ s bt ba bb, Completes (.crandc bt ba bb) s crFields fun t =>
    ∀ k, t.crBit k = if k = bt then s.crBit ba && !s.crBit bb else s.crBit k) ∧
  (∀ s bt ba bb, Completes (.creqv bt ba bb) s crFields fun t =>
    ∀ k, t.crBit k = if k = bt then s.crBit ba == s.crBit bb else s.crBit k) ∧
  (∀ s bt ba bb, Completes (.crnand bt ba bb) s crFields fun t =>
    ∀ k, t.crBit k = if k = bt then !(s.crBit ba && s.crBit bb) else s.crBit k) ∧
  (∀ s bt ba bb, Completes (.crnor bt ba bb) s crFields fun t =>
    ∀ k, t.crBit k = if k = bt then !(s.crBit ba || s.crBit bb) else s.crBit k) ∧
  (∀ s bt ba bb, Completes (.cror bt ba bb) s crFields fun t =>
    ∀ k, t.crBit k = if k = bt then s.crBit ba || s.crBit bb else s.crBit k) ∧
  (∀ s bt ba bb, Completes (.crorc bt ba bb) s crFields fun t =>
    ∀ k, t.crBit k = if k = bt then s.crBit ba || !s.crBit bb else s.crBit k) ∧
  (∀ s bt ba bb, Completes (.crxor bt ba bb) s crFields fun t =>
    ∀ k, t.crBit k = if k = bt then s.crBit ba != s.crBit bb else s.crBit k) ∧
  (∀ s bf bfa, Completes (.mcrf bf bfa) s [.crField bf] fun t => t.crField bf = s.crField bfa)

/-- The moves between the CR, XER and a general register: mcrxr moves XER[0:3] and clears them, mfcr copies the whole
CR, mtcrf replaces the fields its mask names; where bit 31 is a reserved 1, CR field 0 is undefined and left open
(43_compare_cr.md R303 to R305). -/
def Obligations.CrMovesCopyWholeFields : Prop :=
  (∀ s bf b31, Completes (.mcrxr bf b31) s (.crField bf :: .spr .xer :: cr0If b31) fun t =>
    (b31 = false ∨ bf ≠ 0 → ∀ j < 4, (t.crField bf).getMsbD j = bit s.xer j) ∧
    (∀ j < 4, bit t.xer j = false) ∧ ∀ k, 4 ≤ k → k < 32 → bit t.xer k = bit s.xer k) ∧
  (∀ s rt b31, Completes (.mfcr rt b31) s (.reg rt :: cr0If b31) fun t => t.reg rt = s.cr) ∧
  (∀ s fxm rs b31, Completes (.mtcrf fxm rs b31) s crFields fun t =>
    ∀ n : BitVec 3, b31 = false ∨ n ≠ 0 →
      t.crField n = if fxm.getMsbD n.toNat then nibble (s.reg rs) n else s.crField n)

/-! ### Branches -/

/-- b goes to its displacement, or to the pc plus it. A conditional branch counts CTR down unless BO[2], is taken when
the counter and the CR bit are as BO asks, as R320 recovers its bits from damaged text, and goes to its displacement,
to the CTR already counted, or to the LR before it is written. With LK, LR receives the next address, taken or not
(44_branch.md R320 to R325, 10_state.md R46). The model's choices: log entry 40. -/
def Obligations.BranchesCountTestAndLink : Prop :=
  (∀ s li aa lk, ∃ t, exec (.b li aa lk) s = .next t ∧
    t.pc = (if aa then (li ++ 0#2).signExtend 32 else s.pc + (li ++ 0#2).signExtend 32) ∧
    t.lr = (if lk then s.pc + 4#32 else s.lr) ∧ Unchanged [.spr .lr] s t) ∧
  (∀ (s : State) (bo bi : BitVec 5) (bd : BitVec 14) (aa lk : Bool) (ctr : Word) (taken : Bool),
    ctr = (if bo.getMsbD 2 then s.ctr else s.ctr - 1#32) →
    taken = ((bo.getMsbD 2 || (decide (ctr = 0#32) == bo.getMsbD 3)) &&
      (bo.getMsbD 0 || (s.crBit bi == bo.getMsbD 1))) →
    ∀ (i : Instr) (target : Word),
      (i, target) ∈ [(Instr.bc bo bi bd aa lk,
          if aa then (bd ++ 0#2).signExtend 32 else s.pc + (bd ++ 0#2).signExtend 32),
        (.bcctr bo bi lk, ctr.extractLsb' 2 30 ++ 0#2), (.bclr bo bi lk, s.lr.extractLsb' 2 30 ++ 0#2)] →
      ∃ t, exec i s = .next t ∧ t.pc = (if taken then target else s.pc + 4#32) ∧ t.ctr = ctr ∧
        t.lr = (if lk then s.pc + 4#32 else s.lr) ∧ Unchanged [.spr .ctr, .spr .lr] s t)

/-! ### Loads and stores -/

/-- The loads: RT receives the byte, halfword or word the processor sees at the real address of EA, widened with 0 or
with its sign, or byte-reversed; nothing else the processor sees changes (45_load_store.md R340, R350 to R367). The
model's choices: log entries 17 and 40. -/
def Obligations.LoadsReadTheBytesAtTheirAddress : Prop :=
  (∀ s p rt d ra, s.CanAccess (s.eaD ra d) 1 false p →
    LoadsReg (.lbz rt d ra) s rt (0#24 ++ s.dataByte p.real) none false) ∧
  (∀ s p rt ra rb b31, s.CanAccess (s.eaX ra rb) 1 false p →
    LoadsReg (.lbzx rt ra rb b31) s rt (0#24 ++ s.dataByte p.real) none b31) ∧
  (∀ s p rt d ra, s.CanAccess (s.eaD ra d) 2 false p →
    LoadsReg (.lhz rt d ra) s rt (0#16 ++ s.seenHalf p.real) none false ∧
    LoadsReg (.lha rt d ra) s rt ((s.seenHalf p.real).signExtend 32) none false) ∧
  (∀ s p rt ra rb b31, s.CanAccess (s.eaX ra rb) 2 false p →
    LoadsReg (.lhzx rt ra rb b31) s rt (0#16 ++ s.seenHalf p.real) none b31 ∧
    LoadsReg (.lhax rt ra rb b31) s rt ((s.seenHalf p.real).signExtend 32) none b31 ∧
    LoadsReg (.lhbrx rt ra rb b31) s rt (0#16 ++ (s.dataByte (p.real + 1#32) ++ s.dataByte p.real)) none b31) ∧
  (∀ s p rt d ra, s.CanAccess (s.eaD ra d) 4 false p →
    LoadsReg (.lwz rt d ra) s rt (s.seenWord p.real) none false) ∧
  (∀ s p rt ra rb b31, s.CanAccess (s.eaX ra rb) 4 false p →
    LoadsReg (.lwzx rt ra rb b31) s rt (s.seenWord p.real) none b31 ∧
    LoadsReg (.lwbrx rt ra rb b31) s rt (s.dataByte (p.real + 3#32) ++ s.dataByte (p.real + 2#32) ++
      s.dataByte (p.real + 1#32) ++ s.dataByte p.real) none b31)

/-- The loads with update, RA neither 0 nor RT: as the loads, and RA receives EA (45_load_store.md R341). The model's
choices: log entries 17 and 40. -/
def Obligations.UpdateLoadsAlsoWriteTheirBase : Prop :=
  ∀ (s : State) (p : Place) (rt ra : Reg), ra ≠ 0 → ra ≠ rt →
  (∀ d, s.CanAccess (s.eaD ra d) 1 false p →
    LoadsReg (.lbzu rt d ra) s rt (0#24 ++ s.dataByte p.real) (some (ra, s.eaD ra d)) false) ∧
  (∀ rb b31, s.CanAccess (s.eaX ra rb) 1 false p →
    LoadsReg (.lbzux rt ra rb b31) s rt (0#24 ++ s.dataByte p.real) (some (ra, s.eaX ra rb)) b31) ∧
  (∀ d, s.CanAccess (s.eaD ra d) 2 false p →
    LoadsReg (.lhzu rt d ra) s rt (0#16 ++ s.seenHalf p.real) (some (ra, s.eaD ra d)) false ∧
    LoadsReg (.lhau rt d ra) s rt ((s.seenHalf p.real).signExtend 32) (some (ra, s.eaD ra d)) false) ∧
  (∀ rb b31, s.CanAccess (s.eaX ra rb) 2 false p →
    LoadsReg (.lhzux rt ra rb b31) s rt (0#16 ++ s.seenHalf p.real) (some (ra, s.eaX ra rb)) b31 ∧
    LoadsReg (.lhaux rt ra rb b31) s rt ((s.seenHalf p.real).signExtend 32) (some (ra, s.eaX ra rb)) b31) ∧
  (∀ d, s.CanAccess (s.eaD ra d) 4 false p →
    LoadsReg (.lwzu rt d ra) s rt (s.seenWord p.real) (some (ra, s.eaD ra d)) false) ∧
  (∀ rb b31, s.CanAccess (s.eaX ra rb) 4 false p →
    LoadsReg (.lwzux rt ra rb b31) s rt (s.seenWord p.real) (some (ra, s.eaX ra rb)) b31)

/-- The stores: the low bytes of RS, the most significant first, or reversed, are what the processor sees at the real
address of EA, and every other byte is as before (45_load_store.md R340, R370 to R383). The model's choices: log
entries 17 and 40. -/
def Obligations.StoresWriteTheBytesAtTheirAddress : Prop :=
  (∀ s p rs d ra, s.CanAccess (s.eaD ra d) 1 true p →
    StoresBytes (.stb rs d ra) s p.real 1 (fun _ => byteOf (s.reg rs) 3) none false) ∧
  (∀ s p rs ra rb b31, s.CanAccess (s.eaX ra rb) 1 true p →
    StoresBytes (.stbx rs ra rb b31) s p.real 1 (fun _ => byteOf (s.reg rs) 3) none b31) ∧
  (∀ s p rs d ra, s.CanAccess (s.eaD ra d) 2 true p →
    StoresBytes (.sth rs d ra) s p.real 2 (fun k => byteOf (s.reg rs) (2 + k)) none false) ∧
  (∀ s p rs ra rb b31, s.CanAccess (s.eaX ra rb) 2 true p →
    StoresBytes (.sthx rs ra rb b31) s p.real 2 (fun k => byteOf (s.reg rs) (2 + k)) none b31 ∧
    StoresBytes (.sthbrx rs ra rb b31) s p.real 2 (fun k => byteOf (s.reg rs) (3 - k)) none b31) ∧
  (∀ s p rs d ra, s.CanAccess (s.eaD ra d) 4 true p →
    StoresBytes (.stw rs d ra) s p.real 4 (fun k => byteOf (s.reg rs) k) none false) ∧
  (∀ s p rs ra rb b31, s.CanAccess (s.eaX ra rb) 4 true p →
    StoresBytes (.stwx rs ra rb b31) s p.real 4 (fun k => byteOf (s.reg rs) k) none b31 ∧
    StoresBytes (.stwbrx rs ra rb b31) s p.real 4 (fun k => byteOf (s.reg rs) (3 - k)) none b31)

/-- The stores with update, RA not 0: as the stores, with the value RS had before, and RA receives EA
(45_load_store.md R341). The model's choices: log entries 17 and 40. -/
def Obligations.UpdateStoresAlsoWriteTheirBase : Prop :=
  ∀ (s : State) (p : Place) (rs ra : Reg), ra ≠ 0 →
  (∀ d, s.CanAccess (s.eaD ra d) 1 true p →
    StoresBytes (.stbu rs d ra) s p.real 1 (fun _ => byteOf (s.reg rs) 3) (some (ra, s.eaD ra d)) false) ∧
  (∀ rb b31, s.CanAccess (s.eaX ra rb) 1 true p →
    StoresBytes (.stbux rs ra rb b31) s p.real 1 (fun _ => byteOf (s.reg rs) 3) (some (ra, s.eaX ra rb)) b31) ∧
  (∀ d, s.CanAccess (s.eaD ra d) 2 true p →
    StoresBytes (.sthu rs d ra) s p.real 2 (fun k => byteOf (s.reg rs) (2 + k)) (some (ra, s.eaD ra d)) false) ∧
  (∀ rb b31, s.CanAccess (s.eaX ra rb) 2 true p →
    StoresBytes (.sthux rs ra rb b31) s p.real 2 (fun k => byteOf (s.reg rs) (2 + k)) (some (ra, s.eaX ra rb)) b31) ∧
  (∀ d, s.CanAccess (s.eaD ra d) 4 true p →
    StoresBytes (.stwu rs d ra) s p.real 4 (fun k => byteOf (s.reg rs) k) (some (ra, s.eaD ra d)) false) ∧
  (∀ rb b31, s.CanAccess (s.eaX ra rb) 4 true p →
    StoresBytes (.stwux rs ra rb b31) s p.real 4 (fun k => byteOf (s.reg rs) k) (some (ra, s.eaX ra rb)) b31)

/-- lwarx loads the word and sets RESERVE. stwcx. with RESERVE = 1 stores the word and clears it; with RESERVE = 0 it
stores nothing; CR field 0 says which, with XER.SO (45_load_store.md R386, R388). The model's choices: log entry 33.
-/
def Obligations.ReservationPairStoresOnlyWhenReserved : Prop :=
  (∀ s p rt ra rb b31, s.CanAccess (s.eaX ra rb) 4 false p →
    Completes (.lwarx rt ra rb b31) s (.reg rt :: .storage :: .dataCache :: .reserve :: cr0If b31) fun t =>
      t.reg rt = s.seenWord p.real ∧ t.reserve = true) ∧
  (∀ s p rs ra rb, s.reserve = true → s.CanAccess (s.eaX ra rb) 4 true p →
    Completes (.stwcxRc rs ra rb) s [.memory, .storage, .dataCache, .reserve, .crField 0] fun t =>
      t.reserve = false ∧ t.Cr0Is false false true s.so ∧
      (∀ k < 4, t.dataByte (p.real + BitVec.ofNat 32 k) = byteOf (s.reg rs) k) ∧
      ∀ x, (∀ k < 4, x ≠ p.real + BitVec.ofNat 32 k) → t.dataByte x = s.dataByte x) ∧
  (∀ s rs ra rb, s.reserve = false → (s.eaX ra rb).toNat % 4 = 0 →
    Completes (.stwcxRc rs ra rb) s [.crField 0] fun t => t.Cr0Is false false false s.so)

/-- A halfword access at an odd address and a word access at an address that is not a multiple of 4 take the alignment
exception with DEAR = EA and have no other effect; stwcx. whether RESERVE is 0 or 1, lmw and stmw by their first
address (20_memory.md R108, R109). The model's choices: log entries 9, 19, 38 and 39. -/
def Obligations.MisalignedAccessesTrap : Prop :=
  ∀ (s : State) (rt ra rb : Reg) (d : BitVec 16) (b31 : Bool), s.BigEndian → s.msrBit msrILE = false →
  ((s.eaD ra d).toNat % 2 ≠ 0 → ∀ i ∈ [Instr.lha rt d ra, .lhz rt d ra, .sth rt d ra],
    TrapsAlignment i s (s.eaD ra d)) ∧
  ((s.eaD ra d).toNat % 2 ≠ 0 → ra ≠ 0 → ra ≠ rt → ∀ i ∈ [Instr.lhau rt d ra, .lhzu rt d ra],
    TrapsAlignment i s (s.eaD ra d)) ∧
  ((s.eaD ra d).toNat % 2 ≠ 0 → ra ≠ 0 → TrapsAlignment (.sthu rt d ra) s (s.eaD ra d)) ∧
  ((s.eaX ra rb).toNat % 2 ≠ 0 →
    ∀ i ∈ [Instr.lhax rt ra rb b31, .lhzx rt ra rb b31, .lhbrx rt ra rb b31, .sthx rt ra rb b31, .sthbrx rt ra rb b31],
    TrapsAlignment i s (s.eaX ra rb)) ∧
  ((s.eaX ra rb).toNat % 2 ≠ 0 → ra ≠ 0 → ra ≠ rt → ∀ i ∈ [Instr.lhaux rt ra rb b31, .lhzux rt ra rb b31],
    TrapsAlignment i s (s.eaX ra rb)) ∧
  ((s.eaX ra rb).toNat % 2 ≠ 0 → ra ≠ 0 → TrapsAlignment (.sthux rt ra rb b31) s (s.eaX ra rb)) ∧
  ((s.eaD ra d).toNat % 4 ≠ 0 → ∀ i ∈ [Instr.lwz rt d ra, .stw rt d ra, .lmw rt d ra, .stmw rt d ra],
    TrapsAlignment i s (s.eaD ra d)) ∧
  ((s.eaD ra d).toNat % 4 ≠ 0 → ra ≠ 0 → ra ≠ rt → TrapsAlignment (.lwzu rt d ra) s (s.eaD ra d)) ∧
  ((s.eaD ra d).toNat % 4 ≠ 0 → ra ≠ 0 → TrapsAlignment (.stwu rt d ra) s (s.eaD ra d)) ∧
  ((s.eaX ra rb).toNat % 4 ≠ 0 →
    ∀ i ∈ [Instr.lwzx rt ra rb b31, .lwbrx rt ra rb b31, .lwarx rt ra rb b31, .stwx rt ra rb b31,
      .stwbrx rt ra rb b31, .stwcxRc rt ra rb],
    TrapsAlignment i s (s.eaX ra rb)) ∧
  ((s.eaX ra rb).toNat % 4 ≠ 0 → ra ≠ 0 → ra ≠ rt → TrapsAlignment (.lwzux rt ra rb b31) s (s.eaX ra rb)) ∧
  ((s.eaX ra rb).toNat % 4 ≠ 0 → ra ≠ 0 → TrapsAlignment (.stwux rt ra rb b31) s (s.eaX ra rb))

/-! ### Translation -/

/-- The translation of an address: an entry translates it when it is valid, its TID is 0 or the process tag, and the
top 22 - 2 * SIZE bits of its EPN are those of the address; the real address has these bits from RPN and the others
from EA. With the only entry that translates it, a data address and an instruction address have the real address and
the W and I attributes of the entry, unless protection forbids the access; with none they are misses. In real mode the
address is itself, its attributes the bits of DCCR, ICCR and DCWR for its 128MB region (20_memory.md R115, R116, R117,
R119). What forbids in a zone and in the bounds is free. The model's choices: log entries 9, 15 and 16. -/
def Obligations.ATranslatedAddressTakesItsPageFromTheEntry : Prop :=
  (∀ (e : TlbEntry) (ea : Word), ∀ k < 32, (e.realAddress ea).getLsbD k =
    if k < 10 + 2 * e.size.toNat then ea.getLsbD k else e.rpn.getLsbD (k - 10)) ∧
  (∀ (e : TlbEntry) (ea : Word) (pid : BitVec 8), e.translates ea pid = true ↔
    e.v = true ∧ (e.tid = 0#8 ∨ e.tid = pid) ∧
      ∀ k, 10 + 2 * e.size.toNat ≤ k → k < 32 → e.epn.getLsbD (k - 10) = ea.getLsbD k) ∧
  (∀ (s : State) (e : TlbEntry), s.pidTag = (s.sprVal .pid).extractLsb' 0 8 ∧
    s.zoneForbids e = (bit s.msr 17 && Config.zoneForbids (BitVec.ofBool (bit (s.sprVal .zpr) (2 * e.zsel.toNat)) ++
      BitVec.ofBool (bit (s.sprVal .zpr) (2 * e.zsel.toNat + 1))))) ∧
  (∀ (s : State) (ea : Word) (store : Bool), s.boundsForbid ea store = (store && bit s.msr 28 &&
    Config.boundsForbid (bit s.msr 27) (bit s.msr 29) (s.sprVal .pbl1) (s.sprVal .pbu1) (s.sprVal .pbl2)
      (s.sprVal .pbu2) ea)) ∧
  (∀ (s : State) (side : CacheSide) (ea : Word) (store : Bool), bit s.msr 27 = true →
    (s.NoEntry ea → dataPlace side ea store s = .exc (.dataTlbMiss ea) s) ∧
    ∀ k e, s.OnlyEntry ea k → e = s.tlbEntry k → dataPlace side ea store s =
      if (s.zoneForbids e || (store && !e.wr) || s.boundsForbid ea store) = true then
        .exc (.dataStorage ea store (s.zoneForbids e)) s
      else .ok ⟨e.realAddress ea, !e.i, e.w⟩ s) ∧
  (∀ (s : State) (side : CacheSide) (ea : Word) (store : Bool), bit s.msr 27 = false → dataPlace side ea store s =
    if s.boundsForbid ea store = true then .exc (.dataStorage ea store false) s
    else .ok ⟨ea, bit (match side with | .data => s.sprVal .dccr | .instruction => s.sprVal .iccr) (ea.toNat / 2 ^ 27),
      bit (s.sprVal .dcwr) (ea.toNat / 2 ^ 27)⟩ s) ∧
  (∀ s : State, bit s.msr 26 = true →
    (s.NoEntry s.pc → fetchPlace s = .exc .instructionTlbMiss s) ∧
    ∀ k e, s.OnlyEntry s.pc k → e = s.tlbEntry k → fetchPlace s =
      if (!e.ex || s.zoneForbids e) = true then .exc .instructionStorage s
      else .ok ⟨e.realAddress s.pc, !e.i, e.w⟩ s) ∧
  (∀ s : State, bit s.msr 26 = false → fetchPlace s =
    .ok ⟨s.pc, bit (s.sprVal .iccr) (s.pc.toNat / 2 ^ 27), bit (s.sprVal .dcwr) (s.pc.toNat / 2 ^ 27)⟩ s)

/-- The storage access of every load and store, each access of a multiple or string, and the address of every cache
instruction that may raise an exception: with MSR.DR = 1 and no TLB entry that translates it, the data TLB miss;
through the only entry, the data storage exception when the zone forbids the access, or it is a store and WR = 0 or
the bounds forbid it, the bounds with MSR.DR = 0 too; DEAR = EA of the access, ESR[DST] for a store, ESR[DIZ] for the
zone, the saved address that of the instruction; else the access has its place. A single or a first access has had no
other effect but that a string load has cleared the register of the byte. Where it is the access numbered k of a
multiple or string, and those before it went through, what they loaded or stored stays (45_load_store.md R340,
46_multiple_string.md R403, R404, R407, 47_cache_sync.md R421, 60_exceptions.md R517, R518, R529). The model's
choices: log entries 9, 10, 15, 19, 29, 37, 38, 39 and 40. -/
def Obligations.DataAccessesThatCannotBeTranslatedTrap : Prop :=
  (∀ (s : State) (r ra rb : Reg) (d : BitVec 16) (nb : BitVec 5) (b31 : Bool) (i : Instr) (ea : Word) (n : Nat)
      (store : Bool),
    (i, ea, n, store) ∈
      [(Instr.lbz r d ra, s.eaD ra d, 1, false), (.lbzu r d ra, s.eaD ra d, 1, false),
       (.lbzux r ra rb b31, s.eaX ra rb, 1, false), (.lbzx r ra rb b31, s.eaX ra rb, 1, false),
       (.lha r d ra, s.eaD ra d, 2, false), (.lhau r d ra, s.eaD ra d, 2, false),
       (.lhaux r ra rb b31, s.eaX ra rb, 2, false), (.lhax r ra rb b31, s.eaX ra rb, 2, false),
       (.lhbrx r ra rb b31, s.eaX ra rb, 2, false), (.lhz r d ra, s.eaD ra d, 2, false),
       (.lhzu r d ra, s.eaD ra d, 2, false), (.lhzux r ra rb b31, s.eaX ra rb, 2, false),
       (.lhzx r ra rb b31, s.eaX ra rb, 2, false), (.lwarx r ra rb b31, s.eaX ra rb, 4, false),
       (.lwbrx r ra rb b31, s.eaX ra rb, 4, false), (.lwz r d ra, s.eaD ra d, 4, false),
       (.lwzu r d ra, s.eaD ra d, 4, false), (.lwzux r ra rb b31, s.eaX ra rb, 4, false),
       (.lwzx r ra rb b31, s.eaX ra rb, 4, false),
       (.lmw r d ra, if r = ra ∧ r ≠ 31 then s.eaD ra d + 4#32 else s.eaD ra d, 4, false)] ++
      [(Instr.stb r d ra, s.eaD ra d, 1, true), (.stbu r d ra, s.eaD ra d, 1, true),
       (.stbux r ra rb b31, s.eaX ra rb, 1, true), (.stbx r ra rb b31, s.eaX ra rb, 1, true),
       (.sth r d ra, s.eaD ra d, 2, true), (.sthbrx r ra rb b31, s.eaX ra rb, 2, true),
       (.sthu r d ra, s.eaD ra d, 2, true), (.sthux r ra rb b31, s.eaX ra rb, 2, true),
       (.sthx r ra rb b31, s.eaX ra rb, 2, true), (.stw r d ra, s.eaD ra d, 4, true),
       (.stwbrx r ra rb b31, s.eaX ra rb, 4, true), (.stwu r d ra, s.eaD ra d, 4, true),
       (.stwux r ra rb b31, s.eaX ra rb, 4, true), (.stwx r ra rb b31, s.eaX ra rb, 4, true),
       (.stmw r d ra, s.eaD ra d, 4, true), (.stswi r ra nb b31, if ra = 0 then 0#32 else s.reg ra, 1, true)] ++
      (if s.reserve then [(Instr.stwcxRc r ra rb, s.eaX ra rb, 4, true)] else []) ++
      (if s.xer.toNat % 128 ≠ 0 then [(Instr.stswx r ra rb b31, s.eaX ra rb, 1, true)] else []) ++
      [(Instr.dcbf ra rb b31, s.eaX ra rb, 1, false), (.dcbst ra rb b31, s.eaX ra rb, 1, false),
       (.dcbi ra rb b31, s.eaX ra rb, 1, true), (.dcbz ra rb b31, s.eaX ra rb, 1, true),
       (.dccci ra rb b31, s.eaX ra rb, 1, true), (.dcread r ra rb b31, s.eaX ra rb, 4, false),
       (.icbi ra rb b31, s.eaX ra rb, 1, false), (.iccci ra rb b31, s.eaX ra rb, 1, false),
       (.icread ra rb b31, s.eaX ra rb, 1, false)] →
    i.wellFormed = true → (privilegedInstr i = true → s.problem = false) → s.BigEndian → s.msrBit msrILE = false →
    ea.toNat % n = 0 → DataExceptions i s s ea store) ∧
  (∀ (s : State) (i : Instr) (rt r : Reg) (ea : Word) (count j : Nat) (skip : List Reg) (b31 : Bool),
    IsStringLoad i s rt ea count skip b31 → 4 * j < count → r = rt + BitVec.ofNat 5 j →
    stringLoads rt count skip r = true → (∀ k < j, stringLoads rt count skip (rt + BitVec.ofNat 5 k) = false) →
    s.BigEndian → s.msrBit msrILE = false →
    DataExceptions i s (s.setReg r 0#32) (ea + BitVec.ofNat 32 (4 * j)) false) ∧
  (∀ (s : State) (rt ra : Reg) (d : BitVec 16) (k : Nat) (place : Nat → Place), s.msrBit msrILE = false →
    k < 32 - rt.toNat → wordLoads ra (rt + BitVec.ofNat 5 k) = true →
    s.CanAccessEach (s.eaD ra d) 4 false (fun j => j < k ∧ wordLoads ra (rt + BitVec.ofNat 5 j) = true) place →
    ∃ u, Unchanged (.storage :: .dataCache :: allRegs) s u ∧ WordsLoaded s u rt ra place k ∧
      DataExceptions (.lmw rt d ra) s u (s.eaD ra d + BitVec.ofNat 32 (4 * k)) false) ∧
  (∀ (s : State) (rs ra : Reg) (d : BitVec 16) (k : Nat) (place : Nat → Place), s.msrBit msrILE = false →
    k < 32 - rs.toNat → s.CanAccessEach (s.eaD ra d) 4 true (· < k) place →
    ∃ u, Unchanged [.memory, .storage, .dataCache] s u ∧
      BytesStored s u (4 * k) (fun m => (place (m / 4)).real + BitVec.ofNat 32 (m % 4)) (s.runByte rs) ∧
      DataExceptions (.stmw rs d ra) s u (s.eaD ra d + BitVec.ofNat 32 (4 * k)) true) ∧
  (∀ (s : State) (i : Instr) (rt : Reg) (ea : Word) (count k : Nat) (skip : List Reg) (b31 : Bool)
      (place : Nat → Place), IsStringLoad i s rt ea count skip b31 → s.msrBit msrILE = false → k < count →
    stringLoads rt count skip (rt + BitVec.ofNat 5 (k / 4)) = true →
    s.CanAccessEach ea 1 false
      (fun j => j < k ∧ stringLoads rt count skip (rt + BitVec.ofNat 5 (j / 4)) = true) place →
    ∃ u, Unchanged (.storage :: .dataCache :: allRegs) s u ∧ BytesLoaded s u rt count skip place (k + 1) k ∧
      DataExceptions i s u (ea + BitVec.ofNat 32 k) false) ∧
  (∀ (s : State) (i : Instr) (rs : Reg) (ea : Word) (count k : Nat) (b31 : Bool) (place : Nat → Place),
    IsStringStore i s rs ea count b31 → s.msrBit msrILE = false → k < count →
    s.CanAccessEach ea 1 true (· < k) place →
    ∃ u, Unchanged [.memory, .storage, .dataCache] s u ∧
      BytesStored s u k (fun m => (place m).real) (s.runByte rs) ∧
      DataExceptions i s u (ea + BitVec.ofNat 32 k) true)

/-! ### Multiple and string -/

/-- lmw loads consecutive words into RT to GPR(31), passing over RA unless it is GPR(31), stmw stores RS to GPR(31) as
consecutive words, where every access goes through; each word lies at the place its own address is translated to
(46_multiple_string.md R401, R402). The model's choices: log entries 17, 29 and 40. -/
def Obligations.MultiplesMoveConsecutiveWords : Prop :=
  (∀ (s : State) (rt ra : Reg) (d : BitVec 16) (place : Nat → Place),
    s.CanAccessEach (s.eaD ra d) 4 false
      (fun k => k < 32 - rt.toNat ∧ wordLoads ra (rt + BitVec.ofNat 5 k) = true) place →
    Completes (.lmw rt d ra) s (.storage :: .dataCache :: allRegs) fun t =>
      WordsLoaded s t rt ra place (32 - rt.toNat)) ∧
  (∀ (s : State) (rs ra : Reg) (d : BitVec 16) (place : Nat → Place),
    s.CanAccessEach (s.eaD ra d) 4 true (· < 32 - rs.toNat) place →
    Completes (.stmw rs d ra) s [.memory, .storage, .dataCache] fun t =>
      BytesStored s t (4 * (32 - rs.toNat)) (fun m => (place (m / 4)).real + BitVec.ofNat 32 (m % 4)) (s.runByte rs))

/-- lswi and lswx, where every access goes through: the registers from RT on, counted modulo 32, receive the bytes
four at a time, the last one padded with 0 on the right; RA, and RB for lswx, are passed over unless they are the last
register. lswx with a count of 0 leaves RT free and changes nothing else, but where the place of its address is
cacheable, misses and is absent it is the machine check (46_multiple_string.md R403, R404, R408). The model's choices:
log entries 6, 10, 17, 29, 30, 40 and 42. -/
def Obligations.LoadStringFillsTheRegisters : Prop :=
  (∀ (s : State) (i : Instr) (rt : Reg) (ea : Word) (count : Nat) (skip : List Reg) (b31 : Bool)
      (place : Nat → Place), IsStringLoad i s rt ea count skip b31 → 0 < count →
    s.CanAccessEach ea 1 false
      (fun k => k < count ∧ stringLoads rt count skip (rt + BitVec.ofNat 5 (k / 4)) = true) place →
    Completes i s (.storage :: .dataCache :: allRegs ++ cr0If b31) fun t =>
      BytesLoaded s t rt count skip place count count) ∧
  (∀ (s : State) (rt ra rb : Reg) (b31 : Bool), s.xer.toNat % 128 = 0 →
    ((∀ p s1, dataPlace .data (s.eaX ra rb) false s = .ok p s1 → ¬ s.AbsentMiss p) →
      Completes (.lswx rt ra rb b31) s (.reg rt :: cr0If b31) fun _ => True) ∧
    ∀ p s1, dataPlace .data (s.eaX ra rb) false s = .ok p s1 → s.AbsentMiss p →
      exec (.lswx rt ra rb b31) s = .fault .machineCheck)

/-- stswi and stswx, where every access goes through, store the bytes of the registers from RS on, counted modulo 32,
four of each, each byte at the place its own address is translated to. stswx with a count of 0 changes nothing, but
where the place of its address is cacheable, misses and is absent it is the machine check (46_multiple_string.md R405,
R406, R408). The model's choices: log entries 10, 17, 29, 30, 40 and 42. -/
def Obligations.StoreStringEmptiesTheRegisters : Prop :=
  (∀ (s : State) (i : Instr) (rs : Reg) (ea : Word) (count : Nat) (b31 : Bool) (place : Nat → Place),
    IsStringStore i s rs ea count b31 → 0 < count → s.CanAccessEach ea 1 true (· < count) place →
    Completes i s (.memory :: .storage :: .dataCache :: cr0If b31) fun t =>
      BytesStored s t count (fun m => (place m).real) (s.runByte rs)) ∧
  (∀ (s : State) (rs ra rb : Reg) (b31 : Bool), s.xer.toNat % 128 = 0 →
    ((∀ p s1, dataPlace .data (s.eaX ra rb) true s = .ok p s1 → ¬ s.AbsentMiss p) →
      Completes (.stswx rs ra rb b31) s (cr0If b31) fun _ => True) ∧
    ∀ p s1, dataPlace .data (s.eaX ra rb) true s = .ok p s1 → s.AbsentMiss p →
      exec (.stswx rs ra rb b31) s = .fault .machineCheck)

/-! ### Cache and synchronisation -/

/-- dcbf and dcbst leave main storage with the bytes the processor sees in the block and every other byte of it as it
was; dcbf marks the line of the block invalid, dcbst marks it not modified, and every other line and every LRU bit
stays (47_cache_sync.md R422, R424). The model's choices: log entry 17. -/
def Obligations.FlushAndStoreReachMainStorage : Prop :=
  (∀ s p ra rb b31, s.CanOperate .data (s.eaX ra rb) false p →
    Completes (.dcbf ra rb b31) s (.storage :: .dataCache :: cr0If b31) fun t =>
      t.dhit p.real = none ∧
      (∀ a, t.storage a = if sameBlock a p.real then s.dataByte a else s.storage a) ∧
      (∀ c side, t.dline c side = if c = dclass p.real ∧ s.dhit p.real = some side
        then { s.dline c side with v := false } else s.dline c side) ∧
      ∀ c, (t.dcls c).lru = (s.dcls c).lru) ∧
  (∀ s p ra rb b31, s.CanOperate .data (s.eaX ra rb) false p →
    Completes (.dcbst ra rb b31) s (.storage :: .dataCache :: cr0If b31) fun t =>
      t.dhit p.real = s.dhit p.real ∧
      (∀ a, t.storage a = if sameBlock a p.real then s.dataByte a else s.storage a) ∧
      (∀ c side, t.dline c side = if c = dclass p.real ∧ s.dhit p.real = some side
        then { s.dline c side with d := false } else s.dline c side) ∧
      ∀ c, (t.dcls c).lru = (s.dcls c).lru)

/-- dcbi and dccci in supervisor state discard lines of the data cache without copying them back, icbi and iccci drop
lines of the instruction cache: the block of the address, or both lines of the class of EA. Every other line and every
LRU bit stays (47_cache_sync.md R423, R431, R435, R438). The model's choices: log entries 17 and 18. -/
def Obligations.InvalidationsDiscardLines : Prop :=
  (∀ s p ra rb b31, s.problem = false → s.CanOperate .data (s.eaX ra rb) true p →
    Completes (.dcbi ra rb b31) s (.memory :: .dataCache :: cr0If b31) fun t =>
      t.dhit p.real = none ∧
      (∀ a, t.dataByte a = if sameBlock a p.real then s.storage a else s.dataByte a) ∧
      (∀ c side, t.dline c side = if c = dclass p.real ∧ s.dhit p.real = some side
        then { s.dline c side with v := false } else s.dline c side) ∧
      ∀ c, (t.dcls c).lru = (s.dcls c).lru) ∧
  (∀ s p ra rb b31, s.problem = false → s.CanOperate .data (s.eaX ra rb) true p →
    Completes (.dccci ra rb b31) s (.memory :: .dataCache :: cr0If b31) fun t =>
      (∀ a, t.dataByte a = if dclass a = dclass (s.eaX ra rb) then s.storage a else s.dataByte a) ∧
      (∀ c side, t.dline c side =
        if c = dclass (s.eaX ra rb) then { s.dline c side with v := false } else s.dline c side) ∧
      ∀ c, (t.dcls c).lru = (s.dcls c).lru) ∧
  (∀ s p ra rb b31, s.InstrLinesUnique → s.CanOperate .instruction (s.eaX ra rb) false p →
    Completes (.icbi ra rb b31) s (.instrCache :: cr0If b31) fun t =>
      t.ihit p.real = none ∧
      (∀ c side, t.iline c side = if c = iclass p.real ∧ s.ihit p.real = some side
        then { s.iline c side with v := false } else s.iline c side) ∧
      ∀ c, (t.icls c).lru = (s.icls c).lru) ∧
  (∀ s p ra rb b31, s.problem = false → s.CanOperate .instruction (s.eaX ra rb) false p →
    Completes (.iccci ra rb b31) s (.instrCache :: cr0If b31) fun t =>
      (∀ c side, t.iline c side =
        if c = iclass (s.eaX ra rb) then { s.iline c side with v := false } else s.iline c side) ∧
      ∀ c, (t.icls c).lru = (s.icls c).lru)

/-- dcbz leaves 0 in the 16 bytes of the block and the block in the data cache; where the address is not cacheable or
is write-through it takes the alignment exception (47_cache_sync.md R427). The model's choices: log entries 9, 19, 20
and 39. -/
def Obligations.BlockZeroClearsTheBlockOrTraps : Prop :=
  (∀ s p ra rb b31, s.CanOperate .data (s.eaX ra rb) true p → p.cacheable = true → p.writeThrough = false →
    s.touches .absent (blockBase p.real) 16 = false →
    Completes (.dcbz ra rb b31) s (.memory :: .storage :: .dataCache :: cr0If b31) fun t =>
      t.dhit p.real ≠ none ∧ ∀ a, t.dataByte a = if sameBlock a p.real then 0#8 else s.dataByte a) ∧
  (∀ s p s1 ra rb b31, dataPlace .data (s.eaX ra rb) true s = .ok p s1 →
    p.cacheable = false ∨ p.writeThrough = true → s.msrBit msrILE = false →
    TrapsAlignment (.dcbz ra rb b31) s (s.eaX ra rb))

/-- The touches: a cacheable block is in the cache after them, what the processor sees stays; they change nothing for
an address that is not cacheable, for a block with an absent address, and for an address whose translation would raise
an exception (47_cache_sync.md R425, R426, R436). The model's choices: log entries 21 and 43. -/
def Obligations.TouchesFillOrDoNothing : Prop :=
  (∀ s p ra rb b31, s.CanOperate .data (s.eaX ra rb) false p →
    ∀ i ∈ [Instr.dcbt ra rb b31, .dcbtst ra rb b31],
    (s.PlainAt (blockBase p.real) 16 →
      Completes i s (.storage :: .dataCache :: cr0If b31) fun t => p.cacheable = true → t.dhit p.real ≠ none) ∧
    (p.cacheable = false ∨ s.touches .absent (blockBase p.real) 16 = true →
      Completes i s (cr0If b31) fun _ => True)) ∧
  (∀ s p ra rb b31, s.problem = false → s.CanOperate .instruction (s.eaX ra rb) false p →
    (s.PlainAt (blockBase p.real) 16 →
      Completes (.icbt ra rb b31) s (.instrCache :: cr0If b31) fun t => p.cacheable = true → t.ihit p.real ≠ none) ∧
    (p.cacheable = false ∨ s.touches .absent (blockBase p.real) 16 = true →
      Completes (.icbt ra rb b31) s (cr0If b31) fun _ => True)) ∧
  (∀ s x s1 ra rb b31, dataPlace .data (s.eaX ra rb) false s = .exc x s1 →
    ∀ i ∈ [Instr.dcbt ra rb b31, .dcbtst ra rb b31], Completes i s (cr0If b31) fun _ => True) ∧
  (∀ s x s1 ra rb b31, s.problem = false → dataPlace .instruction (s.eaX ra rb) false s = .exc x s1 →
    Completes (.icbt ra rb b31) s (cr0If b31) fun _ => True)

/-- dcread and icread in supervisor state give the tag, the state bits and LRU of the selected line, or a word of its
bytes; the data of an invalid line is free. dcread at an address that is not a multiple of 4 takes the alignment
exception (47_cache_sync.md R433, R439). The model's choices: log entries 6, 9, 10, 19, 36, 38 and 39. -/
def Obligations.CacheReadsGiveTheSelectedLine : Prop :=
  (∀ s p ra rb rt b31 side, s.problem = false → s.CanOperate .data (s.eaX ra rb) false p →
    (s.eaX ra rb).toNat % 4 = 0 → side = (if bit (s.sprVal .cdbcr) 31 then Side.b else .a) →
    Completes (.dcread rt ra rb b31) s (.reg rt :: cr0If b31) fun t =>
      (bit (s.sprVal .cdbcr) 27 = true → ∀ l, l = s.dline (dclass (s.eaX ra rb)) side →
        t.reg rt = l.tag ++ 0#3 ++ BitVec.ofBool l.d ++ BitVec.ofBool l.v ++ 0#3 ++
          BitVec.ofBool (s.dcls (dclass (s.eaX ra rb))).lru) ∧
      (bit (s.sprVal .cdbcr) 27 = false → (s.dline (dclass (s.eaX ra rb)) side).v = true →
        ∀ k < 4, byteOf (t.reg rt) k = (s.dline (dclass (s.eaX ra rb)) side).data[(s.eaX ra rb).toNat % 16 + k]?.getD 0)) ∧
  (∀ s p ra rb b31 side, s.problem = false → s.CanOperate .instruction (s.eaX ra rb) false p →
    side = (if bit (s.sprVal .cdbcr) 31 then Side.b else .a) →
    Completes (.icread ra rb b31) s (.spr .icdbdr :: cr0If b31) fun t =>
      (bit (s.sprVal .cdbcr) 27 = true → ∀ l, l = s.iline (iclass (s.eaX ra rb)) side →
        t.sprVal .icdbdr = l.tag ++ 0#5 ++ BitVec.ofBool l.v ++ 0#3 ++
          BitVec.ofBool (s.icls (iclass (s.eaX ra rb))).lru) ∧
      (bit (s.sprVal .cdbcr) 27 = false → (s.iline (iclass (s.eaX ra rb)) side).v = true →
        ∀ k < 4, byteOf (t.sprVal .icdbdr) k =
          (s.iline (iclass (s.eaX ra rb)) side).data[(s.eaX ra rb).toNat % 16 / 4 * 4 + k]?.getD 0)) ∧
  (∀ s ra rb rt b31, s.problem = false → s.msrBit msrILE = false → (s.eaX ra rb).toNat % 4 ≠ 0 →
    TrapsAlignment (.dcread rt ra rb b31) s (s.eaX ra rb))

/-- sync, eieio and isync change no register and no byte. What they do to fetches: after sync, and eieio, the bytes
that dcbst sent out have reached main storage; isync discards the prefetch queue (20_memory.md R122 to R124, R133,
47_cache_sync.md R440 to R442). The model's choices: log entries 19 and 34. -/
def Obligations.SynchronisationsChangeNoRegisterOrByte : Prop :=
  (∀ s b31, ∀ i ∈ [Instr.sync b31, .eieio b31], Completes i s (cr0If b31) fun t =>
    t.stale = s.stale.map fun o => if o.stage = .pushed then { o with stage := .synced } else o) ∧
  (∀ s b31, Completes (.isync b31) s (cr0If b31) fun t => QueueDiscarded s t)

/-- What a fetch may see of stored bytes. After dcbst, sync, icbi and isync of a block, in real mode, it is the byte
the processor saw there, and no other. Without them, off Level 0 of the caches, a store and an isync leave the
replaced bytes among what a fetch may see. At Level 0 from reset on isync alone leaves the byte of main storage. What
may have been prefetched stays until the context is synchronized: only isync, sc, rfi, rfci and an entry take a byte
from what a fetch may see. Once Level 0 has been left no instruction brings it back, and an old byte that waits for
dcbst is kept by every other instruction, isync among them, also where the caches are empty and off again. And every
step keeps the machine at Level 0 or knowing that it has left it (20_memory.md R133, 10_state.md R84, 47_cache_sync.md
R429, 70_reset_and_hazards.md R573, 92_eei_decisions.md D24). The model's choices: log entry 19. -/
def Obligations.SelfModifyingSequenceMakesStoresFetchable : Prop :=
  (∀ (s s1 s2 s3 s4 : State) (ra rb : Reg) (p : Place) (a : Word), s.RealStorage → s.InstrLinesUnique →
    exec (.dcbst ra rb false) s = .next s1 → exec (.sync false) s1 = .next s2 →
    exec (.icbi ra rb false) s2 = .next s3 → exec (.isync false) s3 = .next s4 →
    sameBlock a (s.eaX ra rb) = true →
    s4.instrByte p a = s.dataByte a ∧ ∀ b ∈ s4.fetchable a, b = s.dataByte a) ∧
  (∀ (s s1 s2 : State) (p : Place) (rs ra : Reg) (d : BitVec 16) (a : Word), s.CanAccess (s.eaD ra d) 4 true p →
    exec (.stw rs d ra) s = .next s1 → s1.levelZero = false → exec (.isync false) s1 = .next s2 →
    s.storage a ∈ s2.fetchable a ∧ s.dataByte a ∈ s2.fetchable a) ∧
  (∀ (s t : State) (b31 : Bool), (∀ c side, (s.dline c side).v = false) → (∀ c side, (s.iline c side).v = false) →
    s.sprVal .dccr = 0 → s.sprVal .iccr = 0 → (∀ k, (s.tlbEntry k).v = true → (s.tlbEntry k).i = true) →
    s.cachingSeen = false →
    exec (.isync b31) s = .next t → ∀ a, ∀ b ∈ t.fetchable a, b = s.storage a) ∧
  (∀ (i : Instr) (s t : State) (a : Word) (b : Byte), s.MemoryCanonical → exec i s = .next t →
    (∀ b31, i ≠ .isync b31) → i ∉ [Instr.sc, .rfi, .rfci] →
    (∀ offset ∈ vectorOffsets, t.pc ≠ s.spr.evpr.extractLsb' 16 16 ++ offset) →
    b ∈ s.fetchable a → b ∈ t.fetchable a) ∧
  (∀ (i : Instr) (s t : State), s.cachingSeen = true → exec i s = .next t → t.cachingSeen = true ∧
    ((∀ ra rb b31, i ≠ .dcbst ra rb b31) → ∀ a b, ⟨a, b, .stored⟩ ∈ s.stale → ⟨a, b, .stored⟩ ∈ t.stale)) ∧
  (∀ s t : State, s.LevelKnown → step s = .next t → t.LevelKnown)

/-! ### System -/

/-- sc enters 0x0C00 with the next address and the MSR saved. rfi and rfci in supervisor state restore the MSR and the
pc from their save registers, the two low address bits made 0, and discard the prefetch queue (48_system.md R450 to
R452, 60_exceptions.md R502, R510, 10_state.md R45). The model's choices: log entries 9, 12, 13 and 19. -/
def Obligations.SystemCallSavesAndReturnsRestore : Prop :=
  (∀ s : State, s.msrBit msrILE = false →
    ∃ t, exec .sc s = .next t ∧ Entered false (s.pc + 4#32) 0x0C00#16 [] s t) ∧
  (∀ s : State, s.problem = false →
    (bit (s.sprVal .srr1) 31 = false → ∃ t, exec .rfi s = .next t ∧ t.msr = s.sprVal .srr1 ∧
      t.pc = (s.sprVal .srr0).extractLsb' 2 30 ++ 0#2 ∧ QueueDiscarded s t ∧ Unchanged [.msr] s t) ∧
    (bit (s.sprVal .srr3) 31 = false → ∃ t, exec .rfci s = .next t ∧ t.msr = s.sprVal .srr3 ∧
      t.pc = (s.sprVal .srr2).extractLsb' 2 30 ++ 0#2 ∧ QueueDiscarded s t ∧ Unchanged [.msr] s t))

/-- A system call and the return from it bring the machine back to the next instruction with the MSR it had: the
handler that does nothing is invisible but in SRR0 and SRR1 (60_exceptions.md R502, 48_system.md R451). The model's
choices: log entry 13. -/
def Obligations.ReturningFromASystemCallResumesTheProgram : Prop :=
  ∀ s : State, s.PcAligned → s.BigEndian → s.msrBit msrILE = false →
    ∃ t u, exec .sc s = .next t ∧ exec .rfi t = .next u ∧ u.pc = s.pc + 4#32 ∧
      Unchanged [.spr .srr0, .spr .srr1] s u

/-- The MSR moves in supervisor state: mfmsr reads it, mtmsr replaces it, wrtee and wrteei replace EE alone; a value
with LE = 1 is refused (48_system.md R454 to R458, 20_memory.md R106). The model's choices: log entries 9, 12 and 36.
-/
def Obligations.MsrMovesReadAndWriteTheMsr : Prop :=
  ∀ (s : State) (r : Reg) (e b31 : Bool), s.problem = false →
    Completes (.mfmsr r b31) s (.reg r :: cr0If b31) (fun t => t.reg r = s.msr) ∧
    (bit (s.reg r) 31 = false → Completes (.mtmsr r b31) s (.msr :: cr0If b31) fun t => t.msr = s.reg r) ∧
    (bit (s.reg r) 31 = true → exec (.mtmsr r b31) s = .refused .littleEndian) ∧
    Completes (.wrtee r b31) s (.msr :: cr0If b31)
      (fun t => ∀ k < 32, bit t.msr k = if k = 16 then bit (s.reg r) 16 else bit s.msr k) ∧
    Completes (.wrteei e b31) s (.msr :: cr0If b31)
      (fun t => ∀ k < 32, bit t.msr k = if k = 16 then e else bit s.msr k)

/-- mfspr reads every special purpose register it names, in supervisor state or by an unprivileged number: a register
that holds a value gives it, a running counter and ICDBDR right after icread a free one (48_system.md R460,
70_reset_and_hazards.md R574). The model's choices: log entries 7, 25 and 35. -/
def Obligations.MoveFromSprReadsTheRegister : Prop :=
  ∀ (s : State) (rt : Reg) (n : BitVec 10) (r : Spr) (b31 : Bool), sprOfNumber n = some r →
    s.problem = false ∨ n.getLsbD 4 = false →
    Completes (.mfspr rt n b31) s (.reg rt :: cr0If b31) fun t =>
      r ∉ [Spr.tbhi, .tblo, .tbhu, .tblu, .pit] → ¬ (r = .icdbdr ∧ s.afterIcread = true) → t.reg rt = s.sprVal r

/-- mtspr writes every special purpose register it may name with all 32 bits of RS, and no other; a 1 clears its bit
of TSR and DBSR; TBHU and TBLU are TBHI and TBLO as users read them (48_system.md R461, 10_state.md R85). The model's
choices: log entries 7, 23, 25, 26 and 36. -/
def Obligations.MoveToSprWritesTheRegister : Prop :=
  ∀ (s : State) (rs : Reg) (n : BitVec 10) (r : Spr) (b31 : Bool), sprOfNumber n = some r →
    r ∉ [Spr.pvr, .tbhu, .tblu, .dear, .dbcr] → s.problem = false ∨ n.getLsbD 4 = false →
    Completes (.mtspr n rs b31) s
      (.spr r :: (if r = .tbhi then [.spr .tbhu] else if r = .tblo then [.spr .tblu] else []) ++ cr0If b31) fun t =>
      t.sprVal r = if r = .dbsr ∨ r = .tsr then s.sprVal r &&& ~~~(s.reg rs) else s.reg rs

/-- The device control registers are cells: mfdcr reads one, mtdcr writes one and no other (48_system.md R462, R463,
60_exceptions.md R541). The model's choices: log entries 7 and 24. -/
def Obligations.DcrMovesReadAndWriteTheCell : Prop :=
  ∀ (s : State) (r : Reg) (n : BitVec 10) (d : Dcr) (b31 : Bool), s.problem = false → dcrOfNumber n = some d →
    Completes (.mfdcr r n b31) s (.reg r :: cr0If b31) (fun t => t.reg r = s.dcrVal d) ∧
    Completes (.mtdcr n r b31) s (.dcr :: cr0If b31)
      (fun t => ∀ d', t.dcrVal d' = if d' = d then s.reg r else s.dcrVal d')

/-- tw and twi: a trap is taken exactly when TO asks for a relation that holds. Where trap is no enabled debug event,
DBCR[TDE] = 0 or DBCR[EDM, IDM] = 0, it is the program exception with ESR[PTR] set; without a trap nothing changes
(48_system.md R470 to R473). The model's choices: log entries 9, 10, 11, 19, 37 and 41. -/
def Obligations.TrapsAreTakenWhenTheConditionHolds : Prop :=
  ∀ (s : State) (i : Instr) (tcond : BitVec 5) (ra : Reg) (b : Word) (b31 : Bool), IsTrap i s tcond ra b b31 →
    (trapHolds tcond (s.reg ra) b = false → Completes i s (cr0If b31) fun _ => True) ∧
    (trapHolds tcond (s.reg ra) b = true →
      bit (s.sprVal .dbcr) 7 = false ∨ (bit (s.sprVal .dbcr) 0 = false ∧ bit (s.sprVal .dbcr) 1 = false) →
      s.msrBit msrILE = false → TrapsProgram i s 6)

/-- A trap of tw or twi with trap debug events on. In external debug mode DBSR[TIE] is set, and DBSR[IDE] when
internal debug mode is on and MSR.DE = 0, and the processor stops at the instruction: Debug Stop has no step. In
internal debug mode alone, with MSR.DE = 1 it is the debug exception with DBSR[TIE] set, with MSR.DE = 0 the program
exception with DBSR[TIE, IDE] and ESR[PTR] set (48_system.md R471, 70_reset_and_hazards.md R582). The model's choices:
log entries 9, 10, 11, 19, 23 and 37. -/
def Obligations.DebugTrapsFollowTheDebugMode : Prop :=
  ∀ (s : State) (i : Instr) (tcond : BitVec 5) (ra : Reg) (b : Word) (b31 : Bool), IsTrap i s tcond ra b b31 →
    trapHolds tcond (s.reg ra) b = true → bit (s.sprVal .dbcr) 7 = true →
    (bit (s.sprVal .dbcr) 0 = true → ∃ t, exec i s = .next t ∧ t.pc = s.pc ∧ t.debugStopped = true ∧
      step t = .fault .debugStop ∧ Unchanged [.spr .dbsr, .stopped] s t ∧
      ∀ k < 32, bit (t.sprVal .dbsr) k = (decide (k = 3) ||
        (decide (k = 11) && bit (s.sprVal .dbcr) 1 && !bit s.msr 22) || bit (s.sprVal .dbsr) k)) ∧
    (bit (s.sprVal .dbcr) 0 = false → bit (s.sprVal .dbcr) 1 = true → s.msrBit msrILE = false → bit s.msr 22 = true →
      ∃ t, exec i s = .next t ∧ Entered true s.pc 0x2000#16 [.dbsr] s t ∧
        ∀ k < 32, bit (t.sprVal .dbsr) k = (decide (k = 3) || bit (s.sprVal .dbsr) k)) ∧
    (bit (s.sprVal .dbcr) 0 = false → bit (s.sprVal .dbcr) 1 = true → s.msrBit msrILE = false → bit s.msr 22 = false →
      ∃ t, exec i s = .next t ∧ Entered false s.pc 0x0700#16 [.dbsr, .esr] s t ∧
        (∀ k < 32, bit (t.sprVal .dbsr) k = (decide (k = 3 ∨ k = 11) || bit (s.sprVal .dbsr) k)) ∧
        ∀ k < 32, bit (t.sprVal .esr) k = (decide (k = 6) || bit (s.sprVal .esr) k))

/-- tlbwe in supervisor state writes the TLBHI part of the entry, with TID from PID, or the TLBLO part; tlbre reads
the same fields back, TID to PID; the other entries stay. With an index above 63 tlbre completes with free values and
tlbwe is refused (48_system.md R475, R476). The model's choices: log entries 32 and 36. -/
def Obligations.TlbMovesReadAndWriteTheEntry : Prop :=
  ∀ (s : State) (r ra : Reg) (b31 : Bool) (k : BitVec 6), s.problem = false →
    (s.reg ra = k.setWidth 32 →
      Completes (.tlbre r ra 0 b31) s (.reg r :: .spr .pid :: cr0If b31) (fun t =>
        t.reg r = (s.tlbEntry k).epn ++ (s.tlbEntry k).size ++ BitVec.ofBool (s.tlbEntry k).v ++ 0#6 ∧
        t.sprVal .pid = (s.tlbEntry k).tid.setWidth 32) ∧
      Completes (.tlbre r ra 1 b31) s (.reg r :: cr0If b31) (fun t =>
        t.reg r = (s.tlbEntry k).rpn ++ BitVec.ofBool (s.tlbEntry k).ex ++ BitVec.ofBool (s.tlbEntry k).wr ++
          (s.tlbEntry k).zsel ++ BitVec.ofBool (s.tlbEntry k).w ++ BitVec.ofBool (s.tlbEntry k).i ++
          BitVec.ofBool (s.tlbEntry k).m ++ BitVec.ofBool (s.tlbEntry k).g) ∧
      Completes (.tlbwe r ra 0 b31) s (.tlb :: cr0If b31) (fun t => ∀ j, t.tlbEntry j = if j = k then
        { s.tlbEntry k with epn := (s.reg r).extractLsb' 10 22, size := (s.reg r).extractLsb' 7 3,
                            v := (s.reg r).getLsbD 6, tid := (s.sprVal .pid).extractLsb' 0 8 }
        else s.tlbEntry j) ∧
      Completes (.tlbwe r ra 1 b31) s (.tlb :: cr0If b31) (fun t => ∀ j, t.tlbEntry j = if j = k then
        { s.tlbEntry k with rpn := (s.reg r).extractLsb' 10 22, ex := (s.reg r).getLsbD 9, wr := (s.reg r).getLsbD 8,
                            zsel := (s.reg r).extractLsb' 4 4, w := (s.reg r).getLsbD 3, i := (s.reg r).getLsbD 2,
                            m := (s.reg r).getLsbD 1, g := (s.reg r).getLsbD 0 }
        else s.tlbEntry j)) ∧
    (64 ≤ (s.reg ra).toNat →
      Completes (.tlbre r ra 0 b31) s (.reg r :: .spr .pid :: cr0If b31) (fun _ => True) ∧
      Completes (.tlbre r ra 1 b31) s (.reg r :: cr0If b31) (fun _ => True) ∧
      ∀ ws : BitVec 5, ws = 0 ∨ ws = 1 → exec (.tlbwe r ra ws b31) s = .refused .tlbweIndexUndefined)

/-- tlbia in supervisor state makes every entry invalid and leaves its other fields; tlbsync does nothing; tlbsx puts
the index of an entry that translates EA in RT and says so in CR field 0 if Rc, or leaves RT free (48_system.md R474,
R477, R478). The model's choices: log entries 6 and 15. -/
def Obligations.TlbInvalidateAndSearch : Prop :=
  ∀ s : State, s.problem = false →
    Completes .tlbia s [.tlb] (fun t => ∀ k, t.tlbEntry k = { s.tlbEntry k with v := false }) ∧
    Completes .tlbsync s [] (fun _ => True) ∧
    ∀ (rt ra rb : Reg) (rc : Bool), Completes (.tlbsx rt ra rb rc) s (.reg rt :: cr0If rc) (fun t =>
      ((∃ k, (s.tlbEntry k).translates (s.eaX ra rb) s.pidTag = true) →
        (∃ k : BitVec 6, (s.tlbEntry k).translates (s.eaX ra rb) s.pidTag = true ∧ t.reg rt = k.setWidth 32) ∧
        (rc = true → t.Cr0Is false false true s.so)) ∧
      ((∀ k, (s.tlbEntry k).translates (s.eaX ra rb) s.pidTag = false) → rc = true →
        t.Cr0Is false false false s.so))

end
end

