-- ==== Sys2Proof/Laws/State.lean ====
section
/-! SUPPORT. One lemma per field per update of State, each true by rfl, and the read-after-write laws of the register
files. -/

namespace Sys2Proof.Machine

@[simp] theorem State.setReg_pc (s : State) (r : Reg) (v : Word) : (s.setReg r v).pc = s.pc := rfl
@[simp] theorem State.setReg_cr (s : State) (r : Reg) (v : Word) : (s.setReg r v).cr = s.cr := rfl
@[simp] theorem State.setReg_xer (s : State) (r : Reg) (v : Word) : (s.setReg r v).xer = s.xer := rfl
@[simp] theorem State.setReg_lr (s : State) (r : Reg) (v : Word) : (s.setReg r v).lr = s.lr := rfl
@[simp] theorem State.setReg_ctr (s : State) (r : Reg) (v : Word) : (s.setReg r v).ctr = s.ctr := rfl
@[simp] theorem State.setReg_msr (s : State) (r : Reg) (v : Word) : (s.setReg r v).msr = s.msr := rfl
@[simp] theorem State.setReg_spr (s : State) (r : Reg) (v : Word) : (s.setReg r v).spr = s.spr := rfl
@[simp] theorem State.setReg_tlb (s : State) (r : Reg) (v : Word) : (s.setReg r v).tlb = s.tlb := rfl
@[simp] theorem State.setReg_dcr (s : State) (r : Reg) (v : Word) : (s.setReg r v).dcr = s.dcr := rfl
@[simp] theorem State.setReg_dcache (s : State) (r : Reg) (v : Word) : (s.setReg r v).dcache = s.dcache := rfl
@[simp] theorem State.setReg_icache (s : State) (r : Reg) (v : Word) : (s.setReg r v).icache = s.icache := rfl
@[simp] theorem State.setReg_reserve (s : State) (r : Reg) (v : Word) : (s.setReg r v).reserve = s.reserve := rfl
@[simp] theorem State.setReg_afterIcread (s : State) (r : Reg) (v : Word) : (s.setReg r v).afterIcread = s.afterIcread := rfl
@[simp] theorem State.setReg_debugStopped (s : State) (r : Reg) (v : Word) : (s.setReg r v).debugStopped = s.debugStopped := rfl
@[simp] theorem State.setReg_stale (s : State) (r : Reg) (v : Word) : (s.setReg r v).stale = s.stale := rfl
@[simp] theorem State.setReg_cachingSeen (s : State) (r : Reg) (v : Word) : (s.setReg r v).cachingSeen = s.cachingSeen := rfl
@[simp] theorem State.setReg_mem (s : State) (r : Reg) (v : Word) : (s.setReg r v).mem = s.mem := rfl
@[simp] theorem State.setReg_memMap (s : State) (r : Reg) (v : Word) : (s.setReg r v).memMap = s.memMap := rfl
@[simp] theorem State.setReg_pending (s : State) (r : Reg) (v : Word) : (s.setReg r v).pending = s.pending := rfl
@[simp] theorem State.setReg_draws (s : State) (r : Reg) (v : Word) : (s.setReg r v).draws = s.draws := rfl
@[simp] theorem State.setPc_gpr (s : State) (v : Word) : (s.setPc v).gpr = s.gpr := rfl
@[simp] theorem State.setPc_pc (s : State) (v : Word) : (s.setPc v).pc = v := rfl
@[simp] theorem State.setPc_cr (s : State) (v : Word) : (s.setPc v).cr = s.cr := rfl
@[simp] theorem State.setPc_xer (s : State) (v : Word) : (s.setPc v).xer = s.xer := rfl
@[simp] theorem State.setPc_lr (s : State) (v : Word) : (s.setPc v).lr = s.lr := rfl
@[simp] theorem State.setPc_ctr (s : State) (v : Word) : (s.setPc v).ctr = s.ctr := rfl
@[simp] theorem State.setPc_msr (s : State) (v : Word) : (s.setPc v).msr = s.msr := rfl
@[simp] theorem State.setPc_spr (s : State) (v : Word) : (s.setPc v).spr = s.spr := rfl
@[simp] theorem State.setPc_tlb (s : State) (v : Word) : (s.setPc v).tlb = s.tlb := rfl
@[simp] theorem State.setPc_dcr (s : State) (v : Word) : (s.setPc v).dcr = s.dcr := rfl
@[simp] theorem State.setPc_dcache (s : State) (v : Word) : (s.setPc v).dcache = s.dcache := rfl
@[simp] theorem State.setPc_icache (s : State) (v : Word) : (s.setPc v).icache = s.icache := rfl
@[simp] theorem State.setPc_reserve (s : State) (v : Word) : (s.setPc v).reserve = s.reserve := rfl
@[simp] theorem State.setPc_afterIcread (s : State) (v : Word) : (s.setPc v).afterIcread = s.afterIcread := rfl
@[simp] theorem State.setPc_debugStopped (s : State) (v : Word) : (s.setPc v).debugStopped = s.debugStopped := rfl
@[simp] theorem State.setPc_stale (s : State) (v : Word) : (s.setPc v).stale = s.stale := rfl
@[simp] theorem State.setPc_cachingSeen (s : State) (v : Word) : (s.setPc v).cachingSeen = s.cachingSeen := rfl
@[simp] theorem State.setPc_mem (s : State) (v : Word) : (s.setPc v).mem = s.mem := rfl
@[simp] theorem State.setPc_memMap (s : State) (v : Word) : (s.setPc v).memMap = s.memMap := rfl
@[simp] theorem State.setPc_pending (s : State) (v : Word) : (s.setPc v).pending = s.pending := rfl
@[simp] theorem State.setPc_draws (s : State) (v : Word) : (s.setPc v).draws = s.draws := rfl
@[simp] theorem State.setCr_gpr (s : State) (v : Word) : (s.setCr v).gpr = s.gpr := rfl
@[simp] theorem State.setCr_pc (s : State) (v : Word) : (s.setCr v).pc = s.pc := rfl
@[simp] theorem State.setCr_cr (s : State) (v : Word) : (s.setCr v).cr = v := rfl
@[simp] theorem State.setCr_xer (s : State) (v : Word) : (s.setCr v).xer = s.xer := rfl
@[simp] theorem State.setCr_lr (s : State) (v : Word) : (s.setCr v).lr = s.lr := rfl
@[simp] theorem State.setCr_ctr (s : State) (v : Word) : (s.setCr v).ctr = s.ctr := rfl
@[simp] theorem State.setCr_msr (s : State) (v : Word) : (s.setCr v).msr = s.msr := rfl
@[simp] theorem State.setCr_spr (s : State) (v : Word) : (s.setCr v).spr = s.spr := rfl
@[simp] theorem State.setCr_tlb (s : State) (v : Word) : (s.setCr v).tlb = s.tlb := rfl
@[simp] theorem State.setCr_dcr (s : State) (v : Word) : (s.setCr v).dcr = s.dcr := rfl
@[simp] theorem State.setCr_dcache (s : State) (v : Word) : (s.setCr v).dcache = s.dcache := rfl
@[simp] theorem State.setCr_icache (s : State) (v : Word) : (s.setCr v).icache = s.icache := rfl
@[simp] theorem State.setCr_reserve (s : State) (v : Word) : (s.setCr v).reserve = s.reserve := rfl
@[simp] theorem State.setCr_afterIcread (s : State) (v : Word) : (s.setCr v).afterIcread = s.afterIcread := rfl
@[simp] theorem State.setCr_debugStopped (s : State) (v : Word) : (s.setCr v).debugStopped = s.debugStopped := rfl
@[simp] theorem State.setCr_stale (s : State) (v : Word) : (s.setCr v).stale = s.stale := rfl
@[simp] theorem State.setCr_cachingSeen (s : State) (v : Word) : (s.setCr v).cachingSeen = s.cachingSeen := rfl
@[simp] theorem State.setCr_mem (s : State) (v : Word) : (s.setCr v).mem = s.mem := rfl
@[simp] theorem State.setCr_memMap (s : State) (v : Word) : (s.setCr v).memMap = s.memMap := rfl
@[simp] theorem State.setCr_pending (s : State) (v : Word) : (s.setCr v).pending = s.pending := rfl
@[simp] theorem State.setCr_draws (s : State) (v : Word) : (s.setCr v).draws = s.draws := rfl
@[simp] theorem State.setXer_gpr (s : State) (v : Word) : (s.setXer v).gpr = s.gpr := rfl
@[simp] theorem State.setXer_pc (s : State) (v : Word) : (s.setXer v).pc = s.pc := rfl
@[simp] theorem State.setXer_cr (s : State) (v : Word) : (s.setXer v).cr = s.cr := rfl
@[simp] theorem State.setXer_xer (s : State) (v : Word) : (s.setXer v).xer = v := rfl
@[simp] theorem State.setXer_lr (s : State) (v : Word) : (s.setXer v).lr = s.lr := rfl
@[simp] theorem State.setXer_ctr (s : State) (v : Word) : (s.setXer v).ctr = s.ctr := rfl
@[simp] theorem State.setXer_msr (s : State) (v : Word) : (s.setXer v).msr = s.msr := rfl
@[simp] theorem State.setXer_spr (s : State) (v : Word) : (s.setXer v).spr = s.spr := rfl
@[simp] theorem State.setXer_tlb (s : State) (v : Word) : (s.setXer v).tlb = s.tlb := rfl
@[simp] theorem State.setXer_dcr (s : State) (v : Word) : (s.setXer v).dcr = s.dcr := rfl
@[simp] theorem State.setXer_dcache (s : State) (v : Word) : (s.setXer v).dcache = s.dcache := rfl
@[simp] theorem State.setXer_icache (s : State) (v : Word) : (s.setXer v).icache = s.icache := rfl
@[simp] theorem State.setXer_reserve (s : State) (v : Word) : (s.setXer v).reserve = s.reserve := rfl
@[simp] theorem State.setXer_afterIcread (s : State) (v : Word) : (s.setXer v).afterIcread = s.afterIcread := rfl
@[simp] theorem State.setXer_debugStopped (s : State) (v : Word) : (s.setXer v).debugStopped = s.debugStopped := rfl
@[simp] theorem State.setXer_stale (s : State) (v : Word) : (s.setXer v).stale = s.stale := rfl
@[simp] theorem State.setXer_cachingSeen (s : State) (v : Word) : (s.setXer v).cachingSeen = s.cachingSeen := rfl
@[simp] theorem State.setXer_mem (s : State) (v : Word) : (s.setXer v).mem = s.mem := rfl
@[simp] theorem State.setXer_memMap (s : State) (v : Word) : (s.setXer v).memMap = s.memMap := rfl
@[simp] theorem State.setXer_pending (s : State) (v : Word) : (s.setXer v).pending = s.pending := rfl
@[simp] theorem State.setXer_draws (s : State) (v : Word) : (s.setXer v).draws = s.draws := rfl
@[simp] theorem State.setLr_gpr (s : State) (v : Word) : (s.setLr v).gpr = s.gpr := rfl
@[simp] theorem State.setLr_pc (s : State) (v : Word) : (s.setLr v).pc = s.pc := rfl
@[simp] theorem State.setLr_cr (s : State) (v : Word) : (s.setLr v).cr = s.cr := rfl
@[simp] theorem State.setLr_xer (s : State) (v : Word) : (s.setLr v).xer = s.xer := rfl
@[simp] theorem State.setLr_lr (s : State) (v : Word) : (s.setLr v).lr = v := rfl
@[simp] theorem State.setLr_ctr (s : State) (v : Word) : (s.setLr v).ctr = s.ctr := rfl
@[simp] theorem State.setLr_msr (s : State) (v : Word) : (s.setLr v).msr = s.msr := rfl
@[simp] theorem State.setLr_spr (s : State) (v : Word) : (s.setLr v).spr = s.spr := rfl
@[simp] theorem State.setLr_tlb (s : State) (v : Word) : (s.setLr v).tlb = s.tlb := rfl
@[simp] theorem State.setLr_dcr (s : State) (v : Word) : (s.setLr v).dcr = s.dcr := rfl
@[simp] theorem State.setLr_dcache (s : State) (v : Word) : (s.setLr v).dcache = s.dcache := rfl
@[simp] theorem State.setLr_icache (s : State) (v : Word) : (s.setLr v).icache = s.icache := rfl
@[simp] theorem State.setLr_reserve (s : State) (v : Word) : (s.setLr v).reserve = s.reserve := rfl
@[simp] theorem State.setLr_afterIcread (s : State) (v : Word) : (s.setLr v).afterIcread = s.afterIcread := rfl
@[simp] theorem State.setLr_debugStopped (s : State) (v : Word) : (s.setLr v).debugStopped = s.debugStopped := rfl
@[simp] theorem State.setLr_stale (s : State) (v : Word) : (s.setLr v).stale = s.stale := rfl
@[simp] theorem State.setLr_cachingSeen (s : State) (v : Word) : (s.setLr v).cachingSeen = s.cachingSeen := rfl
@[simp] theorem State.setLr_mem (s : State) (v : Word) : (s.setLr v).mem = s.mem := rfl
@[simp] theorem State.setLr_memMap (s : State) (v : Word) : (s.setLr v).memMap = s.memMap := rfl
@[simp] theorem State.setLr_pending (s : State) (v : Word) : (s.setLr v).pending = s.pending := rfl
@[simp] theorem State.setLr_draws (s : State) (v : Word) : (s.setLr v).draws = s.draws := rfl
@[simp] theorem State.setCtr_gpr (s : State) (v : Word) : (s.setCtr v).gpr = s.gpr := rfl
@[simp] theorem State.setCtr_pc (s : State) (v : Word) : (s.setCtr v).pc = s.pc := rfl
@[simp] theorem State.setCtr_cr (s : State) (v : Word) : (s.setCtr v).cr = s.cr := rfl
@[simp] theorem State.setCtr_xer (s : State) (v : Word) : (s.setCtr v).xer = s.xer := rfl
@[simp] theorem State.setCtr_lr (s : State) (v : Word) : (s.setCtr v).lr = s.lr := rfl
@[simp] theorem State.setCtr_ctr (s : State) (v : Word) : (s.setCtr v).ctr = v := rfl
@[simp] theorem State.setCtr_msr (s : State) (v : Word) : (s.setCtr v).msr = s.msr := rfl
@[simp] theorem State.setCtr_spr (s : State) (v : Word) : (s.setCtr v).spr = s.spr := rfl
@[simp] theorem State.setCtr_tlb (s : State) (v : Word) : (s.setCtr v).tlb = s.tlb := rfl
@[simp] theorem State.setCtr_dcr (s : State) (v : Word) : (s.setCtr v).dcr = s.dcr := rfl
@[simp] theorem State.setCtr_dcache (s : State) (v : Word) : (s.setCtr v).dcache = s.dcache := rfl
@[simp] theorem State.setCtr_icache (s : State) (v : Word) : (s.setCtr v).icache = s.icache := rfl
@[simp] theorem State.setCtr_reserve (s : State) (v : Word) : (s.setCtr v).reserve = s.reserve := rfl
@[simp] theorem State.setCtr_afterIcread (s : State) (v : Word) : (s.setCtr v).afterIcread = s.afterIcread := rfl
@[simp] theorem State.setCtr_debugStopped (s : State) (v : Word) : (s.setCtr v).debugStopped = s.debugStopped := rfl
@[simp] theorem State.setCtr_stale (s : State) (v : Word) : (s.setCtr v).stale = s.stale := rfl
@[simp] theorem State.setCtr_cachingSeen (s : State) (v : Word) : (s.setCtr v).cachingSeen = s.cachingSeen := rfl
@[simp] theorem State.setCtr_mem (s : State) (v : Word) : (s.setCtr v).mem = s.mem := rfl
@[simp] theorem State.setCtr_memMap (s : State) (v : Word) : (s.setCtr v).memMap = s.memMap := rfl
@[simp] theorem State.setCtr_pending (s : State) (v : Word) : (s.setCtr v).pending = s.pending := rfl
@[simp] theorem State.setCtr_draws (s : State) (v : Word) : (s.setCtr v).draws = s.draws := rfl
@[simp] theorem State.setMsr_gpr (s : State) (v : Word) : (s.setMsr v).gpr = s.gpr := rfl
@[simp] theorem State.setMsr_pc (s : State) (v : Word) : (s.setMsr v).pc = s.pc := rfl
@[simp] theorem State.setMsr_cr (s : State) (v : Word) : (s.setMsr v).cr = s.cr := rfl
@[simp] theorem State.setMsr_xer (s : State) (v : Word) : (s.setMsr v).xer = s.xer := rfl
@[simp] theorem State.setMsr_lr (s : State) (v : Word) : (s.setMsr v).lr = s.lr := rfl
@[simp] theorem State.setMsr_ctr (s : State) (v : Word) : (s.setMsr v).ctr = s.ctr := rfl
@[simp] theorem State.setMsr_msr (s : State) (v : Word) : (s.setMsr v).msr = v := rfl
@[simp] theorem State.setMsr_spr (s : State) (v : Word) : (s.setMsr v).spr = s.spr := rfl
@[simp] theorem State.setMsr_tlb (s : State) (v : Word) : (s.setMsr v).tlb = s.tlb := rfl
@[simp] theorem State.setMsr_dcr (s : State) (v : Word) : (s.setMsr v).dcr = s.dcr := rfl
@[simp] theorem State.setMsr_dcache (s : State) (v : Word) : (s.setMsr v).dcache = s.dcache := rfl
@[simp] theorem State.setMsr_icache (s : State) (v : Word) : (s.setMsr v).icache = s.icache := rfl
@[simp] theorem State.setMsr_reserve (s : State) (v : Word) : (s.setMsr v).reserve = s.reserve := rfl
@[simp] theorem State.setMsr_afterIcread (s : State) (v : Word) : (s.setMsr v).afterIcread = s.afterIcread := rfl
@[simp] theorem State.setMsr_debugStopped (s : State) (v : Word) : (s.setMsr v).debugStopped = s.debugStopped := rfl
@[simp] theorem State.setMsr_stale (s : State) (v : Word) : (s.setMsr v).stale = s.stale := rfl
@[simp] theorem State.setMsr_cachingSeen (s : State) (v : Word) : (s.setMsr v).cachingSeen = s.cachingSeen := rfl
@[simp] theorem State.setMsr_mem (s : State) (v : Word) : (s.setMsr v).mem = s.mem := rfl
@[simp] theorem State.setMsr_memMap (s : State) (v : Word) : (s.setMsr v).memMap = s.memMap := rfl
@[simp] theorem State.setMsr_pending (s : State) (v : Word) : (s.setMsr v).pending = s.pending := rfl
@[simp] theorem State.setMsr_draws (s : State) (v : Word) : (s.setMsr v).draws = s.draws := rfl
@[simp] theorem State.setSpr_gpr (s : State) (v : Sprs) : (s.setSpr v).gpr = s.gpr := rfl
@[simp] theorem State.setSpr_pc (s : State) (v : Sprs) : (s.setSpr v).pc = s.pc := rfl
@[simp] theorem State.setSpr_cr (s : State) (v : Sprs) : (s.setSpr v).cr = s.cr := rfl
@[simp] theorem State.setSpr_xer (s : State) (v : Sprs) : (s.setSpr v).xer = s.xer := rfl
@[simp] theorem State.setSpr_lr (s : State) (v : Sprs) : (s.setSpr v).lr = s.lr := rfl
@[simp] theorem State.setSpr_ctr (s : State) (v : Sprs) : (s.setSpr v).ctr = s.ctr := rfl
@[simp] theorem State.setSpr_msr (s : State) (v : Sprs) : (s.setSpr v).msr = s.msr := rfl
@[simp] theorem State.setSpr_spr (s : State) (v : Sprs) : (s.setSpr v).spr = v := rfl
@[simp] theorem State.setSpr_tlb (s : State) (v : Sprs) : (s.setSpr v).tlb = s.tlb := rfl
@[simp] theorem State.setSpr_dcr (s : State) (v : Sprs) : (s.setSpr v).dcr = s.dcr := rfl
@[simp] theorem State.setSpr_dcache (s : State) (v : Sprs) : (s.setSpr v).dcache = s.dcache := rfl
@[simp] theorem State.setSpr_icache (s : State) (v : Sprs) : (s.setSpr v).icache = s.icache := rfl
@[simp] theorem State.setSpr_reserve (s : State) (v : Sprs) : (s.setSpr v).reserve = s.reserve := rfl
@[simp] theorem State.setSpr_afterIcread (s : State) (v : Sprs) : (s.setSpr v).afterIcread = s.afterIcread := rfl
@[simp] theorem State.setSpr_debugStopped (s : State) (v : Sprs) : (s.setSpr v).debugStopped = s.debugStopped := rfl
@[simp] theorem State.setSpr_stale (s : State) (v : Sprs) : (s.setSpr v).stale = s.stale := rfl
@[simp] theorem State.setSpr_cachingSeen (s : State) (v : Sprs) : (s.setSpr v).cachingSeen = s.cachingSeen := rfl
@[simp] theorem State.setSpr_mem (s : State) (v : Sprs) : (s.setSpr v).mem = s.mem := rfl
@[simp] theorem State.setSpr_memMap (s : State) (v : Sprs) : (s.setSpr v).memMap = s.memMap := rfl
@[simp] theorem State.setSpr_pending (s : State) (v : Sprs) : (s.setSpr v).pending = s.pending := rfl
@[simp] theorem State.setSpr_draws (s : State) (v : Sprs) : (s.setSpr v).draws = s.draws := rfl
@[simp] theorem State.setTlb_gpr (s : State) (v : Vector TlbEntry 64) : (s.setTlb v).gpr = s.gpr := rfl
@[simp] theorem State.setTlb_pc (s : State) (v : Vector TlbEntry 64) : (s.setTlb v).pc = s.pc := rfl
@[simp] theorem State.setTlb_cr (s : State) (v : Vector TlbEntry 64) : (s.setTlb v).cr = s.cr := rfl
@[simp] theorem State.setTlb_xer (s : State) (v : Vector TlbEntry 64) : (s.setTlb v).xer = s.xer := rfl
@[simp] theorem State.setTlb_lr (s : State) (v : Vector TlbEntry 64) : (s.setTlb v).lr = s.lr := rfl
@[simp] theorem State.setTlb_ctr (s : State) (v : Vector TlbEntry 64) : (s.setTlb v).ctr = s.ctr := rfl
@[simp] theorem State.setTlb_msr (s : State) (v : Vector TlbEntry 64) : (s.setTlb v).msr = s.msr := rfl
@[simp] theorem State.setTlb_spr (s : State) (v : Vector TlbEntry 64) : (s.setTlb v).spr = s.spr := rfl
@[simp] theorem State.setTlb_tlb (s : State) (v : Vector TlbEntry 64) : (s.setTlb v).tlb = v := rfl
@[simp] theorem State.setTlb_dcr (s : State) (v : Vector TlbEntry 64) : (s.setTlb v).dcr = s.dcr := rfl
@[simp] theorem State.setTlb_dcache (s : State) (v : Vector TlbEntry 64) : (s.setTlb v).dcache = s.dcache := rfl
@[simp] theorem State.setTlb_icache (s : State) (v : Vector TlbEntry 64) : (s.setTlb v).icache = s.icache := rfl
@[simp] theorem State.setTlb_reserve (s : State) (v : Vector TlbEntry 64) : (s.setTlb v).reserve = s.reserve := rfl
@[simp] theorem State.setTlb_afterIcread (s : State) (v : Vector TlbEntry 64) : (s.setTlb v).afterIcread = s.afterIcread := rfl
@[simp] theorem State.setTlb_debugStopped (s : State) (v : Vector TlbEntry 64) : (s.setTlb v).debugStopped = s.debugStopped := rfl
@[simp] theorem State.setTlb_stale (s : State) (v : Vector TlbEntry 64) : (s.setTlb v).stale = s.stale := rfl
@[simp] theorem State.setTlb_cachingSeen (s : State) (v : Vector TlbEntry 64) : (s.setTlb v).cachingSeen = s.cachingSeen := rfl
@[simp] theorem State.setTlb_mem (s : State) (v : Vector TlbEntry 64) : (s.setTlb v).mem = s.mem := rfl
@[simp] theorem State.setTlb_memMap (s : State) (v : Vector TlbEntry 64) : (s.setTlb v).memMap = s.memMap := rfl
@[simp] theorem State.setTlb_pending (s : State) (v : Vector TlbEntry 64) : (s.setTlb v).pending = s.pending := rfl
@[simp] theorem State.setTlb_draws (s : State) (v : Vector TlbEntry 64) : (s.setTlb v).draws = s.draws := rfl
@[simp] theorem State.setDcr_gpr (s : State) (v : Vector Word 34) : (s.setDcr v).gpr = s.gpr := rfl
@[simp] theorem State.setDcr_pc (s : State) (v : Vector Word 34) : (s.setDcr v).pc = s.pc := rfl
@[simp] theorem State.setDcr_cr (s : State) (v : Vector Word 34) : (s.setDcr v).cr = s.cr := rfl
@[simp] theorem State.setDcr_xer (s : State) (v : Vector Word 34) : (s.setDcr v).xer = s.xer := rfl
@[simp] theorem State.setDcr_lr (s : State) (v : Vector Word 34) : (s.setDcr v).lr = s.lr := rfl
@[simp] theorem State.setDcr_ctr (s : State) (v : Vector Word 34) : (s.setDcr v).ctr = s.ctr := rfl
@[simp] theorem State.setDcr_msr (s : State) (v : Vector Word 34) : (s.setDcr v).msr = s.msr := rfl
@[simp] theorem State.setDcr_spr (s : State) (v : Vector Word 34) : (s.setDcr v).spr = s.spr := rfl
@[simp] theorem State.setDcr_tlb (s : State) (v : Vector Word 34) : (s.setDcr v).tlb = s.tlb := rfl
@[simp] theorem State.setDcr_dcr (s : State) (v : Vector Word 34) : (s.setDcr v).dcr = v := rfl
@[simp] theorem State.setDcr_dcache (s : State) (v : Vector Word 34) : (s.setDcr v).dcache = s.dcache := rfl
@[simp] theorem State.setDcr_icache (s : State) (v : Vector Word 34) : (s.setDcr v).icache = s.icache := rfl
@[simp] theorem State.setDcr_reserve (s : State) (v : Vector Word 34) : (s.setDcr v).reserve = s.reserve := rfl
@[simp] theorem State.setDcr_afterIcread (s : State) (v : Vector Word 34) : (s.setDcr v).afterIcread = s.afterIcread := rfl
@[simp] theorem State.setDcr_debugStopped (s : State) (v : Vector Word 34) : (s.setDcr v).debugStopped = s.debugStopped := rfl
@[simp] theorem State.setDcr_stale (s : State) (v : Vector Word 34) : (s.setDcr v).stale = s.stale := rfl
@[simp] theorem State.setDcr_cachingSeen (s : State) (v : Vector Word 34) : (s.setDcr v).cachingSeen = s.cachingSeen := rfl
@[simp] theorem State.setDcr_mem (s : State) (v : Vector Word 34) : (s.setDcr v).mem = s.mem := rfl
@[simp] theorem State.setDcr_memMap (s : State) (v : Vector Word 34) : (s.setDcr v).memMap = s.memMap := rfl
@[simp] theorem State.setDcr_pending (s : State) (v : Vector Word 34) : (s.setDcr v).pending = s.pending := rfl
@[simp] theorem State.setDcr_draws (s : State) (v : Vector Word 34) : (s.setDcr v).draws = s.draws := rfl
@[simp] theorem State.setDcache_gpr (s : State) (v : Vector DClass 32) : (s.setDcache v).gpr = s.gpr := rfl
@[simp] theorem State.setDcache_pc (s : State) (v : Vector DClass 32) : (s.setDcache v).pc = s.pc := rfl
@[simp] theorem State.setDcache_cr (s : State) (v : Vector DClass 32) : (s.setDcache v).cr = s.cr := rfl
@[simp] theorem State.setDcache_xer (s : State) (v : Vector DClass 32) : (s.setDcache v).xer = s.xer := rfl
@[simp] theorem State.setDcache_lr (s : State) (v : Vector DClass 32) : (s.setDcache v).lr = s.lr := rfl
@[simp] theorem State.setDcache_ctr (s : State) (v : Vector DClass 32) : (s.setDcache v).ctr = s.ctr := rfl
@[simp] theorem State.setDcache_msr (s : State) (v : Vector DClass 32) : (s.setDcache v).msr = s.msr := rfl
@[simp] theorem State.setDcache_spr (s : State) (v : Vector DClass 32) : (s.setDcache v).spr = s.spr := rfl
@[simp] theorem State.setDcache_tlb (s : State) (v : Vector DClass 32) : (s.setDcache v).tlb = s.tlb := rfl
@[simp] theorem State.setDcache_dcr (s : State) (v : Vector DClass 32) : (s.setDcache v).dcr = s.dcr := rfl
@[simp] theorem State.setDcache_dcache (s : State) (v : Vector DClass 32) : (s.setDcache v).dcache = v := rfl
@[simp] theorem State.setDcache_icache (s : State) (v : Vector DClass 32) : (s.setDcache v).icache = s.icache := rfl
@[simp] theorem State.setDcache_reserve (s : State) (v : Vector DClass 32) : (s.setDcache v).reserve = s.reserve := rfl
@[simp] theorem State.setDcache_afterIcread (s : State) (v : Vector DClass 32) : (s.setDcache v).afterIcread = s.afterIcread := rfl
@[simp] theorem State.setDcache_debugStopped (s : State) (v : Vector DClass 32) : (s.setDcache v).debugStopped = s.debugStopped := rfl
@[simp] theorem State.setDcache_stale (s : State) (v : Vector DClass 32) : (s.setDcache v).stale = s.stale := rfl
@[simp] theorem State.setDcache_cachingSeen (s : State) (v : Vector DClass 32) : (s.setDcache v).cachingSeen = s.cachingSeen := rfl
@[simp] theorem State.setDcache_mem (s : State) (v : Vector DClass 32) : (s.setDcache v).mem = s.mem := rfl
@[simp] theorem State.setDcache_memMap (s : State) (v : Vector DClass 32) : (s.setDcache v).memMap = s.memMap := rfl
@[simp] theorem State.setDcache_pending (s : State) (v : Vector DClass 32) : (s.setDcache v).pending = s.pending := rfl
@[simp] theorem State.setDcache_draws (s : State) (v : Vector DClass 32) : (s.setDcache v).draws = s.draws := rfl
@[simp] theorem State.setIcache_gpr (s : State) (v : Vector IClass 64) : (s.setIcache v).gpr = s.gpr := rfl
@[simp] theorem State.setIcache_pc (s : State) (v : Vector IClass 64) : (s.setIcache v).pc = s.pc := rfl
@[simp] theorem State.setIcache_cr (s : State) (v : Vector IClass 64) : (s.setIcache v).cr = s.cr := rfl
@[simp] theorem State.setIcache_xer (s : State) (v : Vector IClass 64) : (s.setIcache v).xer = s.xer := rfl
@[simp] theorem State.setIcache_lr (s : State) (v : Vector IClass 64) : (s.setIcache v).lr = s.lr := rfl
@[simp] theorem State.setIcache_ctr (s : State) (v : Vector IClass 64) : (s.setIcache v).ctr = s.ctr := rfl
@[simp] theorem State.setIcache_msr (s : State) (v : Vector IClass 64) : (s.setIcache v).msr = s.msr := rfl
@[simp] theorem State.setIcache_spr (s : State) (v : Vector IClass 64) : (s.setIcache v).spr = s.spr := rfl
@[simp] theorem State.setIcache_tlb (s : State) (v : Vector IClass 64) : (s.setIcache v).tlb = s.tlb := rfl
@[simp] theorem State.setIcache_dcr (s : State) (v : Vector IClass 64) : (s.setIcache v).dcr = s.dcr := rfl
@[simp] theorem State.setIcache_dcache (s : State) (v : Vector IClass 64) : (s.setIcache v).dcache = s.dcache := rfl
@[simp] theorem State.setIcache_icache (s : State) (v : Vector IClass 64) : (s.setIcache v).icache = v := rfl
@[simp] theorem State.setIcache_reserve (s : State) (v : Vector IClass 64) : (s.setIcache v).reserve = s.reserve := rfl
@[simp] theorem State.setIcache_afterIcread (s : State) (v : Vector IClass 64) : (s.setIcache v).afterIcread = s.afterIcread := rfl
@[simp] theorem State.setIcache_debugStopped (s : State) (v : Vector IClass 64) : (s.setIcache v).debugStopped = s.debugStopped := rfl
@[simp] theorem State.setIcache_stale (s : State) (v : Vector IClass 64) : (s.setIcache v).stale = s.stale := rfl
@[simp] theorem State.setIcache_cachingSeen (s : State) (v : Vector IClass 64) : (s.setIcache v).cachingSeen = s.cachingSeen := rfl
@[simp] theorem State.setIcache_mem (s : State) (v : Vector IClass 64) : (s.setIcache v).mem = s.mem := rfl
@[simp] theorem State.setIcache_memMap (s : State) (v : Vector IClass 64) : (s.setIcache v).memMap = s.memMap := rfl
@[simp] theorem State.setIcache_pending (s : State) (v : Vector IClass 64) : (s.setIcache v).pending = s.pending := rfl
@[simp] theorem State.setIcache_draws (s : State) (v : Vector IClass 64) : (s.setIcache v).draws = s.draws := rfl
@[simp] theorem State.setReserve_gpr (s : State) (v : Bool) : (s.setReserve v).gpr = s.gpr := rfl
@[simp] theorem State.setReserve_pc (s : State) (v : Bool) : (s.setReserve v).pc = s.pc := rfl
@[simp] theorem State.setReserve_cr (s : State) (v : Bool) : (s.setReserve v).cr = s.cr := rfl
@[simp] theorem State.setReserve_xer (s : State) (v : Bool) : (s.setReserve v).xer = s.xer := rfl
@[simp] theorem State.setReserve_lr (s : State) (v : Bool) : (s.setReserve v).lr = s.lr := rfl
@[simp] theorem State.setReserve_ctr (s : State) (v : Bool) : (s.setReserve v).ctr = s.ctr := rfl
@[simp] theorem State.setReserve_msr (s : State) (v : Bool) : (s.setReserve v).msr = s.msr := rfl
@[simp] theorem State.setReserve_spr (s : State) (v : Bool) : (s.setReserve v).spr = s.spr := rfl
@[simp] theorem State.setReserve_tlb (s : State) (v : Bool) : (s.setReserve v).tlb = s.tlb := rfl
@[simp] theorem State.setReserve_dcr (s : State) (v : Bool) : (s.setReserve v).dcr = s.dcr := rfl
@[simp] theorem State.setReserve_dcache (s : State) (v : Bool) : (s.setReserve v).dcache = s.dcache := rfl
@[simp] theorem State.setReserve_icache (s : State) (v : Bool) : (s.setReserve v).icache = s.icache := rfl
@[simp] theorem State.setReserve_reserve (s : State) (v : Bool) : (s.setReserve v).reserve = v := rfl
@[simp] theorem State.setReserve_afterIcread (s : State) (v : Bool) : (s.setReserve v).afterIcread = s.afterIcread := rfl
@[simp] theorem State.setReserve_debugStopped (s : State) (v : Bool) : (s.setReserve v).debugStopped = s.debugStopped := rfl
@[simp] theorem State.setReserve_stale (s : State) (v : Bool) : (s.setReserve v).stale = s.stale := rfl
@[simp] theorem State.setReserve_cachingSeen (s : State) (v : Bool) : (s.setReserve v).cachingSeen = s.cachingSeen := rfl
@[simp] theorem State.setReserve_mem (s : State) (v : Bool) : (s.setReserve v).mem = s.mem := rfl
@[simp] theorem State.setReserve_memMap (s : State) (v : Bool) : (s.setReserve v).memMap = s.memMap := rfl
@[simp] theorem State.setReserve_pending (s : State) (v : Bool) : (s.setReserve v).pending = s.pending := rfl
@[simp] theorem State.setReserve_draws (s : State) (v : Bool) : (s.setReserve v).draws = s.draws := rfl
@[simp] theorem State.setAfterIcread_gpr (s : State) (v : Bool) : (s.setAfterIcread v).gpr = s.gpr := rfl
@[simp] theorem State.setAfterIcread_pc (s : State) (v : Bool) : (s.setAfterIcread v).pc = s.pc := rfl
@[simp] theorem State.setAfterIcread_cr (s : State) (v : Bool) : (s.setAfterIcread v).cr = s.cr := rfl
@[simp] theorem State.setAfterIcread_xer (s : State) (v : Bool) : (s.setAfterIcread v).xer = s.xer := rfl
@[simp] theorem State.setAfterIcread_lr (s : State) (v : Bool) : (s.setAfterIcread v).lr = s.lr := rfl
@[simp] theorem State.setAfterIcread_ctr (s : State) (v : Bool) : (s.setAfterIcread v).ctr = s.ctr := rfl
@[simp] theorem State.setAfterIcread_msr (s : State) (v : Bool) : (s.setAfterIcread v).msr = s.msr := rfl
@[simp] theorem State.setAfterIcread_spr (s : State) (v : Bool) : (s.setAfterIcread v).spr = s.spr := rfl
@[simp] theorem State.setAfterIcread_tlb (s : State) (v : Bool) : (s.setAfterIcread v).tlb = s.tlb := rfl
@[simp] theorem State.setAfterIcread_dcr (s : State) (v : Bool) : (s.setAfterIcread v).dcr = s.dcr := rfl
@[simp] theorem State.setAfterIcread_dcache (s : State) (v : Bool) : (s.setAfterIcread v).dcache = s.dcache := rfl
@[simp] theorem State.setAfterIcread_icache (s : State) (v : Bool) : (s.setAfterIcread v).icache = s.icache := rfl
@[simp] theorem State.setAfterIcread_reserve (s : State) (v : Bool) : (s.setAfterIcread v).reserve = s.reserve := rfl
@[simp] theorem State.setAfterIcread_afterIcread (s : State) (v : Bool) : (s.setAfterIcread v).afterIcread = v := rfl
@[simp] theorem State.setAfterIcread_debugStopped (s : State) (v : Bool) : (s.setAfterIcread v).debugStopped = s.debugStopped := rfl
@[simp] theorem State.setAfterIcread_stale (s : State) (v : Bool) : (s.setAfterIcread v).stale = s.stale := rfl
@[simp] theorem State.setAfterIcread_cachingSeen (s : State) (v : Bool) : (s.setAfterIcread v).cachingSeen = s.cachingSeen := rfl
@[simp] theorem State.setAfterIcread_mem (s : State) (v : Bool) : (s.setAfterIcread v).mem = s.mem := rfl
@[simp] theorem State.setAfterIcread_memMap (s : State) (v : Bool) : (s.setAfterIcread v).memMap = s.memMap := rfl
@[simp] theorem State.setAfterIcread_pending (s : State) (v : Bool) : (s.setAfterIcread v).pending = s.pending := rfl
@[simp] theorem State.setAfterIcread_draws (s : State) (v : Bool) : (s.setAfterIcread v).draws = s.draws := rfl
@[simp] theorem State.setDebugStopped_gpr (s : State) (v : Bool) : (s.setDebugStopped v).gpr = s.gpr := rfl
@[simp] theorem State.setDebugStopped_pc (s : State) (v : Bool) : (s.setDebugStopped v).pc = s.pc := rfl
@[simp] theorem State.setDebugStopped_cr (s : State) (v : Bool) : (s.setDebugStopped v).cr = s.cr := rfl
@[simp] theorem State.setDebugStopped_xer (s : State) (v : Bool) : (s.setDebugStopped v).xer = s.xer := rfl
@[simp] theorem State.setDebugStopped_lr (s : State) (v : Bool) : (s.setDebugStopped v).lr = s.lr := rfl
@[simp] theorem State.setDebugStopped_ctr (s : State) (v : Bool) : (s.setDebugStopped v).ctr = s.ctr := rfl
@[simp] theorem State.setDebugStopped_msr (s : State) (v : Bool) : (s.setDebugStopped v).msr = s.msr := rfl
@[simp] theorem State.setDebugStopped_spr (s : State) (v : Bool) : (s.setDebugStopped v).spr = s.spr := rfl
@[simp] theorem State.setDebugStopped_tlb (s : State) (v : Bool) : (s.setDebugStopped v).tlb = s.tlb := rfl
@[simp] theorem State.setDebugStopped_dcr (s : State) (v : Bool) : (s.setDebugStopped v).dcr = s.dcr := rfl
@[simp] theorem State.setDebugStopped_dcache (s : State) (v : Bool) : (s.setDebugStopped v).dcache = s.dcache := rfl
@[simp] theorem State.setDebugStopped_icache (s : State) (v : Bool) : (s.setDebugStopped v).icache = s.icache := rfl
@[simp] theorem State.setDebugStopped_reserve (s : State) (v : Bool) : (s.setDebugStopped v).reserve = s.reserve := rfl
@[simp] theorem State.setDebugStopped_afterIcread (s : State) (v : Bool) : (s.setDebugStopped v).afterIcread = s.afterIcread := rfl
@[simp] theorem State.setDebugStopped_debugStopped (s : State) (v : Bool) : (s.setDebugStopped v).debugStopped = v := rfl
@[simp] theorem State.setDebugStopped_stale (s : State) (v : Bool) : (s.setDebugStopped v).stale = s.stale := rfl
@[simp] theorem State.setDebugStopped_cachingSeen (s : State) (v : Bool) : (s.setDebugStopped v).cachingSeen = s.cachingSeen := rfl
@[simp] theorem State.setDebugStopped_mem (s : State) (v : Bool) : (s.setDebugStopped v).mem = s.mem := rfl
@[simp] theorem State.setDebugStopped_memMap (s : State) (v : Bool) : (s.setDebugStopped v).memMap = s.memMap := rfl
@[simp] theorem State.setDebugStopped_pending (s : State) (v : Bool) : (s.setDebugStopped v).pending = s.pending := rfl
@[simp] theorem State.setDebugStopped_draws (s : State) (v : Bool) : (s.setDebugStopped v).draws = s.draws := rfl
@[simp] theorem State.setStale_gpr (s : State) (v : List OldByte) : (s.setStale v).gpr = s.gpr := rfl
@[simp] theorem State.setStale_pc (s : State) (v : List OldByte) : (s.setStale v).pc = s.pc := rfl
@[simp] theorem State.setStale_cr (s : State) (v : List OldByte) : (s.setStale v).cr = s.cr := rfl
@[simp] theorem State.setStale_xer (s : State) (v : List OldByte) : (s.setStale v).xer = s.xer := rfl
@[simp] theorem State.setStale_lr (s : State) (v : List OldByte) : (s.setStale v).lr = s.lr := rfl
@[simp] theorem State.setStale_ctr (s : State) (v : List OldByte) : (s.setStale v).ctr = s.ctr := rfl
@[simp] theorem State.setStale_msr (s : State) (v : List OldByte) : (s.setStale v).msr = s.msr := rfl
@[simp] theorem State.setStale_spr (s : State) (v : List OldByte) : (s.setStale v).spr = s.spr := rfl
@[simp] theorem State.setStale_tlb (s : State) (v : List OldByte) : (s.setStale v).tlb = s.tlb := rfl
@[simp] theorem State.setStale_dcr (s : State) (v : List OldByte) : (s.setStale v).dcr = s.dcr := rfl
@[simp] theorem State.setStale_dcache (s : State) (v : List OldByte) : (s.setStale v).dcache = s.dcache := rfl
@[simp] theorem State.setStale_icache (s : State) (v : List OldByte) : (s.setStale v).icache = s.icache := rfl
@[simp] theorem State.setStale_reserve (s : State) (v : List OldByte) : (s.setStale v).reserve = s.reserve := rfl
@[simp] theorem State.setStale_afterIcread (s : State) (v : List OldByte) : (s.setStale v).afterIcread = s.afterIcread := rfl
@[simp] theorem State.setStale_debugStopped (s : State) (v : List OldByte) : (s.setStale v).debugStopped = s.debugStopped := rfl
@[simp] theorem State.setStale_stale (s : State) (v : List OldByte) : (s.setStale v).stale = v := rfl
@[simp] theorem State.setStale_cachingSeen (s : State) (v : List OldByte) : (s.setStale v).cachingSeen = s.cachingSeen := rfl
@[simp] theorem State.setStale_mem (s : State) (v : List OldByte) : (s.setStale v).mem = s.mem := rfl
@[simp] theorem State.setStale_memMap (s : State) (v : List OldByte) : (s.setStale v).memMap = s.memMap := rfl
@[simp] theorem State.setStale_pending (s : State) (v : List OldByte) : (s.setStale v).pending = s.pending := rfl
@[simp] theorem State.setStale_draws (s : State) (v : List OldByte) : (s.setStale v).draws = s.draws := rfl
@[simp] theorem State.setMem_gpr (s : State) (v : List Host.Cell) : (s.setMem v).gpr = s.gpr := rfl
@[simp] theorem State.setMem_pc (s : State) (v : List Host.Cell) : (s.setMem v).pc = s.pc := rfl
@[simp] theorem State.setMem_cr (s : State) (v : List Host.Cell) : (s.setMem v).cr = s.cr := rfl
@[simp] theorem State.setMem_xer (s : State) (v : List Host.Cell) : (s.setMem v).xer = s.xer := rfl
@[simp] theorem State.setMem_lr (s : State) (v : List Host.Cell) : (s.setMem v).lr = s.lr := rfl
@[simp] theorem State.setMem_ctr (s : State) (v : List Host.Cell) : (s.setMem v).ctr = s.ctr := rfl
@[simp] theorem State.setMem_msr (s : State) (v : List Host.Cell) : (s.setMem v).msr = s.msr := rfl
@[simp] theorem State.setMem_spr (s : State) (v : List Host.Cell) : (s.setMem v).spr = s.spr := rfl
@[simp] theorem State.setMem_tlb (s : State) (v : List Host.Cell) : (s.setMem v).tlb = s.tlb := rfl
@[simp] theorem State.setMem_dcr (s : State) (v : List Host.Cell) : (s.setMem v).dcr = s.dcr := rfl
@[simp] theorem State.setMem_dcache (s : State) (v : List Host.Cell) : (s.setMem v).dcache = s.dcache := rfl
@[simp] theorem State.setMem_icache (s : State) (v : List Host.Cell) : (s.setMem v).icache = s.icache := rfl
@[simp] theorem State.setMem_reserve (s : State) (v : List Host.Cell) : (s.setMem v).reserve = s.reserve := rfl
@[simp] theorem State.setMem_afterIcread (s : State) (v : List Host.Cell) : (s.setMem v).afterIcread = s.afterIcread := rfl
@[simp] theorem State.setMem_debugStopped (s : State) (v : List Host.Cell) : (s.setMem v).debugStopped = s.debugStopped := rfl
@[simp] theorem State.setMem_stale (s : State) (v : List Host.Cell) : (s.setMem v).stale = s.stale := rfl
@[simp] theorem State.setMem_cachingSeen (s : State) (v : List Host.Cell) : (s.setMem v).cachingSeen = s.cachingSeen := rfl
@[simp] theorem State.setMem_mem (s : State) (v : List Host.Cell) : (s.setMem v).mem = v := rfl
@[simp] theorem State.setMem_memMap (s : State) (v : List Host.Cell) : (s.setMem v).memMap = s.memMap := rfl
@[simp] theorem State.setMem_pending (s : State) (v : List Host.Cell) : (s.setMem v).pending = s.pending := rfl
@[simp] theorem State.setMem_draws (s : State) (v : List Host.Cell) : (s.setMem v).draws = s.draws := rfl
@[simp] theorem State.setPending_gpr (s : State) (v : List Irq) : (s.setPending v).gpr = s.gpr := rfl
@[simp] theorem State.setPending_pc (s : State) (v : List Irq) : (s.setPending v).pc = s.pc := rfl
@[simp] theorem State.setPending_cr (s : State) (v : List Irq) : (s.setPending v).cr = s.cr := rfl
@[simp] theorem State.setPending_xer (s : State) (v : List Irq) : (s.setPending v).xer = s.xer := rfl
@[simp] theorem State.setPending_lr (s : State) (v : List Irq) : (s.setPending v).lr = s.lr := rfl
@[simp] theorem State.setPending_ctr (s : State) (v : List Irq) : (s.setPending v).ctr = s.ctr := rfl
@[simp] theorem State.setPending_msr (s : State) (v : List Irq) : (s.setPending v).msr = s.msr := rfl
@[simp] theorem State.setPending_spr (s : State) (v : List Irq) : (s.setPending v).spr = s.spr := rfl
@[simp] theorem State.setPending_tlb (s : State) (v : List Irq) : (s.setPending v).tlb = s.tlb := rfl
@[simp] theorem State.setPending_dcr (s : State) (v : List Irq) : (s.setPending v).dcr = s.dcr := rfl
@[simp] theorem State.setPending_dcache (s : State) (v : List Irq) : (s.setPending v).dcache = s.dcache := rfl
@[simp] theorem State.setPending_icache (s : State) (v : List Irq) : (s.setPending v).icache = s.icache := rfl
@[simp] theorem State.setPending_reserve (s : State) (v : List Irq) : (s.setPending v).reserve = s.reserve := rfl
@[simp] theorem State.setPending_afterIcread (s : State) (v : List Irq) : (s.setPending v).afterIcread = s.afterIcread := rfl
@[simp] theorem State.setPending_debugStopped (s : State) (v : List Irq) : (s.setPending v).debugStopped = s.debugStopped := rfl
@[simp] theorem State.setPending_stale (s : State) (v : List Irq) : (s.setPending v).stale = s.stale := rfl
@[simp] theorem State.setPending_cachingSeen (s : State) (v : List Irq) : (s.setPending v).cachingSeen = s.cachingSeen := rfl
@[simp] theorem State.setPending_mem (s : State) (v : List Irq) : (s.setPending v).mem = s.mem := rfl
@[simp] theorem State.setPending_memMap (s : State) (v : List Irq) : (s.setPending v).memMap = s.memMap := rfl
@[simp] theorem State.setPending_pending (s : State) (v : List Irq) : (s.setPending v).pending = v := rfl
@[simp] theorem State.setPending_draws (s : State) (v : List Irq) : (s.setPending v).draws = s.draws := rfl
@[simp] theorem State.setDraws_gpr (s : State) (v : Nat) : (s.setDraws v).gpr = s.gpr := rfl
@[simp] theorem State.setDraws_pc (s : State) (v : Nat) : (s.setDraws v).pc = s.pc := rfl
@[simp] theorem State.setDraws_cr (s : State) (v : Nat) : (s.setDraws v).cr = s.cr := rfl
@[simp] theorem State.setDraws_xer (s : State) (v : Nat) : (s.setDraws v).xer = s.xer := rfl
@[simp] theorem State.setDraws_lr (s : State) (v : Nat) : (s.setDraws v).lr = s.lr := rfl
@[simp] theorem State.setDraws_ctr (s : State) (v : Nat) : (s.setDraws v).ctr = s.ctr := rfl
@[simp] theorem State.setDraws_msr (s : State) (v : Nat) : (s.setDraws v).msr = s.msr := rfl
@[simp] theorem State.setDraws_spr (s : State) (v : Nat) : (s.setDraws v).spr = s.spr := rfl
@[simp] theorem State.setDraws_tlb (s : State) (v : Nat) : (s.setDraws v).tlb = s.tlb := rfl
@[simp] theorem State.setDraws_dcr (s : State) (v : Nat) : (s.setDraws v).dcr = s.dcr := rfl
@[simp] theorem State.setDraws_dcache (s : State) (v : Nat) : (s.setDraws v).dcache = s.dcache := rfl
@[simp] theorem State.setDraws_icache (s : State) (v : Nat) : (s.setDraws v).icache = s.icache := rfl
@[simp] theorem State.setDraws_reserve (s : State) (v : Nat) : (s.setDraws v).reserve = s.reserve := rfl
@[simp] theorem State.setDraws_afterIcread (s : State) (v : Nat) : (s.setDraws v).afterIcread = s.afterIcread := rfl
@[simp] theorem State.setDraws_debugStopped (s : State) (v : Nat) : (s.setDraws v).debugStopped = s.debugStopped := rfl
@[simp] theorem State.setDraws_stale (s : State) (v : Nat) : (s.setDraws v).stale = s.stale := rfl
@[simp] theorem State.setDraws_cachingSeen (s : State) (v : Nat) : (s.setDraws v).cachingSeen = s.cachingSeen := rfl
@[simp] theorem State.setDraws_mem (s : State) (v : Nat) : (s.setDraws v).mem = s.mem := rfl
@[simp] theorem State.setDraws_memMap (s : State) (v : Nat) : (s.setDraws v).memMap = s.memMap := rfl
@[simp] theorem State.setDraws_pending (s : State) (v : Nat) : (s.setDraws v).pending = s.pending := rfl
@[simp] theorem State.setDraws_draws (s : State) (v : Nat) : (s.setDraws v).draws = v := rfl
@[simp] theorem State.setCachingSeen_gpr (s : State) (v : Bool) : (s.setCachingSeen v).gpr = s.gpr := rfl
@[simp] theorem State.setCachingSeen_pc (s : State) (v : Bool) : (s.setCachingSeen v).pc = s.pc := rfl
@[simp] theorem State.setCachingSeen_cr (s : State) (v : Bool) : (s.setCachingSeen v).cr = s.cr := rfl
@[simp] theorem State.setCachingSeen_xer (s : State) (v : Bool) : (s.setCachingSeen v).xer = s.xer := rfl
@[simp] theorem State.setCachingSeen_lr (s : State) (v : Bool) : (s.setCachingSeen v).lr = s.lr := rfl
@[simp] theorem State.setCachingSeen_ctr (s : State) (v : Bool) : (s.setCachingSeen v).ctr = s.ctr := rfl
@[simp] theorem State.setCachingSeen_msr (s : State) (v : Bool) : (s.setCachingSeen v).msr = s.msr := rfl
@[simp] theorem State.setCachingSeen_spr (s : State) (v : Bool) : (s.setCachingSeen v).spr = s.spr := rfl
@[simp] theorem State.setCachingSeen_tlb (s : State) (v : Bool) : (s.setCachingSeen v).tlb = s.tlb := rfl
@[simp] theorem State.setCachingSeen_dcr (s : State) (v : Bool) : (s.setCachingSeen v).dcr = s.dcr := rfl
@[simp] theorem State.setCachingSeen_dcache (s : State) (v : Bool) : (s.setCachingSeen v).dcache = s.dcache := rfl
@[simp] theorem State.setCachingSeen_icache (s : State) (v : Bool) : (s.setCachingSeen v).icache = s.icache := rfl
@[simp] theorem State.setCachingSeen_reserve (s : State) (v : Bool) : (s.setCachingSeen v).reserve = s.reserve := rfl
@[simp] theorem State.setCachingSeen_afterIcread (s : State) (v : Bool) : (s.setCachingSeen v).afterIcread = s.afterIcread := rfl
@[simp] theorem State.setCachingSeen_debugStopped (s : State) (v : Bool) : (s.setCachingSeen v).debugStopped = s.debugStopped := rfl
@[simp] theorem State.setCachingSeen_stale (s : State) (v : Bool) : (s.setCachingSeen v).stale = s.stale := rfl
@[simp] theorem State.setCachingSeen_cachingSeen (s : State) (v : Bool) : (s.setCachingSeen v).cachingSeen = v := rfl
@[simp] theorem State.setCachingSeen_mem (s : State) (v : Bool) : (s.setCachingSeen v).mem = s.mem := rfl
@[simp] theorem State.setCachingSeen_memMap (s : State) (v : Bool) : (s.setCachingSeen v).memMap = s.memMap := rfl
@[simp] theorem State.setCachingSeen_pending (s : State) (v : Bool) : (s.setCachingSeen v).pending = s.pending := rfl
@[simp] theorem State.setCachingSeen_draws (s : State) (v : Bool) : (s.setCachingSeen v).draws = s.draws := rfl
@[simp] theorem State.noteCaching_gpr (s : State) : s.noteCaching.gpr = s.gpr := rfl
@[simp] theorem State.noteCaching_pc (s : State) : s.noteCaching.pc = s.pc := rfl
@[simp] theorem State.noteCaching_cr (s : State) : s.noteCaching.cr = s.cr := rfl
@[simp] theorem State.noteCaching_xer (s : State) : s.noteCaching.xer = s.xer := rfl
@[simp] theorem State.noteCaching_lr (s : State) : s.noteCaching.lr = s.lr := rfl
@[simp] theorem State.noteCaching_ctr (s : State) : s.noteCaching.ctr = s.ctr := rfl
@[simp] theorem State.noteCaching_msr (s : State) : s.noteCaching.msr = s.msr := rfl
@[simp] theorem State.noteCaching_spr (s : State) : s.noteCaching.spr = s.spr := rfl
@[simp] theorem State.noteCaching_tlb (s : State) : s.noteCaching.tlb = s.tlb := rfl
@[simp] theorem State.noteCaching_dcr (s : State) : s.noteCaching.dcr = s.dcr := rfl
@[simp] theorem State.noteCaching_dcache (s : State) : s.noteCaching.dcache = s.dcache := rfl
@[simp] theorem State.noteCaching_icache (s : State) : s.noteCaching.icache = s.icache := rfl
@[simp] theorem State.noteCaching_reserve (s : State) : s.noteCaching.reserve = s.reserve := rfl
@[simp] theorem State.noteCaching_afterIcread (s : State) : s.noteCaching.afterIcread = s.afterIcread := rfl
@[simp] theorem State.noteCaching_debugStopped (s : State) : s.noteCaching.debugStopped = s.debugStopped := rfl
@[simp] theorem State.noteCaching_stale (s : State) : s.noteCaching.stale = s.stale := rfl
@[simp] theorem State.noteCaching_cachingSeen (s : State) :
    s.noteCaching.cachingSeen = (s.cachingSeen || !s.nothingCacheable) := rfl
@[simp] theorem State.noteCaching_mem (s : State) : s.noteCaching.mem = s.mem := rfl
@[simp] theorem State.noteCaching_memMap (s : State) : s.noteCaching.memMap = s.memMap := rfl
@[simp] theorem State.noteCaching_pending (s : State) : s.noteCaching.pending = s.pending := rfl
@[simp] theorem State.noteCaching_draws (s : State) : s.noteCaching.draws = s.draws := rfl
@[simp] theorem State.setPc_reg (s : State) (v : Word) (r : Reg) : (s.setPc v).reg r = s.reg r := rfl
@[simp] theorem State.setCr_reg (s : State) (v : Word) (r : Reg) : (s.setCr v).reg r = s.reg r := rfl
@[simp] theorem State.setXer_reg (s : State) (v : Word) (r : Reg) : (s.setXer v).reg r = s.reg r := rfl
@[simp] theorem State.setLr_reg (s : State) (v : Word) (r : Reg) : (s.setLr v).reg r = s.reg r := rfl
@[simp] theorem State.setCtr_reg (s : State) (v : Word) (r : Reg) : (s.setCtr v).reg r = s.reg r := rfl
@[simp] theorem State.setMsr_reg (s : State) (v : Word) (r : Reg) : (s.setMsr v).reg r = s.reg r := rfl
@[simp] theorem State.setSpr_reg (s : State) (v : Sprs) (r : Reg) : (s.setSpr v).reg r = s.reg r := rfl
@[simp] theorem State.setTlb_reg (s : State) (v : Vector TlbEntry 64) (r : Reg) : (s.setTlb v).reg r = s.reg r := rfl
@[simp] theorem State.setDcr_reg (s : State) (v : Vector Word 34) (r : Reg) : (s.setDcr v).reg r = s.reg r := rfl
@[simp] theorem State.setDcache_reg (s : State) (v : Vector DClass 32) (r : Reg) : (s.setDcache v).reg r = s.reg r := rfl
@[simp] theorem State.setIcache_reg (s : State) (v : Vector IClass 64) (r : Reg) : (s.setIcache v).reg r = s.reg r := rfl
@[simp] theorem State.setReserve_reg (s : State) (v : Bool) (r : Reg) : (s.setReserve v).reg r = s.reg r := rfl
@[simp] theorem State.setAfterIcread_reg (s : State) (v : Bool) (r : Reg) : (s.setAfterIcread v).reg r = s.reg r := rfl
@[simp] theorem State.setStale_reg (s : State) (v : List OldByte) (r : Reg) : (s.setStale v).reg r = s.reg r := rfl
@[simp] theorem State.setCachingSeen_reg (s : State) (v : Bool) (r : Reg) : (s.setCachingSeen v).reg r = s.reg r := rfl
@[simp] theorem State.noteCaching_reg (s : State) (r : Reg) : s.noteCaching.reg r = s.reg r := rfl
@[simp] theorem State.setMem_reg (s : State) (v : List Host.Cell) (r : Reg) : (s.setMem v).reg r = s.reg r := rfl
@[simp] theorem State.setPending_reg (s : State) (v : List Irq) (r : Reg) : (s.setPending v).reg r = s.reg r := rfl
@[simp] theorem State.setDraws_reg (s : State) (v : Nat) (r : Reg) : (s.setDraws v).reg r = s.reg r := rfl

/-- Reading a general register after writing one. -/
theorem State.reg_setReg (s : State) (r r' : Reg) (v : Word) :
    (s.setReg r v).reg r' = if r' = r then v else s.reg r' := by
  by_cases h : r' = r
  · subst h
    simp [State.reg, State.setReg, Vector.get_eq_getElem]
  · have hn : r.toNat ≠ r'.toNat := fun e => h (BitVec.eq_of_toNat_eq e.symm)
    simp [State.reg, State.setReg, Vector.get_eq_getElem, hn, h]

@[simp] theorem State.reg_setReg_self (s : State) (r : Reg) (v : Word) : (s.setReg r v).reg r = v := by
  simp [State.reg_setReg]

theorem State.reg_setReg_ne (s : State) {r r' : Reg} (v : Word) (h : r' ≠ r) :
    (s.setReg r v).reg r' = s.reg r' := by
  simp [State.reg_setReg, h]

/-- Reading a TLB entry after replacing one. -/
theorem State.tlbEntry_setTlbEntry (s : State) (i j : BitVec 6) (e : TlbEntry) :
    (s.setTlbEntry i e).tlbEntry j = if j = i then e else s.tlbEntry j := by
  by_cases h : j = i
  · subst h
    simp [State.tlbEntry, State.setTlbEntry, Vector.get_eq_getElem]
  · have hn : i.toNat ≠ j.toNat := fun he => h (BitVec.eq_of_toNat_eq he.symm)
    simp [State.tlbEntry, State.setTlbEntry, Vector.get_eq_getElem, hn, h]

theorem dcrIndex_injective {d d' : Dcr} (h : dcrIndex d = dcrIndex d') : d = d' := by
  cases d <;> cases d' <;> first | rfl | exact absurd h (by decide)

/-- Reading a device control register after writing one. -/
theorem State.dcrVal_setDcrVal (s : State) (d d' : Dcr) (v : Word) :
    (s.setDcrVal d v).dcrVal d' = if d' = d then v else s.dcrVal d' := by
  by_cases h : d' = d
  · subst h
    simp [State.dcrVal, State.setDcrVal, Vector.get_eq_getElem]
  · have hn : (dcrIndex d).val ≠ (dcrIndex d').val := fun he => h (dcrIndex_injective (Fin.ext he)).symm
    simp [State.dcrVal, State.setDcrVal, Vector.get_eq_getElem, hn, h]

/-- Writing a general register with what it holds changes nothing. -/
theorem State.setReg_reg (s : State) (r : Reg) : s.setReg r (s.reg r) = s := by
  cases s
  simp [State.setReg, State.reg, Vector.get_eq_getElem]

end Sys2Proof.Machine
end

