-- ==== Sys2Proof/Laws/Memory.lean ====
section
/-! SUPPORT. Main storage: reading after writing, and that every write keeps the canonical form. -/

namespace Sys2Proof.Machine

/-- The lower bound of a canonical list is met by an address. -/
def above (lo : Option Nat) (a : Nat) : Prop := ∀ l ∈ lo, l < a

theorem memWfAbove_cons {lo : Option Nat} {c : Host.Cell} {m : List Host.Cell} :
    memWfAbove lo (c :: m) = true ↔
      above lo c.1 ∧ c.1 < 2 ^ 32 ∧ c.2 ≠ unlistedByte ∧ memWfAbove (some c.1) m = true := by
  cases lo <;> simp [memWfAbove, above, and_assoc]

theorem memWfAbove_mono {lo hi : Option Nat} {m : List Host.Cell} (h : ∀ a, above hi a → above lo a)
    (hm : memWfAbove hi m = true) : memWfAbove lo m = true := by
  cases m with
  | nil => simp [memWfAbove]
  | cons c m =>
    rw [memWfAbove_cons] at hm ⊢
    exact ⟨h _ hm.1, hm.2⟩

/-- An address below a canonical list is not listed. -/
theorem memByte_of_above {m : List Host.Cell} {lo a : Nat} (hm : memWfAbove (some lo) m = true) (ha : a ≤ lo) :
    memByte m a = unlistedByte := by
  induction m generalizing lo with
  | nil => rfl
  | cons c m ih =>
    rw [memWfAbove_cons] at hm
    have hc : lo < c.1 := hm.1 lo rfl
    rw [memByte, if_neg (by omega)]
    exact ih hm.2.2.2 (by omega)

theorem memSet_wfAbove {m : List Host.Cell} {lo : Option Nat} {a : Nat} {b : Byte} (hm : memWfAbove lo m = true)
    (hlo : above lo a) (ha : a < 2 ^ 32) : memWfAbove lo (memSet m a b) = true := by
  induction m generalizing lo with
  | nil =>
    unfold memSet
    split
    · rfl
    · exact memWfAbove_cons.2 ⟨hlo, ha, by assumption, rfl⟩
  | cons c m ih =>
    rw [memWfAbove_cons] at hm
    unfold memSet
    split
    · exact memWfAbove_cons.2 ⟨hm.1, hm.2.1, hm.2.2.1, ih hm.2.2.2 (by intro l hl; cases hl; assumption)⟩
    · split
      · rename_i h1 h2
        have hmono : memWfAbove lo m = true :=
          memWfAbove_mono (hi := some c.1) (fun x hx l hl => by
            have := hm.1 l hl; have := hx c.1 rfl; omega) hm.2.2.2
        split
        · exact hmono
        · exact memWfAbove_cons.2 ⟨hlo, ha, by assumption, h2 ▸ hm.2.2.2⟩
      · split
        · exact memWfAbove_cons.2 hm
        · exact memWfAbove_cons.2 ⟨hlo, ha, by assumption, memWfAbove_cons.2
            ⟨by intro l hl; cases hl; omega, hm.2⟩⟩

/-- A write keeps the canonical form. -/
theorem memSet_wf {m : List Host.Cell} {a : Nat} (b : Byte) (hm : Memory.wf m = true) (ha : a < 2 ^ 32) :
    Memory.wf (memSet m a b) = true :=
  memSet_wfAbove hm (by intro l hl; cases hl) ha

theorem memByte_memSet_above {m : List Host.Cell} {lo : Option Nat} (a x : Nat) (b : Byte)
    (hm : memWfAbove lo m = true) : memByte (memSet m a b) x = if x = a then b else memByte m x := by
  induction m generalizing lo with
  | nil =>
    unfold memSet
    split
    · simp_all [memByte]
    · by_cases h : x = a <;> simp [memByte, h]
      intro h2; exact absurd h2.symm h
  | cons c m ih =>
    rw [memWfAbove_cons] at hm
    unfold memSet
    split
    · simp only [memByte, ih hm.2.2.2]
      by_cases h : c.1 = x
      · simp [h, show x ≠ a by omega]
      · simp [h]
    · split
      · rename_i h1 h2
        subst h2
        split
        · rename_i h3
          by_cases h : x = c.1
          · subst h; simp [memByte_of_above hm.2.2.2 (Nat.le_refl _), h3]
          · simp [memByte, h, show ¬ c.1 = x by omega]
        · by_cases h : x = c.1
          · simp [memByte, h]
          · simp [memByte, h, show ¬ c.1 = x by omega]
      · rename_i h1 h2
        have hz : memByte (c :: m) a = unlistedByte := by
          rw [memByte, if_neg (by omega)]
          exact memByte_of_above hm.2.2.2 (by omega)
        split
        · rename_i h3
          by_cases h : x = a
          · subst h; simp [hz, h3]
          · simp [h]
        · by_cases h : x = a
          · simp [memByte, h]
          · simp [memByte, h, show ¬ a = x by omega]

/-- Reading one byte after writing one. -/
theorem memByte_memSet {m : List Host.Cell} (a x : Nat) (b : Byte) (hm : Memory.wf m = true) :
    memByte (memSet m a b) x = if x = a then b else memByte m x := memByte_memSet_above a x b hm

/-- Reading one byte after writing one, without the canonical form: the written address need only be new or the list
strictly rising up to it. The write of an address reads back as the byte written. -/
theorem memByte_memSet_other (m : List Host.Cell) {a x : Nat} (b : Byte) (h : x ≠ a) :
    memByte (memSet m a b) x = memByte m x := by
  induction m with
  | nil =>
    unfold memSet
    split
    · rfl
    · simp [memByte, Ne.symm h]
  | cons c m ih =>
    unfold memSet
    split
    · simp [memByte, ih]
    · split
      · rename_i h1 h2
        subst h2
        split <;> simp [memByte, Ne.symm h]
      · split
        · rfl
        · simp [memByte, Ne.symm h]

/-- Main storage after one byte is stored. -/
theorem State.storage_putStorage {s : State} (hs : Memory.wf s.mem = true) (a x : Word) (b : Byte) :
    (s.putStorage a b).storage x = if x = a then b else s.storage x := by
  unfold State.putStorage
  split
  · rename_i h
    by_cases hx : x = a
    · simp [hx, h]
    · simp [hx]
  · simp only [State.storage, State.setMem_mem]
    rw [memByte_memSet _ _ _ (by simpa using hs)]
    by_cases hx : x = a
    · simp [hx]
    · have : x.toNat ≠ a.toNat := fun h => hx (BitVec.eq_of_toNat_eq h)
      simp [hx, this]

/-- Storing a byte keeps the canonical form of main storage. -/
theorem State.putStorage_wf {s : State} (hs : Memory.wf s.mem = true) (a : Word) (b : Byte) :
    Memory.wf (s.putStorage a b).mem = true := by
  unfold State.putStorage
  split
  · exact hs
  · exact memSet_wf b hs a.isLt

end Sys2Proof.Machine
end

