-- ==== Sys2Proof/Laws/Bits.lean ====
section
/-! SUPPORT. What the bit, field and byte updates of Machine/Bits.lean can do. -/

namespace Sys2Proof.Machine

theorem getLsbD_bitMask (b i : Nat) (hb : b < 32) : (bitMask b).getLsbD i = decide (i = 31 - b) := by
  unfold bitMask
  rw [BitVec.getLsbD_shiftLeft]
  by_cases h : i = 31 - b
  · subst h; simp; omega
  · by_cases h2 : i < 31 - b
    · simp [h2, h]
    · have : i - (31 - b) ≠ 0 := by omega
      simp [h, h2, this]

/-- Bit `k`, counted from the left, is the bit of weight `2 ^ (31 - k)`. -/
theorem bit_eq_getLsbD (w : Word) (k : Nat) (hk : k < 32) : bit w k = w.getLsbD (31 - k) := by
  simp [bit, BitVec.getMsbD, hk]

/-- Words with the same bits are the same. -/
theorem eq_of_bit_eq {x y : Word} (h : ∀ k < 32, bit x k = bit y k) : x = y := by
  apply BitVec.eq_of_getLsbD_eq
  intro i hi
  have := h (31 - i) (by omega)
  rwa [bit_eq_getLsbD _ _ (by omega), bit_eq_getLsbD _ _ (by omega), show 31 - (31 - i) = i by omega] at this

/-- A bit after one bit is written. -/
theorem bit_setBit (w : Word) (b k : Nat) (v : Bool) (hb : b < 32) (hk : k < 32) :
    bit (setBit w b v) k = if k = b then v else bit w k := by
  rw [bit_eq_getLsbD _ _ hk, bit_eq_getLsbD _ _ hk]
  have hi : (31 - k = 31 - b) ↔ k = b := by omega
  cases v <;>
    simp only [setBit, if_true, Bool.false_eq_true, if_false, BitVec.getLsbD_or, BitVec.getLsbD_and, BitVec.getLsbD_not,
      getLsbD_bitMask _ _ hb, hi, show 31 - k < 32 by omega, decide_true, Bool.true_and] <;>
    by_cases h : k = b <;> simp [h]

/-- A bit after a list of bits is cleared. -/
theorem bit_clearBits (w : Word) (l : List Nat) (k : Nat) (hl : ∀ b ∈ l, b < 32) (hk : k < 32) :
    bit (clearBits w l) k = if k ∈ l then false else bit w k := by
  unfold clearBits
  induction l generalizing w with
  | nil => simp
  | cons b l ih =>
    rw [List.foldl_cons, ih _ (fun b hb => hl b (List.mem_cons_of_mem _ hb)),
      bit_setBit _ _ _ _ (hl b (by simp)) hk]
    by_cases h1 : k ∈ l <;> by_cases h2 : k = b <;> simp [h1, h2]

/-- Bit `j` of a 4-bit field is a bit of the register. -/
theorem getMsbD_nibble (w : Word) (n : BitVec 3) (j : Nat) (hj : j < 4) :
    (nibble w n).getMsbD j = bit w (4 * n.toNat + j) := by
  have hn := n.isLt
  rw [bit_eq_getLsbD _ _ (by omega)]
  simp [nibble, BitVec.getMsbD, hj, show 3 - j < 4 by omega, show 28 - 4 * n.toNat + (3 - j) = 31 - (4 * n.toNat + j) by omega]

/-- Bits of a register after a 4-bit field is written. -/
theorem bit_setNibble (w : Word) (n : BitVec 3) (v : BitVec 4) (k : Nat) (hk : k < 32) :
    bit (setNibble w n v) k = if k / 4 = n.toNat then v.getMsbD (k % 4) else bit w k := by
  have hn := n.isLt
  rw [bit_eq_getLsbD _ _ hk, bit_eq_getLsbD _ _ hk]
  have hm : ∀ i : Nat, (15#32).getLsbD i = decide (i < 4) := by
    intro i
    by_cases h : i < 32
    · interval_cases i <;> rfl
    · rw [BitVec.getLsbD_of_ge _ _ (by omega)]; simp; omega
  have h31 : 31 - k < 32 := by omega
  simp only [setNibble, BitVec.getLsbD_or, BitVec.getLsbD_and, BitVec.getLsbD_not, BitVec.getLsbD_shiftLeft, hm,
    h31, BitVec.getLsbD_setWidth, decide_true, Bool.true_and, BitVec.getMsbD]
  by_cases h : k / 4 = n.toNat
  · have h1 : ¬ (31 - k < 28 - 4 * n.toNat) := by omega
    have h2 : 31 - k - (28 - 4 * n.toNat) < 4 := by omega
    have h3 : 31 - k - (28 - 4 * n.toNat) = 4 - 1 - k % 4 := by omega
    have h4 : k % 4 < 4 := by omega
    have h5 : 4 - 1 - k % 4 < 4 := by omega
    simp only [h1, h, h3, h4, h5, decide_true, decide_false, if_true, Bool.not_false, Bool.true_and, Bool.not_true,
      Bool.and_false, Bool.false_or]
    simp [show 4 - 1 - k % 4 < 32 by omega]
  · by_cases h1 : 31 - k < 28 - 4 * n.toNat
    · simp [h1, h]
    · have h2 : ¬ (31 - k - (28 - 4 * n.toNat) < 4) := by omega
      have h3 : v.getLsbD (31 - k - (28 - 4 * n.toNat)) = false := BitVec.getLsbD_of_ge _ _ (by omega)
      simp [h1, h2, h, h3]

/-- A 4-bit field after a 4-bit field is written. -/
@[simp] theorem nibble_setNibble (w : Word) (n m : BitVec 3) (v : BitVec 4) :
    nibble (setNibble w n v) m = if m = n then v else nibble w m := by
  have hm := m.isLt
  apply BitVec.eq_of_getMsbD_eq
  intro j hj
  rw [getMsbD_nibble _ _ _ hj, bit_setNibble _ _ _ _ (by omega)]
  have e : (4 * m.toNat + j) / 4 = n.toNat ↔ m = n := by
    rw [← BitVec.toNat_inj]; omega
  by_cases h : m = n
  · subst h; simp [show (4 * m.toNat + j) / 4 = m.toNat by omega, Nat.mod_eq_of_lt hj]
  · simp only [e, h, if_false]
    exact (getMsbD_nibble _ _ _ hj).symm

/-- The bits of a 4-bit value made of bits. -/
@[simp] theorem getMsbD_nibbleOf (a b c d : Bool) :
    (nibbleOf a b c d).getMsbD 0 = a ∧ (nibbleOf a b c d).getMsbD 1 = b ∧ (nibbleOf a b c d).getMsbD 2 = c ∧
      (nibbleOf a b c d).getMsbD 3 = d := by
  cases a <;> cases b <;> cases c <;> cases d <;> decide

/-- Byte `i` of a word from the left holds bits `8 * i` to `8 * i + 7`. -/
theorem getLsbD_byteOf (w : Word) (i j : Nat) : (byteOf w i).getLsbD j = (decide (j < 8) && w.getLsbD (24 - 8 * i + j)) := by
  simp [byteOf]

/-- Bytes of a register after one is written. -/
theorem byteOf_setByteOf (w : Word) (i k : Nat) (b : Byte) (hi : i < 4) (hk : k < 4) :
    byteOf (setByteOf w i b) k = if k = i then b else byteOf w k := by
  have hm : ∀ i : Nat, (255#32).getLsbD i = decide (i < 8) := by
    intro i
    by_cases h : i < 32
    · interval_cases i <;> rfl
    · rw [BitVec.getLsbD_of_ge _ _ (by omega)]; simp; omega
  apply BitVec.eq_of_getLsbD_eq
  intro j hj
  rw [getLsbD_byteOf]
  have h32 : 24 - 8 * k + j < 32 := by omega
  simp only [setByteOf, BitVec.getLsbD_or, BitVec.getLsbD_and, BitVec.getLsbD_not, BitVec.getLsbD_shiftLeft, hm,
    BitVec.getLsbD_setWidth, decide_true, Bool.true_and, hj, h32]
  by_cases h : k = i
  · subst h
    simp [hj, show j < 32 by omega]
  · rw [if_neg h, getLsbD_byteOf]
    by_cases h1 : 24 - 8 * k + j < 24 - 8 * i
    · simp [h1, hj]
    · have h2 : ¬ (24 - 8 * k + j - (24 - 8 * i) < 8) := by omega
      have h3 : b.getLsbD (24 - 8 * k + j - (24 - 8 * i)) = false := BitVec.getLsbD_of_ge _ _ (by omega)
      simp [h1, h2, h3, hj]

/-- A word is its four bytes. -/
theorem eq_of_byteOf_eq {x y : Word} (h : ∀ i < 4, byteOf x i = byteOf y i) : x = y := by
  apply BitVec.eq_of_getLsbD_eq
  intro i hi
  have := congrArg (fun b : Byte => b.getLsbD (i % 8)) (h (3 - i / 8) (by omega))
  simp only [getLsbD_byteOf, show 24 - 8 * (3 - i / 8) + i % 8 = i by omega, show i % 8 < 8 by omega, decide_true,
    Bool.true_and] at this
  exact this

end Sys2Proof.Machine
end

