-- ==== Sys2Proof/Laws/Frame.lean ====
section
/-! SUPPORT. What each shared operation leaves unchanged: one lemma per operation, chained by Unchanged.trans. -/

namespace Sys2Proof.Machine

theorem Unchanged.refl (l : List Part) (s : State) : Unchanged l s s := by
  intro p _
  cases p <;> simp [Part.Same]

theorem Part.Same.trans {s t u : State} {p : Part} (h1 : Part.Same s t p) (h2 : Part.Same t u p) : Part.Same s u p := by
  cases p <;> simp_all [Part.Same]

theorem Unchanged.mono {l m : List Part} {s t : State} (h : Unchanged l s t) (hl : l ⊆ m) : Unchanged m s t :=
  fun p hp => h p fun hm => hp (hl hm)

/-- Two changes after one another. -/
theorem Unchanged.trans {l m : List Part} {s t u : State} (h1 : Unchanged l s t) (h2 : Unchanged m t u) :
    Unchanged (l ++ m) s u := by
  intro p hp
  rw [List.mem_append, not_or] at hp
  exact (h1 p hp.1).trans (h2 p hp.2)

/-- Two changes after one another within one list. -/
theorem Unchanged.trans' {l : List Part} {s t u : State} (h1 : Unchanged l s t) (h2 : Unchanged l t u) :
    Unchanged l s u := (h1.trans h2).mono (by simp)

/-- The byte the processor sees depends on the data cache and main storage alone. -/
theorem State.dataByte_congr {s t : State} (hc : t.dcache = s.dcache) (hm : t.mem = s.mem) (a : Word) :
    t.dataByte a = s.dataByte a := by
  simp [State.dataByte, State.dhit, State.dline, State.dcls, State.storage, hc, hm]

theorem State.storage_congr {s t : State} (hm : t.mem = s.mem) (a : Word) : t.storage a = s.storage a := by
  simp [State.storage, hm]

/-- A special purpose register outside `Sprs` or in it. -/
theorem State.sprVal_congr {s t : State} (hx : t.xer = s.xer) (hl : t.lr = s.lr) (hc : t.ctr = s.ctr)
    (hs : t.spr = s.spr) (r : Spr) : t.sprVal r = s.sprVal r := by
  cases r <;> simp [State.sprVal, hx, hl, hc, hs]

theorem State.crField_setCrField (s : State) (n m : BitVec 3) (v : BitVec 4) :
    (s.setCrField n v).crField m = if m = n then v else s.crField m := by
  simp [State.setCrField, State.crField]

/-- States that agree on every field but the pc, the draws, the prefetch queue and the mark of icread. -/
theorem unchanged_of_fields {s t : State} (h : t.gpr = s.gpr ∧ t.cr = s.cr ∧ t.xer = s.xer ∧ t.lr = s.lr ∧
    t.ctr = s.ctr ∧ t.msr = s.msr ∧ t.spr = s.spr ∧ t.tlb = s.tlb ∧ t.dcr = s.dcr ∧ t.dcache = s.dcache ∧
    t.icache = s.icache ∧ t.reserve = s.reserve ∧ t.mem = s.mem ∧ t.memMap = s.memMap ∧ t.pending = s.pending ∧
    t.debugStopped = s.debugStopped)
    (l : List Part) : Unchanged l s t := by
  obtain ⟨hg, hcr, hx, hl, hc, hm, hs, ht, hd, hdc, hic, hr, hmem, hmap, hp, hst⟩ := h
  intro p _
  cases p with
  | reg r => simp [Part.Same, State.reg, hg]
  | crField n => simp [Part.Same, State.crField, hcr]
  | spr r => exact State.sprVal_congr hx hl hc hs r
  | memory => exact State.dataByte_congr hdc hmem
  | storage => exact State.storage_congr hmem
  | _ => simp_all [Part.Same]

theorem unchanged_setReg (s : State) (r : Reg) (v : Word) : Unchanged [.reg r] s (s.setReg r v) := by
  intro p hp
  cases p with
  | reg r' => exact State.reg_setReg_ne s v (by simpa using hp)
  | spr r => exact State.sprVal_congr rfl rfl rfl rfl r
  | memory => exact State.dataByte_congr rfl rfl
  | storage => exact State.storage_congr rfl
  | outside => exact ⟨rfl, rfl⟩
  | _ => rfl

theorem unchanged_setCrField (s : State) (n : BitVec 3) (v : BitVec 4) :
    Unchanged [.crField n] s (s.setCrField n v) := by
  intro p hp
  cases p with
  | crField m => simpa [Part.Same, State.crField_setCrField] using fun h => absurd h (by simpa using hp)
  | spr r => exact State.sprVal_congr rfl rfl rfl rfl r
  | memory => exact State.dataByte_congr rfl rfl
  | storage => exact State.storage_congr rfl
  | outside => exact ⟨rfl, rfl⟩
  | _ => rfl

theorem mem_crFields (n : BitVec 3) : Part.crField n ∈ crFields := by
  revert n; decide

theorem unchanged_setCr (s : State) (v : Word) : Unchanged crFields s (s.setCr v) := by
  intro p hp
  cases p with
  | crField m => exact absurd (mem_crFields m) hp
  | spr r => exact State.sprVal_congr rfl rfl rfl rfl r
  | memory => exact State.dataByte_congr rfl rfl
  | storage => exact State.storage_congr rfl
  | outside => exact ⟨rfl, rfl⟩
  | _ => rfl

theorem unchanged_setXer (s : State) (v : Word) : Unchanged [.spr .xer] s (s.setXer v) := by
  intro p hp
  cases p with
  | spr r => cases r <;> first | rfl | exact absurd (List.mem_singleton.2 rfl) hp
  | memory => exact State.dataByte_congr rfl rfl
  | storage => exact State.storage_congr rfl
  | outside => exact ⟨rfl, rfl⟩
  | _ => rfl

theorem unchanged_setLr (s : State) (v : Word) : Unchanged [.spr .lr] s (s.setLr v) := by
  intro p hp
  cases p with
  | spr r => cases r <;> first | rfl | exact absurd (List.mem_singleton.2 rfl) hp
  | memory => exact State.dataByte_congr rfl rfl
  | storage => exact State.storage_congr rfl
  | outside => exact ⟨rfl, rfl⟩
  | _ => rfl

theorem unchanged_setCtr (s : State) (v : Word) : Unchanged [.spr .ctr] s (s.setCtr v) := by
  intro p hp
  cases p with
  | spr r => cases r <;> first | rfl | exact absurd (List.mem_singleton.2 rfl) hp
  | memory => exact State.dataByte_congr rfl rfl
  | storage => exact State.storage_congr rfl
  | outside => exact ⟨rfl, rfl⟩
  | _ => rfl

theorem unchanged_setMsr (s : State) (v : Word) : Unchanged [.msr] s (s.setMsr v) := by
  intro p hp
  cases p with
  | msr => exact absurd (List.mem_singleton.2 rfl) hp
  | spr r => exact State.sprVal_congr rfl rfl rfl rfl r
  | memory => exact State.dataByte_congr rfl rfl
  | storage => exact State.storage_congr rfl
  | outside => exact ⟨rfl, rfl⟩
  | _ => rfl

theorem unchanged_setTlb (s : State) (v : Vector TlbEntry 64) : Unchanged [.tlb] s (s.setTlb v) := by
  intro p hp
  cases p with
  | tlb => exact absurd (List.mem_singleton.2 rfl) hp
  | spr r => exact State.sprVal_congr rfl rfl rfl rfl r
  | memory => exact State.dataByte_congr rfl rfl
  | storage => exact State.storage_congr rfl
  | outside => exact ⟨rfl, rfl⟩
  | _ => rfl

theorem unchanged_setDcr (s : State) (v : Vector Word 34) : Unchanged [.dcr] s (s.setDcr v) := by
  intro p hp
  cases p with
  | dcr => exact absurd (List.mem_singleton.2 rfl) hp
  | spr r => exact State.sprVal_congr rfl rfl rfl rfl r
  | memory => exact State.dataByte_congr rfl rfl
  | storage => exact State.storage_congr rfl
  | outside => exact ⟨rfl, rfl⟩
  | _ => rfl

theorem unchanged_setReserve (s : State) (v : Bool) : Unchanged [.reserve] s (s.setReserve v) := by
  intro p hp
  cases p with
  | reserve => exact absurd (List.mem_singleton.2 rfl) hp
  | spr r => exact State.sprVal_congr rfl rfl rfl rfl r
  | memory => exact State.dataByte_congr rfl rfl
  | storage => exact State.storage_congr rfl
  | outside => exact ⟨rfl, rfl⟩
  | _ => rfl

theorem unchanged_setIcache (s : State) (v : Vector IClass 64) : Unchanged [.instrCache] s (s.setIcache v) := by
  intro p hp
  cases p with
  | instrCache => exact absurd (List.mem_singleton.2 rfl) hp
  | spr r => exact State.sprVal_congr rfl rfl rfl rfl r
  | memory => exact State.dataByte_congr rfl rfl
  | storage => exact State.storage_congr rfl
  | outside => exact ⟨rfl, rfl⟩
  | _ => rfl

theorem unchanged_setDcache (s : State) (v : Vector DClass 32) :
    Unchanged [.memory, .dataCache] s (s.setDcache v) := by
  intro p hp
  cases p with
  | memory => exact absurd (by simp) hp
  | dataCache => exact absurd (by simp) hp
  | spr r => exact State.sprVal_congr rfl rfl rfl rfl r
  | storage => exact State.storage_congr rfl
  | outside => exact ⟨rfl, rfl⟩
  | _ => rfl

theorem unchanged_putStorage (s : State) (a : Word) (b : Byte) :
    Unchanged [.memory, .storage] s (s.putStorage a b) := by
  unfold State.putStorage
  split
  · exact Unchanged.refl _ s
  · intro p hp
    cases p with
    | memory => exact absurd (by simp) hp
    | storage => exact absurd (by simp) hp
    | spr r => exact State.sprVal_congr rfl rfl rfl rfl r
    | outside => exact ⟨rfl, rfl⟩
    | _ => rfl

/-- Writing a special purpose register changes that one alone; TBHU and TBLU are the same cells as TBHI and TBLO. -/
theorem unchanged_setSprVal (s : State) (r : Spr) (v : Word) :
    Unchanged [.spr r, .spr (if r = .tbhi then .tbhu else if r = .tbhu then .tbhi else if r = .tblo then .tblu
      else if r = .tblu then .tblo else r)] s (s.setSprVal r v) := by
  intro p hp
  cases p with
  | spr q =>
    revert hp
    cases r <;> cases q <;> first | (intro _; rfl) | (intro hp; exact absurd (by decide) hp)
  | memory => cases r <;> exact State.dataByte_congr rfl rfl
  | storage => cases r <;> exact State.storage_congr rfl
  | outside => cases r <;> exact ⟨rfl, rfl⟩
  | _ => cases r <;> rfl

theorem unchanged_noteCaching (s : State) (l : List Part) : Unchanged l s s.noteCaching :=
  unchanged_of_fields ⟨rfl, rfl, rfl, rfl, rfl, rfl, rfl, rfl, rfl, rfl, rfl, rfl, rfl, rfl, rfl, rfl⟩ l

theorem unchanged_setTlbEntry (s : State) (i : BitVec 6) (e : TlbEntry) : Unchanged [.tlb] s (s.setTlbEntry i e) :=
  (unchanged_setTlb s _).trans' (unchanged_noteCaching _ _)

/-- Noting what is cacheable gives a state at Level 0, or one that knows it is not, if both caches are empty or the
state knew it (47_cache_sync.md R429). -/
theorem State.noteCaching_levelKnown {s : State} (h : s.cachingSeen = true ∨ s.cachesEmpty = true) :
    s.noteCaching.LevelKnown := by
  have e : s.noteCaching.levelZero =
      (!(s.cachingSeen || !s.nothingCacheable) && s.nothingCacheable && s.cachesEmpty) := rfl
  have e' : s.noteCaching.cachingSeen = (s.cachingSeen || !s.nothingCacheable) := rfl
  rw [State.LevelKnown, e, e']
  cases h1 : s.cachingSeen <;> cases h2 : s.nothingCacheable <;> cases h3 : s.cachesEmpty <;> simp_all

/-- Reading a special purpose register after writing one: PVR keeps its value. -/
theorem State.sprVal_setSprVal (s : State) (r : Spr) (v : Word) (h : r ≠ .pvr) : (s.setSprVal r v).sprVal r = v := by
  cases r <;> first | rfl | exact absurd rfl h

theorem unchanged_drawn (s : State) (l : List Part) : Unchanged l s s.drawn :=
  unchanged_of_fields ⟨rfl, rfl, rfl, rfl, rfl, rfl, rfl, rfl, rfl, rfl, rfl, rfl, rfl, rfl, rfl, rfl⟩ l

theorem unchanged_advance (s : State) (l : List Part) : Unchanged l s s.advance :=
  unchanged_of_fields ⟨rfl, rfl, rfl, rfl, rfl, rfl, rfl, rfl, rfl, rfl, rfl, rfl, rfl, rfl, rfl, rfl⟩ l

theorem unchanged_jump (s : State) (a : Word) (l : List Part) : Unchanged l s (s.jump a) :=
  unchanged_of_fields ⟨rfl, rfl, rfl, rfl, rfl, rfl, rfl, rfl, rfl, rfl, rfl, rfl, rfl, rfl, rfl, rfl⟩ l

theorem unchanged_contextSync (s : State) (l : List Part) : Unchanged l s s.contextSync :=
  unchanged_of_fields ⟨rfl, rfl, rfl, rfl, rfl, rfl, rfl, rfl, rfl, rfl, rfl, rfl, rfl, rfl, rfl, rfl⟩ l

theorem unchanged_setAfterIcread (s : State) (b : Bool) (l : List Part) : Unchanged l s (s.setAfterIcread b) :=
  unchanged_of_fields ⟨rfl, rfl, rfl, rfl, rfl, rfl, rfl, rfl, rfl, rfl, rfl, rfl, rfl, rfl, rfl, rfl⟩ l

theorem unchanged_setPc (s : State) (a : Word) (l : List Part) : Unchanged l s (s.setPc a) :=
  unchanged_of_fields ⟨rfl, rfl, rfl, rfl, rfl, rfl, rfl, rfl, rfl, rfl, rfl, rfl, rfl, rfl, rfl, rfl⟩ l

theorem unchanged_setStale (s : State) (c : List OldByte) (l : List Part) : Unchanged l s (s.setStale c) :=
  unchanged_of_fields ⟨rfl, rfl, rfl, rfl, rfl, rfl, rfl, rfl, rfl, rfl, rfl, rfl, rfl, rfl, rfl, rfl⟩ l

theorem unchanged_keepOld (s : State) (a : Word) (b : Byte) (l : List Part) : Unchanged l s (s.keepOld a b) :=
  unchanged_setStale s _ l

theorem unchanged_keepQueued (s : State) (a : Word) (b : Byte) (l : List Part) : Unchanged l s (s.keepQueued a b) :=
  unchanged_setStale s _ l

theorem unchanged_markOld (s : State) (sel : OldByte → Bool) (x y : OldStage) (l : List Part) :
    Unchanged l s (s.markOld sel x y) := unchanged_setStale s _ l

theorem unchanged_setDebugStopped (s : State) (v : Bool) : Unchanged [.stopped] s (s.setDebugStopped v) := by
  intro p hp
  cases p with
  | stopped => exact absurd (List.mem_singleton.2 rfl) hp
  | spr r => exact State.sprVal_congr rfl rfl rfl rfl r
  | memory => exact State.dataByte_congr rfl rfl
  | storage => exact State.storage_congr rfl
  | outside => exact ⟨rfl, rfl⟩
  | _ => rfl

theorem unchanged_drawCr0 (s : State) (b : Bool) : Unchanged (cr0If b) s (s.drawCr0 b) := by
  unfold State.drawCr0
  cases b
  · exact Unchanged.refl _ s
  · exact (unchanged_setCrField s 0 _).trans' (unchanged_drawn _ _)

/-- The end of an instruction whose bit 31 is reserved changes CR field 0 at most. -/
theorem unchanged_advance31 (s : State) (b : Bool) : Unchanged (cr0If b) s (s.advance31 b) :=
  (unchanged_drawCr0 s b).trans' (unchanged_advance _ _)

@[simp] theorem State.drawCr0_pc (s : State) (b : Bool) : (s.drawCr0 b).pc = s.pc := by cases b <;> rfl
@[simp] theorem State.advance_pc (s : State) : s.advance.pc = s.pc + 4#32 := rfl
@[simp] theorem State.jump_pc (s : State) (a : Word) : (s.jump a).pc = a := rfl
@[simp] theorem State.advance31_pc (s : State) (b : Bool) : (s.advance31 b).pc = s.pc + 4#32 := by
  cases b <;> rfl
@[simp] theorem State.setCrField_pc (s : State) (n : BitVec 3) (v : BitVec 4) : (s.setCrField n v).pc = s.pc := rfl
@[simp] theorem State.record_pc (s : State) (b : Bool) (v : Word) : (s.record b v).pc = s.pc := by cases b <;> rfl
@[simp] theorem State.recordOv_pc (s : State) (a b : Bool) : (s.recordOv a b).pc = s.pc := by cases a <;> rfl
@[simp] theorem State.setCa_pc (s : State) (b : Bool) : (s.setCa b).pc = s.pc := rfl

theorem unchanged_setCa (s : State) (c : Bool) : Unchanged [.spr .xer] s (s.setCa c) := unchanged_setXer s _

theorem unchanged_recordOv (s : State) (oe ov : Bool) : Unchanged [.spr .xer] s (s.recordOv oe ov) := by
  unfold State.recordOv
  cases oe
  · exact Unchanged.refl _ s
  · exact unchanged_setXer s _

theorem unchanged_record (s : State) (rc : Bool) (v : Word) : Unchanged (cr0If rc) s (s.record rc v) := by
  unfold State.record
  cases rc
  · exact Unchanged.refl _ s
  · exact unchanged_setCrField s 0 _

theorem unchanged_link (s : State) (lk : Bool) : Unchanged (if lk then [.spr .lr] else []) s (s.link lk) := by
  unfold State.link
  cases lk
  · exact Unchanged.refl _ s
  · exact unchanged_setLr s _

/-- A CR bit is a bit of its field. -/
theorem State.crBit_eq (s : State) (n : BitVec 3) (j : Nat) (hj : j < 4) :
    s.crBit (BitVec.ofNat 5 (4 * n.toNat + j)) = (s.crField n).getMsbD j := by
  have hn := n.isLt
  rw [State.crField, getMsbD_nibble _ _ _ hj, State.crBit, BitVec.toNat_ofNat, Nat.mod_eq_of_lt (by omega)]

/-- What the record form leaves in CR field 0. -/
theorem State.record_recordsResult (s : State) (v : Word) : (s.record true v).RecordsResult v := by
  have h := fun j hj => State.crBit_eq (s.record true v) 0 j hj
  have hf : (s.record true v).crField 0 = compareSigned v 0#32 s.so := by
    simp [State.record, State.crField_setCrField]
  rw [hf] at h
  have h0 := h 0 (by decide)
  have h1 := h 1 (by decide)
  have h2 := h 2 (by decide)
  have h3 := h 3 (by decide)
  have hz : (v = 0#32) ↔ v.toInt = 0 := by
    rw [← BitVec.toInt_inj]; rfl
  simp only [compareSigned, (getMsbD_nibbleOf _ _ _ _).1, (getMsbD_nibbleOf _ _ _ _).2.1,
    (getMsbD_nibbleOf _ _ _ _).2.2.1, (getMsbD_nibbleOf _ _ _ _).2.2.2] at h0 h1 h2 h3
  refine ⟨?_, ?_, ?_, ?_⟩
  · simpa using h0
  · simpa using h1
  · simpa [hz] using h2
  · show _ = s.so
    simpa using h3

theorem State.recordsResult_advance {s : State} {v : Word} (h : s.RecordsResult v) : s.advance.RecordsResult v := h

end Sys2Proof.Machine
end

