-- ==== Sys2Proof/Laws/Ops.lean ====
section
/-! SUPPORT. How the results of the parts of an instruction compose, and what taking an exception and returning from
one leave. -/

namespace Sys2Proof.Machine

/-- A part followed by another one is done when both are. -/
theorem Result.bind_eq_ok {α β : Type} {r : Result α} {f : α → State → Result β} {b : β} {t : State} :
    r.bind f = .ok b t ↔ ∃ a s, r = .ok a s ∧ f a s = .ok b t := by
  cases r <;> simp [Result.bind]

/-- A part followed by another one raises what either raises. -/
theorem Result.bind_eq_exc {α β : Type} {r : Result α} {f : α → State → Result β} {x : Exc} {t : State} :
    r.bind f = .exc x t ↔ r = .exc x t ∨ ∃ a s, r = .ok a s ∧ f a s = .exc x t := by
  cases r <;> simp [Result.bind]

@[simp] theorem Result.ok_bind {α β : Type} (a : α) (s : State) (f : α → State → Result β) :
    (Result.ok a s).bind f = f a s := rfl

@[simp] theorem Result.exc_bind {α β : Type} (x : Exc) (s : State) (f : α → State → Result β) :
    (Result.exc x s : Result α).bind f = .exc x s := rfl

@[simp] theorem Result.stop_bind {α β : Type} (w : Fault) (f : α → State → Result β) :
    (Result.stop w : Result α).bind f = .stop w := rfl

@[simp] theorem Result.refuse_bind {α β : Type} (w : Refusal) (f : α → State → Result β) :
    (Result.refuse w : Result α).bind f = .refuse w := rfl

/-- A predicate holds of every state a part can end in, by going on or by an exception. -/
def Result.All {α : Type} (P : State → Prop) : Result α → Prop
  | .ok _ s => P s
  | .exc _ s => P s
  | .stop _ => True
  | .refuse _ => True

/-- A predicate holds of the next state, if there is one. -/
def Out.All (P : State → Prop) : Out → Prop
  | .next s => P s
  | .fault _ => True
  | .refused _ => True

theorem Out.all_iff {P : State → Prop} {o : Out} : Out.All P o ↔ ∀ t, o = .next t → P t := by
  cases o <;> simp [Out.All]

theorem Result.all_bind {α β : Type} {P : State → Prop} {r : Result α} {f : α → State → Result β} (hr : r.All P)
    (hf : ∀ a s, P s → (f a s).All P) : (r.bind f).All P := by
  cases r with
  | ok a s => exact hf a s hr
  | exc x s => exact hr
  | stop _ => trivial
  | refuse _ => trivial

/-- What a meaning ends in keeps a predicate if the parts and the exceptions do. -/
theorem Result.all_finish {P : State → Prop} {r : Result Unit} (hr : r.All P)
    (hx : ∀ x s, P s → Out.All P (raise x s)) : Out.All P r.finish := by
  cases r with
  | ok a s => exact hr
  | exc x s => exact hx x s hr
  | stop _ => trivial
  | refuse _ => trivial

theorem Out.all_privileged {P : State → Prop} {s : State} {k : Out} (h1 : Out.All P (raise .privileged s))
    (h2 : Out.All P k) : Out.All P (privileged s k) := by
  unfold privileged
  split
  · exact h1
  · exact h2

theorem mem_clearList (critical : Bool) (k : Nat) :
    k ∈ (if critical then [msrWE, msrEE, msrPR, msrPE, msrCE, msrDE, msrDR, msrIR]
      else [msrWE, msrEE, msrPR, msrPE, msrDR, msrIR]) ↔ k ∈ clearedBits critical := by
  cases critical <;> simp [clearedBits, msrWE, msrEE, msrPR, msrPE, msrCE, msrDE, msrDR, msrIR] <;> tauto

/-- Each bit of the MSR after an entry. -/
theorem bit_entryMsr (critical : Bool) (m : Word) (k : Nat) (hk : k < 32) :
    bit (entryMsr critical m) k =
      if k = 31 then bit m 15 else if k ∈ clearedBits critical then false else bit m k := by
  unfold entryMsr
  simp only
  rw [bit_setBit _ _ _ _ (by decide) hk]
  by_cases h : k = 31
  · simp [h, msrLE, msrILE]
  · rw [if_neg (by simpa [msrLE] using h), if_neg h]
    cases critical
    · rw [if_neg (by decide), bit_clearBits _ _ _ (by decide) hk]
      simp only [← mem_clearList, Bool.false_eq_true, if_false]
    · rw [if_pos rfl, bit_clearBits _ _ _ (by decide) hk]
      simp only [← mem_clearList, if_true]

/-- What a context-synchronizing operation leaves of the old bytes. -/
theorem State.contextSync_queue (s : State) : QueueDiscarded s s.contextSync := by
  intro o
  show o ∈ (if s.levelZero then [] else s.stale.filter fun o => o.stage != .queued) ↔ _
  cases s.levelZero <;> simp

/-- Once Level 0 has been left, a context-synchronizing operation drops the old bytes at the stage queued alone
(70_reset_and_hazards.md R573). -/
theorem State.contextSync_keeps_of_cachingSeen {s : State} (h : s.cachingSeen = true) (o : OldByte) :
    o ∈ s.contextSync.stale ↔ o ∈ s.stale ∧ o.stage ≠ .queued := by
  rw [State.contextSync_queue s o]
  simp [State.levelZero, h]

/-- What the entry sequence leaves, when it is not refused. -/
theorem enter_spec {critical : Bool} {saved : Word} {offset : BitVec 16} {s t : State}
    (h : enter critical saved offset s = .next t) : Entered critical saved offset [] s t := by
  unfold enter at h
  split at h
  · cases h
  · have ht := (Host.Outcome.next.inj h).symm
    clear h
    have hmsr : t.msr = entryMsr critical s.msr := by rw [ht]; rfl
    refine ⟨?_, ?_, ?_, ?_, by rw [ht]; rfl, ?_, ?_⟩
    · rw [ht]; cases critical <;> rfl
    · rw [ht]; cases critical <;> rfl
    · intro k hk
      rw [hmsr, bit_entryMsr _ _ _ (by omega), if_neg (by omega)]
    · rw [hmsr, bit_entryMsr _ _ _ (by decide), if_pos rfl]
    · rw [ht]
      intro p hp
      cases p with
      | msr => exact absurd (by simp) hp
      | spr r =>
        revert hp
        cases critical <;> cases r <;> first | (intro _; rfl) | (intro hp; exact absurd (by simp) hp)
      | memory => cases critical <;> exact State.dataByte_congr rfl rfl
      | storage => cases critical <;> exact State.storage_congr rfl
      | outside => cases critical <;> exact ⟨rfl, rfl⟩
      | _ => cases critical <;> rfl
    · rw [ht]
      have h := State.contextSync_queue (((s.saveFor critical saved).setMsr (entryMsr critical s.msr)).setPc
        (vectorAddress s.spr.evpr offset))
      cases critical <;> exact h

/-- An entry goes through unless MSR.ILE is 1. -/
theorem enter_completes {critical : Bool} {saved : Word} {offset : BitVec 16} {s : State}
    (h : s.msrBit msrILE = false) : ∃ t, enter critical saved offset s = .next t := by
  unfold enter
  rw [if_neg (by simp [h])]
  exact ⟨_, rfl⟩

end Sys2Proof.Machine
end

