-- ==== Sys2Proof/Laws/Cache.lean ====
section
/-! SUPPORT. The data cache: addresses and blocks, and that reading a line, casting one out and storing a byte keep
main storage and the data cache in order and show the processor the bytes they should. -/

namespace Sys2Proof.Machine

/-! ### Addresses and blocks -/

theorem toNat_lineAddr (t : BitVec 23) (c : BitVec 5) (i : BitVec 4) :
    (t ++ c ++ i).toNat = t.toNat * 512 + c.toNat * 16 + i.toNat := by
  have hc := c.isLt
  have hi := i.isLt
  rw [BitVec.toNat_append, BitVec.toNat_append, ← Nat.shiftLeft_add_eq_or_of_lt hi, ← Nat.shiftLeft_add_eq_or_of_lt hc]
  simp only [Nat.shiftLeft_eq]
  omega

/-- Byte `i` of a line's block. -/
theorem dlineBase_add (c : BitVec 5) (t : BitVec 23) (i : Nat) (hi : i < 16) :
    dlineBase c t + BitVec.ofNat 32 i = t ++ c ++ BitVec.ofNat 4 i := by
  apply BitVec.eq_of_toNat_eq
  have ht := t.isLt
  have hc := c.isLt
  rw [toNat_lineAddr, BitVec.toNat_add, dlineBase, toNat_lineAddr]
  simp only [BitVec.toNat_ofNat]
  omega

theorem dclass_lineAddr (t : BitVec 23) (c : BitVec 5) (i : BitVec 4) : dclass (t ++ c ++ i) = c := by
  apply BitVec.eq_of_toNat_eq
  have ht := t.isLt
  have hc := c.isLt
  have hi := i.isLt
  rw [dclass, BitVec.extractLsb'_toNat, toNat_lineAddr, Nat.shiftRight_eq_div_pow]
  omega

theorem dtag_lineAddr (t : BitVec 23) (c : BitVec 5) (i : BitVec 4) : dtag (t ++ c ++ i) = t := by
  apply BitVec.eq_of_toNat_eq
  have ht := t.isLt
  have hc := c.isLt
  have hi := i.isLt
  rw [dtag, BitVec.extractLsb'_toNat, toNat_lineAddr, Nat.shiftRight_eq_div_pow]
  omega

theorem blockByte_lineAddr (t : BitVec 23) (c : BitVec 5) (i : BitVec 4) : blockByte (t ++ c ++ i) = i := by
  apply BitVec.eq_of_toNat_eq
  have ht := t.isLt
  have hc := c.isLt
  have hi := i.isLt
  rw [blockByte, BitVec.extractLsb'_toNat, toNat_lineAddr, Nat.shiftRight_eq_div_pow]
  omega

/-- An address is its tag, its class and its byte in the block. -/
theorem lineAddr_eq (a : Word) : dtag a ++ dclass a ++ blockByte a = a := by
  apply BitVec.eq_of_toNat_eq
  have ha := a.isLt
  rw [toNat_lineAddr, dtag, dclass, blockByte, BitVec.extractLsb'_toNat, BitVec.extractLsb'_toNat,
    BitVec.extractLsb'_toNat, Nat.shiftRight_eq_div_pow, Nat.shiftRight_eq_div_pow, Nat.shiftRight_eq_div_pow]
  omega

theorem eq_of_line {a b : Word} (ht : dtag a = dtag b) (hc : dclass a = dclass b) (hi : blockByte a = blockByte b) :
    a = b := by
  rw [← lineAddr_eq a, ← lineAddr_eq b, ht, hc, hi]

/-- The block of an address is the block of its line. -/
theorem blockBase_eq (a : Word) : blockBase a = dlineBase (dclass a) (dtag a) := by
  have h : ∀ i : Nat, (0xFFFFFFF0#32).getLsbD i = (decide (4 ≤ i) && decide (i < 32)) := by
    intro i
    by_cases hi : i < 32
    · interval_cases i <;> rfl
    · rw [BitVec.getLsbD_of_ge _ _ (by omega)]; simp [hi]
  apply BitVec.eq_of_getLsbD_eq
  intro i hi
  simp only [blockBase, dlineBase, BitVec.getLsbD_and, h, BitVec.getLsbD_append, dclass, dtag,
    BitVec.getLsbD_extractLsb', BitVec.getLsbD_zero, hi, decide_true, Bool.and_true]
  by_cases h1 : i < 4
  · simp [h1, show ¬ 4 ≤ i by omega]
  · by_cases h2 : i - 4 < 5
    · simp [h1, h2, show 4 ≤ i by omega, show 4 + (i - 4) = i by omega]
    · simp [h1, h2, show 4 ≤ i by omega, show i - 4 - 5 < 23 by omega, show 9 + (i - 4 - 5) = i by omega]

theorem ofNat_toNat_blockByte (a : Word) : BitVec.ofNat 4 (blockByte a).toNat = blockByte a := by simp

/-- An address from the base of its block. -/
theorem blockBase_add (a : Word) : blockBase a + BitVec.ofNat 32 (blockByte a).toNat = a := by
  rw [blockBase_eq, dlineBase_add _ _ _ (blockByte a).isLt, ofNat_toNat_blockByte, lineAddr_eq]

/-! ### Lines -/

theorem DClass.line_setLine (x : DClass) (side side' : Side) (l : DLine) :
    (x.setLine side l).line side' = if side' = side then l else x.line side' := by
  cases side <;> cases side' <;> rfl

theorem State.dcls_setDcls (s : State) (c c' : BitVec 5) (x : DClass) :
    (s.setDcls c x).dcls c' = if c' = c then x else s.dcls c' := by
  by_cases h : c' = c
  · subst h
    simp [State.dcls, State.setDcls, Vector.get_eq_getElem]
  · have hn : c.toNat ≠ c'.toNat := fun he => h (BitVec.eq_of_toNat_eq he.symm)
    simp [State.dcls, State.setDcls, Vector.get_eq_getElem, hn, h]

/-- A line after one is replaced. -/
theorem State.dline_setDline (s : State) (c c' : BitVec 5) (side side' : Side) (l : DLine) :
    (s.setDline c side l).dline c' side' = if c' = c ∧ side' = side then l else s.dline c' side' := by
  unfold State.setDline State.dline
  rw [State.dcls_setDcls]
  by_cases h : c' = c
  · subst h; simp [DClass.line_setLine]
  · simp [h]

@[simp] theorem State.dline_setDlru (s : State) (c c' : BitVec 5) (side : Side) (v : Bool) :
    (s.setDlru c v).dline c' side = s.dline c' side := by
  unfold State.setDlru State.dline
  rw [State.dcls_setDcls]
  by_cases h : c' = c
  · subst h; cases side <;> simp [DClass.line]
  · simp [h]

@[simp] theorem State.storage_setDline (s : State) (c : BitVec 5) (side : Side) (l : DLine) (x : Word) :
    (s.setDline c side l).storage x = s.storage x := rfl

@[simp] theorem State.storage_setDlru (s : State) (c : BitVec 5) (v : Bool) (x : Word) :
    (s.setDlru c v).storage x = s.storage x := rfl

theorem State.dline_congr {s t : State} (h : t.dcache = s.dcache) (c : BitVec 5) (side : Side) :
    t.dline c side = s.dline c side := by
  simp [State.dline, State.dcls, h]

@[simp] theorem State.keepOld_pc (s : State) (a : Word) (b : Byte) : (s.keepOld a b).pc = s.pc := rfl
@[simp] theorem State.keepOld_mem (s : State) (a : Word) (b : Byte) : (s.keepOld a b).mem = s.mem := rfl
@[simp] theorem State.keepOld_dcache (s : State) (a : Word) (b : Byte) : (s.keepOld a b).dcache = s.dcache := rfl
@[simp] theorem State.keepOld_dline (s : State) (a : Word) (b : Byte) (c : BitVec 5) (side : Side) :
    (s.keepOld a b).dline c side = s.dline c side := rfl
@[simp] theorem State.keepOld_storage (s : State) (a : Word) (b : Byte) (x : Word) :
    (s.keepOld a b).storage x = s.storage x := rfl
@[simp] theorem State.markOld_pc (s : State) (sel : OldByte → Bool) (x y : OldStage) :
    (s.markOld sel x y).pc = s.pc := rfl

/-- Keeping the bytes of a line writes the field `stale` alone. -/
theorem State.keepDline_stale (s : State) (c : BitVec 5) (side : Side) : ∃ l, s.keepDline c side = s.setStale l := by
  unfold State.keepDline
  simp only
  split
  · generalize List.finRange 16 = is
    generalize (s.dline c side).data = data
    generalize (s.dline c side).tag = tag
    have : ∀ st : State, (∃ l, st = s.setStale l) → ∃ l, is.foldl (fun st i =>
        st.keepOld (dlineBase c tag + BitVec.ofNat 32 i.val) (data.get i)) st = s.setStale l := by
      induction is with
      | nil => exact fun st h => h
      | cons j is ih =>
        rintro st ⟨l, rfl⟩
        exact ih _ ⟨_, rfl⟩
    exact this s ⟨s.stale, rfl⟩
  · exact ⟨s.stale, rfl⟩

theorem State.dhit_congr {s t : State} (h : t.dcache = s.dcache) (a : Word) : t.dhit a = s.dhit a := by
  simp [State.dhit, State.dline_congr h]

/-- The line of a side holds the block of an address. -/
def State.Holds (s : State) (a : Word) (side : Side) : Prop :=
  (s.dline (dclass a) side).v = true ∧ (s.dline (dclass a) side).tag = dtag a

theorem State.holds_of_dhit {s : State} {a : Word} {side : Side} (h : s.dhit a = some side) : s.Holds a side := by
  unfold State.dhit at h
  split at h
  · rename_i hc
    cases h
    simpa [State.Holds] using hc
  · split at h
    · rename_i hc
      cases h
      simpa [State.Holds] using hc
    · cases h

theorem State.not_holds_of_dhit {s : State} {a : Word} (h : s.dhit a = none) (side : Side) : ¬ s.Holds a side := by
  unfold State.dhit at h
  split at h
  · cases h
  · split at h
    · cases h
    · rename_i h1 h2
      cases side
      · simpa [State.Holds] using h1
      · simpa [State.Holds] using h2

theorem State.dhit_of_holds {s : State} (hu : s.DataLinesUnique) {a : Word} {side : Side} (h : s.Holds a side) :
    s.dhit a = some side := by
  cases hd : s.dhit a with
  | none => exact absurd h (State.not_holds_of_dhit hd side)
  | some side' =>
    have h' := State.holds_of_dhit hd
    cases side <;> cases side'
    · rfl
    · exact absurd (h.2.trans h'.2.symm) (hu _ h.1 h'.1)
    · exact absurd (h'.2.trans h.2.symm) (hu _ h'.1 h.1)
    · rfl

/-- The byte the processor sees where a line holds the block. -/
theorem State.dataByte_of_holds {s : State} (hu : s.DataLinesUnique) {a : Word} {side : Side} (h : s.Holds a side) :
    s.dataByte a = (s.dline (dclass a) side).data.get (blockByte a).toFin := by
  simp [State.dataByte, State.dhit_of_holds hu h]

/-- The byte the processor sees where no line holds the block. -/
theorem State.dataByte_of_not_holds {s : State} {a : Word} (h : ∀ side, ¬ s.Holds a side) :
    s.dataByte a = s.storage a := by
  cases hd : s.dhit a with
  | none => simp [State.dataByte, hd]
  | some side => exact absurd (State.holds_of_dhit hd) (h side)

theorem State.dhit_none_of_not_holds {s : State} {a : Word} (h : ∀ side, ¬ s.Holds a side) : s.dhit a = none := by
  cases hd : s.dhit a with
  | none => rfl
  | some side => exact absurd (State.holds_of_dhit hd) (h side)

/-- A clean line agrees with main storage at every address of its block. -/
theorem State.clean_at {s : State} (h : s.CleanLinesAgree) {a : Word} {side : Side} (hh : s.Holds a side)
    (hd : (s.dline (dclass a) side).d = false) :
    (s.dline (dclass a) side).data.get (blockByte a).toFin = s.storage a := by
  have := h (dclass a) side hh.1 hd (blockByte a).toFin
  rw [this, hh.2]
  have e := blockBase_add a
  rw [blockBase_eq] at e
  exact congrArg s.storage e

/-- To agree with main storage is to agree at every address of the block. -/
theorem State.cleanLinesAgree_iff {s : State} : s.CleanLinesAgree ↔
    ∀ a side, s.Holds a side → (s.dline (dclass a) side).d = false →
      (s.dline (dclass a) side).data.get (blockByte a).toFin = s.storage a := by
  constructor
  · exact fun h a side hh hd => State.clean_at h hh hd
  · intro h c side hv hd i
    have hc : dclass (dlineBase c (s.dline c side).tag + BitVec.ofNat 32 i.val) = c := by
      rw [dlineBase_add _ _ _ i.isLt, dclass_lineAddr]
    have ht : dtag (dlineBase c (s.dline c side).tag + BitVec.ofNat 32 i.val) = (s.dline c side).tag := by
      rw [dlineBase_add _ _ _ i.isLt, dtag_lineAddr]
    have hb : (blockByte (dlineBase c (s.dline c side).tag + BitVec.ofNat 32 i.val)).toFin = i := by
      rw [dlineBase_add _ _ _ i.isLt, blockByte_lineAddr]
      apply Fin.ext
      simp
    have := h (dlineBase c (s.dline c side).tag + BitVec.ofNat 32 i.val) side ⟨by rw [hc]; exact hv, by rw [hc, ht]⟩
      (by rw [hc]; exact hd)
    rwa [hc, hb] at this

/-! ### A line to main storage -/

/-- The stores of `putBlock`, the first ones of a list. -/
theorem storage_putBytes {s : State} (hs : Memory.wf s.mem = true) (base : Word) (data : Vector Byte 16)
    (l : List (Fin 16)) (x : Word) :
    Memory.wf (l.foldl (fun st i => st.putStorage (base + BitVec.ofNat 32 i.val) (data.get i)) s).mem = true ∧
    ((∀ i ∈ l, x ≠ base + BitVec.ofNat 32 i.val) →
      (l.foldl (fun st i => st.putStorage (base + BitVec.ofNat 32 i.val) (data.get i)) s).storage x = s.storage x) ∧
    (∀ i ∈ l, x = base + BitVec.ofNat 32 i.val →
      (l.foldl (fun st i => st.putStorage (base + BitVec.ofNat 32 i.val) (data.get i)) s).storage x = data.get i) := by
  induction l generalizing s with
  | nil => exact ⟨hs, fun _ => rfl, fun i hi => absurd hi (by simp)⟩
  | cons j l ih =>
    have hs' := State.putStorage_wf hs (base + BitVec.ofNat 32 j.val) (data.get j)
    obtain ⟨h1, h2, h3⟩ := ih hs'
    refine ⟨h1, ?_, ?_⟩
    · intro h
      rw [List.foldl_cons, h2 fun i hi => h i (List.mem_cons_of_mem _ hi), State.storage_putStorage hs,
        if_neg (h j (by simp))]
    · intro i hi hx
      rw [List.foldl_cons]
      by_cases hl : i ∈ l
      · exact h3 i hl hx
      · have hij : i = j := by
          rcases List.mem_cons.1 hi with h | h
          · exact h
          · exact absurd h hl
        subst hij
        rw [h2, State.storage_putStorage hs, if_pos hx]
        intro k hk he
        have : k = i := by
          rw [hx] at he
          have he := congrArg BitVec.toNat he
          simp only [BitVec.toNat_add, BitVec.toNat_ofNat] at he
          have := base.isLt
          have := i.isLt
          have := k.isLt
          exact Fin.ext (by omega)
        exact hl (this ▸ hk)

theorem State.putBlock_wf {s : State} (hs : Memory.wf s.mem = true) (base : Word) (data : Vector Byte 16) :
    Memory.wf (s.putBlock base data).mem = true :=
  (storage_putBytes hs base data (List.finRange 16) 0).1

/-- Main storage after a line is copied back. -/
theorem State.storage_putBlock {s : State} (hs : Memory.wf s.mem = true) (c : BitVec 5) (t : BitVec 23)
    (data : Vector Byte 16) (x : Word) :
    (s.putBlock (dlineBase c t) data).storage x =
      if dclass x = c ∧ dtag x = t then data.get (blockByte x).toFin else s.storage x := by
  obtain ⟨-, h2, h3⟩ := storage_putBytes hs (dlineBase c t) data (List.finRange 16) x
  split
  · rename_i h
    refine h3 (blockByte x).toFin (List.mem_finRange _) ?_
    rw [← h.1, ← h.2]
    exact (blockBase_eq x ▸ blockBase_add x).symm
  · rename_i h
    refine h2 fun i _ hx => h ?_
    rw [dlineBase_add _ _ _ i.isLt] at hx
    exact ⟨hx ▸ dclass_lineAddr _ _ _, hx ▸ dtag_lineAddr _ _ _⟩

theorem putStorage_fold_dcache (base : Word) (data : Vector Byte 16) (l : List (Fin 16)) (s : State) :
    (l.foldl (fun st i => st.putStorage (base + BitVec.ofNat 32 i.val) (data.get i)) s).dcache = s.dcache := by
  induction l generalizing s with
  | nil => rfl
  | cons j l ih =>
    rw [List.foldl_cons, ih]
    unfold State.putStorage
    split <;> rfl

@[simp] theorem State.putBlock_dcache (s : State) (base : Word) (data : Vector Byte 16) :
    (s.putBlock base data).dcache = s.dcache := putStorage_fold_dcache base data _ s

@[simp] theorem State.putStorage_pc (s : State) (a : Word) (b : Byte) : (s.putStorage a b).pc = s.pc := by
  unfold State.putStorage
  split <;> rfl

@[simp] theorem State.putBlock_pc (s : State) (base : Word) (data : Vector Byte 16) :
    (s.putBlock base data).pc = s.pc := by
  unfold State.putBlock
  generalize List.finRange 16 = l
  induction l generalizing s with
  | nil => rfl
  | cons j l ih => rw [List.foldl_cons, ih, State.putStorage_pc]

@[simp] theorem State.setDline_pc (s : State) (c : BitVec 5) (side : Side) (l : DLine) :
    (s.setDline c side l).pc = s.pc := rfl

@[simp] theorem State.setDlru_pc (s : State) (c : BitVec 5) (v : Bool) : (s.setDlru c v).pc = s.pc := rfl

@[simp] theorem State.drawn_pc (s : State) : s.drawn.pc = s.pc := rfl

@[simp] theorem State.putStorage_dcache (s : State) (a : Word) (b : Byte) : (s.putStorage a b).dcache = s.dcache := by
  unfold State.putStorage
  split <;> rfl

theorem unchanged_putBlock (s : State) (base : Word) (data : Vector Byte 16) :
    Unchanged [.memory, .storage] s (s.putBlock base data) := by
  unfold State.putBlock
  generalize List.finRange 16 = l
  induction l generalizing s with
  | nil => exact Unchanged.refl _ s
  | cons j l ih => exact (unchanged_putStorage s _ _).trans' (ih _)

theorem unchanged_setDline (s : State) (c : BitVec 5) (side : Side) (l : DLine) :
    Unchanged [.memory, .dataCache] s (s.setDline c side l) := unchanged_setDcache s _

theorem State.dataByte_setDlru (s : State) (c : BitVec 5) (v : Bool) (a : Word) :
    (s.setDlru c v).dataByte a = s.dataByte a := by
  simp [State.dataByte, State.dhit]

theorem unchanged_setDlru (s : State) (c : BitVec 5) (v : Bool) : Unchanged [.dataCache] s (s.setDlru c v) := by
  intro p hp
  by_cases h : p = .memory
  · subst h; exact State.dataByte_setDlru s c v
  · exact unchanged_setDcache s _ p (by simpa [h] using hp)

theorem State.memoryCoherent_congr {s t : State} (hc : t.dcache = s.dcache) (hm : t.mem = s.mem)
    (h : s.MemoryCoherent) : t.MemoryCoherent where
  canonical := by unfold State.MemoryCanonical; rw [hm]; exact h.canonical
  unique := by intro c; rw [State.dline_congr hc, State.dline_congr hc]; exact h.unique c
  clean := by
    intro c side
    rw [State.dline_congr hc]
    intro hv hd i
    rw [State.storage_congr hm]
    exact h.clean c side hv hd i

theorem State.memoryCoherent_setDlru {s : State} (c : BitVec 5) (v : Bool) (h : s.MemoryCoherent) :
    (s.setDlru c v).MemoryCoherent where
  canonical := h.canonical
  unique := by intro c'; simp only [State.dline_setDlru]; exact h.unique c'
  clean := by
    intro c' side
    simp only [State.dline_setDlru, State.storage_setDlru]
    exact h.clean c' side

/-! ### Casting out and filling -/

/-- A step of the data cache shows the processor the same bytes and keeps all in order; main storage and the data
cache may change. -/
structure KeepsView (s t : State) : Prop where
  coherent : t.MemoryCoherent
  same : ∀ a, t.dataByte a = s.dataByte a
  frame : Unchanged [.storage, .dataCache] s t
  pc : t.pc = s.pc

theorem KeepsView.refl {s : State} (h : s.MemoryCoherent) : KeepsView s s :=
  ⟨h, fun _ => rfl, Unchanged.refl _ s, rfl⟩

theorem KeepsView.trans {s t u : State} (h1 : KeepsView s t) (h2 : KeepsView t u) : KeepsView s u :=
  ⟨h2.coherent, fun a => (h2.same a).trans (h1.same a), h1.frame.trans' h2.frame, h2.pc.trans h1.pc⟩

theorem Unchanged.withMemory {l : List Part} {s t : State} (h : Unchanged (.memory :: l) s t)
    (hm : ∀ a, t.dataByte a = s.dataByte a) : Unchanged l s t := by
  intro p hp
  by_cases hq : p = .memory
  · subst hq; exact hm
  · exact h p (by simp [hq, hp])

theorem KeepsView.drawn {s : State} (h : s.MemoryCoherent) : KeepsView s s.drawn :=
  ⟨State.memoryCoherent_congr (s := s) rfl rfl h, State.dataByte_congr rfl rfl, unchanged_drawn s _, rfl⟩

theorem KeepsView.setDlru {s : State} (c : BitVec 5) (v : Bool) (h : s.MemoryCoherent) : KeepsView s (s.setDlru c v) :=
  ⟨State.memoryCoherent_setDlru c v h, State.dataByte_setDlru s c v, (unchanged_setDlru s c v).mono (by simp), rfl⟩

theorem checkStorage_ok {a : Word} {n : Nat} {s t : State} {u : Unit} (h : checkStorage a n s = .ok u t) : t = s := by
  unfold checkStorage at h
  split at h
  · cases h
  · split at h
    · cases h
    · cases h; rfl

theorem checkStorage_plain {a : Word} {n : Nat} {s : State} (h : s.PlainAt a n) : checkStorage a n s = .ok () s := by
  simp [checkStorage, h.1, h.2]

/-- What copying a line back can do: nothing, or the line's bytes go to main storage. -/
theorem copyBack_ok {c : BitVec 5} {side : Side} {s t : State} {u : Unit} (h : copyBack c side s = .ok u t) :
    t = if (s.dline c side).d then s.putBlock (dlineBase c (s.dline c side).tag) (s.dline c side).data else s := by
  unfold copyBack at h
  simp only at h
  split at h
  · rename_i hd
    rw [if_pos hd]
    obtain ⟨v, s1, hx, h1⟩ := Result.bind_eq_ok.1 h
    rw [checkStorage_ok hx] at h1
    exact (Result.ok.inj h1).2.symm
  · rename_i hd
    rw [if_neg hd]
    exact (Result.ok.inj h).2.symm

/-- Copying a valid line back shows the processor the same bytes, and the line's block then agrees with storage. -/
theorem copyBack_keeps {c : BitVec 5} {side : Side} {s t : State} {u : Unit} (hs : s.MemoryCoherent)
    (hv : (s.dline c side).v = true) (h : copyBack c side s = .ok u t) :
    KeepsView s t ∧ t.dcache = s.dcache ∧
      ∀ a, t.storage a = if dclass a = c ∧ dtag a = (s.dline c side).tag
        then (s.dline c side).data.get (blockByte a).toFin else s.storage a := by
  have ht := copyBack_ok h
  have hc : t.dcache = s.dcache := by rw [ht]; split <;> simp
  have hmem : Memory.wf t.mem = true := by
    rw [ht]; split
    · exact State.putBlock_wf hs.canonical _ _
    · exact hs.canonical
  have hst : ∀ a, t.storage a = if dclass a = c ∧ dtag a = (s.dline c side).tag
      then (s.dline c side).data.get (blockByte a).toFin else s.storage a := by
    intro a
    rw [ht]
    split
    · exact State.storage_putBlock hs.canonical _ _ _ _
    · rename_i hd
      split
      · rename_i hb
        have hh : s.Holds a side := ⟨by rw [hb.1]; exact hv, by rw [hb.1]; exact hb.2.symm⟩
        rw [← State.clean_at hs.clean hh (by rw [hb.1]; simpa using hd), hb.1]
      · rfl
  have hdl := fun c' sd => State.dline_congr hc c' sd
  have hholds : ∀ a sd, t.Holds a sd ↔ s.Holds a sd := by
    intro a sd; simp [State.Holds, hdl]
  have hu : t.DataLinesUnique := by intro c'; rw [hdl, hdl]; exact hs.unique c'
  have hcl : t.CleanLinesAgree := by
    rw [State.cleanLinesAgree_iff]
    intro a sd hh hd
    rw [hholds] at hh
    rw [hdl] at hd ⊢
    rw [hst]
    split
    · rename_i hb
      have hself : s.Holds a side := ⟨by rw [hb.1]; exact hv, by rw [hb.1]; exact hb.2.symm⟩
      have e : sd = side := by
        have := (State.dhit_of_holds hs.unique hh).symm.trans (State.dhit_of_holds hs.unique hself)
        exact Option.some.inj this
      rw [e, hb.1]
    · exact State.clean_at hs.clean hh hd
  refine ⟨⟨⟨hmem, hu, hcl⟩, ?_, ?_, by rw [ht]; split <;> simp⟩, hc, hst⟩
  · intro a
    by_cases hh : ∃ sd, s.Holds a sd
    · obtain ⟨sd, hh⟩ := hh
      rw [State.dataByte_of_holds hs.unique hh, State.dataByte_of_holds hu ((hholds a sd).2 hh), hdl]
    · rw [not_exists] at hh
      rw [State.dataByte_of_not_holds hh, State.dataByte_of_not_holds fun sd => mt (hholds a sd).1 (hh sd), hst,
        if_neg]
      intro hb
      exact hh side ⟨by rw [hb.1]; exact hv, by rw [hb.1]; exact hb.2.symm⟩
  · rw [ht]
    split
    · intro p hp
      by_cases hq : p = .memory
      · subst hq
        intro a
        by_cases hh : ∃ sd, s.Holds a sd
        · obtain ⟨sd, hh⟩ := hh
          have hu' : (s.putBlock (dlineBase c (s.dline c side).tag) (s.dline c side).data).DataLinesUnique := by
            intro c'; rw [State.dline_congr (State.putBlock_dcache _ _ _), State.dline_congr (State.putBlock_dcache _ _ _)]
            exact hs.unique c'
          have hh' : (s.putBlock (dlineBase c (s.dline c side).tag) (s.dline c side).data).Holds a sd := by
            simpa [State.Holds, State.dline_congr (State.putBlock_dcache s _ _)] using hh
          rw [State.dataByte_of_holds hs.unique hh, State.dataByte_of_holds hu' hh',
            State.dline_congr (State.putBlock_dcache _ _ _)]
        · rw [not_exists] at hh
          have hh' : ∀ sd, ¬ (s.putBlock (dlineBase c (s.dline c side).tag) (s.dline c side).data).Holds a sd := by
            intro sd
            simpa [State.Holds, State.dline_congr (State.putBlock_dcache s _ _)] using hh sd
          rw [State.dataByte_of_not_holds hh, State.dataByte_of_not_holds hh', State.storage_putBlock hs.canonical,
            if_neg]
          intro hb
          exact hh side ⟨by rw [hb.1]; exact hv, by rw [hb.1]; exact hb.2.symm⟩
      · exact unchanged_putBlock s _ _ p (by simp only [List.mem_cons, not_or, List.not_mem_nil] at hp ⊢; exact ⟨hq, hp.1, id⟩)
    · exact Unchanged.refl _ s

/-- Making room on a side: if the line was valid, its block agrees with main storage after it. -/
theorem castOut_keeps {c : BitVec 5} {side : Side} {s t : State} {u : Unit} (hs : s.MemoryCoherent)
    (h : castOut c side s = .ok u t) :
    KeepsView s t ∧ t.dcache = s.dcache ∧
      ∀ a, t.storage a = if (s.dline c side).v = true ∧ dclass a = c ∧ dtag a = (s.dline c side).tag
        then (s.dline c side).data.get (blockByte a).toFin else s.storage a := by
  unfold castOut at h
  split at h
  · rename_i hv
    obtain ⟨h1, h2, h3⟩ := copyBack_keeps hs hv h
    exact ⟨h1, h2, fun a => by rw [h3 a]; simp [hv]⟩
  · rename_i hv
    rw [← (Result.ok.inj h).2]
    exact ⟨KeepsView.refl hs, rfl, fun a => by simp [hv]⟩

/-- Casting out completes where the blocks that may be copied back are plain storage. -/
theorem castOut_completes {s : State} (hs : s.LinesPlain) (c : BitVec 5) (side : Side) :
    ∃ t, castOut c side s = .ok () t := by
  unfold castOut
  split
  · rename_i hv
    unfold copyBack
    simp only
    split
    · rename_i hd
      rw [checkStorage_plain (hs c side hv hd)]
      exact ⟨_, rfl⟩
    · exact ⟨_, rfl⟩
  · exact ⟨_, rfl⟩

/-- A new line on a side whose old line agrees with main storage: what the processor sees changes only where the new
line's bytes say so. -/
theorem replaceLine {s : State} (hs : s.MemoryCoherent) {a : Word} (hmiss : s.dhit a = none) (side : Side)
    (hold : ∀ x, (s.dline (dclass a) side).v = true → dclass x = dclass a → dtag x = (s.dline (dclass a) side).tag →
      s.storage x = (s.dline (dclass a) side).data.get (blockByte x).toFin)
    (d : Bool) (data : Vector Byte 16)
    (hnew : d = false → ∀ x, dclass x = dclass a → dtag x = dtag a → data.get (blockByte x).toFin = s.storage x) :
    let t := s.setDline (dclass a) side ⟨true, d, dtag a, data⟩
    t.MemoryCoherent ∧ (∀ x, t.dataByte x = if dclass x = dclass a ∧ dtag x = dtag a
      then data.get (blockByte x).toFin else s.dataByte x) ∧ t.dhit a = some side := by
  intro t
  have hl : ∀ c sd, t.dline c sd = if c = dclass a ∧ sd = side then ⟨true, d, dtag a, data⟩ else s.dline c sd :=
    fun c sd => State.dline_setDline s _ _ _ _ _
  have hself : ∀ x, dclass x = dclass a → dtag x = dtag a → t.Holds x side := by
    intro x hc ht
    simp [State.Holds, hl, hc, ht]
  have hu : t.DataLinesUnique := by
    intro c
    rw [hl, hl]
    by_cases hc : c = dclass a
    · subst hc
      cases side
      · have := State.not_holds_of_dhit hmiss .b
        simp only [true_and, if_true, State.Holds, not_and] at this ⊢
        intro _ hv e
        exact this (by simpa using hv) (by simpa using e.symm)
      · have := State.not_holds_of_dhit hmiss .a
        simp only [true_and, if_true, State.Holds, not_and] at this ⊢
        intro hv _ e
        exact this (by simpa using hv) (by simpa using e)
    · simp only [hc, false_and, if_false]
      exact hs.unique c
  have hother : ∀ x sd, ¬ (dclass x = dclass a ∧ sd = side) → (t.Holds x sd ↔ s.Holds x sd) := by
    intro x sd h
    simp only [State.Holds, hl, if_neg h]
  have hview : ∀ x, t.dataByte x = if dclass x = dclass a ∧ dtag x = dtag a
      then data.get (blockByte x).toFin else s.dataByte x := by
    intro x
    split
    · rename_i h
      rw [State.dataByte_of_holds hu (hself x h.1 h.2), hl]
      simp [h.1]
    · rename_i h
      by_cases hh : ∃ sd, t.Holds x sd
      · obtain ⟨sd, hh⟩ := hh
        have hne : ¬ (dclass x = dclass a ∧ sd = side) := by
          intro e
          have := hh.2
          rw [hl, if_pos e] at this
          exact h ⟨e.1, this.symm⟩
        rw [State.dataByte_of_holds hu hh, hl, if_neg hne,
          State.dataByte_of_holds hs.unique ((hother x sd hne).1 hh)]
      · rw [not_exists] at hh
        rw [State.dataByte_of_not_holds hh]
        show s.storage x = _
        by_cases hx : ∃ sd, s.Holds x sd
        · obtain ⟨sd, hx⟩ := hx
          have he : dclass x = dclass a ∧ sd = side := by
            by_contra hne
            exact hh sd ((hother x sd hne).2 hx)
          obtain ⟨hc, rfl⟩ := he
          have hv := hx.1
          have ht := hx.2
          rw [State.dataByte_of_holds hs.unique hx]
          rw [hc] at hv ht ⊢
          exact hold x hv hc ht.symm
        · rw [not_exists] at hx
          exact (State.dataByte_of_not_holds hx).symm
  refine ⟨⟨hs.canonical, hu, ?_⟩, hview, State.dhit_of_holds hu (hself a rfl rfl)⟩
  rw [State.cleanLinesAgree_iff]
  intro x sd hh hd
  show _ = s.storage x
  rw [hl] at hd ⊢
  split at hd
  · rename_i e
    rw [if_pos e]
    have := hh.2
    rw [hl, if_pos e] at this
    exact hnew hd x e.1 this.symm
  · rename_i e
    rw [if_neg e]
    exact State.clean_at hs.clean ((hother x sd e).1 hh) hd

/-- The bytes of a block, by address. -/
theorem State.blockOf_get (s : State) (a x : Word) (hc : dclass x = dclass a) (ht : dtag x = dtag a) :
    (s.blockOf (blockBase a)).get (blockByte x).toFin = s.storage x := by
  have e : blockBase a = blockBase x := by rw [blockBase_eq, blockBase_eq, hc, ht]
  simp only [State.blockOf, Vector.get_eq_getElem, Vector.getElem_ofFn, e]
  exact congrArg s.storage (blockBase_add x)

theorem State.dataByte_of_dhit_none {s : State} {a : Word} (h : s.dhit a = none) : s.dataByte a = s.storage a := by
  simp [State.dataByte, h]

theorem State.dhit_of_block {s : State} {a x : Word} (hc : dclass x = dclass a) (ht : dtag x = dtag a) :
    s.dhit x = s.dhit a := by
  simp [State.dhit, hc, ht]

/-- Reading a block that is not in the data cache shows the processor the same bytes. -/
theorem dfill_keeps {a : Word} {side : Side} {s t : State} {u : Unit} (hs : s.MemoryCoherent) (hmiss : s.dhit a = none)
    (h : dfill a side s = .ok u t) : KeepsView s t ∧ t.dhit a = some side := by
  unfold dfill at h
  obtain ⟨v, s1, hr, h1⟩ := Result.bind_eq_ok.1 h
  · obtain ⟨hk, hcache, hst⟩ := castOut_keeps hs hr
    have ht : t = s1.setDline (dclass a) side ⟨true, false, dtag a, s1.blockOf (blockBase a)⟩ :=
      (Result.ok.inj h1).2.symm
    have hm1 : s1.dhit a = none := by rw [State.dhit_congr hcache]; exact hmiss
    have hdl := fun c sd => State.dline_congr hcache c sd
    obtain ⟨c1, c2, c3⟩ := replaceLine hk.coherent hm1 side
      (by
        intro x hv hc htag
        rw [hdl] at hv htag ⊢
        rw [hst, if_pos ⟨hv, hc, htag⟩])
      false (s1.blockOf (blockBase a)) (fun _ x hc htag => State.blockOf_get s1 a x hc htag)
    rw [← ht] at c1 c2 c3
    have hsame : ∀ x, t.dataByte x = s1.dataByte x := by
      intro x
      rw [c2]
      split
      · rename_i e
        rw [State.blockOf_get s1 a x e.1 e.2, State.dataByte_of_dhit_none]
        rw [State.dhit_of_block e.1 e.2]
        exact hm1
      · rfl
    refine ⟨hk.trans ⟨c1, hsame, ?_, by rw [ht]; rfl⟩, c3⟩
    have hf : Unchanged [.memory, .dataCache] s1 t := by rw [ht]; exact unchanged_setDline s1 _ _ _
    exact hf.withMemory hsame |>.mono (by simp)

theorem dfill_completes {s : State} (hs : s.LinesPlain) (a : Word) (side : Side) : ∃ t, dfill a side s = .ok () t := by
  obtain ⟨t, ht⟩ := castOut_completes hs (dclass a) side
  exact ⟨_, by rw [dfill, ht]; rfl⟩

/-- What an ordinary access does to the data cache shows the processor the same bytes. -/
theorem dtouch_keeps {p : Place} {s t : State} {u : Unit} (hs : s.MemoryCoherent) (h : dtouch p s = .ok u t) :
    KeepsView s t := by
  unfold dtouch at h
  split at h
  · rw [← (Result.ok.inj h).2]
    exact KeepsView.refl hs
  · simp only at h
    split at h
    · rw [← (Result.ok.inj h).2]
      exact (KeepsView.setDlru _ _ hs).trans (KeepsView.drawn (State.memoryCoherent_setDlru _ _ hs))
    · rename_i hmiss
      split at h
      · obtain ⟨v, s1, hr, h1⟩ := Result.bind_eq_ok.1 h
        have hd := (KeepsView.drawn hs)
        obtain ⟨hk, -⟩ := dfill_keeps hd.coherent (by rw [State.dhit_congr (t := s.drawn) rfl]; exact hmiss) hr
        rw [← (Result.ok.inj h1).2]
        exact (hd.trans hk).trans (KeepsView.setDlru _ _ hk.coherent)
      · rw [← (Result.ok.inj h).2]
        exact KeepsView.drawn hs

theorem linesPlain_drawn {s : State} (h : s.LinesPlain) : s.drawn.LinesPlain := h

theorem dtouch_completes {s : State} (hs : s.LinesPlain) (p : Place) : ∃ t, dtouch p s = .ok () t := by
  unfold dtouch
  split
  · exact ⟨_, rfl⟩
  · simp only
    split
    · exact ⟨_, rfl⟩
    · split
      · obtain ⟨t, ht⟩ := dfill_completes (linesPlain_drawn hs) p.real (sideOf s.undef)
        rw [ht]
        exact ⟨_, rfl⟩
      · exact ⟨_, rfl⟩

/-! ### Storing -/

@[simp] theorem State.putData_pc (s : State) (p : Place) (a : Word) (b : Byte) : (s.putData p a b).pc = s.pc := by
  unfold State.putData
  split
  · simp
  · simp only
    split <;> simp

/-- Storing one byte: the processor sees it there and everything else as before. -/
theorem putData_spec {s : State} (hs : s.MemoryCoherent) (p : Place) (a : Word) (b : Byte) :
    (s.putData p a b).MemoryCoherent ∧
    (∀ x, (s.putData p a b).dataByte x = if x = a then b else s.dataByte x) ∧
    Unchanged [.memory, .storage, .dataCache] s (s.putData p a b) := by
  unfold State.putData
  cases hd : s.dhit a with
  | none =>
    have hnh := State.not_holds_of_dhit hd
    have hh : ∀ x sd, (s.putStorage a b).Holds x sd ↔ s.Holds x sd := by
      intro x sd; simp [State.Holds, State.dline_congr (State.putStorage_dcache s a b)]
    have hu : (s.putStorage a b).DataLinesUnique := by
      intro c; rw [State.dline_congr (State.putStorage_dcache s a b), State.dline_congr (State.putStorage_dcache s a b)]
      exact hs.unique c
    have hne : ∀ x sd, s.Holds x sd → x ≠ a := fun x sd hx e => hnh sd (e ▸ hx)
    refine ⟨⟨State.putStorage_wf hs.canonical a b, hu, ?_⟩, ?_, (unchanged_putStorage s a b).mono (by simp)⟩
    · rw [State.cleanLinesAgree_iff]
      intro x sd hx hdd
      rw [hh] at hx
      simp only [State.dline_congr (State.putStorage_dcache s a b)] at hdd ⊢
      rw [State.storage_putStorage hs.canonical, if_neg (hne x sd hx)]
      exact State.clean_at hs.clean hx hdd
    · intro x
      by_cases hx : ∃ sd, s.Holds x sd
      · obtain ⟨sd, hx⟩ := hx
        rw [if_neg (hne x sd hx), State.dataByte_of_holds hu ((hh x sd).2 hx), State.dataByte_of_holds hs.unique hx,
          State.dline_congr (State.putStorage_dcache s a b)]
      · rw [not_exists] at hx
        rw [State.dataByte_of_not_holds hx, State.dataByte_of_not_holds fun sd => mt (hh x sd).1 (hx sd),
          State.storage_putStorage hs.canonical]
  | some side =>
    have ha := State.holds_of_dhit hd
    simp only
    generalize hdata : (s.dline (dclass a) side).data.set (blockByte a).toNat b (blockByte a).isLt = data
    have hget : ∀ x, dclass x = dclass a → dtag x = dtag a → data.get (blockByte x).toFin =
        if x = a then b else (s.dline (dclass a) side).data.get (blockByte x).toFin := by
      intro x hc ht
      rw [← hdata]
      by_cases hx : x = a
      · subst hx; simp [Vector.get_eq_getElem]
      · have : (blockByte a).toNat ≠ (blockByte x).toNat := fun e =>
          hx (eq_of_line ht hc (BitVec.eq_of_toNat_eq e.symm))
        simp [Vector.get_eq_getElem, this, hx]
    -- both ways of storing give a line with the new data and the old tag
    have key : ∀ (t : State) (d : Bool),
        (∀ c sd, t.dline c sd = if c = dclass a ∧ sd = side
          then ⟨(s.dline (dclass a) side).v, d, (s.dline (dclass a) side).tag, data⟩ else s.dline c sd) →
        Memory.wf t.mem = true →
        (∀ x, x ≠ a → t.storage x = s.storage x) →
        (d = false → (s.dline (dclass a) side).d = false ∧ t.storage a = b) →
        t.MemoryCoherent ∧ ∀ x, t.dataByte x = if x = a then b else s.dataByte x := by
      intro t d hl hwf hst hclean
      have hh : ∀ x sd, t.Holds x sd ↔ s.Holds x sd := by
        intro x sd
        simp only [State.Holds, hl]
        by_cases e : dclass x = dclass a ∧ sd = side
        · rw [if_pos e, e.1, e.2]
        · rw [if_neg e]
      have hu : t.DataLinesUnique := by
        intro c
        rw [hl, hl]
        have := hs.unique c
        by_cases hc : c = dclass a
        · subst hc; cases side <;> simpa using this
        · simpa [hc] using this
      have hne : ∀ x sd, s.Holds x sd → ¬ (dclass x = dclass a ∧ sd = side) → x ≠ a := by
        intro x sd hx he e
        subst e
        have := (State.dhit_of_holds hs.unique hx).symm.trans hd
        exact he ⟨rfl, Option.some.inj this⟩
      refine ⟨⟨hwf, hu, ?_⟩, ?_⟩
      · rw [State.cleanLinesAgree_iff]
        intro x sd hx hdd
        rw [hh] at hx
        rw [hl] at hdd ⊢
        by_cases e : dclass x = dclass a ∧ sd = side
        · rw [if_pos e] at hdd ⊢
          obtain ⟨h1, h2⟩ := hclean hdd
          have ht : dtag x = dtag a := by rw [← hx.2, e.1, e.2]; exact ha.2
          rw [hget x e.1 ht]
          by_cases hxa : x = a
          · rw [if_pos hxa, hxa]; exact h2.symm
          · rw [if_neg hxa, hst x hxa, ← State.clean_at hs.clean hx (by rw [e.1, e.2]; exact h1), e.1, e.2]
        · rw [if_neg e] at hdd ⊢
          rw [hst x (hne x sd hx e)]
          exact State.clean_at hs.clean hx hdd
      · intro x
        by_cases hx : ∃ sd, s.Holds x sd
        · obtain ⟨sd, hx⟩ := hx
          rw [State.dataByte_of_holds hu ((hh x sd).2 hx), State.dataByte_of_holds hs.unique hx, hl]
          by_cases e : dclass x = dclass a ∧ sd = side
          · have ht : dtag x = dtag a := by rw [← hx.2, e.1, e.2]; exact ha.2
            rw [if_pos e, hget x e.1 ht, e.1, e.2]
          · rw [if_neg e, if_neg (hne x sd hx e)]
        · rw [not_exists] at hx
          have hxa : x ≠ a := fun e => hx side (e ▸ ha)
          rw [if_neg hxa, State.dataByte_of_not_holds hx, State.dataByte_of_not_holds fun sd => mt (hh x sd).1 (hx sd),
            hst x hxa]
    have hk := unchanged_keepOld s a ((s.dline (dclass a) side).data.get (blockByte a).toFin) []
    have hkw : Memory.wf (s.keepOld a ((s.dline (dclass a) side).data.get (blockByte a).toFin)).mem = true :=
      hs.canonical
    have hks := fun x => State.keepOld_storage s a ((s.dline (dclass a) side).data.get (blockByte a).toFin) x
    have hkl := State.keepOld_dline s a ((s.dline (dclass a) side).data.get (blockByte a).toFin)
    generalize s.keepOld a ((s.dline (dclass a) side).data.get (blockByte a).toFin) = s1 at hk hkw hks hkl ⊢
    split
    · obtain ⟨k1, k2⟩ := key (s1.setDline (dclass a) side { s.dline (dclass a) side with data := data, d := true }) true
        (fun c sd => by rw [State.dline_setDline, hkl]) hkw (fun x _ => hks x) (by simp)
      exact ⟨k1, k2, (hk.trans (unchanged_setDline s1 _ _ _)).mono (by simp)⟩
    · generalize hs2 : s1.setDline (dclass a) side { s.dline (dclass a) side with data := data } = s2
      have hw2 : Memory.wf s2.mem = true := by rw [← hs2]; exact hkw
      obtain ⟨k1, k2⟩ := key (s2.putStorage a b) (s.dline (dclass a) side).d
        (fun c sd => by
          rw [State.dline_congr (State.putStorage_dcache _ a b), ← hs2, State.dline_setDline, hkl])
        (State.putStorage_wf hw2 a b)
        (fun x hx => by rw [State.storage_putStorage hw2, if_neg hx, ← hs2, State.storage_setDline, hks])
        (fun h => ⟨h, by rw [State.storage_putStorage hw2, if_pos rfl]⟩)
      have hf : Unchanged [.memory, .dataCache] s1 s2 := by rw [← hs2]; exact unchanged_setDline s1 _ _ _
      exact ⟨k1, k2, ((hk.trans hf).trans (unchanged_putStorage _ a b)).mono (by simp)⟩

end Sys2Proof.Machine
end

