-- ==== Sys2Proof/Laws/Access.lean ====
section
/-! SUPPORT. What one aligned access can do. -/

namespace Sys2Proof.Machine

theorem State.choose_state {α : Type} (s : State) (l : List α) : (s.choose l).2 = s ∨ (s.choose l).2 = s.drawn := by
  unfold State.choose
  split <;> simp

/-- Checking the bounds does not change the state. -/
theorem checkBounds_state {ea : Word} {store : Bool} {p q : Place} {s t : State}
    (h : checkBounds ea store p s = .ok q t) : q = p ∧ t = s := by
  unfold checkBounds at h
  split at h
  · cases h
  · cases h; exact ⟨rfl, rfl⟩

/-- Translating takes a draw at most. -/
theorem dataPlace_state {side : CacheSide} {ea : Word} {store : Bool} {s t : State} {p : Place}
    (h : dataPlace side ea store s = .ok p t) : t = s ∨ t = s.drawn := by
  unfold dataPlace at h
  split at h
  · have hc := State.choose_state s (s.tlbMatches ea)
    unfold State.tlbPick at h
    split at h
    · cases h
    · rename_i i s1 he
      rw [he] at hc
      simp only at h
      split at h
      · cases h
      · split at h
        · cases h
        · rw [(checkBounds_state h).2]; exact hc
  · exact Or.inl (checkBounds_state h).2

/-- The same of a translation that raises an exception. -/
theorem dataPlace_exc_state {side : CacheSide} {ea : Word} {store : Bool} {s t : State} {x : Exc}
    (h : dataPlace side ea store s = .exc x t) : t = s ∨ t = s.drawn := by
  have hb : ∀ {q : Place} {u : State}, checkBounds ea store q u = .exc x t → t = u := by
    intro q u hu
    unfold checkBounds at hu
    split at hu <;> cases hu
    rfl
  unfold dataPlace at h
  split at h
  · have hc := State.choose_state s (s.tlbMatches ea)
    unfold State.tlbPick at h
    split at h
    · rename_i s1 he
      rw [he] at hc
      cases h
      exact hc
    · rename_i i s1 he
      rw [he] at hc
      simp only at h
      split at h
      · cases h; exact hc
      · split at h
        · cases h; exact hc
        · rw [hb h]; exact hc
  · exact Or.inl (hb h)

/-- Translating stops nothing. -/
theorem dataPlace_ok_or_exc (side : CacheSide) (ea : Word) (store : Bool) (s : State) :
    (∃ p t, dataPlace side ea store s = .ok p t) ∨ ∃ x t, dataPlace side ea store s = .exc x t := by
  unfold dataPlace checkBounds
  split
  · split
    · exact Or.inr ⟨_, _, rfl⟩
    · simp only
      split
      · exact Or.inr ⟨_, _, rfl⟩
      · split
        · exact Or.inr ⟨_, _, rfl⟩
        · split
          · exact Or.inr ⟨_, _, rfl⟩
          · exact Or.inl ⟨_, _, rfl⟩
  · split
    · exact Or.inr ⟨_, _, rfl⟩
    · exact Or.inl ⟨_, _, rfl⟩

/-- With no entry that translates the address none is picked, and nothing is drawn. -/
theorem State.tlbPick_none {s : State} {ea : Word} (h : s.NoEntry ea) : s.tlbPick ea = (none, s) := by
  have hl : s.tlbMatches ea = [] := List.filter_eq_nil_iff.2 fun i _ => by simp [h i]
  simp [State.tlbPick, hl, State.choose]

/-- The only entry that translates the address is picked, and nothing is drawn. -/
theorem State.tlbPick_only {s : State} {ea : Word} {k : BitVec 6} (h : s.OnlyEntry ea k) :
    s.tlbPick ea = (some k, s) := by
  have hl : s.tlbMatches ea = [k] := by
    have e : (fun i => (s.tlbEntry i).translates ea s.pidTag) = fun i => decide (i = k) :=
      funext fun i => Bool.eq_iff_iff.2 ((h i).trans decide_eq_true_iff.symm)
    unfold State.tlbMatches
    rw [e]
    clear h e
    revert k
    decide +kernel
  simp [State.tlbPick, hl, State.choose]

/-- No entry translates the address: the data TLB miss. -/
theorem dataPlace_none {s : State} {side : CacheSide} {ea : Word} {store : Bool} (hdr : s.msrBit msrDR = true)
    (h : s.NoEntry ea) : dataPlace side ea store s = .exc (.dataTlbMiss ea) s := by
  simp [dataPlace, hdr, State.tlbPick_none h]

/-- One entry translates the address: the data storage exception or the place under it. -/
theorem dataPlace_only {s : State} {side : CacheSide} {ea : Word} {store : Bool} {k : BitVec 6}
    (hdr : s.msrBit msrDR = true) (h : s.OnlyEntry ea k) : dataPlace side ea store s =
      if s.zoneForbids (s.tlbEntry k) then .exc (.dataStorage ea store true) s
      else if store && !(s.tlbEntry k).wr then .exc (.dataStorage ea store false) s
      else checkBounds ea store ((s.tlbEntry k).place ea) s := by
  simp [dataPlace, hdr, State.tlbPick_only h]

/-- With translation off and no bounds, an address is its own place. -/
theorem dataPlace_real {s : State} (hdr : s.msrBit msrDR = false) (hpe : s.msrBit msrPE = false) (side : CacheSide)
    (ea : Word) (store : Bool) : dataPlace side ea store s = .ok (s.realModePlace side ea) s := by
  simp [dataPlace, checkBounds, State.boundsForbid, hdr, hpe]

@[simp] theorem State.realModePlace_real (s : State) (side : CacheSide) (ea : Word) :
    (s.realModePlace side ea).real = ea := rfl

theorem KeepsView.of_draw {s t : State} (h : t = s ∨ t = s.drawn) (hs : s.MemoryCoherent) : KeepsView s t := by
  rcases h with rfl | rfl
  · exact KeepsView.refl hs
  · exact KeepsView.drawn hs

theorem checkAccess_ok {p : Place} {n : Nat} {store : Bool} {s t : State} {u : Unit}
    (h : checkAccess p n store s = .ok u t) : t = s := by
  unfold checkAccess at h
  split at h
  · exact checkStorage_ok h
  · cases h; rfl

/-- What the tests of an access can do: the place is that of the translation, and the processor sees the same
bytes. -/
theorem access_ok {ea : Word} {n : Nat} {store : Bool} {s t : State} {p : Place} (hs : s.MemoryCoherent)
    (h : access ea n store s = .ok p t) :
    KeepsView s t ∧ (∃ s1, dataPlace .data ea store s = .ok p s1) ∧ s.BigEndian ∧ aligned ea n = true := by
  unfold access at h
  split at h
  · cases h
  · rename_i hle
    split at h
    · cases h
    · rename_i hal
      obtain ⟨q, s1, h1, h⟩ := Result.bind_eq_ok.1 h
      obtain ⟨u, s2, h2, h⟩ := Result.bind_eq_ok.1 h
      obtain ⟨v, s3, h3, h⟩ := Result.bind_eq_ok.1 h
      cases h
      have k1 := KeepsView.of_draw (dataPlace_state h1) hs
      rw [checkAccess_ok h2] at h3
      refine ⟨k1.trans (dtouch_keeps k1.coherent h3), ⟨s1, h1⟩, by simpa [State.BigEndian] using hle, by simpa using hal⟩

theorem touches_congr {s t : State} (h : t.memMap = s.memMap) (k : RegionKind) (a : Word) (n : Nat) :
    t.touches k a n = s.touches k a n := by
  simp [State.touches, h]

/-- An access that can be made is made. -/
theorem access_completes {s : State} {ea : Word} {n : Nat} {store : Bool} {p : Place} (h : s.CanAccess ea n store p) :
    ∃ t, access ea n store s = .ok p t := by
  obtain ⟨s1, h1⟩ := h.translated
  have hd := dataPlace_state h1
  have hmap : s1.memMap = s.memMap := by rcases hd with rfl | rfl <;> rfl
  have hlines : s1.LinesPlain := by
    rcases hd with rfl | rfl
    · exact h.linesPlain
    · exact linesPlain_drawn h.linesPlain
  have h2 : checkAccess p n store s1 = .ok () s1 := by
    unfold checkAccess
    split
    · exact checkStorage_plain ⟨by rw [touches_congr hmap]; exact h.plain.1, by rw [touches_congr hmap]; exact h.plain.2⟩
    · rfl
  obtain ⟨t, h3⟩ := dtouch_completes hlines p
  refine ⟨t, ?_⟩
  have hle : s.msrBit msrLE = false := h.bigEndian
  have hal : aligned ea n = true := by simp [aligned, h.aligned]
  simp [access, hle, hal, h1, h2, h3]

/-- An aligned access in real mode can be made where all is plain storage. -/
theorem State.RealStorage.canAccess {s : State} (h : s.RealStorage) {ea : Word} {n : Nat} (hal : ea.toNat % n = 0)
    (store : Bool) : s.CanAccess ea n store (s.realModePlace .data ea) where
  bigEndian := h.bigEndian
  coherent := h.coherent
  linesPlain := by intro c side _ _; constructor <;> simp [State.touches, h.plain, regionKind]
  aligned := hal
  translated := ⟨s, dataPlace_real h.untranslated h.unbounded _ _ _⟩
  plain := by constructor <;> simp [State.touches, h.plain, regionKind]

theorem State.dataValue_congr {s t : State} (h : ∀ a, t.dataByte a = s.dataByte a) (a : Word) (n : Nat) :
    t.dataValue a n = s.dataValue a n := by
  induction n with
  | zero => rfl
  | succ n ih => rw [State.dataValue, State.dataValue, ih, h]

/-- Four bytes, the lowest address the most significant. -/
theorem State.dataValue_four (s : State) (a : Word) :
    s.dataValue a 4 = s.dataByte a ++ s.dataByte (a + 1#32) ++ s.dataByte (a + 2#32) ++ s.dataByte (a + 3#32) := by
  simp only [State.dataValue, BitVec.add_zero]
  generalize s.dataByte a = b0
  generalize s.dataByte (a + 1#32) = b1
  generalize s.dataByte (a + 2#32) = b2
  generalize s.dataByte (a + 3#32) = b3
  apply BitVec.eq_of_getLsbD_eq
  intro i hi
  simp only [BitVec.getLsbD_or, BitVec.getLsbD_shiftLeft, BitVec.getLsbD_setWidth, BitVec.getLsbD_append,
    BitVec.getLsbD_zero]
  interval_cases i <;> simp

/-- Two bytes, the lowest address the more significant; above them 0. -/
theorem State.dataValue_two (s : State) (a : Word) :
    s.dataValue a 2 = 0#16 ++ (s.dataByte a ++ s.dataByte (a + 1#32)) := by
  simp only [State.dataValue, BitVec.add_zero]
  generalize s.dataByte a = b0
  generalize s.dataByte (a + 1#32) = b1
  apply BitVec.eq_of_getLsbD_eq
  intro i hi
  simp only [BitVec.getLsbD_or, BitVec.getLsbD_shiftLeft, BitVec.getLsbD_setWidth, BitVec.getLsbD_append,
    BitVec.getLsbD_zero]
  interval_cases i <;> simp

/-- One byte; above it 0. -/
theorem State.dataValue_one (s : State) (a : Word) : s.dataValue a 1 = (s.dataByte a).setWidth 32 := by
  simp [State.dataValue]

/-- What a read can do: the value is that of the bytes the processor sees, and it sees the same bytes after. -/
theorem memRead_ok {ea : Word} {n : Nat} {s t : State} {v : Word} (hs : s.MemoryCoherent)
    (h : memRead ea n s = .ok v t) :
    KeepsView s t ∧ ∃ p s1, dataPlace .data ea false s = .ok p s1 ∧ v = s.dataValue p.real n := by
  obtain ⟨p, s1, h1, h⟩ := Result.bind_eq_ok.1 h
  cases h
  obtain ⟨hk, ⟨s1, hp⟩, -, -⟩ := access_ok hs h1
  exact ⟨hk, p, s1, hp, State.dataValue_congr hk.same _ _⟩

theorem memRead_completes {s : State} {ea : Word} {n : Nat} {p : Place} (h : s.CanAccess ea n false p) :
    ∃ t, memRead ea n s = .ok (s.dataValue p.real n) t ∧ KeepsView s t := by
  obtain ⟨t, ht⟩ := access_completes h
  obtain ⟨hk, -⟩ := access_ok h.coherent ht
  exact ⟨t, by simp [memRead, ht, State.dataValue_congr hk.same], hk⟩

/-- The stores of `putValue`, the first `k` of them. -/
theorem putBytes_spec {s : State} (hs : s.MemoryCoherent) (p : Place) (f : Nat → Byte) (k : Nat) (hk : k ≤ 2 ^ 32) :
    let t := (List.range k).foldl (fun st i => st.putData p (p.real + BitVec.ofNat 32 i) (f i)) s
    t.MemoryCoherent ∧ Unchanged [.memory, .storage, .dataCache] s t ∧
      (∀ i < k, t.dataByte (p.real + BitVec.ofNat 32 i) = f i) ∧
      ∀ x, (∀ i < k, x ≠ p.real + BitVec.ofNat 32 i) → t.dataByte x = s.dataByte x := by
  induction k with
  | zero => exact ⟨hs, Unchanged.refl _ s, by simp, fun _ _ => rfl⟩
  | succ k ih =>
    obtain ⟨h1, h2, h3, h4⟩ := ih (by omega)
    rw [List.range_succ, List.foldl_append]
    simp only [List.foldl_cons, List.foldl_nil]
    obtain ⟨g1, g2, g3⟩ := putData_spec h1 p (p.real + BitVec.ofNat 32 k) (f k)
    refine ⟨g1, h2.trans' g3, ?_, ?_⟩
    · intro i hi
      rw [g2]
      by_cases e : i = k
      · subst e; simp
      · rw [if_neg, h3 i (by omega)]
        intro he
        have he := congrArg BitVec.toNat he
        simp only [BitVec.toNat_add, BitVec.toNat_ofNat] at he
        have := p.real.isLt
        omega
    · intro x hx
      rw [g2, if_neg (hx k (by omega)), h4 x fun i hi => hx i (by omega)]

/-- What storing a value can do. -/
theorem State.putValue_spec {s : State} (hs : s.MemoryCoherent) (p : Place) (n : Nat) (v : Word) (hn : n ≤ 4) :
    (s.putValue p n v).MemoryCoherent ∧ Unchanged [.memory, .storage, .dataCache] s (s.putValue p n v) ∧
      (∀ i < n, (s.putValue p n v).dataByte (p.real + BitVec.ofNat 32 i) = valueByte v n i) ∧
      ∀ x, (∀ i < n, x ≠ p.real + BitVec.ofNat 32 i) → (s.putValue p n v).dataByte x = s.dataByte x :=
  putBytes_spec hs p (valueByte v n) n (by omega)

@[simp] theorem State.putValue_pc (s : State) (p : Place) (n : Nat) (v : Word) : (s.putValue p n v).pc = s.pc := by
  unfold State.putValue
  generalize List.range n = l
  induction l generalizing s with
  | nil => rfl
  | cons j l ih => rw [List.foldl_cons, ih, State.putData_pc]

/-- A store by what the processor sees before and after. -/
structure Stores (p : Place) (n : Nat) (v : Word) (s t : State) : Prop where
  coherent : t.MemoryCoherent
  frame : Unchanged [.memory, .storage, .dataCache] s t
  stored : ∀ i < n, t.dataByte (p.real + BitVec.ofNat 32 i) = valueByte v n i
  kept : ∀ x, (∀ i < n, x ≠ p.real + BitVec.ofNat 32 i) → t.dataByte x = s.dataByte x
  pc : t.pc = s.pc

/-- What a write can do. -/
theorem memWrite_ok {ea : Word} {n : Nat} {v : Word} {s t : State} {u : Unit} (hs : s.MemoryCoherent) (hn : n ≤ 4)
    (h : memWrite ea n v s = .ok u t) : ∃ p s1, dataPlace .data ea true s = .ok p s1 ∧ Stores p n v s t := by
  obtain ⟨p, s1, h1, h⟩ := Result.bind_eq_ok.1 h
  have ht := (Result.ok.inj h).2
  obtain ⟨hk, ⟨s0, hp⟩, -, -⟩ := access_ok hs h1
  obtain ⟨g1, g2, g3, g4⟩ := State.putValue_spec hk.coherent p n v hn
  have g5 := State.putValue_pc s1 p n v
  rw [ht] at g1 g2 g3 g4 g5
  exact ⟨p, s0, hp, g1, (hk.frame.mono (by simp)).trans' g2, g3, fun x hx => (g4 x hx).trans (hk.same x), g5.trans hk.pc⟩

theorem memWrite_completes {s : State} {ea : Word} {n : Nat} {v : Word} {p : Place} (hn : n ≤ 4)
    (h : s.CanAccess ea n true p) : ∃ t, memWrite ea n v s = .ok () t ∧ Stores p n v s t := by
  obtain ⟨s1, ht⟩ := access_completes h
  obtain ⟨hk, -⟩ := access_ok h.coherent ht
  obtain ⟨g1, g2, g3, g4⟩ := State.putValue_spec hk.coherent p n v hn
  exact ⟨s1.putValue p n v, by simp [memWrite, ht], g1, (hk.frame.mono (by simp)).trans' g2, g3,
    fun x hx => (g4 x hx).trans (hk.same x), (State.putValue_pc _ _ _ _).trans hk.pc⟩

end Sys2Proof.Machine
end

