-- ==== Sys2Proof/Laws/CacheControl.lean ====
section
/-! SUPPORT. What the work of each data cache instruction can do to main storage, the data cache and the bytes the
processor sees. -/

namespace Sys2Proof.Machine

/-- Two addresses of one block. -/
theorem sameBlock_iff {a b : Word} : sameBlock a b = true ↔ dclass a = dclass b ∧ dtag a = dtag b := by
  simp [sameBlock]

/-- A line that becomes invalid: the addresses of its block are seen in main storage, and all stays in order. -/
theorem dinvalidate_spec {s : State} (hs : s.MemoryCoherent) (c : BitVec 5) (side : Side) :
    (s.dinvalidate c side).MemoryCoherent ∧
    (∀ a sd, (s.dinvalidate c side).Holds a sd ↔ s.Holds a sd ∧ ¬ (dclass a = c ∧ sd = side)) ∧
    (∀ a, (s.dinvalidate c side).dataByte a =
      if dclass a = c ∧ s.dhit a = some side then s.storage a else s.dataByte a) := by
  have hl : ∀ c' sd, (s.dinvalidate c side).dline c' sd =
      if c' = c ∧ sd = side then { s.dline c side with v := false } else s.dline c' sd :=
    fun c' sd => State.dline_setDline s _ _ _ _ _
  have hh : ∀ a sd, (s.dinvalidate c side).Holds a sd ↔ s.Holds a sd ∧ ¬ (dclass a = c ∧ sd = side) := by
    intro a sd
    simp only [State.Holds, hl]
    by_cases e : dclass a = c ∧ sd = side
    · simp [e]
    · simp [e]
  have hu : (s.dinvalidate c side).DataLinesUnique := by
    intro c'
    have := hs.unique c'
    rw [hl, hl]
    by_cases hc : c' = c
    · subst hc; cases side <;> simp
    · simpa [hc] using this
  refine ⟨⟨hs.canonical, hu, ?_⟩, hh, ?_⟩
  · rw [State.cleanLinesAgree_iff]
    intro a sd ha hd
    obtain ⟨h1, h2⟩ := (hh a sd).1 ha
    rw [hl, if_neg h2] at hd ⊢
    exact State.clean_at hs.clean h1 hd
  · intro a
    split
    · rename_i e
      refine State.dataByte_of_not_holds fun sd h => ?_
      obtain ⟨h1, h2⟩ := (hh a sd).1 h
      have := (State.dhit_of_holds hs.unique h1).symm.trans e.2
      exact h2 ⟨e.1, Option.some.inj this⟩
    · rename_i e
      by_cases hx : ∃ sd, s.Holds a sd
      · obtain ⟨sd, hx⟩ := hx
        have hd := State.dhit_of_holds hs.unique hx
        have hne : ¬ (dclass a = c ∧ sd = side) := fun h => e ⟨h.1, by rw [hd, h.2]⟩
        rw [State.dataByte_of_holds hs.unique hx, State.dataByte_of_holds hu ((hh a sd).2 ⟨hx, hne⟩), hl, if_neg hne]
      · rw [not_exists] at hx
        rw [State.dataByte_of_not_holds hx, State.dataByte_of_not_holds fun sd h => hx sd ((hh a sd).1 h).1]
        rfl

theorem unchanged_dinvalidate (s : State) (c : BitVec 5) (side : Side) :
    Unchanged [.memory, .dataCache] s (s.dinvalidate c side) := unchanged_setDline s _ _ _

@[simp] theorem State.dinvalidate_pc (s : State) (c : BitVec 5) (side : Side) : (s.dinvalidate c side).pc = s.pc := rfl

/-- Discarding a line: as marking it invalid, its bytes kept for fetches. -/
theorem discardDline_spec {s : State} (hs : s.MemoryCoherent) (c : BitVec 5) (side : Side) :
    (s.discardDline c side).MemoryCoherent ∧
    (∀ a sd, (s.discardDline c side).Holds a sd ↔ s.Holds a sd ∧ ¬ (dclass a = c ∧ sd = side)) ∧
    (∀ a, (s.discardDline c side).dataByte a =
      if dclass a = c ∧ s.dhit a = some side then s.storage a else s.dataByte a) ∧
    Unchanged [.memory, .dataCache] s (s.discardDline c side) ∧ (s.discardDline c side).pc = s.pc := by
  obtain ⟨l, hl⟩ := State.keepDline_stale s c side
  unfold State.discardDline
  rw [hl]
  have hs' : (s.setStale l).MemoryCoherent := State.memoryCoherent_congr (s := s) rfl rfl hs
  obtain ⟨i1, i2, i3⟩ := dinvalidate_spec hs' c side
  refine ⟨i1, i2, fun a => ?_, ?_, rfl⟩
  · rw [i3, State.dhit_congr (s := s) rfl, State.dataByte_congr (s := s) rfl rfl]
    rfl
  · exact ((unchanged_setStale s l []).trans (unchanged_dinvalidate _ c side)).mono (by simp)

/-- Flushing a block: it is no more in the data cache, and main storage has the bytes the processor saw there. -/
theorem flushBlock_ok {p : Place} {s t : State} {u : Unit} (hs : s.MemoryCoherent) (h : flushBlock p s = .ok u t) :
    KeepsView s t ∧ t.dhit p.real = none ∧ ∀ a, sameBlock a p.real = true → t.storage a = s.dataByte a := by
  unfold flushBlock at h
  split at h
  · rename_i hd
    rw [← (Result.ok.inj h).2]
    refine ⟨KeepsView.refl hs, hd, fun a ha => ?_⟩
    obtain ⟨hc, ht⟩ := sameBlock_iff.1 ha
    rw [State.dataByte_of_dhit_none]
    rw [State.dhit_of_block hc ht]
    exact hd
  · rename_i side hd
    obtain ⟨v, s1, h1, h2⟩ := Result.bind_eq_ok.1 h
    have hh := State.holds_of_dhit hd
    obtain ⟨hk, hcache, hst⟩ := copyBack_keeps hs hh.1 h1
    rw [← (Result.ok.inj h2).2]
    obtain ⟨i1, i2, i3⟩ := dinvalidate_spec hk.coherent (dclass p.real) side
    have hsto : ∀ a, sameBlock a p.real = true → s1.storage a = s.dataByte a := by
      intro a ha
      obtain ⟨hc, ht⟩ := sameBlock_iff.1 ha
      rw [hst, if_pos ⟨hc, ht.trans hh.2.symm⟩,
        State.dataByte_of_holds hs.unique (a := a) (side := side) ⟨by rw [hc]; exact hh.1, by rw [hc, ht]; exact hh.2⟩, hc]
    have hview : ∀ a, (s1.dinvalidate (dclass p.real) side).dataByte a = s1.dataByte a := by
      intro a
      rw [i3]
      split
      · rename_i e
        rw [State.dhit_congr hcache] at e
        have ha := State.holds_of_dhit e.2
        have : sameBlock a p.real = true := by
          refine sameBlock_iff.2 ⟨e.1, ?_⟩
          rw [← ha.2, e.1]
          exact hh.2
        rw [hsto a this, hk.same]
      · rfl
    refine ⟨hk.trans ⟨i1, hview, (((unchanged_dinvalidate s1 _ _).withMemory hview)).mono (by simp), rfl⟩, ?_, hsto⟩
    refine State.dhit_none_of_not_holds fun sd h => ?_
    obtain ⟨g1, g2⟩ := (i2 _ _).1 h
    have := (State.dhit_of_holds hk.coherent.unique g1).symm.trans ((State.dhit_congr hcache _).trans hd)
    exact g2 ⟨rfl, Option.some.inj this⟩

/-- Marking a valid line not modified when its block agrees with main storage. -/
theorem cleanLine_spec {s : State} (hs : s.MemoryCoherent) {a : Word} {side : Side} (hd : s.dhit a = some side)
    (hst : ∀ x, sameBlock x a = true → s.storage x = s.dataByte x) :
    let t := s.setDline (dclass a) side { s.dline (dclass a) side with d := false }
    t.MemoryCoherent ∧ (∀ x, t.dataByte x = s.dataByte x) ∧ (∀ x, t.dhit x = s.dhit x) ∧
      (t.dline (dclass a) side).d = false := by
  intro t
  have hl : ∀ c sd, t.dline c sd =
      if c = dclass a ∧ sd = side then { s.dline (dclass a) side with d := false } else s.dline c sd :=
    fun c sd => State.dline_setDline s _ _ _ _ _
  have hh : ∀ x sd, t.Holds x sd ↔ s.Holds x sd := by
    intro x sd
    simp only [State.Holds, hl]
    by_cases e : dclass x = dclass a ∧ sd = side
    · simp [e]
    · simp [e]
  have hu : t.DataLinesUnique := by
    intro c
    have := hs.unique c
    rw [hl, hl]
    by_cases hc : c = dclass a
    · subst hc; cases side <;> simpa using this
    · simpa [hc] using this
  have hdata : ∀ c sd, (t.dline c sd).data = (s.dline c sd).data := by
    intro c sd
    rw [hl]
    split
    · rename_i e; rw [e.1, e.2]
    · rfl
  have hview : ∀ x, t.dataByte x = s.dataByte x := by
    intro x
    by_cases hx : ∃ sd, s.Holds x sd
    · obtain ⟨sd, hx⟩ := hx
      rw [State.dataByte_of_holds hs.unique hx, State.dataByte_of_holds hu ((hh x sd).2 hx), hdata]
    · rw [not_exists] at hx
      rw [State.dataByte_of_not_holds hx, State.dataByte_of_not_holds fun sd => mt (hh x sd).1 (hx sd)]
      rfl
  have hdh : ∀ x, t.dhit x = s.dhit x := by
    intro x
    cases hx : s.dhit x with
    | none => exact State.dhit_none_of_not_holds fun sd => mt (hh x sd).1 (State.not_holds_of_dhit hx sd)
    | some sd => exact State.dhit_of_holds hu ((hh x sd).2 (State.holds_of_dhit hx))
  refine ⟨⟨hs.canonical, hu, ?_⟩, hview, hdh, by rw [hl, if_pos ⟨rfl, rfl⟩]⟩
  rw [State.cleanLinesAgree_iff]
  intro x sd hx hdd
  rw [hh] at hx
  by_cases e : dclass x = dclass a ∧ sd = side
  · have hsb : sameBlock x a = true := by
      refine sameBlock_iff.2 ⟨e.1, ?_⟩
      rw [← hx.2, e.1, e.2]
      exact (State.holds_of_dhit hd).2
    rw [hdata, ← State.dataByte_of_holds hs.unique hx]
    exact (hst x hsb).symm
  · rw [hl, if_neg e] at hdd ⊢
    exact State.clean_at hs.clean hx hdd

/-- Storing a block: main storage has the bytes the processor sees there, and its line is not modified. -/
theorem storeBlock_ok {p : Place} {s t : State} {u : Unit} (hs : s.MemoryCoherent) (h : storeBlock p s = .ok u t) :
    KeepsView s t ∧ (∀ a, t.dhit a = s.dhit a) ∧
      (∀ side, t.dhit p.real = some side → (t.dline (dclass p.real) side).d = false) ∧
      ∀ a, sameBlock a p.real = true → t.storage a = s.dataByte a := by
  unfold storeBlock at h
  split at h
  · rename_i hd
    rw [← (Result.ok.inj h).2]
    refine ⟨KeepsView.refl hs, fun _ => rfl, fun side e => absurd (hd.symm.trans e) (by simp), fun a ha => ?_⟩
    obtain ⟨hc, ht⟩ := sameBlock_iff.1 ha
    rw [State.dataByte_of_dhit_none]
    rw [State.dhit_of_block hc ht]
    exact hd
  · rename_i side hd
    obtain ⟨v, s1, h1, h2⟩ := Result.bind_eq_ok.1 h
    have hh := State.holds_of_dhit hd
    obtain ⟨hk, hcache, hst⟩ := copyBack_keeps hs hh.1 h1
    have hsto : ∀ a, sameBlock a p.real = true → s1.storage a = s.dataByte a := by
      intro a ha
      obtain ⟨hc, ht⟩ := sameBlock_iff.1 ha
      rw [hst, if_pos ⟨hc, ht.trans hh.2.symm⟩,
        State.dataByte_of_holds hs.unique (a := a) (side := side) ⟨by rw [hc]; exact hh.1, by rw [hc, ht]; exact hh.2⟩, hc]
    have hd1 : s1.dhit p.real = some side := (State.dhit_congr hcache _).trans hd
    obtain ⟨c1, c2, c3, c4⟩ := cleanLine_spec hk.coherent hd1 fun x hx => (hsto x hx).trans (hk.same x).symm
    have ht := (Result.ok.inj h2).2
    rw [ht] at c1 c2 c3 c4
    refine ⟨hk.trans ⟨c1, c2, ?_, by rw [← ht]; rfl⟩, fun a => (c3 a).trans (State.dhit_congr hcache a), ?_, ?_⟩
    · have hf : Unchanged [.memory, .dataCache] s1 t := by rw [← ht]; exact unchanged_setDline s1 _ _ _
      exact (hf.withMemory c2).mono (by simp)
    · intro sd e
      have : sd = side := by
        have := (c3 p.real).symm.trans e
        rw [hd1] at this
        exact (Option.some.inj this).symm
      rw [this]
      exact c4
    · intro a ha
      rw [← ht]
      exact hsto a ha

/-- Invalidating a block: it is no more in the data cache, its bytes are those of main storage, the others as they
were. -/
theorem invalidateBlock_ok {p : Place} {s t : State} {u : Unit} (hs : s.MemoryCoherent)
    (h : invalidateBlock p s = .ok u t) :
    t.MemoryCoherent ∧ t.dhit p.real = none ∧ t.pc = s.pc ∧ Unchanged [.memory, .dataCache] s t ∧
      ∀ a, t.dataByte a = if sameBlock a p.real then s.storage a else s.dataByte a := by
  unfold invalidateBlock at h
  split at h
  · rename_i hd
    rw [← (Result.ok.inj h).2]
    refine ⟨hs, hd, rfl, Unchanged.refl _ s, fun a => ?_⟩
    split
    · rename_i ha
      obtain ⟨hc, ht⟩ := sameBlock_iff.1 ha
      rw [State.dataByte_of_dhit_none]
      rw [State.dhit_of_block hc ht]
      exact hd
    · rfl
  · rename_i side hd
    rw [← (Result.ok.inj h).2]
    have hh := State.holds_of_dhit hd
    obtain ⟨i1, i2, i3, i4, i5⟩ := discardDline_spec hs (dclass p.real) side
    refine ⟨i1, ?_, i5, i4, fun a => ?_⟩
    · refine State.dhit_none_of_not_holds fun sd h => ?_
      obtain ⟨g1, g2⟩ := (i2 _ _).1 h
      have := (State.dhit_of_holds hs.unique g1).symm.trans hd
      exact g2 ⟨rfl, Option.some.inj this⟩
    · rw [i3]
      have e : (dclass a = dclass p.real ∧ s.dhit a = some side) ↔ sameBlock a p.real = true := by
        rw [sameBlock_iff]
        constructor
        · intro e
          refine ⟨e.1, ?_⟩
          rw [← (State.holds_of_dhit e.2).2, e.1]
          exact hh.2
        · intro e
          exact ⟨e.1, by rw [State.dhit_of_block e.1 e.2]; exact hd⟩
      simp only [e]

/-- Touching a block shows the processor the same bytes; a cacheable block of plain storage is in the data cache after
it. -/
theorem touchBlock_ok {p : Place} {s t : State} {u : Unit} (hs : s.MemoryCoherent) (h : touchBlock p s = .ok u t) :
    KeepsView s t ∧ (p.cacheable = true → s.PlainAt (blockBase p.real) 16 → t.dhit p.real ≠ none) := by
  unfold touchBlock at h
  split at h
  · rename_i hc
    rw [← (Result.ok.inj h).2]
    refine ⟨KeepsView.refl hs, fun h1 h2 => ?_⟩
    simp only [h1, h2.1, Bool.not_true, Bool.false_or, Bool.or_false] at hc
    exact Option.isSome_iff_ne_none.1 hc
  · rename_i hc
    split at h
    · cases h
    · obtain ⟨v, s1, h1, h2⟩ := Result.bind_eq_ok.1 h
      have hmiss : s.dhit p.real = none := by
        simp only [Bool.or_eq_true, not_or, Bool.not_eq_true, Option.isSome_eq_false_iff, Option.isNone_iff_eq_none] at hc
        exact hc.1.2
      have hd := KeepsView.drawn hs
      obtain ⟨hk, hhit⟩ := dfill_keeps hd.coherent (by rw [State.dhit_congr (t := s.drawn) rfl]; exact hmiss) h1
      rw [← (Result.ok.inj h2).2]
      refine ⟨(hd.trans hk).trans (KeepsView.setDlru _ _ hk.coherent), fun _ _ => ?_⟩
      have : (s1.setDlru (dclass p.real) (s.undef.getLsbD 2)).dhit p.real = s1.dhit p.real := by
        simp [State.dhit]
      rw [this, hhit]
      simp

/-- Zeroing the line that holds a block: the processor sees 0 in the block and every other byte as before. -/
theorem zeroLine_spec {s : State} (hs : s.MemoryCoherent) {a0 : Word} {side : Side} (hd : s.dhit a0 = some side) :
    (s.setDline (dclass a0) side { s.dline (dclass a0) side with data := zeroBlock, d := true }).MemoryCoherent ∧
    (s.setDline (dclass a0) side { s.dline (dclass a0) side with data := zeroBlock, d := true }).dhit a0 ≠ none ∧
    (s.setDline (dclass a0) side { s.dline (dclass a0) side with data := zeroBlock, d := true }).pc = s.pc ∧
    Unchanged [.memory, .storage, .dataCache] s
      (s.setDline (dclass a0) side { s.dline (dclass a0) side with data := zeroBlock, d := true }) ∧
    ∀ a, (s.setDline (dclass a0) side { s.dline (dclass a0) side with data := zeroBlock, d := true }).dataByte a =
      if sameBlock a a0 then 0#8 else s.dataByte a := by
  have hz : ∀ i : Fin 16, zeroBlock.get i = 0#8 := by intro i; simp [zeroBlock, Vector.get_eq_getElem]
  have hh := State.holds_of_dhit hd
  have hl : ∀ c sd, (s.setDline (dclass a0) side
      { s.dline (dclass a0) side with data := zeroBlock, d := true }).dline c sd =
      if c = dclass a0 ∧ sd = side then { s.dline (dclass a0) side with data := zeroBlock, d := true }
      else s.dline c sd := fun c sd => State.dline_setDline s _ _ _ _ _
  generalize ht : s.setDline (dclass a0) side
    { s.dline (dclass a0) side with data := zeroBlock, d := true } = t at hl ⊢
  have hho : ∀ x sd, t.Holds x sd ↔ s.Holds x sd := by
    intro x sd
    simp only [State.Holds, hl]
    by_cases e : dclass x = dclass a0 ∧ sd = side
    · simp [e]
    · simp [e]
  have hsto : ∀ x, t.storage x = s.storage x := by intro x; rw [← ht]; rfl
  have hu : t.DataLinesUnique := by
    intro c
    have := hs.unique c
    rw [hl, hl]
    by_cases hc : c = dclass a0
    · subst hc; cases side <;> simpa using this
    · simpa [hc] using this
  refine ⟨⟨by rw [← ht]; exact hs.canonical, hu, ?_⟩, ?_, by rw [← ht]; rfl, ?_, ?_⟩
  · rw [State.cleanLinesAgree_iff]
    intro x sd hx hd'
    rw [hho] at hx
    by_cases e : dclass x = dclass a0 ∧ sd = side
    · rw [hl, if_pos e] at hd'
      cases hd'
    · rw [hl, if_neg e] at hd' ⊢
      rw [hsto]
      exact State.clean_at hs.clean hx hd'
  · rw [State.dhit_of_holds hu ((hho _ _).2 hh)]; simp
  · rw [← ht]; exact (unchanged_setDline s _ _ _).mono (by simp)
  · intro a
    by_cases hx : ∃ sd, s.Holds a sd
    · obtain ⟨sd, hx⟩ := hx
      rw [State.dataByte_of_holds hu ((hho a sd).2 hx), hl]
      by_cases e : dclass a = dclass a0 ∧ sd = side
      · have : sameBlock a a0 = true := by
          refine sameBlock_iff.2 ⟨e.1, ?_⟩
          rw [← hx.2, e.1, e.2]
          exact hh.2
        rw [if_pos e, if_pos this]
        exact hz _
      · have : ¬ sameBlock a a0 = true := by
          intro hb
          obtain ⟨hc, htg⟩ := sameBlock_iff.1 hb
          have h1 := State.dhit_of_holds hs.unique hx
          rw [State.dhit_of_block hc htg, hd] at h1
          exact e ⟨hc, (Option.some.inj h1).symm⟩
        rw [if_neg e, if_neg this, State.dataByte_of_holds hs.unique hx]
    · rw [not_exists] at hx
      have : ¬ sameBlock a a0 = true := by
        intro hb
        obtain ⟨hc, htg⟩ := sameBlock_iff.1 hb
        exact hx side ⟨by rw [hc]; exact hh.1, by rw [hc, htg]; exact hh.2⟩
      rw [if_neg this, State.dataByte_of_not_holds hx,
        State.dataByte_of_not_holds fun sd => mt (hho a sd).1 (hx sd), hsto]

/-- Zeroing a block: the processor sees 0 in it and every other byte as before, and it is in the data cache. -/
theorem zeroBlockAt_ok {ea : Word} {p : Place} {s t : State} {u : Unit} (hs : s.MemoryCoherent)
    (h : zeroBlockAt ea p s = .ok u t) :
    t.MemoryCoherent ∧ t.dhit p.real ≠ none ∧ t.pc = s.pc ∧ Unchanged [.memory, .storage, .dataCache] s t ∧
      ∀ a, t.dataByte a = if sameBlock a p.real then 0#8 else s.dataByte a := by
  have hz : ∀ i : Fin 16, zeroBlock.get i = 0#8 := by intro i; simp [zeroBlock, Vector.get_eq_getElem]
  unfold zeroBlockAt at h
  split at h
  · cases h
  · split at h
    · cases h
    · split at h
      · rename_i side hd
        rw [← (Result.ok.inj h).2]
        obtain ⟨l, hl⟩ := State.keepDline_stale s (dclass p.real) side
        rw [hl]
        have hs' : (s.setStale l).MemoryCoherent := State.memoryCoherent_congr (s := s) rfl rfl hs
        obtain ⟨z1, z2, z3, z4, z5⟩ := zeroLine_spec hs' (a0 := p.real) (side := side)
          ((State.dhit_congr (s := s) rfl _).trans hd)
        refine ⟨z1, z2, z3, ((unchanged_setStale s l []).trans z4).mono (by simp), fun a => ?_⟩
        rw [← State.dataByte_congr (s := s) (t := s.setStale l) rfl rfl a]
        exact z5 a
      · rename_i hmiss
        obtain ⟨v, s1, h1, h2⟩ := Result.bind_eq_ok.1 h
        have hd := KeepsView.drawn hs
        obtain ⟨hk, hcache, hst⟩ := castOut_keeps hd.coherent h1
        have hk' := hd.trans hk
        have hm1 : s1.dhit p.real = none := by
          rw [State.dhit_congr hcache, State.dhit_congr (t := s.drawn) (s := s) rfl]; exact hmiss
        have hdl := fun c sd => State.dline_congr hcache c sd
        obtain ⟨c1, c2, c3⟩ := replaceLine hk.coherent hm1 (sideOf s.undef)
          (by
            intro x hv hc htag
            rw [hdl] at hv htag ⊢
            rw [hst, if_pos ⟨hv, hc, htag⟩])
          true zeroBlock (fun e => by cases e)
        have ht := (Result.ok.inj h2).2
        rw [← ht]
        refine ⟨State.memoryCoherent_setDlru _ _ c1, ?_, hk'.pc, ?_, ?_⟩
        · have : ∀ w : State, (w.setDlru (dclass p.real) (s.undef.getLsbD 2)).dhit p.real = w.dhit p.real := by
            intro w; simp [State.dhit]
          rw [this, c3]
          simp
        · refine (hk'.frame.mono (by simp)).trans' ?_
          exact (((unchanged_setDline s1 _ _ _).mono (by simp)).trans' ((unchanged_setDlru _ _ _).mono (by simp)))
        · intro a
          rw [State.dataByte_setDlru, c2]
          have e : (dclass a = dclass p.real ∧ dtag a = dtag p.real) ↔ sameBlock a p.real = true := sameBlock_iff.symm
          simp only [e, hz, hk'.same]

end Sys2Proof.Machine
end

