-- ==== Sys2Proof/Laws/Decode.lean ====
section
/-! SUPPORT. Laws of the field helpers, of the opcode rows and of the byte order of an instruction word. -/

namespace Sys2Proof

theorem getLsbD_place {n : Nat} (v : BitVec n) (s i : Nat) :
    (place v s).getLsbD i = (decide (i < 32) && decide (s ≤ i) && v.getLsbD (i - s)) := by
  unfold place
  by_cases h : i < 32
  · by_cases h2 : s ≤ i
    · simp [h, h2, show ¬ i < s by omega]
    · simp [h, h2, show i < s by omega]
  · simp [h]

theorem getLsbD_field (w : Word) (s n i : Nat) :
    (field w s n).getLsbD i = (decide (i < n) && w.getLsbD (s + i)) := by
  simp [field]

theorem field_or (a b : Word) (s n : Nat) : field (a ||| b) s n = field a s n ||| field b s n := by
  apply BitVec.eq_of_getLsbD_eq
  intro i hi
  simp only [getLsbD_field, BitVec.getLsbD_or, hi, decide_true, Bool.true_and]

theorem flag_or (a b : Word) (s : Nat) : flag (a ||| b) s = (flag a s || flag b s) := by
  simp [flag]

theorem word_or_and (a b m : Word) : (a ||| b) &&& m = (a &&& m) ||| (b &&& m) := by
  apply BitVec.eq_of_getLsbD_eq
  intro i _
  simp only [BitVec.getLsbD_and, BitVec.getLsbD_or, Bool.and_or_distrib_right]

/-- A field read back from its own place. -/
theorem field_place_self {n : Nat} (v : BitVec n) (s : Nat) (h : s + n ≤ 32) : field (place v s) s n = v := by
  apply BitVec.eq_of_getLsbD_eq
  intro i hi
  simp only [getLsbD_field, getLsbD_place, hi, show s + i < 32 by omega, show s ≤ s + i by omega, decide_true,
    Bool.true_and, Nat.add_sub_cancel_left]

/-- A field placed beside another one does not show in it. -/
theorem field_place_other {m : Nat} (v : BitVec m) (t s n : Nat) (h : t + m ≤ s ∨ s + n ≤ t) :
    field (place v t) s n = 0#n := by
  apply BitVec.eq_of_getLsbD_eq
  intro i hi
  simp only [getLsbD_field, getLsbD_place, hi, decide_true, Bool.true_and, BitVec.getLsbD_zero]
  rcases h with h | h
  · rw [BitVec.getLsbD_of_ge v _ (by omega)]; simp
  · simp [show ¬ t ≤ s + i by omega]

theorem flag_place_other {m : Nat} (v : BitVec m) (t s : Nat) (h : t + m ≤ s ∨ s < t) : flag (place v t) s = false := by
  unfold flag
  rw [getLsbD_place]
  rcases h with h | h
  · rw [BitVec.getLsbD_of_ge v _ (by omega)]; simp
  · simp [show ¬ t ≤ s by omega]

theorem flag_placeBit_self (b : Bool) (s : Nat) (h : s < 32) : flag (placeBit b s) s = b := by
  unfold flag placeBit
  rw [getLsbD_place]
  simp [h]

theorem flag_placeBit_other (b : Bool) (t s : Nat) (h : s ≠ t) : flag (placeBit b t) s = false :=
  flag_place_other _ _ _ (by omega)

theorem field_placeBit_other (b : Bool) (t s n : Nat) (h : t < s ∨ s + n ≤ t) : field (placeBit b t) s n = 0#n :=
  field_place_other _ _ _ _ (by omega)

/-- A placed field is untouched by a mask that misses its bits. -/
theorem place_and_eq_zero {n : Nat} (v : BitVec n) (s : Nat) (m : Word) (h : place (BitVec.allOnes n) s &&& m = 0#32) :
    place v s &&& m = 0#32 := by
  apply BitVec.eq_of_getLsbD_eq
  intro i hi
  have hb := congrArg (fun w : Word => w.getLsbD i) h
  simp only [BitVec.getLsbD_and, getLsbD_place, BitVec.getLsbD_zero, hi, decide_true, Bool.true_and] at hb ⊢
  by_cases h2 : s ≤ i
  · by_cases h3 : i - s < n
    · simpa [h2, h3] using fun hv => by simpa [h2, h3] using hb
    · rw [BitVec.getLsbD_of_ge v _ (by omega)]; simp
  · simp [h2]

theorem placeBit_and_eq_zero (b : Bool) (s : Nat) (m : Word) (h : place (BitVec.allOnes 1) s &&& m = 0#32) :
    placeBit b s &&& m = 0#32 := place_and_eq_zero _ _ _ h

theorem swapHalves_swapHalves (v : BitVec 10) : swapHalves (swapHalves v) = v := by
  apply BitVec.eq_of_getLsbD_eq
  intro i hi
  simp only [swapHalves, BitVec.getLsbD_append, BitVec.getLsbD_extractLsb']
  by_cases h : i < 5
  · simp [h, show ¬ (5 + i < 5) by omega]
  · simp [h, show i - 5 < 5 by omega, show 5 + (i - 5) = i by omega]

/-- Two rows that no word matches both of: a defined bit of both has different values. -/
def Row.apart (r q : Row) : Bool := (r.code ^^^ q.code) &&& (r.mask &&& q.mask) != 0#32

theorem Row.not_both_match {r q : Row} (h : r.apart q = true) (w : Word) (hr : r.matches w = true) :
    q.matches w = false := by
  by_contra hq
  simp only [Row.matches, beq_iff_eq, Bool.not_eq_false] at hr hq
  refine absurd h ?_
  simp only [Row.apart, bne_iff_ne, ne_eq, not_not, ← hr, ← hq]
  apply BitVec.eq_of_getLsbD_eq
  intro i _
  simp only [BitVec.getLsbD_and, BitVec.getLsbD_xor, BitVec.getLsbD_zero]
  cases w.getLsbD i <;> cases r.mask.getLsbD i <;> cases q.mask.getLsbD i <;> rfl

/-- The opcode table has no two rows that a word can match. -/
theorem opcodeRows_apart : opcodeRows.Pairwise (fun r q => r.apart q = true) := by decide +kernel

theorem find?_matches_of_pairwise {l : List Row} (hl : l.Pairwise (fun r q => r.apart q = true)) {r : Row} (hr : r ∈ l)
    {w : Word} (hw : r.matches w = true) : l.find? (fun q => q.matches w) = some r := by
  induction l with
  | nil => exact absurd hr (List.not_mem_nil)
  | cons q l ih =>
    rw [List.pairwise_cons] at hl
    rcases List.mem_cons.1 hr with rfl | hm
    · simp [hw]
    · have hq : q.matches w = false := by
        by_contra h
        have := Row.not_both_match (hl.1 r hm) w (by simpa using h)
        simp [hw] at this
      simp [hq, ih hl.2 hm]

/-- A word that matches a row of the table is read by that row. -/
theorem decodeWord_of_row {r : Row} (hr : r ∈ opcodeRows) {w : Word} (hw : r.matches w = true) :
    decodeWord w = r.read w := by
  unfold decodeWord
  rw [find?_matches_of_pairwise opcodeRows_apart hr hw]

/-- The bytes of a word in storage order make the word again. -/
theorem wordOfBytes_byteOfWord (w : Word) :
    wordOfBytes (byteOfWord w 0) (byteOfWord w 1) (byteOfWord w 2) (byteOfWord w 3) = w := by
  apply BitVec.eq_of_getLsbD_eq
  intro i hi
  simp only [wordOfBytes, byteOfWord, BitVec.getLsbD_append, BitVec.getLsbD_extractLsb']
  by_cases h1 : i < 8
  · simp [h1]
  · by_cases h2 : i < 16
    · simp [h1, show i - 8 < 8 by omega, show 8 + (i - 8) = i by omega]
    · by_cases h3 : i < 24
      · simp [h1, show ¬ i - 8 < 8 by omega, show i - 8 - 8 < 8 by omega, show 16 + (i - 8 - 8) = i by omega]
      · simp [h1, show ¬ i - 8 < 8 by omega, show ¬ i - 8 - 8 < 8 by omega, show i - 8 - 8 - 8 < 8 by omega,
          show 24 + (i - 8 - 8 - 8) = i by omega]

/-- Decoding the bytes of a word is decoding the word. -/
theorem decodeBytes_bytesOfWord (w : Word) (rest : List Byte) :
    decodeBytes (bytesOfWord w ++ rest) = some (decodeWord w, rest) := by
  simp [bytesOfWord, decodeBytes, wordOfBytes_byteOfWord]

end Sys2Proof
end

