-- ==== Sys2Proof/Laws/Fetch.lean ====
section
/-! SUPPORT. What a fetch may see: the work of loads, stores and cache instructions takes no byte away from it. -/

namespace Sys2Proof.Machine

/-- The bytes a fetch may see at an address. -/
theorem State.mem_fetchable {s : State} {a : Word} {b : Byte} : b ∈ s.fetchable a ↔
    b = s.storage a ∨
    (∃ side, s.ihit a = some side ∧ b = (s.iline (iclass a) side).data.get (blockByte a).toFin) ∨
    (∃ side, s.dhit a = some side ∧ (s.dline (dclass a) side).d = true ∧
      b = (s.dline (dclass a) side).data.get (blockByte a).toFin) ∨
    ∃ o ∈ s.stale, o.addr = a ∧ o.byte = b := by
  unfold State.fetchable
  simp only [List.mem_cons, List.mem_append, List.mem_map, List.mem_filter, beq_iff_eq, or_assoc]
  refine or_congr Iff.rfl (or_congr ?_ (or_congr ?_ ?_))
  · cases s.ihit a <;> simp
  · cases s.dhit a with
    | none => simp
    | some side => cases hd : (s.dline (dclass a) side).d <;> simp [hd]
  · simp only [and_assoc]

/-- Main storage stays in its form, and every byte that a fetch may see it may still see. -/
structure FetchKept (s t : State) : Prop where
  canonical : t.MemoryCanonical
  kept : ∀ a b, b ∈ s.fetchable a → b ∈ t.fetchable a

theorem FetchKept.refl {s : State} (h : s.MemoryCanonical) : FetchKept s s := ⟨h, fun _ _ => id⟩

theorem FetchKept.trans {s t u : State} (h1 : FetchKept s t) (h2 : FetchKept t u) : FetchKept s u :=
  ⟨h2.canonical, fun a b h => h2.kept a b (h1.kept a b h)⟩

/-- Nothing but the old bytes has changed, and of them none is gone. -/
theorem FetchKept.of_stale {s t : State} (hs : s.MemoryCanonical) (hm : t.mem = s.mem) (hd : t.dcache = s.dcache)
    (hi : t.icache = s.icache) (hst : ∀ o ∈ s.stale, ∃ o' ∈ t.stale, o'.addr = o.addr ∧ o'.byte = o.byte) :
    FetchKept s t where
  canonical := by unfold State.MemoryCanonical; rw [hm]; exact hs
  kept := by
    intro a b h
    rw [State.mem_fetchable] at h ⊢
    rw [State.storage_congr hm, State.dhit_congr hd]
    have hil : ∀ c side, t.iline c side = s.iline c side := by intro c side; simp [State.iline, State.icls, hi]
    have hih : t.ihit a = s.ihit a := by simp [State.ihit, hil]
    simp only [State.dline_congr hd, hil, hih]
    rcases h with h | h | h | ⟨o, ho, ha, hb⟩
    · exact .inl h
    · exact .inr (.inl h)
    · exact .inr (.inr (.inl h))
    · obtain ⟨o', h1, h2, h3⟩ := hst o ho
      exact .inr (.inr (.inr ⟨o', h1, h2.trans ha, h3.trans hb⟩))

theorem FetchKept.of_same {s t : State} (hs : s.MemoryCanonical) (hm : t.mem = s.mem) (hd : t.dcache = s.dcache)
    (hi : t.icache = s.icache) (hst : t.stale = s.stale) : FetchKept s t :=
  .of_stale hs hm hd hi fun o ho => ⟨o, hst ▸ ho, rfl, rfl⟩

theorem OldByte.is_iff {o : OldByte} {a : Word} {b : Byte} : o.is a b = true ↔ o.addr = a ∧ o.byte = b := by
  simp [OldByte.is]

/-- Keeping an old byte: it waits for the whole sequence, and nothing else is gone. -/
theorem State.keepOld_kept {s : State} (hs : s.MemoryCanonical) (a : Word) (b : Byte) :
    FetchKept s (s.keepOld a b) ∧ ⟨a, b, .stored⟩ ∈ (s.keepOld a b).stale := by
  refine ⟨.of_stale hs rfl rfl rfl fun o ho => ?_, List.mem_cons_self⟩
  by_cases h : o.is a b = true
  · obtain ⟨h1, h2⟩ := OldByte.is_iff.1 h
    exact ⟨_, List.mem_cons_self, h1.symm, h2.symm⟩
  · exact ⟨o, List.mem_cons_of_mem _ (List.mem_filter.2 ⟨ho, by simpa using h⟩), rfl, rfl⟩

/-- Keeping a byte that the prefetch queue may have. -/
theorem State.keepQueued_kept {s : State} (hs : s.MemoryCanonical) (a : Word) (b : Byte) :
    FetchKept s (s.keepQueued a b) ∧ ∃ o ∈ (s.keepQueued a b).stale, o.addr = a ∧ o.byte = b := by
  have hst : (s.keepQueued a b).stale =
      if s.stale.any (fun o => o.is a b) then s.stale else ⟨a, b, .queued⟩ :: s.stale := rfl
  refine ⟨.of_stale hs rfl rfl rfl fun o ho => ⟨o, ?_, rfl, rfl⟩, ?_⟩
  · rw [hst]; split
    · exact ho
    · exact List.mem_cons_of_mem _ ho
  · rw [hst]; split
    · rename_i h
      obtain ⟨o, ho, hi⟩ := List.any_eq_true.1 h
      exact ⟨o, ho, OldByte.is_iff.1 hi⟩
    · exact ⟨_, List.mem_cons_self, rfl, rfl⟩

/-- A step of the sequence changes stages alone. -/
theorem State.markOld_kept {s : State} (hs : s.MemoryCanonical) (sel : OldByte → Bool) (x y : OldStage) :
    FetchKept s (s.markOld sel x y) := by
  refine .of_stale hs rfl rfl rfl fun o ho => ⟨_, List.mem_map_of_mem ho, ?_, ?_⟩ <;> split <;> rfl

/-- A byte stored in main storage: the one that was there stays, at the first stage. -/
theorem State.putStorage_kept {s : State} (hs : s.MemoryCanonical) (a : Word) (b : Byte) :
    FetchKept s (s.putStorage a b) := by
  unfold State.putStorage
  split
  · exact .refl hs
  · rename_i hne
    obtain ⟨k1, k2⟩ := State.keepOld_kept hs a (s.storage a)
    refine k1.trans ⟨?_, ?_⟩
    · have := State.putStorage_wf hs a b
      rw [State.putStorage, if_neg hne] at this
      exact this
    · intro x c h
      rw [State.mem_fetchable] at h ⊢
      rcases h with h | h | h | h
      · by_cases hx : x = a
        · subst hx
          exact .inr (.inr (.inr ⟨_, k2, rfl, h.symm⟩))
        · refine .inl (h.trans ?_)
          have := State.storage_putStorage hs (a := a) (b := b) (x := x)
          rw [if_neg hx, State.putStorage, if_neg hne] at this
          exact this.symm
      · exact .inr (.inl h)
      · exact .inr (.inr (.inl h))
      · exact .inr (.inr (.inr h))

theorem State.putBlock_kept {s : State} (hs : s.MemoryCanonical) (base : Word) (data : Vector Byte 16) :
    FetchKept s (s.putBlock base data) := by
  unfold State.putBlock
  generalize List.finRange 16 = l
  induction l generalizing s with
  | nil => exact .refl hs
  | cons j l ih =>
    have h := State.putStorage_kept hs (base + BitVec.ofNat 32 j.val) (data.get j)
    exact h.trans (ih h.canonical)

theorem copyBack_kept {c : BitVec 5} {side : Side} {s t : State} {u : Unit} (hs : s.MemoryCanonical)
    (h : copyBack c side s = .ok u t) : FetchKept s t := by
  rw [copyBack_ok h]
  split
  · exact State.putBlock_kept hs _ _
  · exact .refl hs

theorem castOut_kept {c : BitVec 5} {side : Side} {s t : State} {u : Unit} (hs : s.MemoryCanonical)
    (h : castOut c side s = .ok u t) : FetchKept s t := by
  unfold castOut at h
  split at h
  · exact copyBack_kept hs h
  · rw [← (Result.ok.inj h).2]; exact .refl hs

/-- A line of the data cache is replaced: nothing is gone if a modified byte of the old line is in main storage or kept,
and the new line does not hide the line of the other side. -/
theorem State.setDline_kept {s : State} (hs : s.MemoryCanonical) (c : BitVec 5) (side : Side) (l : DLine)
    (hold : ∀ a, dclass a = c → s.dhit a = some side → (s.dline c side).d = true →
      (s.dline c side).data.get (blockByte a).toFin = s.storage a ∨
      (∃ o ∈ s.stale, o.addr = a ∧ o.byte = (s.dline c side).data.get (blockByte a).toFin) ∨
      (l.v = true ∧ l.tag = dtag a ∧ l.d = true ∧
        l.data.get (blockByte a).toFin = (s.dline c side).data.get (blockByte a).toFin))
    (hhide : ∀ a, dclass a = c → l.v = true → l.tag = dtag a → s.dhit a = none ∨ s.dhit a = some side) :
    FetchKept s (s.setDline c side l) := by
  refine ⟨hs, fun a b h => ?_⟩
  have hl : ∀ c' sd, (s.setDline c side l).dline c' sd = if c' = c ∧ sd = side then l else s.dline c' sd :=
    fun c' sd => State.dline_setDline s _ _ _ _ _
  rw [State.mem_fetchable] at h ⊢
  rcases h with h | h | ⟨sd, h1, h2, h3⟩ | h
  · exact .inl h
  · exact .inr (.inl h)
  · by_cases hc : dclass a = c
    · subst hc
      by_cases hsd : sd = side
      · subst hsd
        rcases hold a rfl h1 h2 with e | e | ⟨e1, e2, e3, e4⟩
        · exact .inl (h3.trans e)
        · obtain ⟨o, ho, ha, hb⟩ := e
          exact .inr (.inr (.inr ⟨o, ho, ha, hb.trans h3.symm⟩))
        · refine .inr (.inr (.inl ⟨sd, ?_, by rw [hl, if_pos ⟨rfl, rfl⟩]; exact e3, ?_⟩))
          · cases sd with
            | a => simp [State.dhit, hl, e1, e2]
            | b =>
              have : ¬ s.Holds a .a := by
                intro hh
                have : s.dhit a = some .a := by simp [State.dhit, hh.1, hh.2]
                rw [this] at h1; cases h1
              simp only [State.Holds, not_and] at this
              by_cases hv : (s.dline (dclass a) .a).v = true
              · simp [State.dhit, hl, e1, e2, hv, this hv]
              · simp [State.dhit, hl, e1, e2, hv]
          · rw [hl, if_pos ⟨rfl, rfl⟩]; exact h3.trans e4.symm
      · have hh := State.holds_of_dhit h1
        have hnew : ¬ (l.v = true ∧ l.tag = dtag a) := by
          rintro ⟨e1, e2⟩
          rcases hhide a rfl e1 e2 with e | e
          · rw [e] at h1; cases h1
          · rw [e] at h1; exact hsd (Option.some.inj h1).symm
        refine .inr (.inr (.inl ⟨sd, ?_, by rw [hl, if_neg fun e => hsd e.2]; exact h2,
          by rw [hl, if_neg fun e => hsd e.2]; exact h3⟩))
        cases sd with
        | a => simp [State.dhit, hl, hsd, hh.1, hh.2]
        | b =>
          cases side with
          | b => exact absurd rfl hsd
          | a =>
            simp only [not_and] at hnew
            by_cases hv : l.v = true
            · simp [State.dhit, hl, hv, hnew hv, hh.1, hh.2]
            · simp [State.dhit, hl, hv, hh.1, hh.2]
    · refine .inr (.inr (.inl ⟨sd, ?_, by rw [hl, if_neg fun e => hc e.1]; exact h2,
        by rw [hl, if_neg fun e => hc e.1]; exact h3⟩))
      rw [← h1]
      simp [State.dhit, hl, hc]
  · exact .inr (.inr (.inr h))

theorem State.setDlru_kept {s : State} (hs : s.MemoryCanonical) (c : BitVec 5) (v : Bool) :
    FetchKept s (s.setDlru c v) := by
  refine ⟨hs, fun a b h => ?_⟩
  rw [State.mem_fetchable] at h ⊢
  have hd : (s.setDlru c v).dhit a = s.dhit a := by simp [State.dhit]
  simp only [State.dline_setDlru, hd]
  exact h

theorem State.drawn_kept {s : State} (hs : s.MemoryCanonical) : FetchKept s s.drawn := .of_same hs rfl rfl rfl rfl

/-- The bytes of a modified line are in main storage once the line has been made room of. -/
theorem castOut_stored {c : BitVec 5} {side : Side} {s t : State} {u : Unit} (hs : s.MemoryCanonical)
    (h : castOut c side s = .ok u t) (a : Word) (hc : dclass a = c) (hh : t.dhit a = some side)
    (hd : (t.dline c side).d = true) : (t.dline c side).data.get (blockByte a).toFin = t.storage a := by
  have hcache : t.dcache = s.dcache := by
    unfold castOut at h
    split at h
    · rw [copyBack_ok h]; split
      · exact State.putBlock_dcache _ _ _
      · rfl
    · rw [← (Result.ok.inj h).2]
  have hl := State.dline_congr hcache
  obtain ⟨hv, ht⟩ : (t.dline c side).v = true ∧ (t.dline c side).tag = dtag a := by
    have := State.holds_of_dhit hh
    unfold State.Holds at this
    rwa [hc] at this
  rw [hl] at hv ht hd ⊢
  unfold castOut at h
  rw [if_pos hv] at h
  rw [copyBack_ok h, if_pos hd, State.storage_putBlock hs, if_pos ⟨hc, ht.symm⟩]

/-- A new line on a side that has been made room of, for a block that is not in the cache. -/
theorem newLine_kept {c : BitVec 5} {side : Side} {s t : State} {u : Unit} (hs : s.MemoryCanonical) {a : Word}
    (hc : c = dclass a) (hmiss : s.dhit a = none) (h : castOut c side s = .ok u t) (d : Bool) (data : Vector Byte 16) :
    FetchKept s (t.setDline c side ⟨true, d, dtag a, data⟩) := by
  have hk := castOut_kept hs h
  have hcache : t.dcache = s.dcache := by
    unfold castOut at h
    split at h
    · rw [copyBack_ok h]; split
      · exact State.putBlock_dcache _ _ _
      · rfl
    · rw [← (Result.ok.inj h).2]
  refine hk.trans (State.setDline_kept hk.canonical c side _ (fun x hx hh hd => .inl ?_) fun x hx _ ht => .inl ?_)
  · exact castOut_stored hs h x hx hh hd
  · rw [State.dhit_congr hcache, State.dhit_of_block (a := a) (hx.trans hc) ht.symm]
    exact hmiss

theorem dfill_kept {a : Word} {side : Side} {s t : State} {u : Unit} (hs : s.MemoryCanonical) (hmiss : s.dhit a = none)
    (h : dfill a side s = .ok u t) : FetchKept s t := by
  unfold dfill at h
  obtain ⟨v, s1, hr, h1⟩ := Result.bind_eq_ok.1 h
  rw [← (Result.ok.inj h1).2]
  exact newLine_kept hs rfl hmiss hr _ _

theorem dtouch_kept {p : Place} {s t : State} {u : Unit} (hs : s.MemoryCanonical) (h : dtouch p s = .ok u t) :
    FetchKept s t := by
  unfold dtouch at h
  split at h
  · rw [← (Result.ok.inj h).2]; exact .refl hs
  · simp only at h
    split at h
    · rw [← (Result.ok.inj h).2]
      exact (State.setDlru_kept hs _ _).trans (State.drawn_kept (State.setDlru_kept hs _ _).canonical)
    · rename_i hmiss
      split at h
      · obtain ⟨v, s1, hr, h1⟩ := Result.bind_eq_ok.1 h
        have hk := dfill_kept (s := s.drawn) hs hmiss hr
        rw [← (Result.ok.inj h1).2]
        exact ((State.drawn_kept hs).trans hk).trans (State.setDlru_kept hk.canonical _ _)
      · rw [← (Result.ok.inj h).2]; exact State.drawn_kept hs

/-- Storing a byte, in a line or in main storage: the byte that was there stays. -/
theorem State.putData_kept {s : State} (hs : s.MemoryCanonical) (p : Place) (a : Word) (b : Byte) :
    FetchKept s (s.putData p a b) := by
  unfold State.putData
  split
  · exact State.putStorage_kept hs a b
  · rename_i side hd
    simp only
    obtain ⟨k1, k2⟩ := State.keepOld_kept hs a ((s.dline (dclass a) side).data.get (blockByte a).toFin)
    have hset : ∀ d : Bool, ((s.dline (dclass a) side).d = true → d = true) →
        FetchKept s ((s.keepOld a ((s.dline (dclass a) side).data.get (blockByte a).toFin)).setDline (dclass a) side
          ⟨(s.dline (dclass a) side).v, d, (s.dline (dclass a) side).tag,
            (s.dline (dclass a) side).data.set (blockByte a).toNat b (blockByte a).isLt⟩) := by
      intro d hdd
      have hh := State.holds_of_dhit hd
      refine k1.trans (State.setDline_kept k1.canonical _ _ _ (fun x hx hdx hdir => ?_) fun x hx _ ht => .inr ?_)
      · have htx : (s.dline (dclass a) side).tag = dtag x := by
          have := (State.holds_of_dhit hdx).2
          rwa [hx] at this
        by_cases hxa : x = a
        · subst hxa; exact .inr (.inl ⟨_, k2, rfl, rfl⟩)
        · refine .inr (.inr ⟨hh.1, htx, hdd hdir, ?_⟩)
          have : (blockByte a).toNat ≠ (blockByte x).toNat := fun e =>
            hxa (eq_of_line (htx.symm.trans hh.2) hx (BitVec.eq_of_toNat_eq e.symm))
          simp [Vector.get_eq_getElem, this]
      · exact (State.dhit_of_block (s := s) (a := a) hx (ht.symm.trans hh.2)).trans hd
    split
    · exact hset true fun _ => rfl
    · exact (hset _ id).trans (State.putStorage_kept (hset _ id).canonical a b)

theorem State.putValue_kept {s : State} (hs : s.MemoryCanonical) (p : Place) (n : Nat) (v : Word) :
    FetchKept s (s.putValue p n v) := by
  unfold State.putValue
  generalize List.range n = l
  induction l generalizing s with
  | nil => exact .refl hs
  | cons i l ih =>
    have h := State.putData_kept hs p (p.real + BitVec.ofNat 32 i) (valueByte v n i)
    exact h.trans (ih h.canonical)

/-- Keeping the bytes of a modified line. -/
theorem State.keepDline_kept {s : State} (hs : s.MemoryCanonical) (c : BitVec 5) (side : Side) :
    FetchKept s (s.keepDline c side) ∧
    ((s.dline c side).v = true → (s.dline c side).d = true → ∀ i : Fin 16, ∃ o ∈ (s.keepDline c side).stale,
      o.addr = dlineBase c (s.dline c side).tag + BitVec.ofNat 32 i.val ∧ o.byte = (s.dline c side).data.get i) := by
  have hfold : ∀ (base : Word) (data : Vector Byte 16) (l : List (Fin 16)) (st : State), st.MemoryCanonical →
      FetchKept st (l.foldl (fun st i => st.keepOld (base + BitVec.ofNat 32 i.val) (data.get i)) st) ∧
      (∀ o ∈ st.stale, ∃ o' ∈ (l.foldl (fun st i => st.keepOld (base + BitVec.ofNat 32 i.val) (data.get i)) st).stale,
        o'.addr = o.addr ∧ o'.byte = o.byte) ∧
      ∀ i ∈ l, ∃ o ∈ (l.foldl (fun st i => st.keepOld (base + BitVec.ofNat 32 i.val) (data.get i)) st).stale,
        o.addr = base + BitVec.ofNat 32 i.val ∧ o.byte = data.get i := by
    intro base data l
    induction l with
    | nil => exact fun st h => ⟨.refl h, fun o ho => ⟨o, ho, rfl, rfl⟩, fun i hi => absurd hi (by simp)⟩
    | cons j l ih =>
      intro st h
      obtain ⟨k1, k2⟩ := State.keepOld_kept h (base + BitVec.ofNat 32 j.val) (data.get j)
      obtain ⟨i1, i2, i3⟩ := ih _ k1.canonical
      refine ⟨k1.trans i1, fun o ho => ?_, fun i hi => ?_⟩
      · by_cases e : o.is (base + BitVec.ofNat 32 j.val) (data.get j) = true
        · obtain ⟨e1, e2⟩ := OldByte.is_iff.1 e
          obtain ⟨o', h1, h2, h3⟩ := i2 _ k2
          exact ⟨o', h1, h2.trans e1.symm, h3.trans e2.symm⟩
        · exact i2 o (List.mem_cons_of_mem _ (List.mem_filter.2 ⟨ho, by simpa using e⟩))
      · rcases List.mem_cons.1 hi with rfl | hi
        · exact i2 _ k2
        · exact i3 i hi
  unfold State.keepDline
  simp only
  split
  · obtain ⟨h1, -, h3⟩ := hfold (dlineBase c (s.dline c side).tag) (s.dline c side).data (List.finRange 16) s hs
    exact ⟨h1, fun _ _ i => h3 i (List.mem_finRange i)⟩
  · rename_i h
    refine ⟨.refl hs, fun h1 h2 => absurd ?_ h⟩
    simp [h1, h2]

/-- A line whose bytes are kept may be replaced by one of the same block or made invalid. -/
theorem keptLine_kept {s : State} (hs : s.MemoryCanonical) (c : BitVec 5) (side : Side) (l : DLine)
    (hl : l.v = true → l.tag = (s.dline c side).tag ∧ ∃ a, dclass a = c ∧ s.dhit a = some side) :
    FetchKept s ((s.keepDline c side).setDline c side l) := by
  obtain ⟨k1, k2⟩ := State.keepDline_kept hs c side
  obtain ⟨st, he⟩ := State.keepDline_stale s c side
  have hline : ∀ c' sd, (s.keepDline c side).dline c' sd = s.dline c' sd := by intro c' sd; rw [he]; rfl
  have hdh : ∀ a, (s.keepDline c side).dhit a = s.dhit a := by intro a; rw [he]; rfl
  refine k1.trans (State.setDline_kept k1.canonical _ _ _ (fun x hx hdx hdir => .inr (.inl ?_)) fun x hx hv ht => .inr ?_)
  · rw [hdh] at hdx
    rw [hline] at hdir ⊢
    have hh := State.holds_of_dhit hdx
    unfold State.Holds at hh
    rw [hx] at hh
    obtain ⟨o, ho, ha, hb⟩ := k2 hh.1 hdir (blockByte x).toFin
    refine ⟨o, ho, ha.trans ?_, hb⟩
    have e := blockBase_add x
    rw [blockBase_eq, hx, ← hh.2] at e
    exact e
  · obtain ⟨e, a, ha, hd⟩ := hl hv
    rw [hdh]
    have hh := State.holds_of_dhit hd
    unfold State.Holds at hh
    rw [ha] at hh
    rw [State.dhit_of_block (a := a) (hx.trans ha.symm) (ht.symm.trans (e.trans hh.2))]
    exact hd

theorem discardDline_kept {s : State} (hs : s.MemoryCanonical) (c : BitVec 5) (side : Side) :
    FetchKept s (s.discardDline c side) := keptLine_kept hs c side _ fun h => by cases h

theorem invalidateBlock_kept {p : Place} {s t : State} {u : Unit} (hs : s.MemoryCanonical)
    (h : invalidateBlock p s = .ok u t) : FetchKept s t := by
  unfold invalidateBlock at h
  split at h
  · rw [← (Result.ok.inj h).2]; exact .refl hs
  · rw [← (Result.ok.inj h).2]; exact discardDline_kept hs _ _

/-- A line that has been copied back may be made invalid or not modified. -/
theorem copiedLine_kept {s s1 : State} {u : Unit} (hs : s.MemoryCanonical) {a : Word} {side : Side}
    (hd : s.dhit a = some side) (h : copyBack (dclass a) side s = .ok u s1) (l : DLine)
    (hl : l.v = true → l.tag = (s1.dline (dclass a) side).tag) :
    FetchKept s (s1.setDline (dclass a) side l) := by
  have hh := State.holds_of_dhit hd
  have hout : castOut (dclass a) side s = .ok u s1 := by rw [castOut, if_pos hh.1]; exact h
  have hk := castOut_kept hs hout
  have hcache : s1.dcache = s.dcache := by
    rw [copyBack_ok h]; split
    · exact State.putBlock_dcache _ _ _
    · rfl
  refine hk.trans (State.setDline_kept hk.canonical _ _ _ (fun x hx hdx hdir => .inl ?_) fun x hx hv ht => .inr ?_)
  · exact castOut_stored hs hout x hx hdx hdir
  · rw [State.dhit_congr hcache, State.dhit_of_block (a := a) hx, hd]
    rw [← ht, hl hv, State.dline_congr hcache]
    exact hh.2

theorem flushBlock_kept {p : Place} {s t : State} {u : Unit} (hs : s.MemoryCanonical)
    (h : flushBlock p s = .ok u t) : FetchKept s t := by
  unfold flushBlock at h
  split at h
  · rw [← (Result.ok.inj h).2]; exact .refl hs
  · rename_i side hd
    obtain ⟨v, s1, h1, h2⟩ := Result.bind_eq_ok.1 h
    rw [← (Result.ok.inj h2).2]
    exact copiedLine_kept hs hd h1 _ fun e => by cases e

theorem storeBlock_kept {p : Place} {s t : State} {u : Unit} (hs : s.MemoryCanonical)
    (h : storeBlock p s = .ok u t) : FetchKept s t := by
  unfold storeBlock at h
  split at h
  · rw [← (Result.ok.inj h).2]; exact .refl hs
  · rename_i side hd
    obtain ⟨v, s1, h1, h2⟩ := Result.bind_eq_ok.1 h
    rw [← (Result.ok.inj h2).2]
    exact copiedLine_kept hs hd h1 _ fun _ => rfl

theorem touchBlock_kept {p : Place} {s t : State} {u : Unit} (hs : s.MemoryCanonical)
    (h : touchBlock p s = .ok u t) : FetchKept s t := by
  unfold touchBlock at h
  split at h
  · rw [← (Result.ok.inj h).2]; exact .refl hs
  · rename_i hc
    split at h
    · cases h
    · obtain ⟨v, s1, h1, h2⟩ := Result.bind_eq_ok.1 h
      have hmiss : s.dhit p.real = none := by
        simp only [Bool.or_eq_true, not_or, Bool.not_eq_true, Option.isSome_eq_false_iff, Option.isNone_iff_eq_none] at hc
        exact hc.1.2
      have hk := dfill_kept (s := s.drawn) hs hmiss h1
      rw [← (Result.ok.inj h2).2]
      exact ((State.drawn_kept hs).trans hk).trans (State.setDlru_kept hk.canonical _ _)

theorem zeroBlockAt_kept {ea : Word} {p : Place} {s t : State} {u : Unit} (hs : s.MemoryCanonical)
    (h : zeroBlockAt ea p s = .ok u t) : FetchKept s t := by
  unfold zeroBlockAt at h
  split at h
  · cases h
  · split at h
    · cases h
    · split at h
      · rename_i side hd
        rw [← (Result.ok.inj h).2]
        exact keptLine_kept hs _ _ _ fun _ => ⟨rfl, _, rfl, hd⟩
      · rename_i hmiss
        obtain ⟨v, s1, h1, h2⟩ := Result.bind_eq_ok.1 h
        have hk := newLine_kept (s := s.drawn) hs rfl hmiss h1 true zeroBlock
        rw [← (Result.ok.inj h2).2]
        exact ((State.drawn_kept hs).trans hk).trans (State.setDlru_kept hk.canonical _ _)

/-- An address from the base of its instruction cache line. -/
theorem ilineBase_add (a : Word) :
    ilineBase (iclass a) (itag a) + BitVec.ofNat 32 (blockByte a).toFin.val = a := by
  apply BitVec.eq_of_toNat_eq
  have ha := a.isLt
  have hbase : (ilineBase (iclass a) (itag a)).toNat = (itag a).toNat * 1024 + (iclass a).toNat * 16 := by
    have hc := (iclass a).isLt
    rw [ilineBase, BitVec.toNat_append, BitVec.toNat_append, ← Nat.shiftLeft_add_eq_or_of_lt (by decide),
      ← Nat.shiftLeft_add_eq_or_of_lt hc]
    simp only [Nat.shiftLeft_eq, BitVec.toNat_ofNat]
    omega
  rw [BitVec.toNat_add, hbase, itag, iclass, blockByte, BitVec.toNat_ofNat, BitVec.val_toFin,
    BitVec.extractLsb'_toNat, BitVec.extractLsb'_toNat, BitVec.extractLsb'_toNat, Nat.shiftRight_eq_div_pow,
    Nat.shiftRight_eq_div_pow, Nat.shiftRight_eq_div_pow]
  omega

/-- A line of the instruction cache that is dropped: its bytes are kept. -/
theorem State.dropIline_kept {s : State} (hs : s.MemoryCanonical) (c : BitVec 6) (side : Side) :
    FetchKept s (s.dropIline c side) := by
  have hfold : ∀ (base : Word) (data : Vector Byte 16) (l : List (Fin 16)) (st : State),
      (∃ q, l.foldl (fun st i => st.keepQueued (base + BitVec.ofNat 32 i.val) (data.get i)) st = st.setStale q) ∧
      (∀ o ∈ st.stale, o ∈
        (l.foldl (fun st i => st.keepQueued (base + BitVec.ofNat 32 i.val) (data.get i)) st).stale) ∧
      ∀ i ∈ l, ∃ o ∈ (l.foldl (fun st i => st.keepQueued (base + BitVec.ofNat 32 i.val) (data.get i)) st).stale,
        o.addr = base + BitVec.ofNat 32 i.val ∧ o.byte = data.get i := by
    intro base data l
    induction l with
    | nil => exact fun st => ⟨⟨st.stale, rfl⟩, fun o ho => ho, fun i hi => absurd hi (by simp)⟩
    | cons j l ih =>
      intro st
      have hsub : ∀ o ∈ st.stale, o ∈ (st.keepQueued (base + BitVec.ofNat 32 j.val) (data.get j)).stale := by
        intro o ho
        show o ∈ if _ then _ else _
        split
        · exact ho
        · exact List.mem_cons_of_mem _ ho
      have hin : ∃ o ∈ (st.keepQueued (base + BitVec.ofNat 32 j.val) (data.get j)).stale,
          o.addr = base + BitVec.ofNat 32 j.val ∧ o.byte = data.get j := by
        show ∃ o ∈ (if st.stale.any (fun o => o.is (base + BitVec.ofNat 32 j.val) (data.get j)) then st.stale else
          ⟨base + BitVec.ofNat 32 j.val, data.get j, .queued⟩ :: st.stale), _
        split
        · rename_i h
          obtain ⟨o, ho, hi⟩ := List.any_eq_true.1 h
          exact ⟨o, ho, OldByte.is_iff.1 hi⟩
        · exact ⟨_, List.mem_cons_self, rfl, rfl⟩
      obtain ⟨⟨q, i1⟩, i2, i3⟩ := ih (st.keepQueued (base + BitVec.ofNat 32 j.val) (data.get j))
      refine ⟨⟨q, by rw [List.foldl_cons, i1]; rfl⟩, fun o ho => i2 o (hsub o ho), fun i hi => ?_⟩
      rcases List.mem_cons.1 hi with rfl | hi
      · obtain ⟨o, ho, h1⟩ := hin
        exact ⟨o, i2 o ho, h1⟩
      · exact i3 i hi
  unfold State.dropIline
  simp only
  split
  · rename_i hv
    obtain ⟨⟨q, h1⟩, h2, h3⟩ := hfold (ilineBase c (s.iline c side).tag) (s.iline c side).data (List.finRange 16) s
    rw [h1] at h2 h3 ⊢
    have hil : ∀ c' sd, ((s.setStale q).setIline c side { s.iline c side with v := false }).iline c' sd =
        if c' = c ∧ sd = side then { s.iline c side with v := false } else s.iline c' sd := by
      intro c' sd
      unfold State.setIline State.iline State.icls State.setIcls
      by_cases hc : c' = c
      · subst hc
        cases side <;> cases sd <;> simp [IClass.setLine, IClass.line, Vector.get_eq_getElem]
      · have hn : c.toNat ≠ c'.toNat := fun he => hc (BitVec.eq_of_toNat_eq he.symm)
        simp [Vector.get_eq_getElem, hn, hc]
    refine ⟨hs, fun a b h => ?_⟩
    rw [State.mem_fetchable] at h ⊢
    rcases h with h | ⟨sd, e1, e2⟩ | h | ⟨o, ho, ha⟩
    · exact .inl h
    · have hh : (s.iline (iclass a) sd).v = true ∧ (s.iline (iclass a) sd).tag = itag a := by
        unfold State.ihit at e1
        split at e1
        · rename_i hc; cases e1; simpa using hc
        · split at e1
          · rename_i hc; cases e1; simpa using hc
          · cases e1
      by_cases hc : iclass a = c ∧ sd = side
      · obtain ⟨rfl, rfl⟩ := hc
        obtain ⟨o, ho, ha, hb⟩ := h3 (blockByte a).toFin (List.mem_finRange _)
        refine .inr (.inr (.inr ⟨o, ho, ha.trans ?_, hb.trans e2.symm⟩))
        rw [hh.2]
        exact ilineBase_add a
      · refine .inr (.inl ⟨sd, ?_, by rw [hil, if_neg hc]; exact e2⟩)
        unfold State.ihit at e1 ⊢
        rw [hil, hil]
        by_cases hcl : iclass a = c
        · cases side <;> cases sd <;> simp_all
        · simpa [hcl] using e1
    · exact .inr (.inr (.inl h))
    · exact .inr (.inr (.inr ⟨o, h2 o ho, ha⟩))
  · exact .refl hs

end Sys2Proof.Machine
end

