-- ==== Sys2Proof/Laws/Level.lean ====
section
/-! SUPPORT. Once Level 0 has been left, an old byte that waits for dcbst stays: the work of loads, stores, cache
instructions, entries and context synchronization keeps it (70_reset_and_hazards.md R573). Where nothing is cacheable no
access has a cacheable place. -/

namespace Sys2Proof.Machine

/-- Level 0 has been left since reset, and this old byte waits for dcbst. -/
def State.Waits (s : State) (a : Word) (b : Byte) : Prop := s.cachingSeen = true ∧ ⟨a, b, .stored⟩ ∈ s.stale

variable {a : Word} {b : Byte}

/-- A byte waits in every state that has the same mark and the same old bytes. -/
theorem State.Waits.of_same {s t : State} (h : s.Waits a b) (hc : t.cachingSeen = s.cachingSeen)
    (hs : t.stale = s.stale) : t.Waits a b := ⟨hc.trans h.1, hs ▸ h.2⟩

theorem State.Waits.setDline {s : State} (h : s.Waits a b) (c : BitVec 5) (side : Side) (l : DLine) :
    (s.setDline c side l).Waits a b := h.of_same rfl rfl

theorem State.Waits.setIline {s : State} (h : s.Waits a b) (c : BitVec 6) (side : Side) (l : ILine) :
    (s.setIline c side l).Waits a b := h.of_same rfl rfl

theorem State.Waits.setDlru {s : State} (h : s.Waits a b) (c : BitVec 5) (v : Bool) : (s.setDlru c v).Waits a b :=
  h.of_same rfl rfl

theorem State.Waits.setSpr {s : State} (h : s.Waits a b) (v : Sprs) : (s.setSpr v).Waits a b := h.of_same rfl rfl

theorem State.Waits.drawn {s : State} (h : s.Waits a b) : s.drawn.Waits a b := h.of_same rfl rfl

theorem State.Waits.keepOld {s : State} (h : s.Waits a b) (x : Word) (c : Byte) : (s.keepOld x c).Waits a b := by
  refine ⟨h.1, ?_⟩
  by_cases e : OldByte.is ⟨a, b, .stored⟩ x c = true
  · simp only [OldByte.is, Bool.and_eq_true, beq_iff_eq] at e
    rw [e.1, e.2]
    exact List.mem_cons_self
  · exact List.mem_cons_of_mem _ (List.mem_filter.2 ⟨h.2, by simpa using e⟩)

theorem State.Waits.keepQueued {s : State} (h : s.Waits a b) (x : Word) (c : Byte) : (s.keepQueued x c).Waits a b := by
  refine ⟨h.1, ?_⟩
  show _ ∈ if _ then _ else _
  split
  · exact h.2
  · exact List.mem_cons_of_mem _ h.2

/-- Only the step from the first stage takes a waiting byte on. -/
theorem State.Waits.markOld {s : State} (h : s.Waits a b) (sel : OldByte → Bool) {x : OldStage} (y : OldStage)
    (hx : x ≠ .stored) : (s.markOld sel x y).Waits a b := by
  refine ⟨h.1, List.mem_map.2 ⟨_, h.2, if_neg ?_⟩⟩
  simpa using fun _ e => hx e.symm

/-- A context-synchronizing operation drops no byte that waits. -/
theorem State.Waits.contextSync {s : State} (h : s.Waits a b) : s.contextSync.Waits a b :=
  ⟨h.1, (State.contextSync_keeps_of_cachingSeen h.1 _).2 ⟨h.2, by simp⟩⟩

theorem State.Waits.noteCaching {s : State} (h : s.Waits a b) : s.noteCaching.Waits a b :=
  ⟨by simp [h.1], h.2⟩

theorem State.Waits.putStorage {s : State} (h : s.Waits a b) (x : Word) (c : Byte) : (s.putStorage x c).Waits a b := by
  unfold State.putStorage
  split
  · exact h
  · exact (h.keepOld x _).of_same rfl rfl

/-- What each turn of a loop keeps, the loop keeps. -/
theorem State.Waits.foldl {ι : Type} {f : State → ι → State} (hf : ∀ s i, s.Waits a b → (f s i).Waits a b) :
    ∀ (l : List ι) (s : State), s.Waits a b → (l.foldl f s).Waits a b
  | [], _, h => h
  | i :: l, s, h => State.Waits.foldl hf l (f s i) (hf s i h)

theorem State.Waits.putBlock {s : State} (h : s.Waits a b) (base : Word) (data : Vector Byte 16) :
    (s.putBlock base data).Waits a b := State.Waits.foldl (fun _ _ h => h.putStorage _ _) _ _ h

theorem State.Waits.keepDline {s : State} (h : s.Waits a b) (c : BitVec 5) (side : Side) :
    (s.keepDline c side).Waits a b := by
  unfold State.keepDline
  simp only
  split
  · exact State.Waits.foldl (fun _ _ h => h.keepOld _ _) _ _ h
  · exact h

theorem State.Waits.dropIline {s : State} (h : s.Waits a b) (c : BitVec 6) (side : Side) :
    (s.dropIline c side).Waits a b := by
  unfold State.dropIline
  simp only
  split
  · exact (State.Waits.foldl (fun _ _ h => h.keepQueued _ _) (List.finRange 16) _ h).setIline _ _ _
  · exact h

theorem State.Waits.discardDline {s : State} (h : s.Waits a b) (c : BitVec 5) (side : Side) :
    (s.discardDline c side).Waits a b := (h.keepDline c side).setDline _ _ _

theorem State.Waits.putData {s : State} (h : s.Waits a b) (p : Place) (x : Word) (c : Byte) :
    (s.putData p x c).Waits a b := by
  unfold State.putData
  split
  · exact h.putStorage x c
  · simp only
    split
    · exact (h.keepOld x _).setDline _ _ _
    · exact ((h.keepOld x _).setDline _ _ _).putStorage x c

theorem State.Waits.putValue {s : State} (h : s.Waits a b) (p : Place) (n : Nat) (v : Word) :
    (s.putValue p n v).Waits a b := State.Waits.foldl (fun _ _ h => h.putData p _ _) _ _ h

theorem State.Waits.choose {α : Type} {s : State} (h : s.Waits a b) (l : List α) : (s.choose l).2.Waits a b := by
  rcases State.choose_state s l with e | e <;> rw [e]
  · exact h
  · exact h.of_same rfl rfl

theorem State.Waits.checkStorage {s : State} (h : s.Waits a b) (x : Word) (n : Nat) :
    (checkStorage x n s).All (State.Waits · a b) := by
  unfold Machine.checkStorage
  split
  · trivial
  · split
    · trivial
    · exact h

theorem State.Waits.castOut {s : State} (h : s.Waits a b) (c : BitVec 5) (side : Side) :
    (castOut c side s).All (State.Waits · a b) := by
  unfold Machine.castOut copyBack
  simp only
  split
  · split
    · exact Result.all_bind (h.checkStorage _ _) fun _ _ h => h.putBlock _ _
    · exact h
  · exact h

theorem State.Waits.dfill {s : State} (h : s.Waits a b) (x : Word) (side : Side) :
    (dfill x side s).All (State.Waits · a b) :=
  Result.all_bind (h.castOut _ _) fun _ _ h => h.setDline _ _ _

theorem State.Waits.dtouch {s : State} (h : s.Waits a b) (p : Place) : (dtouch p s).All (State.Waits · a b) := by
  unfold Machine.dtouch
  simp only
  split
  · exact h
  · split
    · exact (h.setDlru _ _).drawn
    · split
      · exact Result.all_bind (h.drawn.dfill _ _) fun _ _ h => h.setDlru _ _
      · exact h.drawn

theorem State.Waits.dataPlace {s : State} (h : s.Waits a b) (side : CacheSide) (ea : Word) (store : Bool) :
    (dataPlace side ea store s).All (State.Waits · a b) := by
  have hb : ∀ (p : Place) (t : State), t.Waits a b → (checkBounds ea store p t).All (State.Waits · a b) := by
    intro p t ht
    unfold checkBounds
    split <;> exact ht
  have hp : (s.tlbPick ea).2.Waits a b := h.choose _
  unfold Machine.dataPlace
  split
  · split <;> rename_i e <;> rw [e] at hp
    · exact hp
    · simp only
      split
      · exact hp
      · split
        · exact hp
        · exact hb _ _ hp
  · exact hb _ _ h

theorem State.Waits.access {s : State} (h : s.Waits a b) (ea : Word) (n : Nat) (store : Bool) :
    (access ea n store s).All (State.Waits · a b) := by
  unfold Machine.access checkAccess
  split
  · trivial
  · split
    · exact h
    · refine Result.all_bind (h.dataPlace _ _ _) fun p s1 h => Result.all_bind ?_ fun _ s2 h =>
        Result.all_bind (h.dtouch p) fun _ _ h => h
      split
      · exact h.checkStorage _ _
      · exact h

theorem State.Waits.memRead {s : State} (h : s.Waits a b) (ea : Word) (n : Nat) :
    (memRead ea n s).All (State.Waits · a b) := Result.all_bind (h.access _ _ _) fun _ _ h => h

theorem State.Waits.memWrite {s : State} (h : s.Waits a b) (ea : Word) (n : Nat) (v : Word) :
    (memWrite ea n v s).All (State.Waits · a b) := Result.all_bind (h.access _ _ _) fun _ _ h => h.putValue _ _ _

/-- An entry keeps what waits, whatever the exception. -/
theorem State.Waits.enter {s : State} (h : s.Waits a b) (critical : Bool) (saved : Word) (offset : BitVec 16) :
    Out.All (State.Waits · a b) (enter critical saved offset s) := by
  unfold Machine.enter
  split
  · trivial
  · have hm : ((((s.saveFor critical saved).setMsr (entryMsr critical s.msr)).setPc
        (vectorAddress s.spr.evpr offset))).Waits a b := by cases critical <;> exact h.of_same rfl rfl
    exact hm.contextSync.of_same rfl rfl

theorem State.Waits.raise {s : State} (h : s.Waits a b) (x : Exc) : Out.All (State.Waits · a b) (raise x s) := by
  cases x with
  | dataStorage ea store zone =>
    cases store <;> cases zone
    · exact (h.setSpr _).enter _ _ _
    · exact ((h.setSpr _).setSpr _).enter _ _ _
    · exact ((h.setSpr _).setSpr _).enter _ _ _
    · exact (((h.setSpr _).setSpr _).setSpr _).enter _ _ _
  | alignment ea | dataTlbMiss ea => exact (h.setSpr _).enter _ _ _
  | illegal | privileged | trap => exact (h.setSpr _).enter _ _ _
  | systemCall | instructionStorage | instructionTlbMiss | debug => exact h.enter _ _ _

/-- The end of an instruction keeps what waits. -/
theorem State.Waits.advance31 {s : State} (h : s.Waits a b) (b31 : Bool) : (s.advance31 b31).Waits a b := by
  cases b31 <;> exact h.of_same rfl rfl

/-- A cache instruction keeps what waits if its work does. -/
theorem State.Waits.cacheOp {s : State} (h : s.Waits a b) (side : CacheSide) (ea : Word) (store b31 : Bool)
    {work : Place → State → Result Unit} (hw : ∀ p s, s.Waits a b → (work p s).All (State.Waits · a b)) :
    Out.All (State.Waits · a b) (cacheOp side ea store b31 work s) :=
  Result.all_finish (Result.all_bind (Result.all_bind (h.dataPlace _ _ _) hw) fun _ _ h => h.advance31 b31)
    fun x _ h => h.raise x

/-- A touch keeps what waits if its work does. -/
theorem State.Waits.touchOp {s : State} (h : s.Waits a b) (side : CacheSide) (ea : Word) (b31 : Bool)
    {work : Place → State → Result Unit} (hw : ∀ p s, s.Waits a b → (work p s).All (State.Waits · a b)) :
    Out.All (State.Waits · a b) (touchOp side ea b31 work s) := by
  have hp := h.dataPlace side ea false
  unfold Machine.touchOp
  split <;> rename_i e <;> rw [e] at hp
  · exact Result.all_finish (Result.all_bind (hw _ _ hp) fun _ _ h => h.advance31 b31) fun x _ h => h.raise x
  · exact State.Waits.advance31 hp b31
  · trivial
  · trivial

/-! ### Where nothing is cacheable -/

theorem regionBit_zero (ea : Word) : regionBit 0#32 ea = false := by simp [regionBit, bit]

/-- Where nothing is cacheable, no address is in real mode (20_memory.md R119). -/
theorem State.realModePlace_cacheable {s : State} (h : s.nothingCacheable = true) (side : CacheSide) (ea : Word) :
    (s.realModePlace side ea).cacheable = false := by
  simp only [State.nothingCacheable, Bool.and_eq_true, beq_iff_eq] at h
  cases side
  · exact (congrArg (regionBit · ea) h.1.1).trans (regionBit_zero ea)
  · exact (congrArg (regionBit · ea) h.1.2).trans (regionBit_zero ea)

/-- Where nothing is cacheable, no address is under the entry that is picked for it (20_memory.md R116, R119). -/
theorem TlbEntry.place_cacheable {s t : State} {ea : Word} {i : BitVec 6} (h : s.nothingCacheable = true)
    (hp : s.tlbPick ea = (some i, t)) : ((s.tlbEntry i).place ea).cacheable = false := by
  have hm : i ∈ s.tlbMatches ea := by
    unfold State.tlbPick State.choose at hp
    split at hp
    · cases hp
    · rename_i e; cases hp; rw [e]; exact List.mem_singleton.2 rfl
    · rename_i e; rw [e]; exact List.mem_of_getElem? (Prod.mk.inj hp).1
  have hv := (List.mem_filter.1 hm).2
  simp only [TlbEntry.translates, Bool.and_eq_true] at hv
  simp only [State.nothingCacheable, Bool.and_eq_true, List.all_eq_true] at h
  have := h.2 (s.tlbEntry i) (by
    rw [State.tlbEntry, Vector.get_eq_getElem]; exact Vector.mem_toList_iff.2 (Vector.getElem_mem _))
  simpa [TlbEntry.place, hv.1.1] using this

/-- Where nothing is cacheable, no data access or cache instruction has a cacheable place. -/
theorem dataPlace_cacheable {s t : State} {side : CacheSide} {ea : Word} {store : Bool} {p : Place}
    (hc : s.nothingCacheable = true) (h : dataPlace side ea store s = .ok p t) : p.cacheable = false := by
  unfold dataPlace at h
  split at h
  · split at h
    · cases h
    · rename_i e
      simp only at h
      split at h
      · cases h
      · split at h
        · cases h
        · rw [(checkBounds_state h).1]; exact TlbEntry.place_cacheable hc e
  · rw [(checkBounds_state h).1]; exact State.realModePlace_cacheable hc _ _

/-- Where nothing is cacheable, no fetch has a cacheable place. -/
theorem fetchPlace_cacheable {s t : State} {p : Place} (hc : s.nothingCacheable = true)
    (h : fetchPlace s = .ok p t) : p.cacheable = false := by
  unfold fetchPlace at h
  split at h
  · split at h
    · cases h
    · rename_i e
      simp only at h
      split at h
      · cases h
      · rw [← (Result.ok.inj h).1]; exact TlbEntry.place_cacheable hc e
  · rw [← (Result.ok.inj h).1]; exact State.realModePlace_cacheable hc _ _

end Sys2Proof.Machine
end

