-- ==== Sys2Proof/Laws/Multiple.lean ====
section
/-! SUPPORT. The loops of the multiples and strings: what the first of their accesses can do, and that the loops can be
cut after any access. -/

namespace Sys2Proof.Machine

/-! ### Accesses one after another -/

theorem State.BlocksPlain.linesPlain {s : State} (h : s.BlocksPlain) : s.LinesPlain := fun c side hv _ => h c side hv

theorem plainAt_congr {s t : State} (h : t.memMap = s.memMap) {a : Word} {n : Nat} : t.PlainAt a n ↔ s.PlainAt a n := by
  simp [State.PlainAt, touches_congr h]

/-- Blocks stay plain where the valid lines are the same but for new ones of plain blocks. -/
theorem State.BlocksPlain.of_lines {s t : State} (h : s.BlocksPlain) (hm : t.memMap = s.memMap)
    (hl : ∀ c side, (t.dline c side).v = true →
      ((s.dline c side).v = true ∧ (t.dline c side).tag = (s.dline c side).tag) ∨
        s.PlainAt (dlineBase c (t.dline c side).tag) 16) : t.BlocksPlain := by
  intro c side hv
  rw [plainAt_congr hm]
  rcases hl c side hv with ⟨h1, h2⟩ | h1
  · rw [h2]; exact h c side h1
  · exact h1

theorem State.BlocksPlain.of_dcache {s t : State} (h : s.BlocksPlain) (hm : t.memMap = s.memMap)
    (hd : t.dcache = s.dcache) : t.BlocksPlain :=
  h.of_lines hm fun c side hv => .inl ⟨by rwa [State.dline_congr hd] at hv, by rw [State.dline_congr hd]⟩

theorem State.BlocksPlain.setDlru {s : State} (h : s.BlocksPlain) (c : BitVec 5) (v : Bool) :
    (s.setDlru c v).BlocksPlain :=
  h.of_lines rfl fun c' side hv => .inl ⟨by simpa using hv, by simp⟩

theorem dfill_blocksPlain {a : Word} {side : Side} {s t : State} {u : Unit} (hs : s.MemoryCoherent)
    (hb : s.BlocksPlain) (hp : s.blockPlain a = true) (h : dfill a side s = .ok u t) : t.BlocksPlain := by
  unfold dfill at h
  obtain ⟨v, s1, hr, h1⟩ := Result.bind_eq_ok.1 h
  obtain ⟨hk, hcache, -⟩ := castOut_keeps hs hr
  have hm : s1.memMap = s.memMap := (hk.frame .outside (by simp)).1
  rw [← (Result.ok.inj h1).2]
  refine hb.of_lines hm fun c sd hv => ?_
  rw [State.dline_setDline] at hv ⊢
  split
  · rename_i e
    refine .inr ?_
    rw [e.1, ← blockBase_eq]
    simpa [State.blockPlain, State.PlainAt] using hp
  · rename_i e
    rw [if_neg e] at hv
    rw [State.dline_congr hcache] at hv ⊢
    exact .inl ⟨hv, rfl⟩

theorem dtouch_blocksPlain {p : Place} {s t : State} {u : Unit} (hs : s.MemoryCoherent) (hb : s.BlocksPlain)
    (h : dtouch p s = .ok u t) : t.BlocksPlain := by
  unfold dtouch at h
  split at h
  · rw [← (Result.ok.inj h).2]; exact hb
  · simp only at h
    split at h
    · rw [← (Result.ok.inj h).2]
      exact (hb.setDlru _ _).of_dcache rfl rfl
    · split at h
      · rename_i hc
        obtain ⟨v, s1, hr, h1⟩ := Result.bind_eq_ok.1 h
        rw [← (Result.ok.inj h1).2]
        simp only [Bool.and_eq_true] at hc
        exact (dfill_blocksPlain (s := s.drawn) (KeepsView.drawn hs).coherent hb hc.2 hr).setDlru _ _
      · rw [← (Result.ok.inj h).2]; exact hb

theorem putData_blocksPlain {s : State} (hb : s.BlocksPlain) (p : Place) (a : Word) (b : Byte) :
    (s.putData p a b).BlocksPlain := by
  have hput : ∀ st : State, st.BlocksPlain → (st.putStorage a b).BlocksPlain := fun st h => by
    refine h.of_dcache ?_ (State.putStorage_dcache st a b)
    unfold State.putStorage; split <;> rfl
  unfold State.putData
  split
  · exact hput s hb
  · rename_i side _
    simp only
    have hset : ∀ l : DLine, l.v = (s.dline (dclass a) side).v → l.tag = (s.dline (dclass a) side).tag →
        ∀ x, ((s.keepOld a x).setDline (dclass a) side l).BlocksPlain := by
      intro l hv ht x
      refine hb.of_lines rfl fun c sd h => .inl ?_
      rw [State.dline_setDline] at h ⊢
      split
      · rename_i e
        rw [if_pos e] at h
        rw [e.1, e.2]
        exact ⟨hv ▸ h, ht⟩
      · rename_i e
        rw [if_neg e] at h
        exact ⟨h, rfl⟩
    split
    · apply hset <;> rfl
    · refine hput _ ?_
      apply hset <;> rfl

theorem putValue_blocksPlain {s : State} (hb : s.BlocksPlain) (p : Place) (n : Nat) (v : Word) :
    (s.putValue p n v).BlocksPlain := by
  unfold State.putValue
  generalize List.range n = l
  induction l generalizing s with
  | nil => exact hb
  | cons j l ih => exact ih (putData_blocksPlain hb _ _ _)

/-- What a part of a result answers. -/
def Result.answer {α : Type} : Result α → Option α
  | .ok a _ => some a
  | _ => none

theorem Result.answer_eq {α : Type} {r : Result α} {a : α} : r.answer = some a ↔ ∃ s, r = .ok a s := by
  cases r <;> simp [Result.answer]

/-- The place of an address rests on the MSR, the special purpose registers, the TLB and the draws alone. -/
theorem dataPlace_congr {s t : State} (hm : t.msr = s.msr) (hr : t.spr = s.spr) (ht : t.tlb = s.tlb)
    (hd : t.draws = s.draws) (side : CacheSide) (ea : Word) (store : Bool) :
    (dataPlace side ea store t).answer = (dataPlace side ea store s).answer := by
  have hpick : (t.tlbPick ea).1 = (s.tlbPick ea).1 := by
    have hmt : t.tlbMatches ea = s.tlbMatches ea := by simp [State.tlbMatches, State.tlbEntry, State.pidTag, ht, hr]
    unfold State.tlbPick State.choose
    rw [hmt]
    split <;> simp [State.undef, hd]
  have hbit : ∀ k, t.msrBit k = s.msrBit k := by intro k; simp [State.msrBit, hm]
  have hb : t.boundsForbid ea store = s.boundsForbid ea store := by simp [State.boundsForbid, hbit, hr]
  have hz : ∀ e, t.zoneForbids e = s.zoneForbids e := by
    intro e; simp [State.zoneForbids, State.zoneField, State.problem, hbit, hr]
  unfold dataPlace
  rw [hbit]
  split
  · rcases et : t.tlbPick ea with ⟨ot, t1⟩
    rcases es : s.tlbPick ea with ⟨os, s1⟩
    have hc1 := State.choose_state t (t.tlbMatches ea)
    have hc2 := State.choose_state s (s.tlbMatches ea)
    rw [et, es] at hpick
    rw [show t.choose (t.tlbMatches ea) = (ot, t1) from et] at hc1
    rw [show s.choose (s.tlbMatches ea) = (os, s1) from es] at hc2
    simp only at hpick
    subst hpick
    cases ot with
    | none => rfl
    | some i =>
      have h1 : t1.boundsForbid ea store = s.boundsForbid ea store ∧
          s1.boundsForbid ea store = s.boundsForbid ea store := by
        rcases hc1 with h | h <;> rcases hc2 with h' | h' <;> simp only at h h' <;> subst h <;> subst h' <;>
          exact ⟨hb, rfl⟩
      have he : t.tlbEntry i = s.tlbEntry i := by simp [State.tlbEntry, ht]
      simp only [hz, he, checkBounds, h1.1, h1.2]
      split
      · rfl
      · split
        · rfl
        · split <;> rfl
  · simp only [checkBounds, hb]
    split
    · rfl
    · simp [Result.answer, State.realModePlace, hr]

theorem mem_allRegs (r : Reg) : Part.reg r ∈ allRegs :=
  List.mem_map.2 ⟨r.toNat, List.mem_range.2 r.isLt, by simp⟩

theorem mem_allRegs_iff {p : Part} : p ∈ allRegs ↔ ∃ r, p = .reg r :=
  ⟨fun h => by obtain ⟨k, -, rfl⟩ := List.mem_map.1 h; exact ⟨_, rfl⟩, by rintro ⟨r, rfl⟩; exact mem_allRegs r⟩

/-- What stays while the accesses of one instruction are made. -/
structure Moved (s t : State) : Prop where
  coherent : t.MemoryCoherent
  blocksPlain : t.BlocksPlain
  frame : Unchanged (.memory :: .storage :: .dataCache :: allRegs) s t
  pc : t.pc = s.pc

theorem Moved.refl {s : State} (h : s.MemoryCoherent) (hb : s.BlocksPlain) : Moved s s :=
  ⟨h, hb, Unchanged.refl _ s, rfl⟩

theorem Moved.trans {s t u : State} (h1 : Moved s t) (h2 : Moved t u) : Moved s u :=
  ⟨h2.coherent, h2.blocksPlain, h1.frame.trans' h2.frame, h2.pc.trans h1.pc⟩

/-- Loads leave what the processor sees in memory. -/
theorem Moved.loads {s t : State} (h : Moved s t) (hs : ∀ a, t.dataByte a = s.dataByte a) :
    Unchanged (.storage :: .dataCache :: allRegs) s t := h.frame.withMemory hs

theorem Moved.setReg {s t : State} (h : Moved s t) (r : Reg) (v : Word) : Moved s (t.setReg r v) where
  coherent := State.memoryCoherent_congr (s := t) rfl rfl h.coherent
  blocksPlain := h.blocksPlain
  frame := h.frame.trans' ((unchanged_setReg t r v).mono (by
    intro p hp
    rw [List.mem_singleton.1 hp]
    simp [mem_allRegs]))
  pc := h.pc

/-- Registers and memory aside, nothing that decides where an access goes has changed. -/
theorem Moved.spr {s t : State} (h : Moved s t) : t.spr = s.spr := by
  have e : ∀ r : Spr, t.sprVal r = s.sprVal r := fun r => h.frame (.spr r) (by simp [mem_allRegs_iff])
  generalize ht : t.spr = x
  generalize hs : s.spr = y
  obtain ⟨⟩ := x
  obtain ⟨⟩ := y
  have e' : ∀ r : Spr, t.sprVal r = s.sprVal r := e
  simp only [Sprs.mk.injEq]
  refine ⟨?_, ?_, ?_, ?_, ?_, ?_, ?_, ?_, ?_, ?_, ?_, ?_, ?_, ?_, ?_, ?_, ?_, ?_, ?_, ?_, ?_, ?_, ?_, ?_, ?_, ?_, ?_, ?_,
    ?_, ?_, ?_, ?_, ?_, ?_⟩
  · simpa [State.sprVal, ht, hs] using e .srr0
  · simpa [State.sprVal, ht, hs] using e .srr1
  · simpa [State.sprVal, ht, hs] using e .srr2
  · simpa [State.sprVal, ht, hs] using e .srr3
  · simpa [State.sprVal, ht, hs] using e .sprg0
  · simpa [State.sprVal, ht, hs] using e .sprg1
  · simpa [State.sprVal, ht, hs] using e .sprg2
  · simpa [State.sprVal, ht, hs] using e .sprg3
  · simpa [State.sprVal, ht, hs] using e .zpr
  · simpa [State.sprVal, ht, hs] using e .pid
  · simpa [State.sprVal, ht, hs] using e .sgr
  · simpa [State.sprVal, ht, hs] using e .dcwr
  · simpa [State.sprVal, ht, hs] using e .icdbdr
  · simpa [State.sprVal, ht, hs] using e .esr
  · simpa [State.sprVal, ht, hs] using e .dear
  · simpa [State.sprVal, ht, hs] using e .evpr
  · simpa [State.sprVal, ht, hs] using e .cdbcr
  · simpa [State.sprVal, ht, hs] using e .tsr
  · simpa [State.sprVal, ht, hs] using e .tcr
  · simpa [State.sprVal, ht, hs] using e .pit
  · simpa [State.sprVal, ht, hs] using e .tbhi
  · simpa [State.sprVal, ht, hs] using e .tblo
  · simpa [State.sprVal, ht, hs] using e .dbsr
  · simpa [State.sprVal, ht, hs] using e .dbcr
  · simpa [State.sprVal, ht, hs] using e .iac1
  · simpa [State.sprVal, ht, hs] using e .iac2
  · simpa [State.sprVal, ht, hs] using e .dac1
  · simpa [State.sprVal, ht, hs] using e .dac2
  · simpa [State.sprVal, ht, hs] using e .dccr
  · simpa [State.sprVal, ht, hs] using e .iccr
  · simpa [State.sprVal, ht, hs] using e .pbl1
  · simpa [State.sprVal, ht, hs] using e .pbu1
  · simpa [State.sprVal, ht, hs] using e .pbl2
  · simpa [State.sprVal, ht, hs] using e .pbu2

theorem access_blocksPlain {ea : Word} {n : Nat} {store : Bool} {s t : State} {p : Place} (hs : s.MemoryCoherent)
    (hb : s.BlocksPlain) (h : access ea n store s = .ok p t) : t.BlocksPlain := by
  unfold access at h
  split at h
  · cases h
  · split at h
    · cases h
    · obtain ⟨q, s1, h1, h⟩ := Result.bind_eq_ok.1 h
      obtain ⟨u, s2, h2, h⟩ := Result.bind_eq_ok.1 h
      obtain ⟨v, s3, h3, h⟩ := Result.bind_eq_ok.1 h
      cases h
      rw [checkAccess_ok h2] at h3
      have hd := dataPlace_state h1
      refine dtouch_blocksPlain (KeepsView.of_draw hd hs).coherent ?_ h3
      rcases hd with rfl | rfl <;> exact hb

/-- An access of the run that is made, in a state that earlier accesses of it have led to. -/
theorem State.CanAccessEach.canAccess {s t : State} {ea : Word} {n : Nat} {store : Bool} {made : Nat → Prop}
    {place : Nat → Place} (h : s.CanAccessEach ea n store made place) (hn : n ∣ 2 ^ 32) (hm : Moved s t) {k : Nat}
    (hk : made k) : t.CanAccess (ea + BitVec.ofNat 32 (n * k)) n store (place k) where
  bigEndian := by
    have : t.msr = s.msr := hm.frame .msr (by simp [mem_allRegs_iff])
    simpa [State.BigEndian, State.msrBit, this] using h.bigEndian
  coherent := hm.coherent
  linesPlain := hm.blocksPlain.linesPlain
  aligned := by
    rw [BitVec.toNat_add, BitVec.toNat_ofNat, Nat.add_mod_mod, Nat.mod_mod_of_dvd _ hn, Nat.add_mul_mod_self_left]
    exact h.aligned
  translated := by
    have h1 := Result.answer_eq.2 (h.translated k hk t.draws)
    rw [← dataPlace_congr (s := s.setDraws t.draws) (t := t) (hm.frame .msr (by simp [mem_allRegs_iff])) hm.spr
      (hm.frame .tlb (by simp [mem_allRegs_iff])) rfl] at h1
    exact Result.answer_eq.1 h1
  plain := (plainAt_congr (hm.frame .outside (by simp [mem_allRegs_iff])).1).2 (h.plain k hk)

theorem State.CanAccessEach.mono {s : State} {ea : Word} {n : Nat} {store : Bool} {made made' : Nat → Prop}
    {place : Nat → Place} (h : s.CanAccessEach ea n store made place) (hm : ∀ k, made' k → made k) :
    s.CanAccessEach ea n store made' place :=
  ⟨h.bigEndian, h.coherent, h.blocksPlain, h.aligned, fun k hk => h.translated k (hm k hk),
    fun k hk => h.plain k (hm k hk)⟩

theorem State.CanAccessEach.moved {s : State} {ea : Word} {n : Nat} {store : Bool} {made : Nat → Prop}
    {place : Nat → Place} (h : s.CanAccessEach ea n store made place) : Moved s s :=
  .refl h.coherent h.blocksPlain

/-- In real mode with all of storage plain every aligned run goes through. -/
theorem State.RealStorage.canAccessEach {s : State} (h : s.RealStorage) {ea : Word} {n : Nat} (hal : ea.toNat % n = 0)
    (store : Bool) (made : Nat → Prop) :
    s.CanAccessEach ea n store made fun k => s.realModePlace .data (ea + BitVec.ofNat 32 (n * k)) where
  bigEndian := h.bigEndian
  coherent := h.coherent
  blocksPlain := by intro c side _; constructor <;> simp [State.touches, h.plain, regionKind]
  aligned := hal
  translated := fun _ _ draws =>
    ⟨_, dataPlace_real (s := s.setDraws draws) h.untranslated h.unbounded _ _ _⟩
  plain := fun _ _ => by constructor <;> simp [State.touches, h.plain, regionKind]

/-- A read of the run: the value the processor saw before the run. -/
theorem memRead_each {s t : State} {ea : Word} {n : Nat} {made : Nat → Prop} {place : Nat → Place}
    (h : s.CanAccessEach ea n false made place) (hn : n ∣ 2 ^ 32) (hm : Moved s t)
    (hsame : ∀ a, t.dataByte a = s.dataByte a) {k : Nat} (hk : made k) :
    ∃ u, memRead (ea + BitVec.ofNat 32 (n * k)) n t = .ok (s.dataValue (place k).real n) u ∧ Moved s u ∧
      (∀ a, u.dataByte a = s.dataByte a) ∧ ∀ r, u.reg r = t.reg r := by
  obtain ⟨u, h1, h2⟩ := memRead_completes (h.canAccess hn hm hk)
  obtain ⟨p, s1, h3, h4⟩ := Result.bind_eq_ok.1 h1
  have hb := access_blocksPlain hm.coherent hm.blocksPlain h3
  rw [(Result.ok.inj h4).2] at hb
  refine ⟨u, ?_, hm.trans ⟨h2.coherent, hb, h2.frame.mono (by simp), h2.pc⟩, fun a => (h2.same a).trans (hsame a),
    fun r => h2.frame (.reg r) (by simp)⟩
  rw [h1, State.dataValue_congr hsame]

/-- A write of the run. -/
theorem memWrite_each {s t : State} {ea : Word} {n : Nat} {v : Word} {made : Nat → Prop} {place : Nat → Place}
    (h : s.CanAccessEach ea n true made place) (hn : n ∣ 2 ^ 32) (hn4 : n ≤ 4) (hm : Moved s t) {k : Nat}
    (hk : made k) :
    ∃ u, memWrite (ea + BitVec.ofNat 32 (n * k)) n v t = .ok () u ∧ Moved s u ∧ Stores (place k) n v t u := by
  obtain ⟨u, h1, h2⟩ := memWrite_completes (v := v) hn4 (h.canAccess hn hm hk)
  obtain ⟨p, s1, h3, h4⟩ := Result.bind_eq_ok.1 h1
  have hb := putValue_blocksPlain (access_blocksPlain hm.coherent hm.blocksPlain h3) p n v
  rw [(Result.ok.inj h4).2] at hb
  exact ⟨u, h1, hm.trans ⟨h2.coherent, hb, h2.frame.mono (by simp), h2.pc⟩, h2⟩

/-! ### lmw and stmw -/

theorem regsFrom_succ (r : Reg) (k : Nat) : regsFrom r (k + 1) = regsFrom r k ++ [r + BitVec.ofNat 5 k] := by
  simp [regsFrom, List.range_succ]

@[simp] theorem regsFrom_length (r : Reg) (k : Nat) : (regsFrom r k).length = k := by simp [regsFrom]

theorem regsFrom_add (r : Reg) (k m : Nat) : regsFrom r (k + m) = regsFrom r k ++ regsFrom (r + BitVec.ofNat 5 k) m := by
  simp [regsFrom, List.range_add, BitVec.add_assoc, ← BitVec.ofNat_add]

theorem ea_succ (ea : Word) (n k : Nat) :
    ea + BitVec.ofNat 32 n + BitVec.ofNat 32 (n * k) = ea + BitVec.ofNat 32 (n * (k + 1)) := by
  rw [BitVec.add_assoc, ← BitVec.ofNat_add, Nat.mul_succ, Nat.add_comm]

theorem loadWords_append (ra : Reg) (l m : List Reg) (ea : Word) (s : State) : loadWords ra (l ++ m) ea s =
    (loadWords ra l ea s).bind fun _ s1 => loadWords ra m (ea + BitVec.ofNat 32 (4 * l.length)) s1 := by
  induction l generalizing ea s with
  | nil => simp [loadWords]
  | cons r l ih =>
    rw [List.cons_append, loadWords, loadWords, List.length_cons]
    split
    · cases memRead ea 4 s <;> simp [ih, ← ea_succ]
    · rw [ih, ← ea_succ]

theorem storeWords_append (l m : List Reg) (ea : Word) (s : State) : storeWords (l ++ m) ea s =
    (storeWords l ea s).bind fun _ s1 => storeWords m (ea + BitVec.ofNat 32 (4 * l.length)) s1 := by
  induction l generalizing ea s with
  | nil => simp [storeWords]
  | cons r l ih =>
    rw [List.cons_append, storeWords, storeWords, List.length_cons]
    cases memWrite ea 4 (s.reg r) s <;> simp [ih, ← ea_succ]

/-- The first words of an lmw. -/
theorem loadWords_first {s : State} {ea : Word} {rt ra : Reg} {place : Nat → Place} {k : Nat} (hk : k ≤ 32 - rt.toNat)
    (h : s.CanAccessEach ea 4 false (fun j => j < k ∧ wordLoads ra (rt + BitVec.ofNat 5 j) = true) place) :
    ∃ u, loadWords ra (regsFrom rt k) ea s = .ok () u ∧ Moved s u ∧ (∀ a, u.dataByte a = s.dataByte a) ∧
      WordsLoaded s u rt ra place k := by
  induction k with
  | zero =>
    refine ⟨s, rfl, h.moved, fun _ => rfl, fun r => ?_⟩
    rw [if_neg (by omega)]
  | succ k ih =>
    obtain ⟨u, h1, h2, h3, h4⟩ := ih (by omega) (h.mono fun j hj => ⟨by omega, hj.2⟩)
    rw [regsFrom_succ, loadWords_append, h1]
    simp only [Result.ok_bind, regsFrom_length, loadWords]
    have hreg : (rt + BitVec.ofNat 5 k).toNat = rt.toNat + k := by
      have := rt.isLt
      rw [BitVec.toNat_add, BitVec.toNat_ofNat]; omega
    by_cases hw : wordLoads ra (rt + BitVec.ofNat 5 k) = true
    · rw [if_pos (by simpa [wordLoads] using hw)]
      obtain ⟨v, g1, g2, g3, g4⟩ := memRead_each h (by decide) h2 h3 (k := k) ⟨by omega, hw⟩
      rw [g1]
      refine ⟨_, rfl, g2.setReg _ _, g3, fun r => ?_⟩
      rw [State.reg_setReg, g4, h4 r]
      by_cases hr : r = rt + BitVec.ofNat 5 k
      · rw [if_pos hr, if_pos ⟨by rw [hr, hreg]; omega, by rw [hr, hreg]; omega, hr ▸ hw⟩, State.dataValue_four, hr,
          hreg, Nat.add_sub_cancel_left]
        rfl
      · rw [if_neg hr]
        have : r.toNat ≠ rt.toNat + k := fun e => hr (BitVec.eq_of_toNat_eq (e.trans hreg.symm))
        exact if_congr ⟨fun e => ⟨e.1, by omega, e.2.2⟩, fun e => ⟨e.1, by omega, e.2.2⟩⟩ rfl rfl
    · rw [if_neg (by simpa [wordLoads] using hw)]
      refine ⟨u, rfl, h2, h3, fun r => ?_⟩
      rw [h4 r]
      refine if_congr ⟨fun e => ⟨e.1, by omega, e.2.2⟩, fun e => ⟨e.1, ?_, e.2.2⟩⟩ rfl rfl
      have : r.toNat ≠ rt.toNat + k := by
        intro e'
        rw [BitVec.eq_of_toNat_eq (e'.trans hreg.symm)] at e
        exact hw e.2.2
      omega

/-- Stores one after another: the next `n` bytes. -/
theorem BytesStored.step {s t u : State} {k n : Nat} {address : Nat → Word} {bytes : Nat → Byte} {p : Place} {v : Word}
    (h : BytesStored s t k address bytes) (hs : Stores p n v t u)
    (ha : ∀ i < n, address (k + i) = p.real + BitVec.ofNat 32 i) (hb : ∀ i < n, bytes (k + i) = valueByte v n i) :
    BytesStored s u (k + n) address bytes := by
  refine ⟨fun j hj hlast => ?_, fun x hx => ?_⟩
  · by_cases hjk : j < k
    · rw [hs.kept _ fun i hi e => hlast (k + i) (by omega) (by omega) ((ha i hi).trans e.symm)]
      exact h.1 j hjk fun l h1 h2 => hlast l h1 (by omega)
    · obtain ⟨i, rfl⟩ := Nat.exists_eq_add_of_le (Nat.le_of_not_lt hjk)
      rw [ha i (by omega), hb i (by omega)]
      exact hs.stored i (by omega)
  · rw [hs.kept x fun i hi e => hx (k + i) (by omega) (e.trans (ha i hi).symm)]
    exact h.2 x fun j hj => hx j (by omega)

theorem BytesStored.zero (s : State) (address : Nat → Word) (bytes : Nat → Byte) : BytesStored s s 0 address bytes :=
  ⟨fun _ h => absurd h (Nat.not_lt_zero _), fun _ _ => rfl⟩

/-- The first words of an stmw. -/
theorem storeWords_first {s : State} {ea : Word} {rs : Reg} {place : Nat → Place} {k : Nat}
    (h : s.CanAccessEach ea 4 true (· < k) place) :
    ∃ u, storeWords (regsFrom rs k) ea s = .ok () u ∧ Moved s u ∧ Unchanged [.memory, .storage, .dataCache] s u ∧
      BytesStored s u (4 * k) (fun m => (place (m / 4)).real + BitVec.ofNat 32 (m % 4)) (s.runByte rs) := by
  induction k with
  | zero => exact ⟨s, rfl, h.moved, Unchanged.refl _ s, .zero s _ _⟩
  | succ k ih =>
    obtain ⟨u, h1, h2, h3, h4⟩ := ih (h.mono fun j hj => by omega)
    rw [regsFrom_succ, storeWords_append, h1]
    simp only [Result.ok_bind, regsFrom_length, storeWords]
    obtain ⟨t, g1, g2, g3⟩ := memWrite_each (v := u.reg (rs + BitVec.ofNat 5 k)) h (by decide) (by omega) h2 (k := k)
      (by omega)
    rw [g1]
    have hreg : u.reg (rs + BitVec.ofNat 5 k) = s.reg (rs + BitVec.ofNat 5 k) := h3 (.reg _) (by simp)
    refine ⟨t, rfl, g2, h3.trans' g3.frame, ?_⟩
    rw [Nat.mul_succ]
    refine h4.step g3 (fun i hi => ?_) fun i hi => ?_
    · rw [show (4 * k + i) / 4 = k by omega, show (4 * k + i) % 4 = i by omega]
    · rw [State.runByte, show (4 * k + i) / 4 = k by omega, show (4 * k + i) % 4 = i by omega, hreg]
      unfold byteOf valueByte
      exact congrArg (fun x => BitVec.extractLsb' x 8 _) (by omega)

/-! ### The strings -/

theorem loadString_append (rt : Reg) (skip : Reg → Bool) (ea : Word) (l m : List Nat) (s : State) :
    loadString rt skip ea (l ++ m) s = (loadString rt skip ea l s).bind fun _ s1 => loadString rt skip ea m s1 := by
  induction l generalizing s with
  | nil => rfl
  | cons k l ih =>
    rw [List.cons_append, loadString, loadString]
    cases loadStringByte rt skip k (ea + BitVec.ofNat 32 k) s <;> simp [ih]

theorem storeString_append (rs : Reg) (ea : Word) (l m : List Nat) (s : State) :
    storeString rs ea (l ++ m) s = (storeString rs ea l s).bind fun _ s1 => storeString rs ea m s1 := by
  induction l generalizing s with
  | nil => rfl
  | cons k l ih =>
    rw [List.cons_append, storeString, storeString]
    generalize memWrite _ 1 _ s = r
    cases r <;> simp [ih]

/-- A byte of a string load that is read, by the register it goes to. -/
theorem stringReg_sub (rt : Reg) {k : Nat} (hk : k < 128) : (stringReg rt k - rt).toNat = k / 4 := by
  have := rt.isLt
  rw [stringReg, BitVec.toNat_sub, BitVec.toNat_add, BitVec.toNat_ofNat]
  omega

/-- A register is cleared before its first byte. -/
theorem BytesLoaded.begin {s t : State} {rt : Reg} {count : Nat} {skip : List Reg} {place : Nat → Place} {k : Nat}
    (h : BytesLoaded s t rt count skip place k k) (hk : k < 128)
    (hl : stringLoads rt count skip (stringReg rt k) = true) :
    BytesLoaded s (if k % 4 = 0 then t.setReg (stringReg rt k) 0#32 else t) rt count skip place (k + 1) k := by
  intro r
  have hr := h r
  simp only at hr ⊢
  by_cases h0 : k % 4 = 0
  · rw [if_pos h0]
    by_cases e : r = stringReg rt k
    · rw [e, stringReg_sub rt hk, if_pos ⟨by omega, hl⟩]
      intro m hm
      rw [State.reg_setReg_self, if_neg (by omega)]
      interval_cases m <;> rfl
    · rw [State.reg_setReg_ne _ _ e]
      have hj : (r - rt).toNat ≠ k / 4 := by
        intro e'
        rw [← stringReg_sub rt hk] at e'
        exact e ((BitVec.sub_left_inj (z := rt)).1 (BitVec.eq_of_toNat_eq e'))
      by_cases hc : 4 * (r - rt).toNat < k ∧ stringLoads rt count skip r = true
      · rw [if_pos hc] at hr
        rw [if_pos ⟨by omega, hc.2⟩]
        exact hr
      · rw [if_neg hc] at hr
        rw [if_neg fun c => hc ⟨by omega, c.2⟩]
        exact hr
  · rw [if_neg h0]
    have : (4 * (r - rt).toNat < k + 1) ↔ (4 * (r - rt).toNat < k) := by omega
    simp only [this]
    exact hr

/-- The byte is put in its register. -/
theorem BytesLoaded.put {s t : State} {rt : Reg} {count : Nat} {skip : List Reg} {place : Nat → Place} {k : Nat}
    {b : Byte} (h : BytesLoaded s t rt count skip place (k + 1) k) (hk : k < 128) (hb : b = s.dataByte (place k).real)
    (hl : stringLoads rt count skip (stringReg rt k) = true) :
    BytesLoaded s (t.setReg (stringReg rt k) (setByteOf (t.reg (stringReg rt k)) (k % 4) b)) rt count skip place (k + 1)
      (k + 1) := by
  intro r
  have hr := h r
  simp only at hr ⊢
  by_cases e : r = stringReg rt k
  · rw [e, stringReg_sub rt hk] at hr ⊢
    rw [if_pos ⟨by omega, hl⟩] at hr ⊢
    intro m hm
    rw [State.reg_setReg_self, byteOf_setByteOf _ _ _ _ (by omega) hm, hr m hm]
    by_cases hmk : m = k % 4
    · rw [if_pos hmk, if_pos (by omega), hb, hmk, show 4 * (k / 4) + k % 4 = k by omega]
    · rw [if_neg hmk]
      exact if_congr (by omega) rfl rfl
  · rw [State.reg_setReg_ne _ _ e]
    by_cases hc : 4 * (r - rt).toNat < k + 1 ∧ stringLoads rt count skip r = true
    · rw [if_pos hc] at hr ⊢
      intro m hm
      rw [hr m hm]
      have hj : (r - rt).toNat ≠ k / 4 := by
        intro e'
        rw [← stringReg_sub rt hk] at e'
        exact e ((BitVec.sub_left_inj (z := rt)).1 (BitVec.eq_of_toNat_eq e'))
      exact if_congr (by omega) rfl rfl
    · rw [if_neg hc] at hr ⊢
      exact hr

/-- A byte that is passed over. -/
theorem BytesLoaded.pass {s t : State} {rt : Reg} {count : Nat} {skip : List Reg} {place : Nat → Place} {k : Nat}
    (h : BytesLoaded s t rt count skip place k k) (hk : k < 128)
    (hl : stringLoads rt count skip (stringReg rt k) = false) :
    BytesLoaded s t rt count skip place (k + 1) (k + 1) := by
  intro r
  have hr := h r
  simp only at hr ⊢
  by_cases hc : 4 * (r - rt).toNat < k + 1 ∧ stringLoads rt count skip r = true
  · have hj : (r - rt).toNat ≠ k / 4 := by
      intro e'
      rw [← stringReg_sub rt hk] at e'
      rw [(BitVec.sub_left_inj (z := rt)).1 (BitVec.eq_of_toNat_eq e'), hl] at hc
      exact absurd hc.2 (by simp)
    rw [if_pos ⟨by omega, hc.2⟩] at hr
    rw [if_pos hc]
    intro m hm
    rw [hr m hm]
    exact if_congr (by omega) rfl rfl
  · rw [if_neg hc]
    rwa [if_neg fun c => hc ⟨by omega, c.2⟩] at hr

/-- The first bytes of a string load. -/
theorem loadString_first {s : State} {ea : Word} {rt : Reg} {count : Nat} {skip : List Reg} {skips : Reg → Bool}
    {place : Nat → Place} {k : Nat} (hk : k ≤ 128) (hskip : ∀ r, skips r = !stringLoads rt count skip r)
    (h : s.CanAccessEach ea 1 false (fun j => j < k ∧ stringLoads rt count skip (stringReg rt j) = true) place) :
    ∃ u, loadString rt skips ea (List.range k) s = .ok () u ∧ Moved s u ∧ (∀ a, u.dataByte a = s.dataByte a) ∧
      BytesLoaded s u rt count skip place k k := by
  induction k with
  | zero =>
    refine ⟨s, rfl, h.moved, fun _ => rfl, fun r => ?_⟩
    simp
  | succ k ih =>
    obtain ⟨u, h1, h2, h3, h4⟩ := ih (by omega) (h.mono fun j hj => ⟨by omega, hj.2⟩)
    rw [List.range_succ, loadString_append, h1]
    simp only [Result.ok_bind, loadString, loadStringByte, hskip]
    by_cases hl : stringLoads rt count skip (stringReg rt k) = true
    · simp only [hl, Bool.not_true, Bool.false_eq_true, if_false]
      have h5 := h4.begin (by omega) hl
      have h6 : Moved s (if k % 4 = 0 then u.setReg (stringReg rt k) 0#32 else u) := by
        split
        · exact h2.setReg _ _
        · exact h2
      have h7 : ∀ a, (if k % 4 = 0 then u.setReg (stringReg rt k) 0#32 else u).dataByte a = s.dataByte a := by
        split
        · exact h3
        · exact h3
      obtain ⟨v, g1, g2, g3, g4⟩ := memRead_each h (by decide) h6 h7 (k := k) ⟨by omega, hl⟩
      rw [Nat.one_mul] at g1
      rw [g1]
      refine ⟨_, rfl, g2.setReg _ _, g3, ?_⟩
      have h8 : BytesLoaded s v rt count skip place (k + 1) k := by
        intro r
        rw [g4]
        exact h5 r
      exact h8.put (by omega) (by rw [State.dataValue_one]; simp) hl
    · rw [Bool.not_eq_true] at hl
      simp only [hl, Bool.not_false, if_true]
      exact ⟨u, rfl, h2, h3, h4.pass (by omega) hl⟩

/-- The first bytes of a string store. -/
theorem storeString_first {s : State} {ea : Word} {rs : Reg} {place : Nat → Place} {k : Nat}
    (h : s.CanAccessEach ea 1 true (· < k) place) :
    ∃ u, storeString rs ea (List.range k) s = .ok () u ∧ Moved s u ∧ Unchanged [.memory, .storage, .dataCache] s u ∧
      BytesStored s u k (fun m => (place m).real) (s.runByte rs) := by
  induction k with
  | zero => exact ⟨s, rfl, h.moved, Unchanged.refl _ s, .zero s _ _⟩
  | succ k ih =>
    obtain ⟨u, h1, h2, h3, h4⟩ := ih (h.mono fun j hj => by omega)
    rw [List.range_succ, storeString_append, h1]
    simp only [Result.ok_bind, storeString]
    obtain ⟨t, g1, g2, g3⟩ := memWrite_each (v := (byteOf (u.reg (stringReg rs k)) (k % 4)).setWidth 32) h (by decide)
      (by omega) h2 (k := k) (by omega)
    rw [Nat.one_mul] at g1
    rw [g1]
    have hreg : u.reg (stringReg rs k) = s.reg (stringReg rs k) := h3 (.reg _) (by simp)
    refine ⟨t, rfl, g2, h3.trans' g3.frame, h4.step g3 (fun i hi => ?_) fun i hi => ?_⟩
    · obtain rfl : i = 0 := by omega
      simp
    · obtain rfl : i = 0 := by omega
      rw [State.runByte, Nat.add_zero, ← stringReg, hreg]
      generalize byteOf (s.reg (stringReg rs k)) (k % 4) = b
      apply BitVec.eq_of_getLsbD_eq
      intro i hi
      simp [valueByte, hi, show i < 32 by omega]

end Sys2Proof.Machine
end

