-- ==== Sys2Proof/Laws/PerInstr.lean ====
section
/-! SUPPORT. The family EncodingFits, one lemma per constructor: the word of an instruction matches its row of the opcode
table and has no reserved bit. -/

set_option Elab.async false

namespace Sys2Proof.Laws

/-- Row `k` of the opcode table is matched by the word of the instruction, and no reserved bit of it is 1. -/
def fitsRow (k : Nat) (i : Instr) : Prop :=
  ∃ r, opcodeRows[k]? = some r ∧ r.matches (encode i) = true ∧ encode i &&& r.reserved = 0#32

/-- Some row of the opcode table is matched by the word of the instruction, and no reserved bit of it is 1. -/
def EncodingFits.Statement (i : Instr) : Prop := ∃ k, fitsRow k i

theorem fitsRow_intro {i : Instr} {k : Nat} {r : Row} (hr : opcodeRows[k]? = some r) (hm : encode i &&& r.mask = r.code)
    (hz : encode i &&& r.reserved = 0#32) : fitsRow k i :=
  ⟨r, hr, by simpa [Row.matches] using hm, hz⟩

theorem EncodingFits.add (rt ra rb : Reg) (oe rc : Bool) :
    EncodingFits.Statement (.add rt ra rb oe rc) := by
  refine ⟨0, fitsRow_intro rfl ?_ ?_⟩ <;>
    simp (disch := decide) [encode, word_or_and, place_and_eq_zero, placeBit_and_eq_zero]

theorem EncodingFits.addc (rt ra rb : Reg) (oe rc : Bool) :
    EncodingFits.Statement (.addc rt ra rb oe rc) := by
  refine ⟨1, fitsRow_intro rfl ?_ ?_⟩ <;>
    simp (disch := decide) [encode, word_or_and, place_and_eq_zero, placeBit_and_eq_zero]

theorem EncodingFits.adde (rt ra rb : Reg) (oe rc : Bool) :
    EncodingFits.Statement (.adde rt ra rb oe rc) := by
  refine ⟨2, fitsRow_intro rfl ?_ ?_⟩ <;>
    simp (disch := decide) [encode, word_or_and, place_and_eq_zero, placeBit_and_eq_zero]

theorem EncodingFits.addi (rt ra : Reg) (im : BitVec 16) :
    EncodingFits.Statement (.addi rt ra im) := by
  refine ⟨3, fitsRow_intro rfl ?_ ?_⟩ <;>
    simp (disch := decide) [encode, word_or_and, place_and_eq_zero]

theorem EncodingFits.addic (rt ra : Reg) (im : BitVec 16) :
    EncodingFits.Statement (.addic rt ra im) := by
  refine ⟨4, fitsRow_intro rfl ?_ ?_⟩ <;>
    simp (disch := decide) [encode, word_or_and, place_and_eq_zero]

theorem EncodingFits.addicRc (rt ra : Reg) (im : BitVec 16) :
    EncodingFits.Statement (.addicRc rt ra im) := by
  refine ⟨5, fitsRow_intro rfl ?_ ?_⟩ <;>
    simp (disch := decide) [encode, word_or_and, place_and_eq_zero]

theorem EncodingFits.addis (rt ra : Reg) (im : BitVec 16) :
    EncodingFits.Statement (.addis rt ra im) := by
  refine ⟨6, fitsRow_intro rfl ?_ ?_⟩ <;>
    simp (disch := decide) [encode, word_or_and, place_and_eq_zero]

theorem EncodingFits.addme (rt ra : Reg) (oe rc : Bool) :
    EncodingFits.Statement (.addme rt ra oe rc) := by
  refine ⟨7, fitsRow_intro rfl ?_ ?_⟩ <;>
    simp (disch := decide) [encode, word_or_and, place_and_eq_zero, placeBit_and_eq_zero]

theorem EncodingFits.addze (rt ra : Reg) (oe rc : Bool) :
    EncodingFits.Statement (.addze rt ra oe rc) := by
  refine ⟨8, fitsRow_intro rfl ?_ ?_⟩ <;>
    simp (disch := decide) [encode, word_or_and, place_and_eq_zero, placeBit_and_eq_zero]

theorem EncodingFits.divw (rt ra rb : Reg) (oe rc : Bool) :
    EncodingFits.Statement (.divw rt ra rb oe rc) := by
  refine ⟨9, fitsRow_intro rfl ?_ ?_⟩ <;>
    simp (disch := decide) [encode, word_or_and, place_and_eq_zero, placeBit_and_eq_zero]

theorem EncodingFits.divwu (rt ra rb : Reg) (oe rc : Bool) :
    EncodingFits.Statement (.divwu rt ra rb oe rc) := by
  refine ⟨10, fitsRow_intro rfl ?_ ?_⟩ <;>
    simp (disch := decide) [encode, word_or_and, place_and_eq_zero, placeBit_and_eq_zero]

theorem EncodingFits.mulhw (rt ra rb : Reg) (rc : Bool) :
    EncodingFits.Statement (.mulhw rt ra rb rc) := by
  refine ⟨11, fitsRow_intro rfl ?_ ?_⟩ <;>
    simp (disch := decide) [encode, word_or_and, place_and_eq_zero, placeBit_and_eq_zero]

theorem EncodingFits.mulhwu (rt ra rb : Reg) (rc : Bool) :
    EncodingFits.Statement (.mulhwu rt ra rb rc) := by
  refine ⟨12, fitsRow_intro rfl ?_ ?_⟩ <;>
    simp (disch := decide) [encode, word_or_and, place_and_eq_zero, placeBit_and_eq_zero]

theorem EncodingFits.mulli (rt ra : Reg) (im : BitVec 16) :
    EncodingFits.Statement (.mulli rt ra im) := by
  refine ⟨13, fitsRow_intro rfl ?_ ?_⟩ <;>
    simp (disch := decide) [encode, word_or_and, place_and_eq_zero]

theorem EncodingFits.mullw (rt ra rb : Reg) (oe rc : Bool) :
    EncodingFits.Statement (.mullw rt ra rb oe rc) := by
  refine ⟨14, fitsRow_intro rfl ?_ ?_⟩ <;>
    simp (disch := decide) [encode, word_or_and, place_and_eq_zero, placeBit_and_eq_zero]

theorem EncodingFits.neg (rt ra : Reg) (oe rc : Bool) :
    EncodingFits.Statement (.neg rt ra oe rc) := by
  refine ⟨15, fitsRow_intro rfl ?_ ?_⟩ <;>
    simp (disch := decide) [encode, word_or_and, place_and_eq_zero, placeBit_and_eq_zero]

theorem EncodingFits.subf (rt ra rb : Reg) (oe rc : Bool) :
    EncodingFits.Statement (.subf rt ra rb oe rc) := by
  refine ⟨16, fitsRow_intro rfl ?_ ?_⟩ <;>
    simp (disch := decide) [encode, word_or_and, place_and_eq_zero, placeBit_and_eq_zero]

theorem EncodingFits.subfc (rt ra rb : Reg) (oe rc : Bool) :
    EncodingFits.Statement (.subfc rt ra rb oe rc) := by
  refine ⟨17, fitsRow_intro rfl ?_ ?_⟩ <;>
    simp (disch := decide) [encode, word_or_and, place_and_eq_zero, placeBit_and_eq_zero]

theorem EncodingFits.subfe (rt ra rb : Reg) (oe rc : Bool) :
    EncodingFits.Statement (.subfe rt ra rb oe rc) := by
  refine ⟨18, fitsRow_intro rfl ?_ ?_⟩ <;>
    simp (disch := decide) [encode, word_or_and, place_and_eq_zero, placeBit_and_eq_zero]

theorem EncodingFits.subfic (rt ra : Reg) (im : BitVec 16) :
    EncodingFits.Statement (.subfic rt ra im) := by
  refine ⟨19, fitsRow_intro rfl ?_ ?_⟩ <;>
    simp (disch := decide) [encode, word_or_and, place_and_eq_zero]

theorem EncodingFits.subfme (rt ra : Reg) (oe rc : Bool) :
    EncodingFits.Statement (.subfme rt ra oe rc) := by
  refine ⟨20, fitsRow_intro rfl ?_ ?_⟩ <;>
    simp (disch := decide) [encode, word_or_and, place_and_eq_zero, placeBit_and_eq_zero]

theorem EncodingFits.subfze (rt ra : Reg) (oe rc : Bool) :
    EncodingFits.Statement (.subfze rt ra oe rc) := by
  refine ⟨21, fitsRow_intro rfl ?_ ?_⟩ <;>
    simp (disch := decide) [encode, word_or_and, place_and_eq_zero, placeBit_and_eq_zero]

theorem EncodingFits.and (ra rs rb : Reg) (rc : Bool) :
    EncodingFits.Statement (.and ra rs rb rc) := by
  refine ⟨22, fitsRow_intro rfl ?_ ?_⟩ <;>
    simp (disch := decide) [encode, word_or_and, place_and_eq_zero, placeBit_and_eq_zero]

theorem EncodingFits.andc (ra rs rb : Reg) (rc : Bool) :
    EncodingFits.Statement (.andc ra rs rb rc) := by
  refine ⟨23, fitsRow_intro rfl ?_ ?_⟩ <;>
    simp (disch := decide) [encode, word_or_and, place_and_eq_zero, placeBit_and_eq_zero]

theorem EncodingFits.andiRc (ra rs : Reg) (im : BitVec 16) :
    EncodingFits.Statement (.andiRc ra rs im) := by
  refine ⟨24, fitsRow_intro rfl ?_ ?_⟩ <;>
    simp (disch := decide) [encode, word_or_and, place_and_eq_zero]

theorem EncodingFits.andisRc (ra rs : Reg) (im : BitVec 16) :
    EncodingFits.Statement (.andisRc ra rs im) := by
  refine ⟨25, fitsRow_intro rfl ?_ ?_⟩ <;>
    simp (disch := decide) [encode, word_or_and, place_and_eq_zero]

theorem EncodingFits.cntlzw (ra rs : Reg) (rc : Bool) :
    EncodingFits.Statement (.cntlzw ra rs rc) := by
  refine ⟨26, fitsRow_intro rfl ?_ ?_⟩ <;>
    simp (disch := decide) [encode, word_or_and, place_and_eq_zero, placeBit_and_eq_zero]

theorem EncodingFits.eqv (ra rs rb : Reg) (rc : Bool) :
    EncodingFits.Statement (.eqv ra rs rb rc) := by
  refine ⟨27, fitsRow_intro rfl ?_ ?_⟩ <;>
    simp (disch := decide) [encode, word_or_and, place_and_eq_zero, placeBit_and_eq_zero]

theorem EncodingFits.extsb (ra rs : Reg) (rc : Bool) :
    EncodingFits.Statement (.extsb ra rs rc) := by
  refine ⟨28, fitsRow_intro rfl ?_ ?_⟩ <;>
    simp (disch := decide) [encode, word_or_and, place_and_eq_zero, placeBit_and_eq_zero]

theorem EncodingFits.extsh (ra rs : Reg) (rc : Bool) :
    EncodingFits.Statement (.extsh ra rs rc) := by
  refine ⟨29, fitsRow_intro rfl ?_ ?_⟩ <;>
    simp (disch := decide) [encode, word_or_and, place_and_eq_zero, placeBit_and_eq_zero]

theorem EncodingFits.nand (ra rs rb : Reg) (rc : Bool) :
    EncodingFits.Statement (.nand ra rs rb rc) := by
  refine ⟨30, fitsRow_intro rfl ?_ ?_⟩ <;>
    simp (disch := decide) [encode, word_or_and, place_and_eq_zero, placeBit_and_eq_zero]

theorem EncodingFits.nor (ra rs rb : Reg) (rc : Bool) :
    EncodingFits.Statement (.nor ra rs rb rc) := by
  refine ⟨31, fitsRow_intro rfl ?_ ?_⟩ <;>
    simp (disch := decide) [encode, word_or_and, place_and_eq_zero, placeBit_and_eq_zero]

theorem EncodingFits.or (ra rs rb : Reg) (rc : Bool) :
    EncodingFits.Statement (.or ra rs rb rc) := by
  refine ⟨32, fitsRow_intro rfl ?_ ?_⟩ <;>
    simp (disch := decide) [encode, word_or_and, place_and_eq_zero, placeBit_and_eq_zero]

theorem EncodingFits.orc (ra rs rb : Reg) (rc : Bool) :
    EncodingFits.Statement (.orc ra rs rb rc) := by
  refine ⟨33, fitsRow_intro rfl ?_ ?_⟩ <;>
    simp (disch := decide) [encode, word_or_and, place_and_eq_zero, placeBit_and_eq_zero]

theorem EncodingFits.ori (ra rs : Reg) (im : BitVec 16) :
    EncodingFits.Statement (.ori ra rs im) := by
  refine ⟨34, fitsRow_intro rfl ?_ ?_⟩ <;>
    simp (disch := decide) [encode, word_or_and, place_and_eq_zero]

theorem EncodingFits.oris (ra rs : Reg) (im : BitVec 16) :
    EncodingFits.Statement (.oris ra rs im) := by
  refine ⟨35, fitsRow_intro rfl ?_ ?_⟩ <;>
    simp (disch := decide) [encode, word_or_and, place_and_eq_zero]

theorem EncodingFits.xor (ra rs rb : Reg) (rc : Bool) :
    EncodingFits.Statement (.xor ra rs rb rc) := by
  refine ⟨36, fitsRow_intro rfl ?_ ?_⟩ <;>
    simp (disch := decide) [encode, word_or_and, place_and_eq_zero, placeBit_and_eq_zero]

theorem EncodingFits.xori (ra rs : Reg) (im : BitVec 16) :
    EncodingFits.Statement (.xori ra rs im) := by
  refine ⟨37, fitsRow_intro rfl ?_ ?_⟩ <;>
    simp (disch := decide) [encode, word_or_and, place_and_eq_zero]

theorem EncodingFits.xoris (ra rs : Reg) (im : BitVec 16) :
    EncodingFits.Statement (.xoris ra rs im) := by
  refine ⟨38, fitsRow_intro rfl ?_ ?_⟩ <;>
    simp (disch := decide) [encode, word_or_and, place_and_eq_zero]

theorem EncodingFits.rlwimi (ra rs : Reg) (sh mb me : BitVec 5) (rc : Bool) :
    EncodingFits.Statement (.rlwimi ra rs sh mb me rc) := by
  refine ⟨39, fitsRow_intro rfl ?_ ?_⟩ <;>
    simp (disch := decide) [encode, word_or_and, place_and_eq_zero, placeBit_and_eq_zero]

theorem EncodingFits.rlwinm (ra rs : Reg) (sh mb me : BitVec 5) (rc : Bool) :
    EncodingFits.Statement (.rlwinm ra rs sh mb me rc) := by
  refine ⟨40, fitsRow_intro rfl ?_ ?_⟩ <;>
    simp (disch := decide) [encode, word_or_and, place_and_eq_zero, placeBit_and_eq_zero]

theorem EncodingFits.rlwnm (ra rs rb : Reg) (mb me : BitVec 5) (rc : Bool) :
    EncodingFits.Statement (.rlwnm ra rs rb mb me rc) := by
  refine ⟨41, fitsRow_intro rfl ?_ ?_⟩ <;>
    simp (disch := decide) [encode, word_or_and, place_and_eq_zero, placeBit_and_eq_zero]

theorem EncodingFits.slw (ra rs rb : Reg) (rc : Bool) :
    EncodingFits.Statement (.slw ra rs rb rc) := by
  refine ⟨42, fitsRow_intro rfl ?_ ?_⟩ <;>
    simp (disch := decide) [encode, word_or_and, place_and_eq_zero, placeBit_and_eq_zero]

theorem EncodingFits.sraw (ra rs rb : Reg) (rc : Bool) :
    EncodingFits.Statement (.sraw ra rs rb rc) := by
  refine ⟨43, fitsRow_intro rfl ?_ ?_⟩ <;>
    simp (disch := decide) [encode, word_or_and, place_and_eq_zero, placeBit_and_eq_zero]

theorem EncodingFits.srawi (ra rs : Reg) (sh : BitVec 5) (rc : Bool) :
    EncodingFits.Statement (.srawi ra rs sh rc) := by
  refine ⟨44, fitsRow_intro rfl ?_ ?_⟩ <;>
    simp (disch := decide) [encode, word_or_and, place_and_eq_zero, placeBit_and_eq_zero]

theorem EncodingFits.srw (ra rs rb : Reg) (rc : Bool) :
    EncodingFits.Statement (.srw ra rs rb rc) := by
  refine ⟨45, fitsRow_intro rfl ?_ ?_⟩ <;>
    simp (disch := decide) [encode, word_or_and, place_and_eq_zero, placeBit_and_eq_zero]

theorem EncodingFits.cmp (bf : BitVec 3) (ra rb : Reg) (b31 : Bool) :
    EncodingFits.Statement (.cmp bf ra rb b31) := by
  refine ⟨46, fitsRow_intro rfl ?_ ?_⟩ <;>
    simp (disch := decide) [encode, word_or_and, place_and_eq_zero, placeBit_and_eq_zero]

theorem EncodingFits.cmpi (bf : BitVec 3) (ra : Reg) (im : BitVec 16) :
    EncodingFits.Statement (.cmpi bf ra im) := by
  refine ⟨47, fitsRow_intro rfl ?_ ?_⟩ <;>
    simp (disch := decide) [encode, word_or_and, place_and_eq_zero]

theorem EncodingFits.cmpl (bf : BitVec 3) (ra rb : Reg) (b31 : Bool) :
    EncodingFits.Statement (.cmpl bf ra rb b31) := by
  refine ⟨48, fitsRow_intro rfl ?_ ?_⟩ <;>
    simp (disch := decide) [encode, word_or_and, place_and_eq_zero, placeBit_and_eq_zero]

theorem EncodingFits.cmpli (bf : BitVec 3) (ra : Reg) (im : BitVec 16) :
    EncodingFits.Statement (.cmpli bf ra im) := by
  refine ⟨49, fitsRow_intro rfl ?_ ?_⟩ <;>
    simp (disch := decide) [encode, word_or_and, place_and_eq_zero]

theorem EncodingFits.crand (bt ba bb : BitVec 5) :
    EncodingFits.Statement (.crand bt ba bb) := by
  refine ⟨50, fitsRow_intro rfl ?_ ?_⟩ <;>
    simp (disch := decide) [encode, word_or_and, place_and_eq_zero]

theorem EncodingFits.crandc (bt ba bb : BitVec 5) :
    EncodingFits.Statement (.crandc bt ba bb) := by
  refine ⟨51, fitsRow_intro rfl ?_ ?_⟩ <;>
    simp (disch := decide) [encode, word_or_and, place_and_eq_zero]

theorem EncodingFits.creqv (bt ba bb : BitVec 5) :
    EncodingFits.Statement (.creqv bt ba bb) := by
  refine ⟨52, fitsRow_intro rfl ?_ ?_⟩ <;>
    simp (disch := decide) [encode, word_or_and, place_and_eq_zero]

theorem EncodingFits.crnand (bt ba bb : BitVec 5) :
    EncodingFits.Statement (.crnand bt ba bb) := by
  refine ⟨53, fitsRow_intro rfl ?_ ?_⟩ <;>
    simp (disch := decide) [encode, word_or_and, place_and_eq_zero]

theorem EncodingFits.crnor (bt ba bb : BitVec 5) :
    EncodingFits.Statement (.crnor bt ba bb) := by
  refine ⟨54, fitsRow_intro rfl ?_ ?_⟩ <;>
    simp (disch := decide) [encode, word_or_and, place_and_eq_zero]

theorem EncodingFits.cror (bt ba bb : BitVec 5) :
    EncodingFits.Statement (.cror bt ba bb) := by
  refine ⟨55, fitsRow_intro rfl ?_ ?_⟩ <;>
    simp (disch := decide) [encode, word_or_and, place_and_eq_zero]

theorem EncodingFits.crorc (bt ba bb : BitVec 5) :
    EncodingFits.Statement (.crorc bt ba bb) := by
  refine ⟨56, fitsRow_intro rfl ?_ ?_⟩ <;>
    simp (disch := decide) [encode, word_or_and, place_and_eq_zero]

theorem EncodingFits.crxor (bt ba bb : BitVec 5) :
    EncodingFits.Statement (.crxor bt ba bb) := by
  refine ⟨57, fitsRow_intro rfl ?_ ?_⟩ <;>
    simp (disch := decide) [encode, word_or_and, place_and_eq_zero]

theorem EncodingFits.mcrf (bf bfa : BitVec 3) :
    EncodingFits.Statement (.mcrf bf bfa) := by
  refine ⟨58, fitsRow_intro rfl ?_ ?_⟩ <;>
    simp (disch := decide) [encode, word_or_and, place_and_eq_zero]

theorem EncodingFits.mcrxr (bf : BitVec 3) (b31 : Bool) :
    EncodingFits.Statement (.mcrxr bf b31) := by
  refine ⟨59, fitsRow_intro rfl ?_ ?_⟩ <;>
    simp (disch := decide) [encode, word_or_and, place_and_eq_zero, placeBit_and_eq_zero]

theorem EncodingFits.mfcr (rt : Reg) (b31 : Bool) :
    EncodingFits.Statement (.mfcr rt b31) := by
  refine ⟨60, fitsRow_intro rfl ?_ ?_⟩ <;>
    simp (disch := decide) [encode, word_or_and, place_and_eq_zero, placeBit_and_eq_zero]

theorem EncodingFits.mtcrf (fxm : BitVec 8) (rs : Reg) (b31 : Bool) :
    EncodingFits.Statement (.mtcrf fxm rs b31) := by
  refine ⟨61, fitsRow_intro rfl ?_ ?_⟩ <;>
    simp (disch := decide) [encode, word_or_and, place_and_eq_zero, placeBit_and_eq_zero]

theorem EncodingFits.b (li : BitVec 24) (aa lk : Bool) :
    EncodingFits.Statement (.b li aa lk) := by
  refine ⟨62, fitsRow_intro rfl ?_ ?_⟩ <;>
    simp (disch := decide) [encode, word_or_and, place_and_eq_zero, placeBit_and_eq_zero]

theorem EncodingFits.bc (bo bi : BitVec 5) (bd : BitVec 14) (aa lk : Bool) :
    EncodingFits.Statement (.bc bo bi bd aa lk) := by
  refine ⟨63, fitsRow_intro rfl ?_ ?_⟩ <;>
    simp (disch := decide) [encode, word_or_and, place_and_eq_zero, placeBit_and_eq_zero]

theorem EncodingFits.bcctr (bo bi : BitVec 5) (lk : Bool) :
    EncodingFits.Statement (.bcctr bo bi lk) := by
  refine ⟨64, fitsRow_intro rfl ?_ ?_⟩ <;>
    simp (disch := decide) [encode, word_or_and, place_and_eq_zero, placeBit_and_eq_zero]

theorem EncodingFits.bclr (bo bi : BitVec 5) (lk : Bool) :
    EncodingFits.Statement (.bclr bo bi lk) := by
  refine ⟨65, fitsRow_intro rfl ?_ ?_⟩ <;>
    simp (disch := decide) [encode, word_or_and, place_and_eq_zero, placeBit_and_eq_zero]

theorem EncodingFits.lbz (rt : Reg) (d : BitVec 16) (ra : Reg) :
    EncodingFits.Statement (.lbz rt d ra) := by
  refine ⟨66, fitsRow_intro rfl ?_ ?_⟩ <;>
    simp (disch := decide) [encode, word_or_and, place_and_eq_zero]

theorem EncodingFits.lbzu (rt : Reg) (d : BitVec 16) (ra : Reg) :
    EncodingFits.Statement (.lbzu rt d ra) := by
  refine ⟨67, fitsRow_intro rfl ?_ ?_⟩ <;>
    simp (disch := decide) [encode, word_or_and, place_and_eq_zero]

theorem EncodingFits.lbzux (rt ra rb : Reg) (b31 : Bool) :
    EncodingFits.Statement (.lbzux rt ra rb b31) := by
  refine ⟨68, fitsRow_intro rfl ?_ ?_⟩ <;>
    simp (disch := decide) [encode, word_or_and, place_and_eq_zero, placeBit_and_eq_zero]

theorem EncodingFits.lbzx (rt ra rb : Reg) (b31 : Bool) :
    EncodingFits.Statement (.lbzx rt ra rb b31) := by
  refine ⟨69, fitsRow_intro rfl ?_ ?_⟩ <;>
    simp (disch := decide) [encode, word_or_and, place_and_eq_zero, placeBit_and_eq_zero]

theorem EncodingFits.lha (rt : Reg) (d : BitVec 16) (ra : Reg) :
    EncodingFits.Statement (.lha rt d ra) := by
  refine ⟨70, fitsRow_intro rfl ?_ ?_⟩ <;>
    simp (disch := decide) [encode, word_or_and, place_and_eq_zero]

theorem EncodingFits.lhau (rt : Reg) (d : BitVec 16) (ra : Reg) :
    EncodingFits.Statement (.lhau rt d ra) := by
  refine ⟨71, fitsRow_intro rfl ?_ ?_⟩ <;>
    simp (disch := decide) [encode, word_or_and, place_and_eq_zero]

theorem EncodingFits.lhaux (rt ra rb : Reg) (b31 : Bool) :
    EncodingFits.Statement (.lhaux rt ra rb b31) := by
  refine ⟨72, fitsRow_intro rfl ?_ ?_⟩ <;>
    simp (disch := decide) [encode, word_or_and, place_and_eq_zero, placeBit_and_eq_zero]

theorem EncodingFits.lhax (rt ra rb : Reg) (b31 : Bool) :
    EncodingFits.Statement (.lhax rt ra rb b31) := by
  refine ⟨73, fitsRow_intro rfl ?_ ?_⟩ <;>
    simp (disch := decide) [encode, word_or_and, place_and_eq_zero, placeBit_and_eq_zero]

theorem EncodingFits.lhbrx (rt ra rb : Reg) (b31 : Bool) :
    EncodingFits.Statement (.lhbrx rt ra rb b31) := by
  refine ⟨74, fitsRow_intro rfl ?_ ?_⟩ <;>
    simp (disch := decide) [encode, word_or_and, place_and_eq_zero, placeBit_and_eq_zero]

theorem EncodingFits.lhz (rt : Reg) (d : BitVec 16) (ra : Reg) :
    EncodingFits.Statement (.lhz rt d ra) := by
  refine ⟨75, fitsRow_intro rfl ?_ ?_⟩ <;>
    simp (disch := decide) [encode, word_or_and, place_and_eq_zero]

theorem EncodingFits.lhzu (rt : Reg) (d : BitVec 16) (ra : Reg) :
    EncodingFits.Statement (.lhzu rt d ra) := by
  refine ⟨76, fitsRow_intro rfl ?_ ?_⟩ <;>
    simp (disch := decide) [encode, word_or_and, place_and_eq_zero]

theorem EncodingFits.lhzux (rt ra rb : Reg) (b31 : Bool) :
    EncodingFits.Statement (.lhzux rt ra rb b31) := by
  refine ⟨77, fitsRow_intro rfl ?_ ?_⟩ <;>
    simp (disch := decide) [encode, word_or_and, place_and_eq_zero, placeBit_and_eq_zero]

theorem EncodingFits.lhzx (rt ra rb : Reg) (b31 : Bool) :
    EncodingFits.Statement (.lhzx rt ra rb b31) := by
  refine ⟨78, fitsRow_intro rfl ?_ ?_⟩ <;>
    simp (disch := decide) [encode, word_or_and, place_and_eq_zero, placeBit_and_eq_zero]

theorem EncodingFits.lwarx (rt ra rb : Reg) (b31 : Bool) :
    EncodingFits.Statement (.lwarx rt ra rb b31) := by
  refine ⟨79, fitsRow_intro rfl ?_ ?_⟩ <;>
    simp (disch := decide) [encode, word_or_and, place_and_eq_zero, placeBit_and_eq_zero]

theorem EncodingFits.lwbrx (rt ra rb : Reg) (b31 : Bool) :
    EncodingFits.Statement (.lwbrx rt ra rb b31) := by
  refine ⟨80, fitsRow_intro rfl ?_ ?_⟩ <;>
    simp (disch := decide) [encode, word_or_and, place_and_eq_zero, placeBit_and_eq_zero]

theorem EncodingFits.lwz (rt : Reg) (d : BitVec 16) (ra : Reg) :
    EncodingFits.Statement (.lwz rt d ra) := by
  refine ⟨81, fitsRow_intro rfl ?_ ?_⟩ <;>
    simp (disch := decide) [encode, word_or_and, place_and_eq_zero]

theorem EncodingFits.lwzu (rt : Reg) (d : BitVec 16) (ra : Reg) :
    EncodingFits.Statement (.lwzu rt d ra) := by
  refine ⟨82, fitsRow_intro rfl ?_ ?_⟩ <;>
    simp (disch := decide) [encode, word_or_and, place_and_eq_zero]

theorem EncodingFits.lwzux (rt ra rb : Reg) (b31 : Bool) :
    EncodingFits.Statement (.lwzux rt ra rb b31) := by
  refine ⟨83, fitsRow_intro rfl ?_ ?_⟩ <;>
    simp (disch := decide) [encode, word_or_and, place_and_eq_zero, placeBit_and_eq_zero]

theorem EncodingFits.lwzx (rt ra rb : Reg) (b31 : Bool) :
    EncodingFits.Statement (.lwzx rt ra rb b31) := by
  refine ⟨84, fitsRow_intro rfl ?_ ?_⟩ <;>
    simp (disch := decide) [encode, word_or_and, place_and_eq_zero, placeBit_and_eq_zero]

theorem EncodingFits.stb (rs : Reg) (d : BitVec 16) (ra : Reg) :
    EncodingFits.Statement (.stb rs d ra) := by
  refine ⟨85, fitsRow_intro rfl ?_ ?_⟩ <;>
    simp (disch := decide) [encode, word_or_and, place_and_eq_zero]

theorem EncodingFits.stbu (rs : Reg) (d : BitVec 16) (ra : Reg) :
    EncodingFits.Statement (.stbu rs d ra) := by
  refine ⟨86, fitsRow_intro rfl ?_ ?_⟩ <;>
    simp (disch := decide) [encode, word_or_and, place_and_eq_zero]

theorem EncodingFits.stbux (rs ra rb : Reg) (b31 : Bool) :
    EncodingFits.Statement (.stbux rs ra rb b31) := by
  refine ⟨87, fitsRow_intro rfl ?_ ?_⟩ <;>
    simp (disch := decide) [encode, word_or_and, place_and_eq_zero, placeBit_and_eq_zero]

theorem EncodingFits.stbx (rs ra rb : Reg) (b31 : Bool) :
    EncodingFits.Statement (.stbx rs ra rb b31) := by
  refine ⟨88, fitsRow_intro rfl ?_ ?_⟩ <;>
    simp (disch := decide) [encode, word_or_and, place_and_eq_zero, placeBit_and_eq_zero]

theorem EncodingFits.sth (rs : Reg) (d : BitVec 16) (ra : Reg) :
    EncodingFits.Statement (.sth rs d ra) := by
  refine ⟨89, fitsRow_intro rfl ?_ ?_⟩ <;>
    simp (disch := decide) [encode, word_or_and, place_and_eq_zero]

theorem EncodingFits.sthbrx (rs ra rb : Reg) (b31 : Bool) :
    EncodingFits.Statement (.sthbrx rs ra rb b31) := by
  refine ⟨90, fitsRow_intro rfl ?_ ?_⟩ <;>
    simp (disch := decide) [encode, word_or_and, place_and_eq_zero, placeBit_and_eq_zero]

theorem EncodingFits.sthu (rs : Reg) (d : BitVec 16) (ra : Reg) :
    EncodingFits.Statement (.sthu rs d ra) := by
  refine ⟨91, fitsRow_intro rfl ?_ ?_⟩ <;>
    simp (disch := decide) [encode, word_or_and, place_and_eq_zero]

theorem EncodingFits.sthux (rs ra rb : Reg) (b31 : Bool) :
    EncodingFits.Statement (.sthux rs ra rb b31) := by
  refine ⟨92, fitsRow_intro rfl ?_ ?_⟩ <;>
    simp (disch := decide) [encode, word_or_and, place_and_eq_zero, placeBit_and_eq_zero]

theorem EncodingFits.sthx (rs ra rb : Reg) (b31 : Bool) :
    EncodingFits.Statement (.sthx rs ra rb b31) := by
  refine ⟨93, fitsRow_intro rfl ?_ ?_⟩ <;>
    simp (disch := decide) [encode, word_or_and, place_and_eq_zero, placeBit_and_eq_zero]

theorem EncodingFits.stw (rs : Reg) (d : BitVec 16) (ra : Reg) :
    EncodingFits.Statement (.stw rs d ra) := by
  refine ⟨94, fitsRow_intro rfl ?_ ?_⟩ <;>
    simp (disch := decide) [encode, word_or_and, place_and_eq_zero]

theorem EncodingFits.stwbrx (rs ra rb : Reg) (b31 : Bool) :
    EncodingFits.Statement (.stwbrx rs ra rb b31) := by
  refine ⟨95, fitsRow_intro rfl ?_ ?_⟩ <;>
    simp (disch := decide) [encode, word_or_and, place_and_eq_zero, placeBit_and_eq_zero]

theorem EncodingFits.stwcxRc (rs ra rb : Reg) :
    EncodingFits.Statement (.stwcxRc rs ra rb) := by
  refine ⟨96, fitsRow_intro rfl ?_ ?_⟩ <;>
    simp (disch := decide) [encode, word_or_and, place_and_eq_zero]

theorem EncodingFits.stwu (rs : Reg) (d : BitVec 16) (ra : Reg) :
    EncodingFits.Statement (.stwu rs d ra) := by
  refine ⟨97, fitsRow_intro rfl ?_ ?_⟩ <;>
    simp (disch := decide) [encode, word_or_and, place_and_eq_zero]

theorem EncodingFits.stwux (rs ra rb : Reg) (b31 : Bool) :
    EncodingFits.Statement (.stwux rs ra rb b31) := by
  refine ⟨98, fitsRow_intro rfl ?_ ?_⟩ <;>
    simp (disch := decide) [encode, word_or_and, place_and_eq_zero, placeBit_and_eq_zero]

theorem EncodingFits.stwx (rs ra rb : Reg) (b31 : Bool) :
    EncodingFits.Statement (.stwx rs ra rb b31) := by
  refine ⟨99, fitsRow_intro rfl ?_ ?_⟩ <;>
    simp (disch := decide) [encode, word_or_and, place_and_eq_zero, placeBit_and_eq_zero]

theorem EncodingFits.lmw (rt : Reg) (d : BitVec 16) (ra : Reg) :
    EncodingFits.Statement (.lmw rt d ra) := by
  refine ⟨100, fitsRow_intro rfl ?_ ?_⟩ <;>
    simp (disch := decide) [encode, word_or_and, place_and_eq_zero]

theorem EncodingFits.lswi (rt ra : Reg) (nb : BitVec 5) (b31 : Bool) :
    EncodingFits.Statement (.lswi rt ra nb b31) := by
  refine ⟨101, fitsRow_intro rfl ?_ ?_⟩ <;>
    simp (disch := decide) [encode, word_or_and, place_and_eq_zero, placeBit_and_eq_zero]

theorem EncodingFits.lswx (rt ra rb : Reg) (b31 : Bool) :
    EncodingFits.Statement (.lswx rt ra rb b31) := by
  refine ⟨102, fitsRow_intro rfl ?_ ?_⟩ <;>
    simp (disch := decide) [encode, word_or_and, place_and_eq_zero, placeBit_and_eq_zero]

theorem EncodingFits.stmw (rs : Reg) (d : BitVec 16) (ra : Reg) :
    EncodingFits.Statement (.stmw rs d ra) := by
  refine ⟨103, fitsRow_intro rfl ?_ ?_⟩ <;>
    simp (disch := decide) [encode, word_or_and, place_and_eq_zero]

theorem EncodingFits.stswi (rs ra : Reg) (nb : BitVec 5) (b31 : Bool) :
    EncodingFits.Statement (.stswi rs ra nb b31) := by
  refine ⟨104, fitsRow_intro rfl ?_ ?_⟩ <;>
    simp (disch := decide) [encode, word_or_and, place_and_eq_zero, placeBit_and_eq_zero]

theorem EncodingFits.stswx (rs ra rb : Reg) (b31 : Bool) :
    EncodingFits.Statement (.stswx rs ra rb b31) := by
  refine ⟨105, fitsRow_intro rfl ?_ ?_⟩ <;>
    simp (disch := decide) [encode, word_or_and, place_and_eq_zero, placeBit_and_eq_zero]

theorem EncodingFits.dcbf (ra rb : Reg) (b31 : Bool) :
    EncodingFits.Statement (.dcbf ra rb b31) := by
  refine ⟨106, fitsRow_intro rfl ?_ ?_⟩ <;>
    simp (disch := decide) [encode, word_or_and, place_and_eq_zero, placeBit_and_eq_zero]

theorem EncodingFits.dcbi (ra rb : Reg) (b31 : Bool) :
    EncodingFits.Statement (.dcbi ra rb b31) := by
  refine ⟨107, fitsRow_intro rfl ?_ ?_⟩ <;>
    simp (disch := decide) [encode, word_or_and, place_and_eq_zero, placeBit_and_eq_zero]

theorem EncodingFits.dcbst (ra rb : Reg) (b31 : Bool) :
    EncodingFits.Statement (.dcbst ra rb b31) := by
  refine ⟨108, fitsRow_intro rfl ?_ ?_⟩ <;>
    simp (disch := decide) [encode, word_or_and, place_and_eq_zero, placeBit_and_eq_zero]

theorem EncodingFits.dcbt (ra rb : Reg) (b31 : Bool) :
    EncodingFits.Statement (.dcbt ra rb b31) := by
  refine ⟨109, fitsRow_intro rfl ?_ ?_⟩ <;>
    simp (disch := decide) [encode, word_or_and, place_and_eq_zero, placeBit_and_eq_zero]

theorem EncodingFits.dcbtst (ra rb : Reg) (b31 : Bool) :
    EncodingFits.Statement (.dcbtst ra rb b31) := by
  refine ⟨110, fitsRow_intro rfl ?_ ?_⟩ <;>
    simp (disch := decide) [encode, word_or_and, place_and_eq_zero, placeBit_and_eq_zero]

theorem EncodingFits.dcbz (ra rb : Reg) (b31 : Bool) :
    EncodingFits.Statement (.dcbz ra rb b31) := by
  refine ⟨111, fitsRow_intro rfl ?_ ?_⟩ <;>
    simp (disch := decide) [encode, word_or_and, place_and_eq_zero, placeBit_and_eq_zero]

theorem EncodingFits.dccci (ra rb : Reg) (b31 : Bool) :
    EncodingFits.Statement (.dccci ra rb b31) := by
  refine ⟨112, fitsRow_intro rfl ?_ ?_⟩ <;>
    simp (disch := decide) [encode, word_or_and, place_and_eq_zero, placeBit_and_eq_zero]

theorem EncodingFits.dcread (rt ra rb : Reg) (b31 : Bool) :
    EncodingFits.Statement (.dcread rt ra rb b31) := by
  refine ⟨113, fitsRow_intro rfl ?_ ?_⟩ <;>
    simp (disch := decide) [encode, word_or_and, place_and_eq_zero, placeBit_and_eq_zero]

theorem EncodingFits.icbi (ra rb : Reg) (b31 : Bool) :
    EncodingFits.Statement (.icbi ra rb b31) := by
  refine ⟨114, fitsRow_intro rfl ?_ ?_⟩ <;>
    simp (disch := decide) [encode, word_or_and, place_and_eq_zero, placeBit_and_eq_zero]

theorem EncodingFits.icbt (ra rb : Reg) (b31 : Bool) :
    EncodingFits.Statement (.icbt ra rb b31) := by
  refine ⟨115, fitsRow_intro rfl ?_ ?_⟩ <;>
    simp (disch := decide) [encode, word_or_and, place_and_eq_zero, placeBit_and_eq_zero]

theorem EncodingFits.iccci (ra rb : Reg) (b31 : Bool) :
    EncodingFits.Statement (.iccci ra rb b31) := by
  refine ⟨116, fitsRow_intro rfl ?_ ?_⟩ <;>
    simp (disch := decide) [encode, word_or_and, place_and_eq_zero, placeBit_and_eq_zero]

theorem EncodingFits.icread (ra rb : Reg) (b31 : Bool) :
    EncodingFits.Statement (.icread ra rb b31) := by
  refine ⟨117, fitsRow_intro rfl ?_ ?_⟩ <;>
    simp (disch := decide) [encode, word_or_and, place_and_eq_zero, placeBit_and_eq_zero]

theorem EncodingFits.sync (b31 : Bool) :
    EncodingFits.Statement (.sync b31) := by
  refine ⟨118, fitsRow_intro rfl ?_ ?_⟩ <;>
    simp (disch := decide) [encode, word_or_and, placeBit_and_eq_zero]

theorem EncodingFits.eieio (b31 : Bool) :
    EncodingFits.Statement (.eieio b31) := by
  refine ⟨119, fitsRow_intro rfl ?_ ?_⟩ <;>
    simp (disch := decide) [encode, word_or_and, placeBit_and_eq_zero]

theorem EncodingFits.isync (b31 : Bool) :
    EncodingFits.Statement (.isync b31) := by
  refine ⟨120, fitsRow_intro rfl ?_ ?_⟩ <;>
    simp (disch := decide) [encode, word_or_and, placeBit_and_eq_zero]

theorem EncodingFits.sc :
    EncodingFits.Statement (.sc) := by
  refine ⟨121, fitsRow_intro rfl ?_ ?_⟩ <;>
    simp [encode]

theorem EncodingFits.rfi :
    EncodingFits.Statement (.rfi) := by
  refine ⟨122, fitsRow_intro rfl ?_ ?_⟩ <;>
    simp [encode]

theorem EncodingFits.rfci :
    EncodingFits.Statement (.rfci) := by
  refine ⟨123, fitsRow_intro rfl ?_ ?_⟩ <;>
    simp [encode]

theorem EncodingFits.mfmsr (rt : Reg) (b31 : Bool) :
    EncodingFits.Statement (.mfmsr rt b31) := by
  refine ⟨124, fitsRow_intro rfl ?_ ?_⟩ <;>
    simp (disch := decide) [encode, word_or_and, place_and_eq_zero, placeBit_and_eq_zero]

theorem EncodingFits.mtmsr (rs : Reg) (b31 : Bool) :
    EncodingFits.Statement (.mtmsr rs b31) := by
  refine ⟨125, fitsRow_intro rfl ?_ ?_⟩ <;>
    simp (disch := decide) [encode, word_or_and, place_and_eq_zero, placeBit_and_eq_zero]

theorem EncodingFits.wrtee (rs : Reg) (b31 : Bool) :
    EncodingFits.Statement (.wrtee rs b31) := by
  refine ⟨126, fitsRow_intro rfl ?_ ?_⟩ <;>
    simp (disch := decide) [encode, word_or_and, place_and_eq_zero, placeBit_and_eq_zero]

theorem EncodingFits.wrteei (e b31 : Bool) :
    EncodingFits.Statement (.wrteei e b31) := by
  refine ⟨127, fitsRow_intro rfl ?_ ?_⟩ <;>
    simp (disch := decide) [encode, word_or_and, placeBit_and_eq_zero]

theorem EncodingFits.mfspr (rt : Reg) (sprn : BitVec 10) (b31 : Bool) :
    EncodingFits.Statement (.mfspr rt sprn b31) := by
  refine ⟨128, fitsRow_intro rfl ?_ ?_⟩ <;>
    simp (disch := decide) [encode, word_or_and, place_and_eq_zero, placeBit_and_eq_zero]

theorem EncodingFits.mtspr (sprn : BitVec 10) (rs : Reg) (b31 : Bool) :
    EncodingFits.Statement (.mtspr sprn rs b31) := by
  refine ⟨129, fitsRow_intro rfl ?_ ?_⟩ <;>
    simp (disch := decide) [encode, word_or_and, place_and_eq_zero, placeBit_and_eq_zero]

theorem EncodingFits.mfdcr (rt : Reg) (dcrn : BitVec 10) (b31 : Bool) :
    EncodingFits.Statement (.mfdcr rt dcrn b31) := by
  refine ⟨130, fitsRow_intro rfl ?_ ?_⟩ <;>
    simp (disch := decide) [encode, word_or_and, place_and_eq_zero, placeBit_and_eq_zero]

theorem EncodingFits.mtdcr (dcrn : BitVec 10) (rs : Reg) (b31 : Bool) :
    EncodingFits.Statement (.mtdcr dcrn rs b31) := by
  refine ⟨131, fitsRow_intro rfl ?_ ?_⟩ <;>
    simp (disch := decide) [encode, word_or_and, place_and_eq_zero, placeBit_and_eq_zero]

theorem EncodingFits.tw (tcond : BitVec 5) (ra rb : Reg) (b31 : Bool) :
    EncodingFits.Statement (.tw tcond ra rb b31) := by
  refine ⟨132, fitsRow_intro rfl ?_ ?_⟩ <;>
    simp (disch := decide) [encode, word_or_and, place_and_eq_zero, placeBit_and_eq_zero]

theorem EncodingFits.twi (tcond : BitVec 5) (ra : Reg) (im : BitVec 16) :
    EncodingFits.Statement (.twi tcond ra im) := by
  refine ⟨133, fitsRow_intro rfl ?_ ?_⟩ <;>
    simp (disch := decide) [encode, word_or_and, place_and_eq_zero]

theorem EncodingFits.tlbia :
    EncodingFits.Statement (.tlbia) := by
  refine ⟨134, fitsRow_intro rfl ?_ ?_⟩ <;>
    simp [encode]

theorem EncodingFits.tlbre (rt ra : Reg) (ws : BitVec 5) (b31 : Bool) :
    EncodingFits.Statement (.tlbre rt ra ws b31) := by
  refine ⟨135, fitsRow_intro rfl ?_ ?_⟩ <;>
    simp (disch := decide) [encode, word_or_and, place_and_eq_zero, placeBit_and_eq_zero]

theorem EncodingFits.tlbsx (rt ra rb : Reg) (rc : Bool) :
    EncodingFits.Statement (.tlbsx rt ra rb rc) := by
  refine ⟨136, fitsRow_intro rfl ?_ ?_⟩ <;>
    simp (disch := decide) [encode, word_or_and, place_and_eq_zero, placeBit_and_eq_zero]

theorem EncodingFits.tlbsync :
    EncodingFits.Statement (.tlbsync) := by
  refine ⟨137, fitsRow_intro rfl ?_ ?_⟩ <;>
    simp [encode]

theorem EncodingFits.tlbwe (rs ra : Reg) (ws : BitVec 5) (b31 : Bool) :
    EncodingFits.Statement (.tlbwe rs ra ws b31) := by
  refine ⟨138, fitsRow_intro rfl ?_ ?_⟩ <;>
    simp (disch := decide) [encode, word_or_and, place_and_eq_zero, placeBit_and_eq_zero]

end Sys2Proof.Laws
end

