-- ==== Sys2Proof/Tests/Slice0.lean ====
section
/-! SUPPORT. Tests of single steps, with expected values from the vectors of the spec, the refusals of WellFormed, and
for each statement with hypotheses a state and operands that meet them. -/

set_option Elab.async false

namespace Sys2Proof.Tests

open Sys2Proof Sys2Proof.Machine

/-- The start state of the vectors: reset, the pc at 0x1000. -/
def m0 : State := State.reset.setPc 0x1000#32

end Sys2Proof.Tests

namespace Sys2Proof.Machine

/-- Bytes of main storage from an address on. -/
def State.withBytes (s : State) (a : Nat) (bs : List Byte) : State :=
  bs.zipIdx.foldl (fun s x => s.setMem (memSet s.mem (a + x.2) x.1)) s

/-- The TLB called T in section 2.12 of the vectors. -/
def State.withT (s : State) : State :=
  (s.setTlbEntry 2 ⟨0x400, 1, true, 7, 0x800, true, true, 3, false, true, false, false⟩).setTlbEntry 9
    ⟨0x3FF000, 5, true, 0, 0, false, false, 0, false, false, false, false⟩

/-- The bytes the processor sees from an address on. -/
def State.bytesAt (s : State) (a : Word) (n : Nat) : List Byte := (addrsFrom a n).map s.dataByte

end Sys2Proof.Machine

namespace Sys2Proof.Tests

open Sys2Proof Sys2Proof.Machine

/-- What is seen of the next state of an instruction, if there is one. -/
def after {α : Type} (i : Instr) (s : State) (f : State → α) : Option α :=
  match exec i s with
  | .next t => some (f t)
  | .fault _ => none
  | .refused _ => none

/-- A word decodes to an instruction, and the instruction leaves these values. -/
abbrev Runs {α : Type} (w : Word) (i : Instr) (s : State) (f : State → α) (v : α) : Prop :=
  decodeWord w = .ok i ∧ after i s f = some v

/-- 95_test_vectors.md section 2.1: addo. 3,4,5. -/
theorem test_add : Runs 0x7C642E15#32 (.add 3 4 5 true true)
    ((m0.setReg 4 0x7FFFFFFF#32).setReg 5 0x00000001#32)
    (fun t => (t.reg 3, t.xer, t.crField 0))
    (0x80000000#32, 0xC0000000#32, 0x9#4) := by
  decide +kernel

/-- 95_test_vectors.md section 2.1: addc 3,4,5. -/
theorem test_addc : Runs 0x7C642814#32 (.addc 3 4 5 false false)
    (((m0.setReg 4 0x00000001#32).setReg 5 0x00000002#32).setXer 0x20000000#32)
    (fun t => (t.reg 3, t.xer))
    (0x00000003#32, 0x00000000#32) := by
  decide +kernel

/-- 95_test_vectors.md section 2.1: adde 3,4,5. -/
theorem test_adde : Runs 0x7C642914#32 (.adde 3 4 5 false false)
    (((m0.setReg 4 0xFFFFFFFF#32).setReg 5 0x00000000#32).setXer 0x20000000#32)
    (fun t => (t.reg 3, t.xer))
    (0x00000000#32, 0x20000000#32) := by
  decide +kernel

/-- 95_test_vectors.md section 2.1: addi 3,0,-1. -/
theorem test_addi : Runs 0x3860FFFF#32 (.addi 3 0 65535)
    (m0.setReg 0 0x12345678#32)
    (fun t => t.reg 3)
    0xFFFFFFFF#32 := by
  decide +kernel

/-- 95_test_vectors.md section 2.1: addic 3,4,-1. -/
theorem test_addic : Runs 0x3064FFFF#32 (.addic 3 4 65535)
    ((m0.setReg 4 0x00000000#32).setXer 0x20000000#32)
    (fun t => (t.reg 3, t.xer))
    (0xFFFFFFFF#32, 0x00000000#32) := by
  decide +kernel

/-- 95_test_vectors.md section 2.1: addic. 3,4,-1. -/
theorem test_addicRc : Runs 0x3464FFFF#32 (.addicRc 3 4 65535)
    ((m0.setReg 4 0x00000000#32).setXer 0x80000000#32)
    (fun t => (t.reg 3, t.xer, t.crField 0))
    (0xFFFFFFFF#32, 0x80000000#32, 0x9#4) := by
  decide +kernel

/-- 95_test_vectors.md section 2.1: addis 3,4,0xFFFF. -/
theorem test_addis : Runs 0x3C64FFFF#32 (.addis 3 4 65535)
    (m0.setReg 4 0x00010000#32)
    (fun t => t.reg 3)
    0x00000000#32 := by
  decide +kernel

/-- 95_test_vectors.md section 2.1: addme 3,4. -/
theorem test_addme : Runs 0x7C6401D4#32 (.addme 3 4 false false)
    ((m0.setReg 4 0x00000000#32).setXer 0x00000000#32)
    (fun t => (t.reg 3, t.xer))
    (0xFFFFFFFF#32, 0x00000000#32) := by
  decide +kernel

/-- 95_test_vectors.md section 2.1: addze 3,4. -/
theorem test_addze : Runs 0x7C640194#32 (.addze 3 4 false false)
    ((m0.setReg 4 0xFFFFFFFF#32).setXer 0x20000000#32)
    (fun t => (t.reg 3, t.xer))
    (0x00000000#32, 0x20000000#32) := by
  decide +kernel

/-- 95_test_vectors.md section 2.1: divw 3,4,5. -/
theorem test_divw : Runs 0x7C642BD6#32 (.divw 3 4 5 false false)
    ((m0.setReg 4 0xFFFFFFF9#32).setReg 5 0x00000002#32)
    (fun t => t.reg 3)
    0xFFFFFFFD#32 := by
  decide +kernel

/-- 95_test_vectors.md section 2.1: divwu 3,4,5. -/
theorem test_divwu : Runs 0x7C642B96#32 (.divwu 3 4 5 false false)
    ((m0.setReg 4 0xFFFFFFF9#32).setReg 5 0x00000002#32)
    (fun t => t.reg 3)
    0x7FFFFFFC#32 := by
  decide +kernel

/-- 95_test_vectors.md section 2.1: mulhw 3,4,5. -/
theorem test_mulhw : Runs 0x7C642896#32 (.mulhw 3 4 5 false)
    ((m0.setReg 4 0x80000000#32).setReg 5 0x00000002#32)
    (fun t => t.reg 3)
    0xFFFFFFFF#32 := by
  decide +kernel

/-- 95_test_vectors.md section 2.1: mulhwu 3,4,5. -/
theorem test_mulhwu : Runs 0x7C642816#32 (.mulhwu 3 4 5 false)
    ((m0.setReg 4 0x80000000#32).setReg 5 0x00000002#32)
    (fun t => t.reg 3)
    0x00000001#32 := by
  decide +kernel

/-- 95_test_vectors.md section 2.1: mulli 3,4,-3. -/
theorem test_mulli : Runs 0x1C64FFFD#32 (.mulli 3 4 65533)
    (m0.setReg 4 0x00000007#32)
    (fun t => t.reg 3)
    0xFFFFFFEB#32 := by
  decide +kernel

/-- 95_test_vectors.md section 2.1: mullwo. 3,4,5. -/
theorem test_mullw : Runs 0x7C642DD7#32 (.mullw 3 4 5 true true)
    (((m0.setReg 4 0xFFFFFFFF#32).setReg 5 0xFFFFFFFF#32).setXer 0x40000000#32)
    (fun t => (t.reg 3, t.xer, t.crField 0))
    (0x00000001#32, 0x00000000#32, 0x4#4) := by
  decide +kernel

/-- 95_test_vectors.md section 2.1: nego. 3,4. -/
theorem test_neg : Runs 0x7C6404D1#32 (.neg 3 4 true true)
    (m0.setReg 4 0x80000000#32)
    (fun t => (t.reg 3, t.xer, t.crField 0))
    (0x80000000#32, 0xC0000000#32, 0x9#4) := by
  decide +kernel

/-- 95_test_vectors.md section 2.1: subfo. 3,4,5. -/
theorem test_subf : Runs 0x7C642C51#32 (.subf 3 4 5 true true)
    ((m0.setReg 4 0x00000001#32).setReg 5 0x80000000#32)
    (fun t => (t.reg 3, t.xer, t.crField 0))
    (0x7FFFFFFF#32, 0xC0000000#32, 0x5#4) := by
  decide +kernel

/-- 95_test_vectors.md section 2.1: subfc 3,4,5. -/
theorem test_subfc : Runs 0x7C642810#32 (.subfc 3 4 5 false false)
    (((m0.setReg 4 0x00000003#32).setReg 5 0x00000001#32).setXer 0x20000000#32)
    (fun t => (t.reg 3, t.xer))
    (0xFFFFFFFE#32, 0x00000000#32) := by
  decide +kernel

/-- 95_test_vectors.md section 2.1: subfe 3,4,5. -/
theorem test_subfe : Runs 0x7C642910#32 (.subfe 3 4 5 false false)
    (((m0.setReg 4 0x00000001#32).setReg 5 0x00000003#32).setXer 0x00000000#32)
    (fun t => (t.reg 3, t.xer))
    (0x00000001#32, 0x20000000#32) := by
  decide +kernel

/-- 95_test_vectors.md section 2.1: subfic 3,4,10. -/
theorem test_subfic : Runs 0x2064000A#32 (.subfic 3 4 10)
    (m0.setReg 4 0x00000003#32)
    (fun t => (t.reg 3, t.xer))
    (0x00000007#32, 0x20000000#32) := by
  decide +kernel

/-- 95_test_vectors.md section 2.1: subfme 3,4. -/
theorem test_subfme : Runs 0x7C6401D0#32 (.subfme 3 4 false false)
    ((m0.setReg 4 0x00000000#32).setXer 0x20000000#32)
    (fun t => (t.reg 3, t.xer))
    (0xFFFFFFFF#32, 0x20000000#32) := by
  decide +kernel

/-- 95_test_vectors.md section 2.1: subfze 3,4. -/
theorem test_subfze : Runs 0x7C640190#32 (.subfze 3 4 false false)
    ((m0.setReg 4 0xFFFFFFFF#32).setXer 0x20000000#32)
    (fun t => (t.reg 3, t.xer))
    (0x00000001#32, 0x00000000#32) := by
  decide +kernel

/-- 95_test_vectors.md section 2.2: and. 3,4,5. -/
theorem test_and : Runs 0x7C832839#32 (.and 3 4 5 true)
    ((m0.setReg 4 0xFF00FF00#32).setReg 5 0x00FF00FF#32)
    (fun t => (t.reg 3, t.crField 0))
    (0x00000000#32, 0x2#4) := by
  decide +kernel

/-- 95_test_vectors.md section 2.2: andc 3,4,5. -/
theorem test_andc : Runs 0x7C832878#32 (.andc 3 4 5 false)
    ((m0.setReg 4 0xFF00FF00#32).setReg 5 0x0FF00FF0#32)
    (fun t => t.reg 3)
    0xF000F000#32 := by
  decide +kernel

/-- 95_test_vectors.md section 2.2: andi. 3,4,0x00FF. -/
theorem test_andiRc : Runs 0x708300FF#32 (.andiRc 3 4 255)
    (m0.setReg 4 0x12345600#32)
    (fun t => (t.reg 3, t.crField 0))
    (0x00000000#32, 0x2#4) := by
  decide +kernel

/-- 95_test_vectors.md section 2.2: andis. 3,4,0x8000. -/
theorem test_andisRc : Runs 0x74838000#32 (.andisRc 3 4 32768)
    (m0.setReg 4 0x80000001#32)
    (fun t => (t.reg 3, t.crField 0))
    (0x80000000#32, 0x8#4) := by
  decide +kernel

/-- 95_test_vectors.md section 2.2: cntlzw 3,4. -/
theorem test_cntlzw : Runs 0x7C830034#32 (.cntlzw 3 4 false)
    (m0.setReg 4 0x00010000#32)
    (fun t => t.reg 3)
    0x0000000F#32 := by
  decide +kernel

/-- 95_test_vectors.md section 2.2: eqv 3,4,5. -/
theorem test_eqv : Runs 0x7C832A38#32 (.eqv 3 4 5 false)
    ((m0.setReg 4 0x0F0F0F0F#32).setReg 5 0x00FF00FF#32)
    (fun t => t.reg 3)
    0xF00FF00F#32 := by
  decide +kernel

/-- 95_test_vectors.md section 2.2: extsb 3,4. -/
theorem test_extsb : Runs 0x7C830774#32 (.extsb 3 4 false)
    (m0.setReg 4 0x12345680#32)
    (fun t => t.reg 3)
    0xFFFFFF80#32 := by
  decide +kernel

/-- 95_test_vectors.md section 2.2: extsh. 3,4. -/
theorem test_extsh : Runs 0x7C830735#32 (.extsh 3 4 true)
    (m0.setReg 4 0x12348000#32)
    (fun t => (t.reg 3, t.crField 0))
    (0xFFFF8000#32, 0x8#4) := by
  decide +kernel

/-- 95_test_vectors.md section 2.2: nand 3,4,5. -/
theorem test_nand : Runs 0x7C832BB8#32 (.nand 3 4 5 false)
    ((m0.setReg 4 0xFF00FF00#32).setReg 5 0x0FF00FF0#32)
    (fun t => t.reg 3)
    0xF0FFF0FF#32 := by
  decide +kernel

/-- 95_test_vectors.md section 2.2: nor 3,4,4. -/
theorem test_nor : Runs 0x7C8320F8#32 (.nor 3 4 4 false)
    (m0.setReg 4 0x0000FFFF#32)
    (fun t => t.reg 3)
    0xFFFF0000#32 := by
  decide +kernel

/-- 95_test_vectors.md section 2.2: or. 3,4,5. -/
theorem test_or : Runs 0x7C832B79#32 (.or 3 4 5 true)
    (((m0.setReg 4 0x00000000#32).setReg 5 0x00000000#32).setReg 3 0x00000005#32)
    (fun t => (t.reg 3, t.crField 0))
    (0x00000000#32, 0x2#4) := by
  decide +kernel

/-- 95_test_vectors.md section 2.2: orc 3,4,5. -/
theorem test_orc : Runs 0x7C832B38#32 (.orc 3 4 5 false)
    ((m0.setReg 4 0x0000000F#32).setReg 5 0xFFFF0000#32)
    (fun t => t.reg 3)
    0x0000FFFF#32 := by
  decide +kernel

/-- 95_test_vectors.md section 2.2: ori 3,4,0xFFFF. -/
theorem test_ori : Runs 0x6083FFFF#32 (.ori 3 4 65535)
    (m0.setReg 4 0x12340000#32)
    (fun t => t.reg 3)
    0x1234FFFF#32 := by
  decide +kernel

/-- 95_test_vectors.md section 2.2: oris 3,4,0xFFFF. -/
theorem test_oris : Runs 0x6483FFFF#32 (.oris 3 4 65535)
    (m0.setReg 4 0x00001234#32)
    (fun t => t.reg 3)
    0xFFFF1234#32 := by
  decide +kernel

/-- 95_test_vectors.md section 2.2: xor. 3,4,4. -/
theorem test_xor : Runs 0x7C832279#32 (.xor 3 4 4 true)
    ((m0.setReg 4 0x00001234#32).setReg 3 0x00000009#32)
    (fun t => (t.reg 3, t.crField 0))
    (0x00000000#32, 0x2#4) := by
  decide +kernel

/-- 95_test_vectors.md section 2.2: xori 3,4,0xFFFF. -/
theorem test_xori : Runs 0x6883FFFF#32 (.xori 3 4 65535)
    ((m0.setReg 4 0x0000FFFF#32).setReg 3 0x00000001#32)
    (fun t => t.reg 3)
    0x00000000#32 := by
  decide +kernel

/-- 95_test_vectors.md section 2.2: xoris 3,4,0x8000. -/
theorem test_xoris : Runs 0x6C838000#32 (.xoris 3 4 32768)
    (m0.setReg 4 0x00000001#32)
    (fun t => t.reg 3)
    0x80000001#32 := by
  decide +kernel

/-- 95_test_vectors.md section 2.3: rlwimi. 3,4,4,28,3. -/
theorem test_rlwimi : Runs 0x50832707#32 (.rlwimi 3 4 4 28 3 true)
    ((m0.setReg 4 0x0000000F#32).setReg 3 0x0FFFFFF0#32)
    (fun t => (t.reg 3, t.crField 0))
    (0x0FFFFFF0#32, 0x4#4) := by
  decide +kernel

/-- 95_test_vectors.md section 2.3: rlwinm 3,4,0,28,3. -/
theorem test_rlwinm : Runs 0x54830706#32 (.rlwinm 3 4 0 28 3 false)
    (m0.setReg 4 0x12345678#32)
    (fun t => t.reg 3)
    0x10000008#32 := by
  decide +kernel

/-- 95_test_vectors.md section 2.3: rlwnm 3,4,5,0,31. -/
theorem test_rlwnm : Runs 0x5C83283E#32 (.rlwnm 3 4 5 0 31 false)
    ((m0.setReg 4 0x80000001#32).setReg 5 0x00000021#32)
    (fun t => t.reg 3)
    0x00000003#32 := by
  decide +kernel

/-- 95_test_vectors.md section 2.3: slw 3,4,5. -/
theorem test_slw : Runs 0x7C832830#32 (.slw 3 4 5 false)
    ((m0.setReg 4 0xFFFFFFFF#32).setReg 5 0x00000040#32)
    (fun t => t.reg 3)
    0xFFFFFFFF#32 := by
  decide +kernel

/-- 95_test_vectors.md section 2.3: sraw 3,4,5. -/
theorem test_sraw : Runs 0x7C832E30#32 (.sraw 3 4 5 false)
    ((m0.setReg 4 0x80000005#32).setReg 5 0x00000002#32)
    (fun t => (t.reg 3, t.xer))
    (0xE0000001#32, 0x20000000#32) := by
  decide +kernel

/-- 95_test_vectors.md section 2.3: srawi. 3,4,31. -/
theorem test_srawi : Runs 0x7C83FE71#32 (.srawi 3 4 31 true)
    (m0.setReg 4 0x80000000#32)
    (fun t => (t.reg 3, t.xer, t.crField 0))
    (0xFFFFFFFF#32, 0x00000000#32, 0x8#4) := by
  decide +kernel

/-- 95_test_vectors.md section 2.3: srw. 3,4,5. -/
theorem test_srw : Runs 0x7C832C31#32 (.srw 3 4 5 true)
    (((m0.setReg 4 0x80000000#32).setReg 5 0x00000020#32).setReg 3 0x00000001#32)
    (fun t => (t.reg 3, t.crField 0))
    (0x00000000#32, 0x2#4) := by
  decide +kernel

/-- 95_test_vectors.md section 2.4: cmp 7,0,4,5. -/
theorem test_cmp : Runs 0x7F842800#32 (.cmp 7 4 5 false)
    (((m0.setReg 4 0x00000005#32).setReg 5 0x00000005#32).setXer 0x80000000#32)
    (fun t => t.crField 7)
    0x3#4 := by
  decide +kernel

/-- 95_test_vectors.md section 2.4: cmpi 0,0,4,0. -/
theorem test_cmpi : Runs 0x2C040000#32 (.cmpi 0 4 0)
    ((m0.setReg 4 0x80000000#32).setCr 0xFFFFFFFF#32)
    (fun t => t.crField 0)
    0x8#4 := by
  decide +kernel

/-- 95_test_vectors.md section 2.4: cmpl 0,0,4,5. -/
theorem test_cmpl : Runs 0x7C042840#32 (.cmpl 0 4 5 false)
    ((m0.setReg 4 0xFFFFFFFF#32).setReg 5 0x00000001#32)
    (fun t => t.crField 0)
    0x4#4 := by
  decide +kernel

/-- 95_test_vectors.md section 2.4: cmpli 1,0,4,0xFFFF. -/
theorem test_cmpli : Runs 0x2884FFFF#32 (.cmpli 1 4 65535)
    (m0.setReg 4 0xFFFFFFFF#32)
    (fun t => t.crField 1)
    0x4#4 := by
  decide +kernel

/-- 95_test_vectors.md section 2.4: crand 0,1,2. -/
theorem test_crand : Runs 0x4C011202#32 (.crand 0 1 2)
    (m0.setCr 0x60000000#32)
    (fun t => t.crField 0)
    0xE#4 := by
  decide +kernel

/-- 95_test_vectors.md section 2.4: crandc 0,1,2. -/
theorem test_crandc : Runs 0x4C011102#32 (.crandc 0 1 2)
    (m0.setCr 0x40000000#32)
    (fun t => t.crField 0)
    0xC#4 := by
  decide +kernel

/-- 95_test_vectors.md section 2.4: creqv 0,0,0. -/
theorem test_creqv : Runs 0x4C000242#32 (.creqv 0 0 0)
    m0
    (fun t => t.crField 0)
    0x8#4 := by
  decide +kernel

/-- 95_test_vectors.md section 2.4: crnand 31,0,1. -/
theorem test_crnand : Runs 0x4FE009C2#32 (.crnand 31 0 1)
    (m0.setCr 0xC0000000#32)
    (fun t => t.crField 7)
    0x0#4 := by
  decide +kernel

/-- 95_test_vectors.md section 2.4: crnor 2,0,0. -/
theorem test_crnor : Runs 0x4C400042#32 (.crnor 2 0 0)
    (m0.setCr 0x00000000#32)
    (fun t => t.crField 0)
    0x2#4 := by
  decide +kernel

/-- 95_test_vectors.md section 2.4: cror 5,6,6. -/
theorem test_cror : Runs 0x4CA63382#32 (.cror 5 6 6)
    (m0.setCr 0x02000000#32)
    (fun t => t.crField 1)
    0x6#4 := by
  decide +kernel

/-- 95_test_vectors.md section 2.4: crorc 0,1,2. -/
theorem test_crorc : Runs 0x4C011342#32 (.crorc 0 1 2)
    (m0.setCr 0x00000000#32)
    (fun t => t.crField 0)
    0x8#4 := by
  decide +kernel

/-- 95_test_vectors.md section 2.4: crxor 3,3,3. -/
theorem test_crxor : Runs 0x4C631982#32 (.crxor 3 3 3)
    (m0.setCr 0xF0000000#32)
    (fun t => t.crField 0)
    0xE#4 := by
  decide +kernel

/-- 95_test_vectors.md section 2.4: mcrf 0,7. -/
theorem test_mcrf : Runs 0x4C1C0000#32 (.mcrf 0 7)
    (m0.setCr 0x0000000A#32)
    (fun t => t.crField 0)
    0xA#4 := by
  decide +kernel

/-- 95_test_vectors.md section 2.4: mcrxr 7. -/
theorem test_mcrxr : Runs 0x7F800400#32 (.mcrxr 7 false)
    ((m0.setCr 0x0000000F#32).setXer 0x40000000#32)
    (fun t => (t.xer, t.crField 7))
    (0x00000000#32, 0x4#4) := by
  decide +kernel

/-- 95_test_vectors.md section 2.4: mfcr 3. -/
theorem test_mfcr : Runs 0x7C600026#32 (.mfcr 3 false)
    (m0.setCr 0x12345678#32)
    (fun t => t.reg 3)
    0x12345678#32 := by
  decide +kernel

/-- 95_test_vectors.md section 2.4: mtcrf 0x10,3. -/
theorem test_mtcrf : Runs 0x7C610120#32 (.mtcrf 16 3 false)
    ((m0.setReg 3 0x000F0000#32).setCr 0x00000000#32)
    (fun t => t.crField 3)
    0xF#4 := by
  decide +kernel

/-- 95_test_vectors.md section 2.5: bl .+8. -/
theorem test_b : Runs 0x48000009#32 (.b 2 false true)
    (m0.setPc 0x00001000#32)
    (fun t => (t.lr, t.pc))
    (0x00001004#32, 0x00001008#32) := by
  decide +kernel

/-- 95_test_vectors.md section 2.5: bdnz .-4 (bc 16,0,.-4). -/
theorem test_bc : Runs 0x4200FFFC#32 (.bc 16 0 16383 false false)
    ((m0.setPc 0x00000104#32).setCtr 0x00000000#32)
    (fun t => (t.ctr, t.pc))
    (0xFFFFFFFF#32, 0x00000100#32) := by
  decide +kernel

/-- 95_test_vectors.md section 2.5: bctrl (bcctrl 20,0). -/
theorem test_bcctr : Runs 0x4E800421#32 (.bcctr 20 0 true)
    ((m0.setPc 0x00000040#32).setCtr 0x00002000#32)
    (fun t => (t.lr, t.pc))
    (0x00000044#32, 0x00002000#32) := by
  decide +kernel

/-- 95_test_vectors.md section 2.5: blrl (bclrl 20,0). -/
theorem test_bclr : Runs 0x4E800021#32 (.bclr 20 0 true)
    ((m0.setPc 0x00000200#32).setLr 0x00001004#32)
    (fun t => (t.lr, t.pc))
    (0x00000204#32, 0x00001004#32) := by
  decide +kernel

/-- 95_test_vectors.md section 2.6: lbz 3,4107(0). -/
theorem test_lbz : Runs 0x8860100B#32 (.lbz 3 4107 0)
    ((((((m0.setReg 4 0x00001000#32).setReg 5 0x00000010#32).setPc 0x00000100#32).withBytes 0x00001008 [0x80, 0x01, 0xFE, 0x03]).withBytes 0x00001010 [0x11, 0x22, 0x33, 0x84]).setReg 0 0x00007777#32)
    (fun t => t.reg 3)
    0x00000003#32 := by
  decide +kernel

/-- 95_test_vectors.md section 2.6: lbzu 3,8(4). -/
theorem test_lbzu : Runs 0x8C640008#32 (.lbzu 3 8 4)
    (((((m0.setReg 4 0x00001000#32).setReg 5 0x00000010#32).setPc 0x00000100#32).withBytes 0x00001008 [0x80, 0x01, 0xFE, 0x03]).withBytes 0x00001010 [0x11, 0x22, 0x33, 0x84])
    (fun t => (t.reg 3, t.reg 4))
    (0x00000080#32, 0x00001008#32) := by
  decide +kernel

/-- 95_test_vectors.md section 2.6: lbzux 3,4,5. -/
theorem test_lbzux : Runs 0x7C6428EE#32 (.lbzux 3 4 5 false)
    (((((m0.setReg 4 0x00001000#32).setReg 5 0x00000010#32).setPc 0x00000100#32).withBytes 0x00001008 [0x80, 0x01, 0xFE, 0x03]).withBytes 0x00001010 [0x11, 0x22, 0x33, 0x84])
    (fun t => (t.reg 3, t.reg 4))
    (0x00000011#32, 0x00001010#32) := by
  decide +kernel

/-- 95_test_vectors.md section 2.6: lbzx 3,0,5. -/
theorem test_lbzx : Runs 0x7C6028AE#32 (.lbzx 3 0 5 false)
    (((((((m0.setReg 4 0x00001000#32).setReg 5 0x00000010#32).setPc 0x00000100#32).withBytes 0x00001008 [0x80, 0x01, 0xFE, 0x03]).withBytes 0x00001010 [0x11, 0x22, 0x33, 0x84]).setReg 5 0x00001013#32).setReg 0 0x00005555#32)
    (fun t => t.reg 3)
    0x00000084#32 := by
  decide +kernel

/-- 95_test_vectors.md section 2.6: lha 3,8(4). -/
theorem test_lha : Runs 0xA8640008#32 (.lha 3 8 4)
    (((((m0.setReg 4 0x00001000#32).setReg 5 0x00000010#32).setPc 0x00000100#32).withBytes 0x00001008 [0x80, 0x01, 0xFE, 0x03]).withBytes 0x00001010 [0x11, 0x22, 0x33, 0x84])
    (fun t => t.reg 3)
    0xFFFF8001#32 := by
  decide +kernel

/-- 95_test_vectors.md section 2.6: lhau 3,8(4). -/
theorem test_lhau : Runs 0xAC640008#32 (.lhau 3 8 4)
    (((((m0.setReg 4 0x00001000#32).setReg 5 0x00000010#32).setPc 0x00000100#32).withBytes 0x00001008 [0x80, 0x01, 0xFE, 0x03]).withBytes 0x00001010 [0x11, 0x22, 0x33, 0x84])
    (fun t => (t.reg 3, t.reg 4))
    (0xFFFF8001#32, 0x00001008#32) := by
  decide +kernel

/-- 95_test_vectors.md section 2.6: lhaux 3,4,5. -/
theorem test_lhaux : Runs 0x7C642AEE#32 (.lhaux 3 4 5 false)
    (((((m0.setReg 4 0x00001000#32).setReg 5 0x00000010#32).setPc 0x00000100#32).withBytes 0x00001008 [0x80, 0x01, 0xFE, 0x03]).withBytes 0x00001010 [0x11, 0x22, 0x33, 0x84])
    (fun t => (t.reg 3, t.reg 4))
    (0x00001122#32, 0x00001010#32) := by
  decide +kernel

/-- 95_test_vectors.md section 2.6: lhax 3,4,5. -/
theorem test_lhax : Runs 0x7C642AAE#32 (.lhax 3 4 5 false)
    (((((m0.setReg 4 0x00001000#32).setReg 5 0x00000010#32).setPc 0x00000100#32).withBytes 0x00001008 [0x80, 0x01, 0xFE, 0x03]).withBytes 0x00001010 [0x11, 0x22, 0x33, 0x84])
    (fun t => t.reg 3)
    0x00001122#32 := by
  decide +kernel

/-- 95_test_vectors.md section 2.6: lhbrx 3,4,5. -/
theorem test_lhbrx : Runs 0x7C642E2C#32 (.lhbrx 3 4 5 false)
    (((((m0.setReg 4 0x00001000#32).setReg 5 0x00000010#32).setPc 0x00000100#32).withBytes 0x00001008 [0x80, 0x01, 0xFE, 0x03]).withBytes 0x00001010 [0x11, 0x22, 0x33, 0x84])
    (fun t => t.reg 3)
    0x00002211#32 := by
  decide +kernel

/-- 95_test_vectors.md section 2.6: lhz 3,8(4). -/
theorem test_lhz : Runs 0xA0640008#32 (.lhz 3 8 4)
    (((((m0.setReg 4 0x00001000#32).setReg 5 0x00000010#32).setPc 0x00000100#32).withBytes 0x00001008 [0x80, 0x01, 0xFE, 0x03]).withBytes 0x00001010 [0x11, 0x22, 0x33, 0x84])
    (fun t => t.reg 3)
    0x00008001#32 := by
  decide +kernel

/-- 95_test_vectors.md section 2.6: lhzu 3,8(4). -/
theorem test_lhzu : Runs 0xA4640008#32 (.lhzu 3 8 4)
    (((((m0.setReg 4 0x00001000#32).setReg 5 0x00000010#32).setPc 0x00000100#32).withBytes 0x00001008 [0x80, 0x01, 0xFE, 0x03]).withBytes 0x00001010 [0x11, 0x22, 0x33, 0x84])
    (fun t => (t.reg 3, t.reg 4))
    (0x00008001#32, 0x00001008#32) := by
  decide +kernel

/-- 95_test_vectors.md section 2.6: lhzux 3,4,5. -/
theorem test_lhzux : Runs 0x7C642A6E#32 (.lhzux 3 4 5 false)
    (((((m0.setReg 4 0x00001000#32).setReg 5 0x00000010#32).setPc 0x00000100#32).withBytes 0x00001008 [0x80, 0x01, 0xFE, 0x03]).withBytes 0x00001010 [0x11, 0x22, 0x33, 0x84])
    (fun t => (t.reg 3, t.reg 4))
    (0x00001122#32, 0x00001010#32) := by
  decide +kernel

/-- 95_test_vectors.md section 2.6: lhzx 3,4,5. -/
theorem test_lhzx : Runs 0x7C642A2E#32 (.lhzx 3 4 5 false)
    (((((m0.setReg 4 0x00001000#32).setReg 5 0x00000010#32).setPc 0x00000100#32).withBytes 0x00001008 [0x80, 0x01, 0xFE, 0x03]).withBytes 0x00001010 [0x11, 0x22, 0x33, 0x84])
    (fun t => t.reg 3)
    0x00001122#32 := by
  decide +kernel

/-- 95_test_vectors.md section 2.6: lwarx 3,4,5. -/
theorem test_lwarx : Runs 0x7C642828#32 (.lwarx 3 4 5 false)
    ((((((m0.setReg 4 0x00001000#32).setReg 5 0x00000010#32).setPc 0x00000100#32).withBytes 0x00001008 [0x80, 0x01, 0xFE, 0x03]).withBytes 0x00001010 [0x11, 0x22, 0x33, 0x84]).setReserve false)
    (fun t => (t.reg 3, t.reserve))
    (0x11223384#32, true) := by
  decide +kernel

/-- 95_test_vectors.md section 2.6: lwbrx 3,4,5. -/
theorem test_lwbrx : Runs 0x7C642C2C#32 (.lwbrx 3 4 5 false)
    (((((m0.setReg 4 0x00001000#32).setReg 5 0x00000010#32).setPc 0x00000100#32).withBytes 0x00001008 [0x80, 0x01, 0xFE, 0x03]).withBytes 0x00001010 [0x11, 0x22, 0x33, 0x84])
    (fun t => t.reg 3)
    0x84332211#32 := by
  decide +kernel

/-- 95_test_vectors.md section 2.6: lwz 3,16(4). -/
theorem test_lwz : Runs 0x80640010#32 (.lwz 3 16 4)
    (((((((m0.setReg 4 0x00001000#32).setReg 5 0x00000010#32).setPc 0x00000100#32).withBytes 0x00001008 [0x80, 0x01, 0xFE, 0x03]).withBytes 0x00001010 [0x11, 0x22, 0x33, 0x84]).setReg 4 0xFFFFFFF8#32).withBytes 0x00000008 [0xDE, 0xAD, 0xBE, 0xEF])
    (fun t => t.reg 3)
    0xDEADBEEF#32 := by
  decide +kernel

/-- 95_test_vectors.md section 2.6: lwzu 3,8(4). -/
theorem test_lwzu : Runs 0x84640008#32 (.lwzu 3 8 4)
    (((((m0.setReg 4 0x00001000#32).setReg 5 0x00000010#32).setPc 0x00000100#32).withBytes 0x00001008 [0x80, 0x01, 0xFE, 0x03]).withBytes 0x00001010 [0x11, 0x22, 0x33, 0x84])
    (fun t => (t.reg 3, t.reg 4))
    (0x8001FE03#32, 0x00001008#32) := by
  decide +kernel

/-- 95_test_vectors.md section 2.6: lwzux 3,4,5. -/
theorem test_lwzux : Runs 0x7C64286E#32 (.lwzux 3 4 5 false)
    (((((m0.setReg 4 0x00001000#32).setReg 5 0x00000010#32).setPc 0x00000100#32).withBytes 0x00001008 [0x80, 0x01, 0xFE, 0x03]).withBytes 0x00001010 [0x11, 0x22, 0x33, 0x84])
    (fun t => (t.reg 3, t.reg 4))
    (0x11223384#32, 0x00001010#32) := by
  decide +kernel

/-- 95_test_vectors.md section 2.6: lwzx 3,4,5. -/
theorem test_lwzx : Runs 0x7C64282E#32 (.lwzx 3 4 5 false)
    (((((m0.setReg 4 0x00001000#32).setReg 5 0x00000010#32).setPc 0x00000100#32).withBytes 0x00001008 [0x80, 0x01, 0xFE, 0x03]).withBytes 0x00001010 [0x11, 0x22, 0x33, 0x84])
    (fun t => t.reg 3)
    0x11223384#32 := by
  decide +kernel

/-- 95_test_vectors.md section 2.6: stb 3,8(4). -/
theorem test_stb : Runs 0x98640008#32 (.stb 3 8 4)
    ((((m0.setReg 3 0xA1B2C3D4#32).setReg 4 0x00001000#32).setReg 5 0x00000010#32).setPc 0x00000100#32)
    (fun t => t.bytesAt 0x00001008 1)
    [0xD4] := by
  decide +kernel

/-- 95_test_vectors.md section 2.6: stbu 3,8(4). -/
theorem test_stbu : Runs 0x9C640008#32 (.stbu 3 8 4)
    ((((m0.setReg 3 0xA1B2C3D4#32).setReg 4 0x00001000#32).setReg 5 0x00000010#32).setPc 0x00000100#32)
    (fun t => (t.reg 4, t.bytesAt 0x00001008 1))
    (0x00001008#32, [0xD4]) := by
  decide +kernel

/-- 95_test_vectors.md section 2.6: stbux 3,4,5. -/
theorem test_stbux : Runs 0x7C6429EE#32 (.stbux 3 4 5 false)
    ((((m0.setReg 3 0xA1B2C3D4#32).setReg 4 0x00001000#32).setReg 5 0x00000010#32).setPc 0x00000100#32)
    (fun t => (t.reg 4, t.bytesAt 0x00001010 1))
    (0x00001010#32, [0xD4]) := by
  decide +kernel

/-- 95_test_vectors.md section 2.6: stbx 3,4,5. -/
theorem test_stbx : Runs 0x7C6429AE#32 (.stbx 3 4 5 false)
    ((((m0.setReg 3 0xA1B2C3D4#32).setReg 4 0x00001000#32).setReg 5 0x00000010#32).setPc 0x00000100#32)
    (fun t => t.bytesAt 0x00001010 1)
    [0xD4] := by
  decide +kernel

/-- 95_test_vectors.md section 2.6: sth 3,8(4). -/
theorem test_sth : Runs 0xB0640008#32 (.sth 3 8 4)
    ((((m0.setReg 3 0xA1B2C3D4#32).setReg 4 0x00001000#32).setReg 5 0x00000010#32).setPc 0x00000100#32)
    (fun t => t.bytesAt 0x00001008 2)
    [0xC3, 0xD4] := by
  decide +kernel

/-- 95_test_vectors.md section 2.6: sthbrx 3,4,5. -/
theorem test_sthbrx : Runs 0x7C642F2C#32 (.sthbrx 3 4 5 false)
    ((((m0.setReg 3 0xA1B2C3D4#32).setReg 4 0x00001000#32).setReg 5 0x00000010#32).setPc 0x00000100#32)
    (fun t => t.bytesAt 0x00001010 2)
    [0xD4, 0xC3] := by
  decide +kernel

/-- 95_test_vectors.md section 2.6: sthu 3,8(4). -/
theorem test_sthu : Runs 0xB4640008#32 (.sthu 3 8 4)
    ((((m0.setReg 3 0xA1B2C3D4#32).setReg 4 0x00001000#32).setReg 5 0x00000010#32).setPc 0x00000100#32)
    (fun t => (t.reg 4, t.bytesAt 0x00001008 2))
    (0x00001008#32, [0xC3, 0xD4]) := by
  decide +kernel

/-- 95_test_vectors.md section 2.6: sthux 3,4,5. -/
theorem test_sthux : Runs 0x7C642B6E#32 (.sthux 3 4 5 false)
    ((((m0.setReg 3 0xA1B2C3D4#32).setReg 4 0x00001000#32).setReg 5 0x00000010#32).setPc 0x00000100#32)
    (fun t => (t.reg 4, t.bytesAt 0x00001010 2))
    (0x00001010#32, [0xC3, 0xD4]) := by
  decide +kernel

/-- 95_test_vectors.md section 2.6: sthx 3,4,5. -/
theorem test_sthx : Runs 0x7C642B2E#32 (.sthx 3 4 5 false)
    ((((m0.setReg 3 0xA1B2C3D4#32).setReg 4 0x00001000#32).setReg 5 0x00000010#32).setPc 0x00000100#32)
    (fun t => t.bytesAt 0x00001010 2)
    [0xC3, 0xD4] := by
  decide +kernel

/-- 95_test_vectors.md section 2.6: stw 3,0(4). -/
theorem test_stw : Runs 0x90640000#32 (.stw 3 0 4)
    (((((m0.setReg 3 0xA1B2C3D4#32).setReg 4 0x00001000#32).setReg 5 0x00000010#32).setPc 0x00000100#32).setReserve true)
    (fun t => t.bytesAt 0x00001000 4)
    [0xA1, 0xB2, 0xC3, 0xD4] := by
  decide +kernel

/-- 95_test_vectors.md section 2.6: stwbrx 3,4,5. -/
theorem test_stwbrx : Runs 0x7C642D2C#32 (.stwbrx 3 4 5 false)
    ((((m0.setReg 3 0xA1B2C3D4#32).setReg 4 0x00001000#32).setReg 5 0x00000010#32).setPc 0x00000100#32)
    (fun t => t.bytesAt 0x00001010 4)
    [0xD4, 0xC3, 0xB2, 0xA1] := by
  decide +kernel

/-- 95_test_vectors.md section 2.6: stwcx. 3,4,5. -/
theorem test_stwcxRc : Runs 0x7C64292D#32 (.stwcxRc 3 4 5)
    ((((((m0.setReg 3 0xA1B2C3D4#32).setReg 4 0x00001000#32).setReg 5 0x00000010#32).setPc 0x00000100#32).setXer 0x80000000#32).setReserve true)
    (fun t => (t.crField 0, t.reserve, t.bytesAt 0x00001010 4))
    (0x3#4, false, [0xA1, 0xB2, 0xC3, 0xD4]) := by
  decide +kernel

/-- 95_test_vectors.md section 2.6: stwu 4,-4(4). -/
theorem test_stwu : Runs 0x9484FFFC#32 (.stwu 4 65532 4)
    ((((m0.setReg 3 0xA1B2C3D4#32).setReg 4 0x00001000#32).setReg 5 0x00000010#32).setPc 0x00000100#32)
    (fun t => (t.reg 4, t.bytesAt 0x00000FFC 4))
    (0x00000FFC#32, [0x00, 0x00, 0x10, 0x00]) := by
  decide +kernel

/-- 95_test_vectors.md section 2.6: stwux 3,4,5. -/
theorem test_stwux : Runs 0x7C64296E#32 (.stwux 3 4 5 false)
    ((((m0.setReg 3 0xA1B2C3D4#32).setReg 4 0x00001000#32).setReg 5 0x00000010#32).setPc 0x00000100#32)
    (fun t => (t.reg 4, t.bytesAt 0x00001010 4))
    (0x00001010#32, [0xA1, 0xB2, 0xC3, 0xD4]) := by
  decide +kernel

/-- 95_test_vectors.md section 2.6: stwx 3,4,5. -/
theorem test_stwx : Runs 0x7C64292E#32 (.stwx 3 4 5 false)
    ((((m0.setReg 3 0xA1B2C3D4#32).setReg 4 0x00001000#32).setReg 5 0x00000010#32).setPc 0x00000100#32)
    (fun t => t.bytesAt 0x00001010 4)
    [0xA1, 0xB2, 0xC3, 0xD4] := by
  decide +kernel

/-- 95_test_vectors.md section 2.7: lmw 29,0(30). -/
theorem test_lmw : Runs 0xBBBE0000#32 (.lmw 29 0 30)
    (((m0.setReg 30 0x00001000#32).setPc 0x00000100#32).withBytes 0x00001000 [0x00, 0x00, 0x00, 0x0A, 0x00, 0x00, 0x00, 0x0B, 0x00, 0x00, 0x00, 0x0C])
    (fun t => (t.reg 29, t.reg 31))
    (0x0000000A#32, 0x0000000C#32) := by
  decide +kernel

/-- 95_test_vectors.md section 2.7: lswi 30,4,0. -/
theorem test_lswi : Runs 0x7FC404AA#32 (.lswi 30 4 0 false)
    (((m0.setReg 4 0x00001000#32).setPc 0x00000100#32).withBytes 0x00001000 [0x01, 0x02, 0x03, 0x04, 0x05, 0x06, 0x07, 0x08, 0x09, 0x0A, 0x0B, 0x0C, 0x0D, 0x0E, 0x0F, 0x10, 0x11, 0x12, 0x13, 0x14, 0x15, 0x16, 0x17, 0x18, 0x19, 0x1A, 0x1B, 0x1C, 0x1D, 0x1E, 0x1F, 0x20])
    (fun t => (t.reg 0, t.reg 1, t.reg 2, t.reg 3, t.reg 5, t.reg 30, t.reg 31))
    (0x090A0B0C#32, 0x0D0E0F10#32, 0x11121314#32, 0x15161718#32, 0x1D1E1F20#32, 0x01020304#32, 0x05060708#32) := by
  decide +kernel

/-- 95_test_vectors.md section 2.7: lswx 5,4,7. -/
theorem test_lswx : Runs 0x7CA43C2A#32 (.lswx 5 4 7 false)
    (((((m0.setReg 4 0x00001000#32).setReg 7 0x00000000#32).setPc 0x00000100#32).setXer 0x20000009#32).withBytes 0x00001000 [0xA1, 0xA2, 0xA3, 0xA4, 0xA5, 0xA6, 0xA7, 0xA8, 0xA9])
    (fun t => (t.reg 5, t.reg 6, t.reg 7))
    (0xA1A2A3A4#32, 0xA5A6A7A8#32, 0xA9000000#32) := by
  decide +kernel

/-- 95_test_vectors.md section 2.7: stmw 29,-12(1). -/
theorem test_stmw : Runs 0xBFA1FFF4#32 (.stmw 29 65524 1)
    (((((m0.setReg 1 0x00002000#32).setReg 29 0x0000001D#32).setReg 30 0x0000001E#32).setReg 31 0x0000001F#32).setPc 0x00000100#32)
    (fun t => t.bytesAt 0x00001FF4 12)
    [0x00, 0x00, 0x00, 0x1D, 0x00, 0x00, 0x00, 0x1E, 0x00, 0x00, 0x00, 0x1F] := by
  decide +kernel

/-- 95_test_vectors.md section 2.7: stswi 5,4,6. -/
theorem test_stswi : Runs 0x7CA435AA#32 (.stswi 5 4 6 false)
    ((((m0.setReg 4 0x00001000#32).setReg 5 0x01020304#32).setReg 6 0x05060708#32).setPc 0x00000100#32)
    (fun t => t.bytesAt 0x00001000 6)
    [0x01, 0x02, 0x03, 0x04, 0x05, 0x06] := by
  decide +kernel

/-- 95_test_vectors.md section 2.7: stswx 5,4,6. -/
theorem test_stswx : Runs 0x7CA4352A#32 (.stswx 5 4 6 false)
    (((((m0.setReg 4 0x00001000#32).setReg 5 0x01020304#32).setReg 6 0x00000020#32).setPc 0x00000100#32).setXer 0x00000005#32)
    (fun t => t.bytesAt 0x00001020 5)
    [0x01, 0x02, 0x03, 0x04, 0x00] := by
  decide +kernel

/-- 95_test_vectors.md section 2.8: dcbf 0,3. -/
theorem test_dcbf : Runs 0x7C0018AC#32 (.dcbf 0 3 false)
    (((m0.setReg 3 0x00002008#32).setReg 4 0x00001000#32).setReg 5 0x00000010#32)
    (fun t => t.pc)
    0x00001004#32 := by
  decide +kernel

/-- 95_test_vectors.md section 2.8: dcbi 4,5. -/
theorem test_dcbi : Runs 0x7C042BAC#32 (.dcbi 4 5 false)
    (((m0.setReg 3 0x00002008#32).setReg 4 0x00001000#32).setReg 5 0x00000010#32)
    (fun t => t.pc)
    0x00001004#32 := by
  decide +kernel

/-- 95_test_vectors.md section 2.8: dcbst 0,3. -/
theorem test_dcbst : Runs 0x7C00186C#32 (.dcbst 0 3 false)
    (((m0.setReg 3 0x00002008#32).setReg 4 0x00001000#32).setReg 5 0x00000010#32)
    (fun t => t.pc)
    0x00001004#32 := by
  decide +kernel

/-- 95_test_vectors.md section 2.8: dcbt 0,3. -/
theorem test_dcbt : Runs 0x7C001A2C#32 (.dcbt 0 3 false)
    (((m0.setReg 3 0x00002008#32).setReg 4 0x00001000#32).setReg 5 0x00000010#32)
    (fun t => t.pc)
    0x00001004#32 := by
  decide +kernel

/-- 95_test_vectors.md section 2.8: dcbtst 0,3. -/
theorem test_dcbtst : Runs 0x7C0019EC#32 (.dcbtst 0 3 false)
    (((m0.setReg 3 0x00002008#32).setReg 4 0x00001000#32).setReg 5 0x00000010#32)
    (fun t => t.pc)
    0x00001004#32 := by
  decide +kernel

/-- 95_test_vectors.md section 2.8: dcbz 0,3. -/
theorem test_dcbz : Runs 0x7C001FEC#32 (.dcbz 0 3 false)
    (((m0.setReg 3 0x00002008#32).setReg 4 0x00001000#32).setReg 5 0x00000010#32)
    (fun t => (t.msr, t.sprVal .srr0, t.sprVal .srr1, t.sprVal .dear, t.pc))
    (0x00000000#32, 0x00001000#32, 0x00000000#32, 0x00002008#32, 0x00000600#32) := by
  decide +kernel

/-- 95_test_vectors.md section 2.8: dccci 0,3. -/
theorem test_dccci : Runs 0x7C001B8C#32 (.dccci 0 3 false)
    (((m0.setReg 3 0x00002008#32).setReg 4 0x00001000#32).setReg 5 0x00000010#32)
    (fun t => t.pc)
    0x00001004#32 := by
  decide +kernel

/-- 95_test_vectors.md section 2.8: dcread 6,4,5. -/
theorem test_dcread : Runs 0x7CC42BCC#32 (.dcread 6 4 5 false)
    ((((m0.setReg 3 0x00002008#32).setReg 4 0x00001000#32).setReg 5 0x00000010#32).setReg 5 0x00000012#32)
    (fun t => (t.msr, t.sprVal .srr0, t.sprVal .srr1, t.sprVal .dear, t.pc))
    (0x00000000#32, 0x00001000#32, 0x00000000#32, 0x00001012#32, 0x00000600#32) := by
  decide +kernel

/-- 95_test_vectors.md section 2.8: icbi 0,3. -/
theorem test_icbi : Runs 0x7C001FAC#32 (.icbi 0 3 false)
    ((((m0.setReg 3 0x00002008#32).setReg 4 0x00001000#32).setReg 5 0x00000010#32).setMsr 0x00004000#32)
    (fun t => t.pc)
    0x00001004#32 := by
  decide +kernel

/-- 95_test_vectors.md section 2.8: icbt 0,3. -/
theorem test_icbt : Runs 0x7C001A0C#32 (.icbt 0 3 false)
    ((((m0.setReg 3 0x00002008#32).setReg 4 0x00001000#32).setReg 5 0x00000010#32).setMsr 0x00004000#32)
    (fun t => (t.msr, t.sprVal .srr0, t.sprVal .srr1, t.sprVal .esr, t.pc))
    (0x00000000#32, 0x00001000#32, 0x00004000#32, 0x04000000#32, 0x00000700#32) := by
  decide +kernel

/-- 95_test_vectors.md section 2.8: iccci 0,3. -/
theorem test_iccci : Runs 0x7C001F8C#32 (.iccci 0 3 false)
    (((m0.setReg 3 0x00002008#32).setReg 4 0x00001000#32).setReg 5 0x00000010#32)
    (fun t => t.pc)
    0x00001004#32 := by
  decide +kernel

/-- 95_test_vectors.md section 2.8: icread 4,5. -/
theorem test_icread : Runs 0x7C042FCC#32 (.icread 4 5 false)
    ((((m0.setReg 3 0x00002008#32).setReg 4 0x00001000#32).setReg 5 0x00000010#32).setReg 5 0x00000013#32)
    (fun t => t.pc)
    0x00001004#32 := by
  decide +kernel

/-- 95_test_vectors.md section 2.8: sync. -/
theorem test_sync : Runs 0x7C0004AC#32 (.sync false)
    (((m0.setReg 3 0x00002008#32).setReg 4 0x00001000#32).setReg 5 0x00000010#32)
    (fun t => t.pc)
    0x00001004#32 := by
  decide +kernel

/-- 95_test_vectors.md section 2.8: eieio. -/
theorem test_eieio : Runs 0x7C0006AC#32 (.eieio false)
    (((m0.setReg 3 0x00002008#32).setReg 4 0x00001000#32).setReg 5 0x00000010#32)
    (fun t => t.pc)
    0x00001004#32 := by
  decide +kernel

/-- 95_test_vectors.md section 2.8: isync. -/
theorem test_isync : Runs 0x4C00012C#32 (.isync false)
    (((m0.setReg 3 0x00002008#32).setReg 4 0x00001000#32).setReg 5 0x00000010#32)
    (fun t => t.pc)
    0x00001004#32 := by
  decide +kernel

/-- 95_test_vectors.md section 2.9: sc. -/
theorem test_sc : Runs 0x44000002#32 .sc
    (((m0.setPc 0x00002000#32).setMsr 0x0006D23C#32).setSprVal .evpr 0x00010000#32)
    (fun t => (t.msr, t.sprVal .srr0, t.sprVal .srr1, t.pc))
    (0x00021204#32, 0x00002004#32, 0x0006D23C#32, 0x00010C00#32) := by
  decide +kernel

/-- 95_test_vectors.md section 2.9: rfi. -/
theorem test_rfi : Runs 0x4C000064#32 .rfi
    (((m0.setMsr 0x00000000#32).setSprVal .srr0 0x00002007#32).setSprVal .srr1 0x0000C000#32)
    (fun t => (t.msr, t.pc))
    (0x0000C000#32, 0x00002004#32) := by
  decide +kernel

/-- 95_test_vectors.md section 2.9: rfci. -/
theorem test_rfci : Runs 0x4C000066#32 .rfci
    ((((m0.setSprVal .srr0 0x00005555#32).setSprVal .srr1 0x00001000#32).setSprVal .srr2 0x00002000#32).setSprVal .srr3 0x00008000#32)
    (fun t => (t.msr, t.pc))
    (0x00008000#32, 0x00002000#32) := by
  decide +kernel

/-- 95_test_vectors.md section 2.9: mfmsr 3. -/
theorem test_mfmsr : Runs 0x7C6000A6#32 (.mfmsr 3 false)
    (m0.setMsr 0x00029200#32)
    (fun t => t.reg 3)
    0x00029200#32 := by
  decide +kernel

/-- 95_test_vectors.md section 2.9: mtmsr 3. -/
theorem test_mtmsr : Runs 0x7C600124#32 (.mtmsr 3 false)
    ((m0.setReg 3 0x00008000#32).setMsr 0x00000000#32)
    (fun t => t.msr)
    0x00008000#32 := by
  decide +kernel

/-- 95_test_vectors.md section 2.9: wrtee 3. -/
theorem test_wrtee : Runs 0x7C600106#32 (.wrtee 3 false)
    ((m0.setReg 3 0xFFFF7FFF#32).setMsr 0x00008000#32)
    (fun t => t.msr)
    0x00000000#32 := by
  decide +kernel

/-- 95_test_vectors.md section 2.9: wrteei 1. -/
theorem test_wrteei : Runs 0x7C008146#32 (.wrteei true false)
    (m0.setMsr 0x00001000#32)
    (fun t => t.msr)
    0x00009000#32 := by
  decide +kernel

/-- 95_test_vectors.md section 2.10: mfsprg3 6 (mfspr 6,275). -/
theorem test_mfspr : Runs 0x7CD342A6#32 (.mfspr 6 275 false)
    (m0.setSprVal .sprg3 0x0BADC0DE#32)
    (fun t => t.reg 6)
    0x0BADC0DE#32 := by
  decide +kernel

/-- 95_test_vectors.md section 2.10: mtsrr2 4 (mtspr 990,4). -/
theorem test_mtspr : Runs 0x7C9EF3A6#32 (.mtspr 990 4 false)
    (m0.setReg 4 0x00003000#32)
    (fun t => t.sprVal .srr2)
    0x00003000#32 := by
  decide +kernel

/-- 95_test_vectors.md section 2.10: mfdcr 3,0x040. -/
theorem test_mfdcr : Runs 0x7C601286#32 (.mfdcr 3 64 false)
    (m0.setDcrVal .exisr 0x00000010#32)
    (fun t => t.reg 3)
    0x00000010#32 := by
  decide +kernel

/-- 95_test_vectors.md section 2.10: mtdcr 0x040,3. -/
theorem test_mtdcr : Runs 0x7C601386#32 (.mtdcr 64 3 false)
    (m0.setReg 3 0xFFFFFFFF#32)
    (fun t => t.dcrVal .exisr)
    0xFFFFFFFF#32 := by
  decide +kernel

/-- 95_test_vectors.md section 2.11: twlt 3,4 (tw 16,3,4). -/
theorem test_tw : Runs 0x7E032008#32 (.tw 16 3 4 false)
    ((m0.setReg 3 0xFFFFFFFF#32).setReg 4 0x00000001#32)
    (fun t => (t.msr, t.sprVal .srr0, t.sprVal .srr1, t.sprVal .esr, t.pc))
    (0x00000000#32, 0x00001000#32, 0x00000000#32, 0x02000000#32, 0x00000700#32) := by
  decide +kernel

/-- 95_test_vectors.md section 2.11: twllti 3,-1 (twi 2,3,-1). -/
theorem test_twi : Runs 0x0C43FFFF#32 (.twi 2 3 65535)
    (m0.setReg 3 0x00000005#32)
    (fun t => (t.msr, t.sprVal .srr0, t.sprVal .srr1, t.sprVal .esr, t.pc))
    (0x00000000#32, 0x00001000#32, 0x00000000#32, 0x02000000#32, 0x00000700#32) := by
  decide +kernel

/-- 95_test_vectors.md section 2.12: tlbia. -/
theorem test_tlbia : Runs 0x7C0002E4#32 .tlbia
    (m0.withT)
    (fun t => t.tlbEntry 2)
    ⟨0x400, 1, false, 7, 0x800, true, true, 3, false, true, false, false⟩ := by
  decide +kernel

/-- 95_test_vectors.md section 2.12: tlbre 3,4,1 (tlbrelo 3,4). -/
theorem test_tlbre : Runs 0x7C640F64#32 (.tlbre 3 4 1 false)
    (((m0.setReg 4 0x00000002#32).setSprVal .pid 0x000000FF#32).withT)
    (fun t => t.reg 3)
    0x00200334#32 := by
  decide +kernel

/-- 95_test_vectors.md section 2.12: tlbsx. 3,4,5. -/
theorem test_tlbsx : Runs 0x7C642F25#32 (.tlbsx 3 4 5 true)
    (((((m0.setReg 4 0x00100000#32).setReg 5 0x00000FFF#32).setSprVal .pid 0x00000007#32).setXer 0x80000000#32).withT)
    (fun t => (t.reg 3, t.crField 0))
    (0x00000002#32, 0x3#4) := by
  decide +kernel

/-- 95_test_vectors.md section 2.12: tlbsync. -/
theorem test_tlbsync : Runs 0x7C00046C#32 .tlbsync
    m0
    (fun t => t.pc)
    0x00001004#32 := by
  decide +kernel

/-- 95_test_vectors.md section 2.12: tlbwe 3,4,1 (tlbwelo 3,4). -/
theorem test_tlbwe : Runs 0x7C640FA4#32 (.tlbwe 3 4 1 false)
    ((m0.setReg 3 0x00200334#32).setReg 4 0x00000002#32)
    (fun t => t.tlbEntry 2)
    ⟨0, 0, false, 0, 0x800, true, true, 3, false, true, false, false⟩ := by
  decide +kernel

/-! ### Steps, interrupts, caches and free values -/

/-- What is seen after one step, if there is a next state. -/
def afterStep {α : Type} (s : State) (f : State → α) : Option α :=
  match step s with
  | .next t => some (f t)
  | .fault _ => none
  | .refused _ => none

/-- 95_test_vectors.md section 2.13: the word 0 is illegal. -/
theorem test_illegal_word :
    afterStep ((((m0.setPc 0x2000#32).setMsr 0x0000C000#32).setSprVal .evpr 0xFFFF0000#32).withFetchWord 32 0)
      (fun t => (t.pc, t.msr, t.sprVal .srr0, t.sprVal .srr1, t.sprVal .esr)) =
    some (0xFFFF0700#32, 0#32, 0x2000#32, 0xC000#32, 0x08000000#32) := by decide +kernel

/-- 95_test_vectors.md section 2.14: an external interrupt. -/
theorem test_external_interrupt :
    afterStep (((m0.setPc 0x1234#32).setMsr 0x00029200#32).setPending [.external])
      (fun t => (t.pc, t.msr, t.sprVal .srr0, t.sprVal .srr1, t.pending)) =
    some (0x500#32, 0x00021200#32, 0x1234#32, 0x00029200#32, []) := by decide +kernel

/-- 95_test_vectors.md section 2.14: the critical interrupt pin, before a pending external interrupt. -/
theorem test_critical_interrupt :
    afterStep (((m0.setPc 0x2000#32).setMsr 0x0002D200#32).setPending [.external, .criticalPin])
      (fun t => (t.pc, t.msr, t.sprVal .srr2, t.sprVal .srr3, t.pending)) =
    some (0x100#32, 0x00001000#32, 0x2000#32, 0x0002D200#32, [.external]) := by decide +kernel

/-- A word placed for the fetch is the one that step runs: addi 3,0,-1. -/
theorem test_step_runs_placed_word :
    afterStep (State.reset.withFetchWord 32 0x3860FFFF) (fun t => (t.reg 3, t.pc)) =
    some (0xFFFFFFFF#32, 0#32) := by decide +kernel

/-- 95_test_vectors.md section 2.1: a division by 0 completes, OV and SO set, and the next instruction follows. -/
theorem test_divwo_by_zero :
    after (.divw 3 4 5 true false) (m0.setReg 4 7#32) (fun t => (t.xer, t.pc)) = some (0xC0000000#32, 0x1004#32) := by
  decide +kernel

/-- 60_exceptions.md R513: a privileged instruction in problem state. -/
theorem test_privileged_in_problem_state :
    after .rfi (m0.setMsr 0x00004000#32) (fun t => (t.pc, t.msr, t.sprVal .srr1, t.sprVal .esr)) =
    some (0x700#32, 0#32, 0x4000#32, 0x04000000#32) := by decide +kernel

/-- 95_test_vectors.md section 2.6: a misaligned load. -/
theorem test_misaligned_load :
    after (.lwz 3 10 4) (m0.setReg 4 0x1000#32) (fun t => (t.pc, t.sprVal .dear, t.sprVal .srr0)) =
    some (0x600#32, 0x100A#32, 0x1000#32) := by decide +kernel

/-- A line of the data cache with bytes 0x11 that is modified, at 0x80000000, where DCCR makes storage cacheable. -/
def dirty : State :=
  ((m0.setSprVal .dccr 0x00008000#32).setReg 3 0x80000000#32).setDline 0 .b
    ⟨true, true, 0x400000#23, Vector.replicate 16 0x11#8⟩

/-- 47_cache_sync.md R422: dcbf copies a modified line back and drops it. -/
theorem test_dcbf_copies_back :
    after (.dcbf 0 3 false) dirty (fun t => (t.storage 0x80000005#32, t.dhit 0x80000000#32)) =
    some (0x11#8, none) := by decide +kernel

/-- 47_cache_sync.md R423: dcbi drops a modified line without copying it back. -/
theorem test_dcbi_discards :
    after (.dcbi 0 3 false) dirty (fun t => (t.storage 0x80000005#32, t.dhit 0x80000000#32)) =
    some (0#8, none) := by decide +kernel

/-- 47_cache_sync.md R424: dcbst copies a modified line back and keeps it. -/
theorem test_dcbst_copies_back :
    after (.dcbst 0 3 false) dirty (fun t => (t.storage 0x80000005#32, t.dhit 0x80000000#32, (t.dline 0 .b).d)) =
    some (0x11#8, some .b, false) := by decide +kernel

/-- 47_cache_sync.md R427: dcbz in a line that is there. -/
theorem test_dcbz_zeroes :
    after (.dcbz 0 3 false) dirty (fun t => (t.dataByte 0x80000005#32, (t.dline 0 .b).d, t.storage 0x80000005#32)) =
    some (0#8, true, 0#8) := by decide +kernel

/-- 47_cache_sync.md R433: dcread of the tag of side B: TAG, D and V. -/
theorem test_dcread_tag :
    after (.dcread 4 0 3 false) (dirty.setSprVal .cdbcr 0x11#32) (fun t => t.reg 4) = some 0x80000030#32 := by
  decide +kernel

/-- 45_load_store.md R370: a store to a cached block stays in the line. -/
theorem test_store_hits_line :
    after (.stb 4 0 3) (dirty.setReg 4 0xAB#32) (fun t => (t.dataByte 0x80000000#32, t.storage 0x80000000#32)) =
    some (0xAB#8, 0#8) := by decide +kernel

/-- 10_state.md R84: the bytes that dcbi discards may have been prefetched. -/
theorem test_dcbi_bytes_stay_fetchable :
    after (.dcbi 0 3 false) dirty (fun t => t.fetchable 0x80000005#32) = some [0#8, 0x11#8] := by decide +kernel

/-- The next state of an instruction, or the same state. -/
def onward (s : State) (i : Instr) : State :=
  match exec i s with
  | .next t => t
  | .fault _ => s
  | .refused _ => s

theorem exec_onward {i : Instr} {s : State} (h : after i s (fun _ => true) = some true) :
    exec i s = .next (onward s i) := by
  unfold after at h
  unfold onward
  cases e : exec i s with
  | next t => rfl
  | fault f => rw [e] at h; cases h
  | refused r => rw [e] at h; cases h

/-- 20_memory.md R133: off Level 0 the stored byte and the byte it replaced may be fetched until dcbst, sync, icbi and
isync have been executed in this order. -/
theorem test_old_byte_until_the_sequence :
    let stored := onward (dirty.setReg 4 0xAB#32) (.stb 4 0 3)
    (onward stored (.isync false)).fetchable 0x80000000#32 = [0#8, 0xAB#8, 0x11#8] ∧
    ([Instr.dcbst 0 3 false, .icbi 0 3 false, .isync false].foldl onward stored).fetchable 0x80000000#32 =
      [0xAB#8, 0#8, 0x11#8] ∧
    ([Instr.dcbst 0 3 false, .sync false, .icbi 0 3 false, .isync false].foldl onward stored).fetchable 0x80000000#32 =
      [0xAB#8] := by decide +kernel

/-- 70_reset_and_hazards.md R573: a store made while DCCR is on leaves its old bytes to fetches, though DCCR is then made
0, dcbf empties the line and isync is executed: Level 0 is 'from reset on' (47_cache_sync.md R429). -/
theorem test_level_zero_does_not_come_back :
    let t := [Instr.stb 4 0 3, .mtspr 1018 5 false, .dcbf 0 3 false, .isync false].foldl onward
      ((dirty.setReg 4 0xAB#32).setReg 5 0#32)
    t.fetchable 0x80000000#32 = [0xAB#8, 0#8, 0x11#8] ∧ t.nothingCacheable = true ∧ t.cachesEmpty = true := by
  decide +kernel

/-- 47_cache_sync.md R429: at Level 0 isync alone is the separation. -/
theorem test_isync_at_level_zero :
    ([Instr.stb 4 0 3, .isync false].foldl onward (m0.setReg 4 0xAB#32)).fetchable 0#32 = [0xAB#8] := by decide +kernel

/-- 48_system.md R471 case 2, MSR.DE = 0 and DBCR[IDM] = 1: DBSR[TIE] and DBSR[IDE]; the next step is stuck. -/
theorem test_debug_stop :
    after (.tw 31 0 0 false) (m0.setSprVal .dbcr 0xC1000000#32) (fun t => (t.sprVal .dbsr, t.pc)) =
      some (0x10100300#32, 0x1000#32) ∧
    step (onward (m0.setSprVal .dbcr 0xC1000000#32) (.tw 31 0 0 false)) = .fault .debugStop :=
  ⟨by decide +kernel, rfl⟩

/-- 48_system.md R461: a 1 clears its bit of TSR. -/
theorem test_mttsr_clears :
    after (.mtspr 984 4 false) ((m0.setSprVal .tsr 0xF0000000#32).setReg 4 0x30000000#32) (fun t => t.sprVal .tsr) =
    some 0xC0000000#32 := by decide +kernel

/-! ### Each check of WellFormed refuses -/

theorem test_wf_load_update_ra_zero :
    [Instr.lbzu 3 0 0, .lbzux 3 0 5 false, .lhau 3 0 0, .lhaux 3 0 5 false, .lhzu 3 0 0, .lhzux 3 0 5 false, .lwzu 3 0 0,
      .lwzux 3 0 5 false].all (fun i => !i.wellFormed) = true := by decide +kernel

theorem test_wf_load_update_ra_rt :
    [Instr.lbzu 3 0 3, .lbzux 3 3 5 false, .lhau 3 0 3, .lhaux 3 3 5 false, .lhzu 3 0 3, .lhzux 3 3 5 false, .lwzu 3 0 3,
      .lwzux 3 3 5 false].all (fun i => !i.wellFormed) = true := by decide +kernel

theorem test_wf_store_update_ra_zero :
    [Instr.stbu 3 0 0, .stbux 3 0 5 false, .sthu 3 0 0, .sthux 3 0 5 false, .stwu 3 0 0, .stwux 3 0 5 false].all
      (fun i => !i.wellFormed) = true := by decide +kernel

theorem test_wf_spr :
    [Instr.mfspr 3 16 false, .mtspr 16 3 false, .mtspr 287 3 false].all (fun i => !i.wellFormed) = true := by
  decide +kernel

theorem test_wf_dcr :
    [Instr.mfdcr 3 0 false, .mtdcr 0 3 false].all (fun i => !i.wellFormed) = true := by decide +kernel

theorem test_wf_ws :
    [Instr.tlbre 3 4 2 false, .tlbwe 3 4 2 false].all (fun i => !i.wellFormed) = true := by decide +kernel

theorem test_wf_admits :
    [Instr.lbzu 3 0 4, .stbu 3 0 3, .mfspr 3 287 false, .mtspr 8 3 false, .mfdcr 3 0x40 false, .tlbre 3 4 1 false].all
      Instr.wellFormed = true := by decide +kernel

/-- 93_implementation_defined.md section 2.1: a reserved bit that is 1. -/
theorem test_reserved_bit_refused : decodeWord 0x44000003#32 = .reservedBits "sc" := by decide +kernel

/-! ### States and operands that meet the hypotheses of the statements -/

/-- With no valid line in the data cache, main storage in its form is enough. -/
theorem coherent_of {s : State} (hd : s.dcache = State.reset.dcache) (hm : Memory.wf s.mem = true) :
    s.MemoryCoherent ∧ s.LinesPlain := by
  have hv : ∀ c side, (s.dline c side).v = false := by
    intro c side
    simp only [State.dline, State.dcls, hd]
    cases side <;> simp [State.reset, DClass.line, DLine.reset, Vector.get]
  refine ⟨⟨hm, fun c h => ?_, fun c side h => ?_⟩, fun c side h => ?_⟩
  · simp [hv] at h
  · simp [hv] at h
  · simp [hv] at h

theorem plainAt_of {s : State} (h : s.memMap = []) (a : Word) (n : Nat) : s.PlainAt a n := by
  simp [State.PlainAt, State.touches, regionKind, h]

theorem reset_instrLinesUnique : State.reset.InstrLinesUnique := by
  intro c h
  simp [State.iline, State.icls, State.reset, IClass.line, ILine.reset, Vector.get] at h

theorem reset_realStorage : State.reset.RealStorage :=
  ⟨rfl, (coherent_of rfl rfl).1, rfl, rfl, rfl⟩

theorem reset_canAccess (ea : Word) (n : Nat) (store : Bool) (h : ea.toNat % n = 0) :
    ∃ p, State.reset.CanAccess ea n store p ∧ p.real = ea :=
  ⟨State.reset.realModePlace .data ea, ⟨rfl, (coherent_of rfl rfl).1, (coherent_of rfl rfl).2, h,
    ⟨State.reset, by simp [dataPlace, checkBounds, State.boundsForbid, State.reset, State.msrBit, bit, msrDR, msrPE]⟩,
    plainAt_of rfl _ _⟩, rfl⟩

theorem meets_EncodingADecodedWordGivesItBack : decodeWord 0x7C642E15#32 = .ok (.add 3 4 5 true true) := by
  decide +kernel

theorem meets_AWordMatchesAtMostOneRow :
    (opcodeRows[0]?).any (fun r => r.matches 0x7C642E15#32) = true ∧
    (opcodeRows[138]?).any (fun r => r.matches 0x7C6407A4#32) = true := by decide +kernel

theorem meets_InvalidOperandFormsAreRefused :
    (Instr.lwzu 3 0 0).wellFormed = false ∧ (Instr.lwzu 3 0 3).wellFormed = false ∧
    (Instr.stwu 3 0 0).wellFormed = false ∧ (Instr.mfspr 3 0 false).wellFormed = false ∧
    (Instr.mtdcr 0x3FF 3 false).wellFormed = false ∧ (Instr.tlbwe 3 4 31 false).wellFormed = false ∧
    (Instr.mtspr 1010 3 false).wellFormed = false ∧ (Instr.mtspr 972 3 false).wellFormed = false ∧
    State.reset.problem = false ∧ privilegedInstr (.lwzu 3 0 0) = false ∧
    (State.reset.setMsr 0x00004000#32).problem = true := by decide +kernel

/-- Reset with `ori 0,0,0` at the pc. -/
def atNop : State := State.reset.withFetchWord 32 0x60000000

theorem atNop_fetch : fetch atNop = .ok [0x60#8, 0#8, 0#8, 0#8] atNop := by rfl

theorem meets_AStepRunsTheDecodedInstruction :
    atNop.debugStopped = false ∧ atNop.nextIrq = none ∧ atNop.msrBit msrWE = false ∧
    fetch atNop = .ok [0x60#8, 0#8, 0#8, 0#8] atNop ∧
    decodeBytes [0x60#8, 0#8, 0#8, 0#8] = some (.ok (.ori 0 0 0), []) := ⟨rfl, rfl, rfl, atNop_fetch, rfl⟩

theorem meets_AStepRunsTheWordStoredAtThePc :
    atNop.debugStopped = false ∧ atNop.nextIrq = none ∧ atNop.msrBit msrWE = false ∧ atNop.BigEndian ∧
    atNop.msrBit msrIR = false ∧ regionBit atNop.spr.iccr atNop.pc = false ∧ atNop.stale = [] ∧
    atNop.PlainAt atNop.pc 4 ∧
    (∀ k < 4, atNop.dhit (atNop.pc + BitVec.ofNat 32 k) = none ∧ atNop.ihit (atNop.pc + BitVec.ofNat 32 k) = none) ∧
    decodeWord (atNop.storage atNop.pc ++ atNop.storage (atNop.pc + 1#32) ++ atNop.storage (atNop.pc + 2#32) ++
      atNop.storage (atNop.pc + 3#32)) = .ok (.ori 0 0 0) :=
  ⟨rfl, rfl, rfl, rfl, rfl, rfl, rfl, plainAt_of rfl _ _, by decide +kernel, by decide +kernel⟩

theorem meets_AnIllegalWordRaisesTheProgramException :
    State.reset.debugStopped = false ∧ State.reset.nextIrq = none ∧ State.reset.msrBit msrWE = false ∧
    State.reset.msrBit msrILE = false ∧ fetch State.reset = .ok [0#8, 0#8, 0#8, 0#8] State.reset ∧
    decodeBytes [0#8, 0#8, 0#8, 0#8] = some (.illegal, []) := ⟨rfl, rfl, rfl, rfl, rfl, rfl⟩

/-- One pending interrupt, with MSR.CE, MSR.EE and MSR.ME 1. -/
def presented (i : Irq) : State := (m0.setMsr 0x00029000#32).setPending [i]

theorem meets_InterruptsAreTakenInOrderAtTheirVectors :
    ∀ row ∈ [(Irq.machineCheck, 19), (.criticalPin, 14), (.watchdog, 14), (.external, 16), (.fit, 16), (.pit, 16)],
      (presented row.1).debugStopped = false ∧ row.1 ∈ (presented row.1).pending ∧
      bit (presented row.1).msr row.2 = true ∧ (presented row.1).msrBit msrILE = false := by decide +kernel

/-- 60_exceptions.md R525, R528: with MSR.EE = 1 and MSR.CE = 0 an external interrupt is taken before a pending FIT, and
a pending watchdog waits. -/
theorem test_interrupt_order :
    afterStep ((m0.setMsr 0x00008000#32).setPending [.fit, .watchdog, .external]) (fun t => (t.pc, t.pending)) =
    some (0x500#32, [.fit, .watchdog]) := by decide +kernel

/-- MSR.IR and MSR.DR are 1 and the TLB is empty. -/
def translating : State := m0.setMsr 0x00000030#32

theorem meets_AFetchThatCannotBeTranslatedTraps :
    (translating.debugStopped = false ∧ translating.nextIrq = none ∧ translating.msrBit msrWE = false ∧
      translating.BigEndian ∧ translating.msrBit msrILE = false ∧ translating.msrBit msrIR = true ∧
      translating.NoEntry translating.pc) ∧
    ∀ s, s = translating.setTlbEntry 63 ⟨0x4, 0, true, 0, 0, false, true, 0, false, true, false, false⟩ →
      s.debugStopped = false ∧ s.OnlyEntry s.pc 63 ∧ (s.tlbEntry 63).ex = false ∧ s.nextIrq = none ∧
        s.msrBit msrWE = false ∧ s.BigEndian ∧ s.msrBit msrILE = false ∧ s.msrBit msrIR = true :=
  ⟨⟨rfl, rfl, rfl, rfl, rfl, rfl, by unfold State.NoEntry; decide +kernel⟩, fun s h => by
    subst h; exact ⟨rfl, by unfold State.OnlyEntry; decide +kernel, rfl, rfl, rfl, rfl, rfl, rfl⟩⟩

theorem reset_steps : ∃ t, step State.reset = .next t := ⟨_, rfl⟩

theorem meets_EveryStepKeepsMemoryCanonical : State.reset.MemoryCanonical ∧ ∃ t, step State.reset = .next t :=
  ⟨rfl, reset_steps⟩

theorem meets_EveryStepKeepsThePcAligned : State.reset.PcAligned ∧ ∃ t, step State.reset = .next t :=
  ⟨rfl, reset_steps⟩

theorem meets_EveryStepKeepsBigEndianMode : State.reset.BigEndian ∧ ∃ t, step State.reset = .next t :=
  ⟨rfl, reset_steps⟩

theorem meets_EveryStepKeepsTheDataCacheCoherent : State.reset.MemoryCoherent ∧ ∃ t, step State.reset = .next t :=
  ⟨(coherent_of rfl rfl).1, reset_steps⟩

theorem meets_EveryStepKeepsInstructionLinesUnique :
    State.reset.InstrLinesUnique ∧ ∃ t, step State.reset = .next t := ⟨reset_instrLinesUnique, reset_steps⟩

theorem meets_OnlyLwarxSetsAndStwcxClearsTheReservation :
    (after (.lwarx 3 0 5 false) State.reset fun t => t.reserve) = some true ∧
    (after (.stwcxRc 3 0 5) (State.reset.setReserve true) fun t => t.reserve) = some false := by decide +kernel

/-- Problem state. -/
def inProblem : State := m0.setMsr 0x00004000#32

theorem meets_ProblemStateReachesSystemStateOnlyThroughAVector :
    inProblem.problem = true ∧ (inProblem.withFetchWord 32 0x60000000).problem = true ∧
    (afterStep inProblem fun t => t.pc) = some 0x700#32 ∧
    (afterStep (inProblem.withFetchWord 32 0x60000000) fun t => t.msr) = some 0x4000#32 := by decide +kernel

theorem meets_PrivilegedInstructionsTrapInProblemState :
    inProblem.problem = true ∧ inProblem.msrBit msrILE = false ∧
    ∀ i ∈ [Instr.rfi, .tlbia, .mfspr 3 16 false, .mtspr 1023 3 false, .dcread 3 0 0 false],
      privilegedInstr i = true := by decide +kernel

theorem meets_DivideInstructionsGiveTheQuotientOrAFreeValue :
    ∃ s : State, s.reg 4 = 0x80000000#32 ∧ s.reg 5 = 0xFFFFFFFF#32 ∧ s.reg 6 = 0#32 ∧ s.reg 5 ≠ 0#32 ∧
      ¬ (s.reg 5 = 0x80000000#32 ∧ s.reg 5 = 0xFFFFFFFF#32) :=
  ⟨(m0.setReg 4 0x80000000#32).setReg 5 0xFFFFFFFF#32, by decide +kernel⟩

theorem meets_BranchesCountTestAndLink :
    (Instr.bclr 16 0 true, (m0.lr.extractLsb' 2 30 ++ 0#2 : Word)) ∈
      [(Instr.bc 16 0 0x3FFF#14 false true, m0.pc + ((0x3FFF#14) ++ 0#2).signExtend 32),
        (.bcctr 16 0 true, (m0.ctr - 1#32).extractLsb' 2 30 ++ 0#2),
        (.bclr 16 0 true, m0.lr.extractLsb' 2 30 ++ 0#2)] := by decide +kernel

theorem meets_LoadsReadTheBytesAtTheirAddress :
    (∃ p, State.reset.CanAccess (State.reset.eaD 0 0xFFFF#16) 1 false p) ∧
    (∃ p, State.reset.CanAccess (State.reset.eaX 0 5) 1 false p) ∧
    (∃ p, State.reset.CanAccess (State.reset.eaD 0 0xFFFE#16) 2 false p) ∧
    (∃ p, State.reset.CanAccess (State.reset.eaX 0 5) 2 false p) ∧
    (∃ p, State.reset.CanAccess (State.reset.eaD 0 0xFFFC#16) 4 false p) ∧
    ∃ p, State.reset.CanAccess (State.reset.eaX 0 5) 4 false p := by
  refine ⟨?_, ?_, ?_, ?_, ?_, ?_⟩
  all_goals exact (reset_canAccess _ _ _ (by decide +kernel)).imp fun p h => h.1

theorem meets_UpdateLoadsAlsoWriteTheirBase :
    (4 : Reg) ≠ 0 ∧ (4 : Reg) ≠ 3 ∧
    (∃ p, State.reset.CanAccess (State.reset.eaD 4 0xFFFF#16) 1 false p) ∧
    (∃ p, State.reset.CanAccess (State.reset.eaX 4 5) 1 false p) ∧
    (∃ p, State.reset.CanAccess (State.reset.eaD 4 0xFFFE#16) 2 false p) ∧
    (∃ p, State.reset.CanAccess (State.reset.eaX 4 5) 2 false p) ∧
    (∃ p, State.reset.CanAccess (State.reset.eaD 4 0xFFFC#16) 4 false p) ∧
    ∃ p, State.reset.CanAccess (State.reset.eaX 4 5) 4 false p := by
  refine ⟨by decide, by decide, ?_, ?_, ?_, ?_, ?_, ?_⟩
  all_goals exact (reset_canAccess _ _ _ (by decide +kernel)).imp fun p h => h.1

theorem meets_StoresWriteTheBytesAtTheirAddress :
    (∃ p, State.reset.CanAccess (State.reset.eaD 0 0xFFFF#16) 1 true p) ∧
    (∃ p, State.reset.CanAccess (State.reset.eaX 0 5) 1 true p) ∧
    (∃ p, State.reset.CanAccess (State.reset.eaD 0 0xFFFE#16) 2 true p) ∧
    (∃ p, State.reset.CanAccess (State.reset.eaX 0 5) 2 true p) ∧
    (∃ p, State.reset.CanAccess (State.reset.eaD 0 0xFFFC#16) 4 true p) ∧
    ∃ p, State.reset.CanAccess (State.reset.eaX 0 5) 4 true p := by
  refine ⟨?_, ?_, ?_, ?_, ?_, ?_⟩
  all_goals exact (reset_canAccess _ _ _ (by decide +kernel)).imp fun p h => h.1

theorem meets_UpdateStoresAlsoWriteTheirBase :
    (4 : Reg) ≠ 0 ∧
    (∃ p, State.reset.CanAccess (State.reset.eaD 4 0xFFFF#16) 1 true p) ∧
    (∃ p, State.reset.CanAccess (State.reset.eaX 4 5) 1 true p) ∧
    (∃ p, State.reset.CanAccess (State.reset.eaD 4 0xFFFE#16) 2 true p) ∧
    (∃ p, State.reset.CanAccess (State.reset.eaX 4 5) 2 true p) ∧
    (∃ p, State.reset.CanAccess (State.reset.eaD 4 0xFFFC#16) 4 true p) ∧
    ∃ p, State.reset.CanAccess (State.reset.eaX 4 5) 4 true p := by
  refine ⟨by decide, ?_, ?_, ?_, ?_, ?_, ?_⟩
  all_goals exact (reset_canAccess _ _ _ (by decide +kernel)).imp fun p h => h.1

/-- Reset with RESERVE 1. -/
def reserved : State := State.reset.setReserve true

theorem meets_ReservationPairStoresOnlyWhenReserved :
    (∃ p, State.reset.CanAccess (State.reset.eaX 0 5) 4 false p) ∧
    (reserved.reserve = true ∧ ∃ p, reserved.CanAccess (reserved.eaX 0 5) 4 true p) ∧
    (State.reset.reserve = false ∧ (State.reset.eaX 0 5).toNat % 4 = 0) := by
  refine ⟨(reset_canAccess _ _ _ (by decide +kernel)).imp fun p h => h.1, ⟨rfl, reserved.realModePlace .data 0, rfl,
    (coherent_of (s := reserved) rfl rfl).1, (coherent_of (s := reserved) rfl rfl).2, by decide +kernel, ⟨reserved, rfl⟩, plainAt_of rfl _ _⟩, rfl,
    by decide +kernel⟩

theorem meets_MisalignedAccessesTrap :
    State.reset.BigEndian ∧ State.reset.msrBit msrILE = false ∧
    (State.reset.eaD 0 0xFFFF#16).toNat % 2 ≠ 0 ∧ (State.reset.eaD 4 0xFFFF#16).toNat % 2 ≠ 0 ∧
    (State.reset.eaD 0 0xFFFE#16).toNat % 4 ≠ 0 ∧ (State.reset.eaD 4 0xFFFE#16).toNat % 4 ≠ 0 ∧
    ((State.reset.setReg 5 1#32).eaX 0 5).toNat % 2 ≠ 0 ∧ ((State.reset.setReg 5 1#32).eaX 4 5).toNat % 2 ≠ 0 ∧
    ((State.reset.setReg 5 2#32).eaX 0 5).toNat % 4 ≠ 0 ∧ ((State.reset.setReg 5 2#32).eaX 4 5).toNat % 4 ≠ 0 ∧
    (State.reset.setReg 5 2#32).BigEndian ∧ (State.reset.setReg 5 2#32).msrBit msrILE = false := by
  refine ⟨rfl, rfl, ?_, ?_, ?_, ?_, ?_, ?_, ?_, ?_, rfl, rfl⟩ <;> decide +kernel

/-- `translating` with one page at 0 that may not be written. -/
def readOnlyPage : State := translating.setTlbEntry 0 ⟨0, 7, true, 0, 0, true, false, 0, false, true, false, false⟩

theorem meets_DataAccessesThatCannotBeTranslatedTrap :
    (translating.BigEndian ∧ translating.msrBit msrILE = false ∧ translating.msrBit msrDR = true ∧
      (translating.eaD 0 0xFFFC#16).toNat % 4 = 0 ∧ (translating.eaD 0 0xFFFF#16).toNat % 1 = 0 ∧
      translating.NoEntry (translating.eaD 0 0xFFFC#16) ∧ translating.NoEntry (translating.eaD 0 0xFFFF#16)) ∧
    (readOnlyPage.BigEndian ∧ readOnlyPage.msrBit msrILE = false ∧ readOnlyPage.msrBit msrDR = true ∧
      (readOnlyPage.eaD 0 0#16).toNat % 4 = 0 ∧ readOnlyPage.OnlyEntry (readOnlyPage.eaD 0 0#16) 0 ∧
      (readOnlyPage.tlbEntry 0).wr = false ∧ readOnlyPage.problem = false) ∧
    (State.reset.msrBit msrDR = false ∧ State.reset.BigEndian ∧ State.reset.msrBit msrILE = false) ∧
    ∀ i ∈ [Instr.lbzu 3 0 4, .stwux 3 4 5 false, .lmw 30 0 30, .dcbi 0 5 false, .icread 0 5 false],
      i.wellFormed = true :=
  ⟨⟨rfl, rfl, rfl, by decide +kernel, by decide +kernel, by unfold State.NoEntry; decide +kernel,
      by unfold State.NoEntry; decide +kernel⟩,
    ⟨rfl, rfl, rfl, by decide +kernel, by unfold State.OnlyEntry; decide +kernel, rfl, rfl⟩, ⟨rfl, rfl, rfl⟩,
    by decide +kernel⟩

/-- The first byte of a string: lswi of 32 bytes into GPR(31) and on, which is RA and passed over: the first byte that
is read is the fifth, for GPR(0). -/
theorem meets_DataAccessesThatCannotBeTranslatedTrap_string :
    IsStringLoad (.lswi 31 31 0 false) State.reset 31 0#32 32 [31] false ∧ 4 * 1 < 32 ∧
    (0 : Reg) = 31 + BitVec.ofNat 5 1 ∧ stringLoads 31 32 [31] 0 = true ∧
    ∀ k < 1, stringLoads 31 32 [31] (31 + BitVec.ofNat 5 k) = false :=
  ⟨.inl ⟨31, 0, rfl, rfl, rfl, rfl⟩, by decide +kernel⟩

/-- MSR.DR is 1, the first 1KB page may be written, its neighbour is not in the TLB, and GPR(4) is the last byte of the
page. -/
def onePage : State :=
  ((m0.setMsr 0x00000010#32).setTlbEntry 0 ⟨0, 0, true, 0, 0, true, true, 0, false, true, false, false⟩).setReg 4 0x3FF#32

/-- Accesses of a run in `onePage`, as far as they stay in the page. -/
theorem onePage_canAccessEach {ea : Word} {n : Nat} (store : Bool) {made : Nat → Prop} (hal : ea.toNat % n = 0)
    (hm : ∀ k, made k → onePage.OnlyEntry (ea + BitVec.ofNat 32 (n * k)) 0) :
    onePage.CanAccessEach ea n store made fun k => (onePage.tlbEntry 0).place (ea + BitVec.ofNat 32 (n * k)) where
  bigEndian := rfl
  coherent := (coherent_of (s := onePage) rfl rfl).1
  blocksPlain := fun _ _ _ => plainAt_of rfl _ _
  aligned := hal
  translated := by
    intro k hk draws
    refine ⟨onePage.setDraws draws, ?_⟩
    have hd : onePage.msrBit msrDR = true := by decide +kernel
    have hp : onePage.problem = false := by decide +kernel
    have he : onePage.msrBit msrPE = false := by decide +kernel
    have hw : (onePage.tlbEntry 0).wr = true := by decide +kernel
    have hz : ∀ e, (onePage.setDraws draws).zoneForbids e = false := fun e => by
      rw [State.zoneForbids, show (onePage.setDraws draws).problem = false from hp]; rfl
    have hb : ∀ x, (onePage.setDraws draws).boundsForbid x store = false := fun x => by
      rw [State.boundsForbid, show (onePage.setDraws draws).msrBit msrPE = false from he]; simp
    rw [dataPlace_only (s := onePage.setDraws draws) hd (hm k hk), if_neg (Bool.eq_false_iff.1 (hz _)),
      if_neg (by rw [show ((onePage.setDraws draws).tlbEntry 0).wr = true from hw]; simp), checkBounds,
      if_neg (Bool.eq_false_iff.1 (hb _))]
    rfl
  plain := fun _ _ => plainAt_of rfl _ _

theorem onePage_entries : onePage.OnlyEntry 0x3FC#32 0 ∧ onePage.OnlyEntry 0x3FF#32 0 ∧ onePage.NoEntry 0x400#32 := by
  refine ⟨?_, ?_, ?_⟩
  · unfold State.OnlyEntry; decide +kernel
  · unfold State.OnlyEntry; decide +kernel
  · unfold State.NoEntry; decide +kernel

/-- A later access: the second word of `lmw 30,0x3FC(0)` and `stmw 30,0x3FC(0)`, and the second byte of `lswi 3,4,8` and
`stswi 3,4,8`, are in the page that misses. -/
theorem meets_DataAccessesThatCannotBeTranslatedTrap_later :
    onePage.msrBit msrILE = false ∧ onePage.msrBit msrDR = true ∧
    (onePage.eaD 0 0x3FC#16 = 0x3FC#32 ∧ onePage.NoEntry (0x3FC#32 + BitVec.ofNat 32 (4 * 1)) ∧
      1 < 32 - (30 : Reg).toNat ∧ wordLoads 0 (30 + BitVec.ofNat 5 1) = true ∧
      (∃ place, onePage.CanAccessEach 0x3FC#32 4 false
        (fun j => j < 1 ∧ wordLoads 0 (30 + BitVec.ofNat 5 j) = true) place) ∧
      ∃ place, onePage.CanAccessEach 0x3FC#32 4 true (· < 1) place) ∧
    (IsStringLoad (.lswi 3 4 8 false) onePage 3 0x3FF#32 8 [4] false ∧
      IsStringStore (.stswi 3 4 8 false) onePage 3 0x3FF#32 8 false ∧
      onePage.NoEntry (0x3FF#32 + BitVec.ofNat 32 1) ∧ 1 < 8 ∧
      stringLoads 3 8 [4] (3 + BitVec.ofNat 5 (1 / 4)) = true ∧
      (∃ place, onePage.CanAccessEach 0x3FF#32 1 false
        (fun j => j < 1 ∧ stringLoads 3 8 [4] (3 + BitVec.ofNat 5 (j / 4)) = true) place) ∧
      ∃ place, onePage.CanAccessEach 0x3FF#32 1 true (· < 1) place) := by
  obtain ⟨h1, h2, h3⟩ := onePage_entries
  have w : ∀ k, k < 1 → onePage.OnlyEntry (0x3FC#32 + BitVec.ofNat 32 (4 * k)) 0 := by
    intro k hk; obtain rfl : k = 0 := by omega
    exact h1
  have b : ∀ k, k < 1 → onePage.OnlyEntry (0x3FF#32 + BitVec.ofNat 32 (1 * k)) 0 := by
    intro k hk; obtain rfl : k = 0 := by omega
    exact h2
  exact ⟨rfl, rfl, ⟨by decide +kernel, h3, by decide, by decide +kernel,
      ⟨_, onePage_canAccessEach false (by decide) fun k hk => w k hk.1⟩, ⟨_, onePage_canAccessEach true (by decide) w⟩⟩,
    .inl ⟨4, 8, rfl, by decide +kernel, rfl, rfl⟩, .inl ⟨4, 8, rfl, by decide +kernel, rfl⟩, h3, by decide,
    by decide +kernel, ⟨_, onePage_canAccessEach false (by decide) fun k hk => b k hk.1⟩,
    ⟨_, onePage_canAccessEach true (by decide) b⟩⟩

/-- 20_memory.md R116 and R119: the real address and the attributes of the only entry, a 1KB page. -/
theorem meets_ATranslatedAddressTakesItsPageFromTheEntry :
    bit translating.msr 27 = true ∧ bit translating.msr 26 = true ∧ translating.NoEntry translating.pc ∧
    bit State.reset.msr 27 = false ∧ bit State.reset.msr 26 = false ∧ readOnlyPage.OnlyEntry 0#32 0 ∧
    ((⟨0x400, 0, true, 7, 0x801, true, true, 3, true, false, false, false⟩ : TlbEntry).translates 0x001003FF#32 7 ∧
      (⟨0x400, 0, true, 7, 0x801, true, true, 3, true, false, false, false⟩ : TlbEntry).place 0x001003FF#32 =
        ⟨0x002007FF#32, true, true⟩) :=
  ⟨rfl, rfl, by unfold State.NoEntry; decide +kernel, rfl, rfl, by unfold State.OnlyEntry; decide +kernel,
    by decide +kernel⟩

theorem meets_MultiplesMoveConsecutiveWords :
    (∃ place, State.reset.CanAccessEach (State.reset.eaD 0 0xFFFC#16) 4 false
      (fun k => k < 32 - (0 : Reg).toNat ∧ wordLoads 0 (0 + BitVec.ofNat 5 k) = true) place) ∧
    (∃ place, State.reset.CanAccessEach (State.reset.eaD 0 0xFFFC#16) 4 true (· < 32 - (0 : Reg).toNat) place) ∧
    ∃ place, onePage.CanAccessEach 0x3FC#32 4 true (· < 32 - (31 : Reg).toNat) place :=
  ⟨⟨_, reset_realStorage.canAccessEach (by decide +kernel) _ _⟩,
    ⟨_, reset_realStorage.canAccessEach (by decide +kernel) _ _⟩, _, onePage_canAccessEach true (by decide) fun k hk => by
      obtain rfl : k = 0 := by simp at hk; omega
      exact onePage_entries.1⟩

/-- Reset with a string of 127 bytes in XER. -/
def longString : State := State.reset.setXer 0x7F#32

theorem longString_realStorage : longString.RealStorage :=
  ⟨rfl, (coherent_of (s := longString) rfl rfl).1, rfl, rfl, rfl⟩

/-- `longString` with no bytes, in a cacheable region whose first address is absent. -/
def absentString : State := { State.reset.setSprVal .dccr 0xFFFFFFFF#32 with memMap := [⟨0, 1, .absent⟩] }

theorem absentString_miss (store : Bool) : ∃ p, dataPlace .data (absentString.eaX 0 5) store absentString =
    .ok p absentString ∧ absentString.AbsentMiss p :=
  ⟨absentString.realModePlace .data 0, by cases store <;> rfl, rfl, rfl, by decide +kernel⟩

theorem meets_LoadStringFillsTheRegisters :
    (IsStringLoad (.lswx 3 4 5 true) longString 3 0#32 127 [4, 5] true ∧
      ∃ place, longString.CanAccessEach 0#32 1 false
        (fun k => k < 127 ∧ stringLoads 3 127 [4, 5] (3 + BitVec.ofNat 5 (k / 4)) = true) place) ∧
    (State.reset.xer.toNat % 128 = 0 ∧
      ∀ p s1, dataPlace .data (State.reset.eaX 0 5) false State.reset = .ok p s1 → ¬ State.reset.AbsentMiss p) ∧
    (absentString.xer.toNat % 128 = 0 ∧ ∃ p, dataPlace .data (absentString.eaX 0 5) false absentString =
      .ok p absentString ∧ absentString.AbsentMiss p) :=
  ⟨⟨.inr ⟨4, 5, rfl, by decide +kernel, by decide +kernel, rfl⟩, _,
      longString_realStorage.canAccessEach (by decide) _ _⟩,
    ⟨rfl, fun p _ _ h => by simp [State.AbsentMiss, (plainAt_of (s := State.reset) rfl p.real 1).1] at h⟩,
    rfl, absentString_miss _⟩

theorem meets_StoreStringEmptiesTheRegisters :
    (IsStringStore (.stswi 3 0 0 true) State.reset 3 0#32 32 true ∧
      ∃ place, State.reset.CanAccessEach 0#32 1 true (· < 32) place) ∧
    (State.reset.xer.toNat % 128 = 0 ∧
      ∀ p s1, dataPlace .data (State.reset.eaX 0 5) true State.reset = .ok p s1 → ¬ State.reset.AbsentMiss p) ∧
    (absentString.xer.toNat % 128 = 0 ∧ ∃ p, dataPlace .data (absentString.eaX 0 5) true absentString =
      .ok p absentString ∧ absentString.AbsentMiss p) :=
  ⟨⟨.inl ⟨0, 0, rfl, rfl, rfl⟩, _, reset_realStorage.canAccessEach (by decide) _ _⟩,
    ⟨rfl, fun p _ _ h => by simp [State.AbsentMiss, (plainAt_of (s := State.reset) rfl p.real 1).1] at h⟩,
    rfl, absentString_miss _⟩

theorem reset_canOperate (side : CacheSide) (store : Bool) :
    ∃ p, State.reset.CanOperate side (State.reset.eaX 0 5) store p ∧ State.reset.PlainAt (blockBase p.real) 16 :=
  ⟨State.reset.realModePlace side 0, ⟨(coherent_of rfl rfl).1, (coherent_of rfl rfl).2, ⟨State.reset, by
    cases side <;> cases store <;> rfl⟩⟩, plainAt_of rfl _ _⟩

theorem meets_FlushAndStoreReachMainStorage :
    ∃ p, State.reset.CanOperate .data (State.reset.eaX 0 5) false p := (reset_canOperate _ _).imp fun _ h => h.1

theorem meets_InvalidationsDiscardLines :
    State.reset.problem = false ∧ State.reset.InstrLinesUnique ∧
    (∃ p, State.reset.CanOperate .data (State.reset.eaX 0 5) true p) ∧
    ∃ p, State.reset.CanOperate .instruction (State.reset.eaX 0 5) false p :=
  ⟨rfl, reset_instrLinesUnique, (reset_canOperate _ _).imp fun _ h => h.1, (reset_canOperate _ _).imp fun _ h => h.1⟩

/-- Reset with all of storage cacheable. -/
def cached : State := State.reset.setSprVal .dccr 0xFFFFFFFF#32

theorem meets_BlockZeroClearsTheBlockOrTraps :
    (∃ p, cached.CanOperate .data (cached.eaX 0 5) true p ∧ p.cacheable = true ∧ p.writeThrough = false ∧
      cached.touches .absent (blockBase p.real) 16 = false) ∧
    ∃ p, dataPlace .data (State.reset.eaX 0 5) true State.reset = .ok p State.reset ∧ p.cacheable = false ∧
      State.reset.msrBit msrILE = false :=
  ⟨⟨cached.realModePlace .data 0, ⟨(coherent_of (s := cached) rfl rfl).1, (coherent_of (s := cached) rfl rfl).2, ⟨cached, rfl⟩⟩, rfl, rfl,
    (plainAt_of rfl _ _).1⟩, State.reset.realModePlace .data 0, rfl, rfl, rfl⟩

/-- `cached` with nothing at the last address of the first block. -/
def hole : State := { cached with memMap := [⟨15, 1, .absent⟩] }

theorem meets_TouchesFillOrDoNothing :
    (∃ p, cached.CanOperate .data (cached.eaX 0 5) false p ∧ p.cacheable = true ∧
      cached.PlainAt (blockBase p.real) 16) ∧
    (State.reset.problem = false ∧ ∃ p, State.reset.CanOperate .instruction (State.reset.eaX 0 5) false p ∧
      State.reset.PlainAt (blockBase p.real) 16) ∧
    (∃ p, State.reset.CanOperate .data (State.reset.eaX 0 5) false p ∧ p.cacheable = false) ∧
    (∃ p, hole.CanOperate .data (hole.eaX 0 5) false p ∧ p.cacheable = true ∧
      hole.touches .absent (blockBase p.real) 16 = true) ∧
    (∃ x, dataPlace .data (translating.eaX 0 5) false translating = .exc x translating) ∧
    (translating.problem = false ∧
      ∃ x, dataPlace .instruction (translating.eaX 0 5) false translating = .exc x translating) :=
  ⟨⟨cached.realModePlace .data 0, ⟨(coherent_of (s := cached) rfl rfl).1, (coherent_of (s := cached) rfl rfl).2,
      ⟨cached, rfl⟩⟩, rfl, plainAt_of rfl _ _⟩, ⟨rfl, reset_canOperate _ _⟩,
    ⟨State.reset.realModePlace .data 0, ⟨(coherent_of rfl rfl).1, (coherent_of rfl rfl).2, ⟨State.reset, rfl⟩⟩, rfl⟩,
    ⟨hole.realModePlace .data 0, ⟨(coherent_of (s := hole) rfl rfl).1, (coherent_of (s := hole) rfl rfl).2,
      ⟨hole, rfl⟩⟩, rfl, by decide +kernel⟩, ⟨.dataTlbMiss 0, rfl⟩, rfl, .dataTlbMiss 0, rfl⟩

theorem meets_CacheReadsGiveTheSelectedLine :
    State.reset.problem = false ∧ State.reset.msrBit msrILE = false ∧
    (∃ p, State.reset.CanOperate .data (State.reset.eaX 0 5) false p) ∧ (State.reset.eaX 0 5).toNat % 4 = 0 ∧
    (∃ p, State.reset.CanOperate .instruction (State.reset.eaX 0 5) false p) ∧
    ((State.reset.setReg 5 1#32).eaX 0 5).toNat % 4 ≠ 0 :=
  ⟨rfl, rfl, (reset_canOperate _ _).imp fun _ h => h.1, by decide +kernel,
    (reset_canOperate _ _).imp fun _ h => h.1, by decide +kernel⟩

/-- Reset with all of storage cacheable for fetches, which is not Level 0. -/
def fetching : State := State.reset.setSprVal .iccr 0xFFFFFFFF#32

theorem witness_storeThenIsync :
    ∃ p s1 s2, fetching.CanAccess (fetching.eaD 0 0#16) 4 true p ∧ exec (.stw 4 0 0) fetching = .next s1 ∧
      s1.levelZero = false ∧ exec (.isync false) s1 = .next s2 :=
  ⟨fetching.realModePlace .data 0, _, _, ⟨rfl, (coherent_of (s := fetching) rfl rfl).1,
    (coherent_of (s := fetching) rfl rfl).2, by decide +kernel, ⟨fetching, rfl⟩, plainAt_of rfl _ _⟩,
    exec_onward (by decide +kernel), by decide +kernel, exec_onward (by decide +kernel)⟩

theorem witness_sequence : ∃ s1 s2 s3 s4, exec (.dcbst 0 5 false) State.reset = .next s1 ∧
    exec (.sync false) s1 = .next s2 ∧ exec (.icbi 0 5 false) s2 = .next s3 ∧ exec (.isync false) s3 = .next s4 :=
  ⟨_, _, _, _, exec_onward (by decide +kernel), exec_onward (by decide +kernel), exec_onward (by decide +kernel),
    exec_onward (by decide +kernel)⟩

theorem witness_levelZero : (∀ c side, (State.reset.dline c side).v = false) ∧
    (∀ c side, (State.reset.iline c side).v = false) ∧ State.reset.sprVal .dccr = 0#32 ∧
    State.reset.sprVal .iccr = 0#32 ∧ (∀ k, (State.reset.tlbEntry k).v = true → (State.reset.tlbEntry k).i = true) ∧
    State.reset.cachingSeen = false := by
  refine ⟨fun c side => ?_, fun c side => ?_, rfl, rfl, fun k h => ?_, rfl⟩
  · cases side <;> simp [State.dline, State.dcls, State.reset, DClass.line, DLine.reset, Vector.get]
  · cases side <;> simp [State.iline, State.icls, State.reset, IClass.line, ILine.reset, Vector.get]
  · simp [State.reset, State.tlbEntry, TlbEntry.reset, Vector.get] at h

theorem witness_isync : ∃ t, exec (.isync false) State.reset = .next t := ⟨_, exec_onward (by decide +kernel)⟩

theorem meets_SelfModifyingSequenceMakesStoresFetchable :
    (State.reset.RealStorage ∧ State.reset.InstrLinesUnique ∧ sameBlock 0xF#32 (State.reset.eaX 0 5) = true ∧
      ∃ s1 s2 s3 s4, exec (.dcbst 0 5 false) State.reset = .next s1 ∧ exec (.sync false) s1 = .next s2 ∧
        exec (.icbi 0 5 false) s2 = .next s3 ∧ exec (.isync false) s3 = .next s4) ∧
    (∃ p s1 s2, fetching.CanAccess (fetching.eaD 0 0#16) 4 true p ∧ exec (.stw 4 0 0) fetching = .next s1 ∧
      s1.levelZero = false ∧ exec (.isync false) s1 = .next s2) ∧
    ((∀ c side, (State.reset.dline c side).v = false) ∧ (∀ c side, (State.reset.iline c side).v = false) ∧
      State.reset.sprVal .dccr = 0#32 ∧ State.reset.sprVal .iccr = 0#32 ∧
      (∀ k, (State.reset.tlbEntry k).v = true → (State.reset.tlbEntry k).i = true) ∧
      State.reset.cachingSeen = false) ∧
    (∃ t, exec (.isync false) State.reset = .next t) ∧
    (fetching.keepOld 0 1).cachingSeen = true ∧ ⟨0, 1, .stored⟩ ∈ (fetching.keepOld 0 1).stale ∧
    (∃ t, exec (.isync false) (fetching.keepOld 0 1) = .next t) ∧
    (∀ ra rb b31, Instr.isync false ≠ .dcbst ra rb b31) ∧
    State.reset.LevelKnown ∧ ∃ t, step State.reset = .next t :=
  ⟨⟨reset_realStorage, reset_instrLinesUnique, by decide +kernel, witness_sequence⟩, witness_storeThenIsync,
    witness_levelZero, witness_isync, by decide +kernel, by decide +kernel, ⟨_, exec_onward (by decide +kernel)⟩,
    fun _ _ _ h => (by cases h), Or.inl (by decide +kernel), reset_steps⟩

theorem meets_SystemCallSavesAndReturnsRestore :
    State.reset.msrBit msrILE = false ∧ State.reset.problem = false ∧ bit (State.reset.sprVal .srr1) 31 = false ∧
    bit (State.reset.sprVal .srr3) 31 = false := by decide +kernel

theorem meets_ReturningFromASystemCallResumesTheProgram :
    State.reset.PcAligned ∧ State.reset.BigEndian ∧ State.reset.msrBit msrILE = false := ⟨rfl, rfl, rfl⟩

theorem meets_MsrMovesReadAndWriteTheMsr :
    State.reset.problem = false ∧ bit (State.reset.reg 3) 31 = false ∧
    bit ((State.reset.setReg 3 1#32).reg 3) 31 = true := by decide +kernel

theorem meets_MoveFromSprReadsTheRegister :
    sprOfNumber 287 = some .pvr ∧ State.reset.problem = false ∧ sprOfNumber 8 = some .lr ∧
    (8 : BitVec 10).getLsbD 4 = false := by decide +kernel

theorem meets_MoveToSprWritesTheRegister :
    sprOfNumber 1008 = some .dbsr ∧ Spr.dbsr ∉ [Spr.pvr, .tbhu, .tblu, .dear, .dbcr] ∧ sprOfNumber 984 = some .tsr ∧
    sprOfNumber 9 = some .ctr ∧ (9 : BitVec 10).getLsbD 4 = false ∧ State.reset.problem = false := by decide +kernel

theorem meets_DcrMovesReadAndWriteTheCell :
    State.reset.problem = false ∧ dcrOfNumber 0x40 = some .exisr := by decide +kernel

theorem meets_TrapsAreTakenWhenTheConditionHolds :
    IsTrap (.twi 31 3 0xFFFF#16) State.reset 31 3 0xFFFFFFFF#32 false ∧
    IsTrap (.tw 0 3 4 true) State.reset 0 3 0#32 true ∧ bit (State.reset.sprVal .dbcr) 7 = false ∧
    (bit ((State.reset.setSprVal .dbcr 0x01000000#32).sprVal .dbcr) 0 = false ∧
      bit ((State.reset.setSprVal .dbcr 0x01000000#32).sprVal .dbcr) 1 = false) ∧
    State.reset.msrBit msrILE = false ∧ trapHolds 31 0#32 0xFFFFFFFF#32 = true ∧ trapHolds 0 0#32 0#32 = false :=
  ⟨.inl ⟨_, rfl, by decide +kernel, rfl⟩, .inr ⟨_, rfl, rfl⟩, by decide +kernel⟩

/-- Reset with a value in DBCR. -/
def debugging (v : Word) : State := State.reset.setSprVal .dbcr v

theorem meets_DebugTrapsFollowTheDebugMode :
    (∀ s, IsTrap (.tw 4 3 4 false) s 4 3 (s.reg 4) false) ∧
    ([0x81000000#32, 0xC1000000#32].all fun v => bit ((debugging v).sprVal .dbcr) 7 &&
      bit ((debugging v).sprVal .dbcr) 0 && trapHolds 4 ((debugging v).reg 3) ((debugging v).reg 4)) = true ∧
    bit ((debugging 0x41000000#32).sprVal .dbcr) 7 = true ∧ bit ((debugging 0x41000000#32).sprVal .dbcr) 0 = false ∧
    bit ((debugging 0x41000000#32).sprVal .dbcr) 1 = true ∧
    trapHolds 4 ((debugging 0x41000000#32).reg 3) ((debugging 0x41000000#32).reg 4) = true ∧
    bit (debugging 0x41000000#32).msr 22 = false ∧ bit ((debugging 0x41000000#32).setMsr 0x200#32).msr 22 = true ∧
    ((debugging 0x41000000#32).setMsr 0x200#32).msrBit msrILE = false :=
  ⟨fun _ => .inr ⟨_, rfl, rfl⟩, by decide +kernel⟩

theorem meets_TlbMovesReadAndWriteTheEntry :
    State.reset.problem = false ∧ State.reset.reg 4 = (0 : BitVec 6).setWidth 32 ∧
    (State.reset.setReg 4 63#32).reg 4 = (63 : BitVec 6).setWidth 32 ∧
    64 ≤ ((State.reset.setReg 4 64#32).reg 4).toNat := by decide +kernel

theorem meets_TlbInvalidateAndSearch :
    m0.withT.problem = false ∧ (m0.withT.tlbEntry 9).translates (m0.withT.setReg 5 0xFFC12345#32 |>.eaX 0 5) 8 = true ∧
    ∀ k, (State.reset.tlbEntry k).translates 0#32 0 = false :=
  ⟨rfl, by decide +kernel, fun k => by simp [State.reset, State.tlbEntry, TlbEntry.translates, TlbEntry.reset, Vector.get]⟩

end Sys2Proof.Tests
end

section
/-! The fetch of the next instruction: what its parts leave unchanged, and the step that runs what was fetched. -/

namespace Sys2Proof.Machine

/-- What a fetch keeps: the pc, and every piece of the state but the instruction cache (20_memory.md R105). -/
structure FetchFrame (s t : State) : Prop where
  pc : t.pc = s.pc
  unchanged : Unchanged [.instrCache] s t

theorem FetchFrame.refl (s : State) : FetchFrame s s := ⟨rfl, Unchanged.refl _ s⟩

theorem FetchFrame.trans {s t u : State} (h1 : FetchFrame s t) (h2 : FetchFrame t u) : FetchFrame s u :=
  ⟨h2.pc.trans h1.pc, h1.unchanged.trans' h2.unchanged⟩

theorem FetchFrame.foldl {ι : Type} {f : State → ι → State} (hf : ∀ s i, FetchFrame s (f s i)) (l : List ι)
    (s : State) : FetchFrame s (l.foldl f s) := by
  induction l generalizing s with
  | nil => exact .refl s
  | cons i l ih => exact (hf s i).trans (ih (f s i))

/-! ### The state operations a fetch is made of -/

theorem State.drawn_fetchFrame (s : State) : FetchFrame s s.drawn := ⟨rfl, unchanged_drawn s _⟩

theorem State.setIline_fetchFrame (s : State) (c : BitVec 6) (side : Side) (l : ILine) :
    FetchFrame s (s.setIline c side l) := ⟨rfl, unchanged_setIcache s _⟩

theorem State.setIlru_fetchFrame (s : State) (c : BitVec 6) (v : Bool) : FetchFrame s (s.setIlru c v) :=
  ⟨rfl, unchanged_setIcache s _⟩

theorem State.keepQueued_fetchFrame (s : State) (a : Word) (b : Byte) : FetchFrame s (s.keepQueued a b) :=
  ⟨rfl, unchanged_keepQueued s a b _⟩

/-- A choice takes a draw at most. -/
theorem State.choose_fetchFrame {α : Type} (s : State) (l : List α) : FetchFrame s (s.choose l).2 := by
  obtain h | h := s.choose_state l
  · rw [h]; exact .refl s
  · rw [h]; exact s.drawn_fetchFrame

/-- The bytes of a line that is dropped go to the prefetch queue, which is no piece of the state. -/
theorem State.dropIline_fetchFrame (s : State) (c : BitVec 6) (side : Side) : FetchFrame s (s.dropIline c side) := by
  unfold State.dropIline
  simp only
  split
  · exact (FetchFrame.foldl (fun _ _ => State.keepQueued_fetchFrame _ _ _) _ s).trans
      (State.setIline_fetchFrame _ _ _ _)
  · exact .refl s

theorem State.ifill_fetchFrame (s : State) (a : Word) (side : Side) : FetchFrame s (s.ifill a side) :=
  (s.dropIline_fetchFrame _ side).trans (State.setIline_fetchFrame _ _ side _)

/-- A hit writes the LRU bit, a miss may fill a line; nothing is copied back to main storage. -/
theorem State.itouch_fetchFrame (s : State) (p : Place) : FetchFrame s (s.itouch p) := by
  unfold State.itouch
  simp only
  split
  next => exact .refl s
  next =>
    split
    next => exact (s.setIlru_fetchFrame _ _).trans (State.drawn_fetchFrame _)
    next =>
      split
      next =>
        exact ((s.ifill_fetchFrame _ _).trans (State.setIlru_fetchFrame _ _ _)).trans (State.drawn_fetchFrame _)
      next => exact s.drawn_fetchFrame

/-! ### The parts of a fetch -/

/-- The state after one byte is fetched is the state after the choice of the byte. -/
theorem fetchByte_state (p : Place) (a : Word) (s : State) : (fetchByte p a s).2 =
    (s.choose (s.instrByte p a :: (s.fetchable a).filter (fun x => x != s.instrByte p a))).2 := by
  unfold fetchByte
  simp only
  split <;> next h => rw [h]

theorem fetchByte_fetchFrame {p : Place} {a : Word} {s t : State} {b : Byte} (h : fetchByte p a s = (b, t)) :
    FetchFrame s t := by
  have ht : t = (fetchByte p a s).2 := by rw [h]
  rw [ht, fetchByte_state]
  exact s.choose_fetchFrame _

theorem fetchBytes_fetchFrame {p : Place} {s t : State} {bs : List Byte} (h : fetchBytes p s = (bs, t)) :
    FetchFrame s t := by
  rcases h0 : fetchByte p p.real s with ⟨b0, s0⟩
  rcases h1 : fetchByte p (p.real + 1#32) s0 with ⟨b1, s1⟩
  rcases h2 : fetchByte p (p.real + 2#32) s1 with ⟨b2, s2⟩
  rcases h3 : fetchByte p (p.real + 3#32) s2 with ⟨b3, s3⟩
  simp only [fetchBytes, h0, h1, h2, h3, Prod.mk.injEq] at h
  rw [← h.2]
  exact (((fetchByte_fetchFrame h0).trans (fetchByte_fetchFrame h1)).trans (fetchByte_fetchFrame h2)).trans
    (fetchByte_fetchFrame h3)

/-- Translating the pc takes a draw at most, for the choice among several matching entries (20_memory.md R116). -/
theorem fetchPlace_fetchFrame {s t : State} {p : Place} (h : fetchPlace s = .ok p t) : FetchFrame s t := by
  have hpick : FetchFrame s (s.tlbPick s.pc).2 := s.choose_fetchFrame _
  unfold fetchPlace at h
  split at h
  · split at h
    · cases h
    · rename_i i s1 hi
      simp only at h
      split at h
      · cases h
      · rw [hi] at hpick
        exact (Result.ok.inj h).2 ▸ hpick
  · exact (Result.ok.inj h).2 ▸ .refl s

/-- The check for main storage answers with the state it was given. -/
theorem checkFetch_state {p : Place} {s t : State} {u : Unit} (h : checkFetch p s = .ok u t) : t = s := by
  unfold checkFetch at h
  split at h
  · exact (Result.ok.inj h).2.symm
  · exact checkStorage_ok h

/-- A fetch that answers has a place, passes the check and reads four bytes there. -/
theorem fetch_ok {s t : State} {bs : List Byte} (h : fetch s = .ok bs t) :
    ∃ p s1, fetchPlace s = .ok p s1 ∧ checkFetch p s1 = .ok () s1 ∧ fetchBytes p (s1.itouch p) = (bs, t) := by
  unfold fetch at h
  split at h
  · cases h
  · obtain ⟨p, s1, hplace, hrest⟩ := Result.bind_eq_ok.1 h
    obtain ⟨_, s2, hcheck, hread⟩ := Result.bind_eq_ok.1 hrest
    obtain rfl := checkFetch_state hcheck
    rcases hbytes : fetchBytes p (s2.itouch p) with ⟨bs', t'⟩
    rw [hbytes] at hread
    obtain ⟨rfl, rfl⟩ := Result.ok.inj hread
    exact ⟨p, s2, hplace, hcheck, hbytes⟩

/-- A fetch fills a line of the instruction cache and takes draws at most. -/
theorem fetch_fetchFrame {s t : State} {bs : List Byte} (h : fetch s = .ok bs t) : FetchFrame s t := by
  obtain ⟨p, s1, hplace, -, hbytes⟩ := fetch_ok h
  exact ((fetchPlace_fetchFrame hplace).trans (s1.itouch_fetchFrame p)).trans (fetchBytes_fetchFrame hbytes)

/-! ### The step -/

/-- Out of Debug Stop and the wait state, and with no interrupt to take, a step runs the next instruction. -/
theorem step_eq_runNext {s : State} (hstop : s.debugStopped = false) (hirq : s.nextIrq = none)
    (hwait : s.msrBit msrWE = false) : step s = runNext s := by
  simp [step, hstop, hirq, hwait]

/-- After a fetch that answers, what the decoder makes of the bytes is run in the state after it. -/
theorem runNext_of_fetch {s s1 : State} {bs rest : List Byte} {d : Decoded} (hfetch : fetch s = .ok bs s1)
    (hdecode : decodeBytes bs = some (d, rest)) : runNext s = runDecoded d s1 := by
  simp [runNext, hfetch, decodeFetched, hdecode]

/-- Settles O6: the step reduces to the decoded instruction, and the fetch before it keeps its frame part by part. -/
theorem aStepRunsTheDecodedInstruction : Obligations.AStepRunsTheDecodedInstruction := by
  unfold Obligations.AStepRunsTheDecodedInstruction
  intro s s1 bs i hstop hirq hwait hfetch hdecode
  have hframe := fetch_fetchFrame hfetch
  have hstep : step s = exec i s1 :=
    calc step s = runNext s := step_eq_runNext hstop hirq hwait
      _ = runDecoded (.ok i) s1 := runNext_of_fetch hfetch hdecode
      _ = exec i s1 := rfl
  exact ⟨hstep, hframe.pc, hframe.unchanged⟩

end Sys2Proof.Machine
end

section
/-! The two things every instruction does with the program counter and RESERVE: the work of an instruction leaves both
alone, and its end leaves the pc a multiple of 4 (10_state.md R45, R82). -/

namespace Sys2Proof.Machine

/-! ### Multiples of 4 -/

theorem and_three_eq_zero_iff (w : Word) : w &&& 3#32 = 0#32 ↔ w.toNat % 4 = 0 := by
  rw [← BitVec.toNat_inj, BitVec.toNat_and]
  exact iff_of_eq (congrArg (· = 0) (Nat.and_two_pow_sub_one_eq_mod w.toNat 2))

theorem State.pcAligned_iff (s : State) : s.PcAligned ↔ s.pc.toNat % 4 = 0 := and_three_eq_zero_iff s.pc

theorem toNat_add_mod_four {a b : Word} (ha : a.toNat % 4 = 0) (hb : b.toNat % 4 = 0) : (a + b).toNat % 4 = 0 := by
  rw [BitVec.toNat_add]
  omega

/-- A word is a multiple of 4 when its two low bits are 0. -/
theorem toNat_mod_four_of_low_bits {w : Word} (h0 : w.getLsbD 0 = false) (h1 : w.getLsbD 1 = false) :
    w.toNat % 4 = 0 := by
  rw [BitVec.getLsbD, Nat.testBit_eq_decide_div_mod_eq] at h0 h1
  simp only [decide_eq_false_iff_not] at h0 h1
  omega

theorem wordAligned_mod_four (w : Word) : (wordAligned w).toNat % 4 = 0 :=
  toNat_mod_four_of_low_bits (by simp [wordAligned]) (by simp [wordAligned])

/-- The two low bits of a displacement `x || 0b00`, sign-extended, are 0 (30_encoding.md R165). -/
theorem low_bit_of_append_zero {n : Nat} (x : BitVec n) {k : Nat} (hk : k < 2) :
    ((x ++ 0#2).signExtend 32).getLsbD k = false := by
  rw [BitVec.getLsbD_signExtend, if_pos (by omega), BitVec.getLsbD_append, if_pos hk]
  simp

theorem dispI_mod_four (li : BitVec 24) : (dispI li).toNat % 4 = 0 :=
  toNat_mod_four_of_low_bits (low_bit_of_append_zero li (by decide)) (low_bit_of_append_zero li (by decide))

theorem dispB_mod_four (bd : BitVec 14) : (dispB bd).toNat % 4 = 0 :=
  toNat_mod_four_of_low_bits (low_bit_of_append_zero bd (by decide)) (low_bit_of_append_zero bd (by decide))

/-- A vector is as aligned as its offset, whatever EVPR holds (60_exceptions.md R503). -/
theorem vectorAddress_mod_four (evpr : Word) {offset : BitVec 16} (h : offset.toNat % 4 = 0) :
    (vectorAddress evpr offset).toNat % 4 = 0 := by
  rw [vectorAddress, BitVec.toNat_append, ← Nat.shiftLeft_add_eq_or_of_lt offset.isLt, Nat.shiftLeft_eq]
  omega

/-! ### The two relations -/

/-- What the work of an instruction keeps: the pc, which only its end moves, and RESERVE. -/
structure WorkFrame (s t : State) : Prop where
  pc : t.pc = s.pc
  reserve : t.reserve = s.reserve

/-- What a whole instruction keeps, its end and a taken exception included: RESERVE, and that the pc is a multiple
of 4. -/
structure Continues (s t : State) : Prop where
  pcAligned : s.PcAligned → t.PcAligned
  reserve : t.reserve = s.reserve

namespace WorkFrame

theorem refl (s : State) : WorkFrame s s := ⟨rfl, rfl⟩

theorem trans {s t u : State} (h1 : WorkFrame s t) (h2 : WorkFrame t u) : WorkFrame s u :=
  ⟨h2.pc.trans h1.pc, h2.reserve.trans h1.reserve⟩

/-- What each turn of a loop keeps, the loop keeps. -/
theorem foldl {ι : Type} {f : State → ι → State} (hf : ∀ s i, WorkFrame s (f s i)) (l : List ι) (s : State) :
    WorkFrame s (l.foldl f s) := by
  induction l generalizing s with
  | nil => exact refl s
  | cons i l ih => exact (hf s i).trans (ih (f s i))

theorem continues {s t : State} (h : WorkFrame s t) : Continues s t :=
  ⟨fun hs => by rwa [State.PcAligned, h.pc], h.reserve⟩

end WorkFrame

theorem FetchFrame.workFrame {s t : State} (h : FetchFrame s t) : WorkFrame s t :=
  ⟨h.pc, h.unchanged .reserve (by simp)⟩

theorem Continues.trans {s t u : State} (h1 : Continues s t) (h2 : Continues t u) : Continues s u :=
  ⟨fun hs => h2.pcAligned (h1.pcAligned hs), h2.reserve.trans h1.reserve⟩

/-! ### Parts of an instruction -/

theorem Result.All.imp {α : Type} {P Q : State → Prop} {r : Result α} (h : r.All P) (hPQ : ∀ s, P s → Q s) :
    r.All Q := by
  cases r with
  | ok a s => exact hPQ s h
  | exc x s => exact hPQ s h
  | stop _ => trivial
  | refuse _ => trivial

theorem Out.All.imp {P Q : State → Prop} {o : Out} (h : Out.All P o) (hPQ : ∀ s, P s → Q s) : Out.All Q o := by
  cases o with
  | next s => exact hPQ s h
  | fault _ => trivial
  | refused _ => trivial

theorem Result.ok_workFrame {α : Type} {a : α} {s t : State} (h : WorkFrame s t) :
    (Result.ok a t).All (WorkFrame s) := h

/-- Two parts after one another keep what each of them keeps. -/
theorem Result.workFrame_bind {α β : Type} {s : State} {r : Result α} {f : α → State → Result β}
    (hr : r.All (WorkFrame s)) (hf : ∀ a t, (f a t).All (WorkFrame t)) : (r.bind f).All (WorkFrame s) :=
  Result.all_bind hr fun a t h => (hf a t).imp fun _ => h.trans

/-! ### The operations on registers, the caches and main storage -/

theorem State.setReg_workFrame (s : State) (r : Reg) (v : Word) : WorkFrame s (s.setReg r v) := ⟨rfl, rfl⟩

theorem State.drawn_workFrame (s : State) : WorkFrame s s.drawn := ⟨rfl, rfl⟩

theorem State.keepOld_workFrame (s : State) (a : Word) (b : Byte) : WorkFrame s (s.keepOld a b) := ⟨rfl, rfl⟩

theorem State.markOld_workFrame (s : State) (sel : OldByte → Bool) (x y : OldStage) :
    WorkFrame s (s.markOld sel x y) := ⟨rfl, rfl⟩

theorem State.setDline_workFrame (s : State) (c : BitVec 5) (side : Side) (l : DLine) :
    WorkFrame s (s.setDline c side l) := ⟨rfl, rfl⟩

theorem State.setDlru_workFrame (s : State) (c : BitVec 5) (v : Bool) : WorkFrame s (s.setDlru c v) := ⟨rfl, rfl⟩

theorem State.putStorage_workFrame (s : State) (a : Word) (b : Byte) : WorkFrame s (s.putStorage a b) := by
  unfold State.putStorage
  split
  · exact .refl s
  · exact ⟨rfl, rfl⟩

theorem State.putBlock_workFrame (s : State) (base : Word) (data : Vector Byte 16) :
    WorkFrame s (s.putBlock base data) := .foldl (fun _ _ => State.putStorage_workFrame _ _ _) _ s

theorem State.keepDline_workFrame (s : State) (c : BitVec 5) (side : Side) : WorkFrame s (s.keepDline c side) := by
  unfold State.keepDline
  simp only
  split
  · exact .foldl (fun _ _ => State.keepOld_workFrame _ _ _) _ s
  · exact .refl s

theorem State.discardDline_workFrame (s : State) (c : BitVec 5) (side : Side) :
    WorkFrame s (s.discardDline c side) := (s.keepDline_workFrame c side).trans (State.setDline_workFrame _ _ _ _)

theorem State.dropIline_workFrame (s : State) (c : BitVec 6) (side : Side) : WorkFrame s (s.dropIline c side) :=
  (s.dropIline_fetchFrame c side).workFrame

/-- A byte goes to a line, to main storage, or to both. -/
theorem State.putData_workFrame (s : State) (p : Place) (a : Word) (b : Byte) : WorkFrame s (s.putData p a b) := by
  unfold State.putData
  split
  · exact s.putStorage_workFrame a b
  · simp only
    split
    · exact ⟨rfl, rfl⟩
    · exact ((s.keepOld_workFrame _ _).trans (State.setDline_workFrame _ _ _ _)).trans
        (State.putStorage_workFrame _ _ _)

theorem State.putValue_workFrame (s : State) (p : Place) (n : Nat) (v : Word) : WorkFrame s (s.putValue p n v) :=
  .foldl (fun _ _ => State.putData_workFrame _ _ _ _) _ s

theorem checkStorage_workFrame (a : Word) (n : Nat) (s : State) : (checkStorage a n s).All (WorkFrame s) := by
  unfold checkStorage
  split
  · trivial
  · split
    · trivial
    · exact .refl s

theorem copyBack_workFrame (c : BitVec 5) (side : Side) (s : State) : (copyBack c side s).All (WorkFrame s) := by
  unfold copyBack
  simp only
  split
  · exact Result.workFrame_bind (checkStorage_workFrame _ _ s) fun _ t => t.putBlock_workFrame _ _
  · exact .refl s

theorem castOut_workFrame (c : BitVec 5) (side : Side) (s : State) : (castOut c side s).All (WorkFrame s) := by
  unfold castOut
  split
  · exact copyBack_workFrame c side s
  · exact .refl s

theorem dfill_workFrame (a : Word) (side : Side) (s : State) : (dfill a side s).All (WorkFrame s) :=
  Result.workFrame_bind (castOut_workFrame _ side s) fun _ t => t.setDline_workFrame _ _ _

/-- A line that is read after a draw, its LRU bit written: the fill of an access and of a touch. -/
theorem dfill_setDlru_workFrame (a : Word) (side : Side) (v : Bool) (s : State) :
    ((dfill a side s.drawn).bind fun _ t => .ok () (t.setDlru (dclass a) v)).All (WorkFrame s) :=
  Result.workFrame_bind ((dfill_workFrame a side s.drawn).imp fun _ => s.drawn_workFrame.trans) fun _ t =>
    t.setDlru_workFrame _ _

theorem dtouch_workFrame (p : Place) (s : State) : (dtouch p s).All (WorkFrame s) := by
  unfold dtouch
  simp only
  split
  · exact .refl s
  · split
    · exact (s.setDlru_workFrame _ _).trans (State.drawn_workFrame _)
    · split
      · exact dfill_setDlru_workFrame _ _ _ s
      · exact s.drawn_workFrame

/-! ### Accesses -/

theorem checkBounds_workFrame (ea : Word) (store : Bool) (p : Place) (s : State) :
    (checkBounds ea store p s).All (WorkFrame s) := by
  unfold checkBounds
  split <;> exact .refl s

/-- Translation takes a draw at most, for the choice among several matching entries (20_memory.md R116). -/
theorem dataPlace_workFrame (side : CacheSide) (ea : Word) (store : Bool) (s : State) :
    (dataPlace side ea store s).All (WorkFrame s) := by
  have hpick : WorkFrame s (s.tlbPick ea).2 := (s.choose_fetchFrame _).workFrame
  unfold dataPlace
  split
  · split <;> rename_i e <;> rw [e] at hpick
    · exact hpick
    · simp only
      split
      · exact hpick
      · split
        · exact hpick
        · exact (checkBounds_workFrame ea store _ _).imp fun _ => hpick.trans
  · exact checkBounds_workFrame ea store _ s

theorem checkAccess_workFrame (p : Place) (n : Nat) (store : Bool) (s : State) :
    (checkAccess p n store s).All (WorkFrame s) := by
  unfold checkAccess
  split
  · exact checkStorage_workFrame _ n s
  · exact .refl s

theorem access_workFrame (ea : Word) (n : Nat) (store : Bool) (s : State) :
    (access ea n store s).All (WorkFrame s) := by
  unfold access
  split
  · trivial
  · split
    · exact .refl s
    · exact Result.workFrame_bind (dataPlace_workFrame .data ea store s) fun p s1 =>
        Result.workFrame_bind (checkAccess_workFrame p n store s1) fun _ s2 =>
          Result.workFrame_bind (dtouch_workFrame p s2) fun _ s3 => .refl s3

theorem memRead_workFrame (ea : Word) (n : Nat) (s : State) : (memRead ea n s).All (WorkFrame s) :=
  Result.workFrame_bind (access_workFrame ea n false s) fun _ t => .refl t

theorem memWrite_workFrame (ea : Word) (n : Nat) (v : Word) (s : State) : (memWrite ea n v s).All (WorkFrame s) :=
  Result.workFrame_bind (access_workFrame ea n true s) fun p t => t.putValue_workFrame p n v

/-! ### Multiples and strings -/

theorem loadWords_workFrame (ra : Reg) (rs : List Reg) (ea : Word) (s : State) :
    (loadWords ra rs ea s).All (WorkFrame s) := by
  induction rs generalizing ea s with
  | nil => exact .refl s
  | cons r rest ih =>
    unfold loadWords
    split
    · exact Result.workFrame_bind (memRead_workFrame ea 4 s) fun _ _ => (ih _ _).imp fun _ h => ⟨h.pc, h.reserve⟩
    · exact ih _ s

theorem storeWords_workFrame (rs : List Reg) (ea : Word) (s : State) : (storeWords rs ea s).All (WorkFrame s) := by
  induction rs generalizing ea s with
  | nil => exact .refl s
  | cons r rest ih => exact Result.workFrame_bind (memWrite_workFrame ea 4 _ s) fun _ t => ih _ t

theorem alignedThen_workFrame (ea : Word) (n : Nat) {s : State} {k : Result Unit} (hk : k.All (WorkFrame s)) :
    (alignedThen ea n s k).All (WorkFrame s) := by
  unfold alignedThen
  split
  · exact .refl s
  · exact hk

theorem loadStringByte_workFrame (rt : Reg) (skip : Reg → Bool) (k : Nat) (ea : Word) (s : State) :
    (loadStringByte rt skip k ea s).All (WorkFrame s) := by
  have hclear : WorkFrame s (if k % 4 = 0 then s.setReg (stringReg rt k) 0#32 else s) := by
    split
    · exact ⟨rfl, rfl⟩
    · exact .refl s
  unfold loadStringByte
  simp only
  split
  · exact .refl s
  · exact Result.workFrame_bind ((memRead_workFrame ea 1 _).imp fun _ => hclear.trans) fun _ _ => ⟨rfl, rfl⟩

theorem loadString_workFrame (rt : Reg) (skip : Reg → Bool) (ea : Word) (ks : List Nat) (s : State) :
    (loadString rt skip ea ks s).All (WorkFrame s) := by
  induction ks generalizing s with
  | nil => exact .refl s
  | cons k rest ih => exact Result.workFrame_bind (loadStringByte_workFrame rt skip k _ s) fun _ t => ih t

theorem storeString_workFrame (rs : Reg) (ea : Word) (ks : List Nat) (s : State) :
    (storeString rs ea ks s).All (WorkFrame s) := by
  induction ks generalizing s with
  | nil => exact .refl s
  | cons k rest ih => exact Result.workFrame_bind (memWrite_workFrame _ 1 _ s) fun _ t => ih t

theorem zeroLengthCheck_workFrame (ea : Word) (store : Bool) (s : State) :
    (zeroLengthCheck ea store s).All (WorkFrame s) := by
  have hplace := dataPlace_workFrame .data ea store s
  unfold zeroLengthCheck
  split <;> rename_i e <;> rw [e] at hplace
  · split
    · trivial
    · exact hplace
  · exact hplace
  · trivial
  · trivial

/-! ### Cache instructions -/

theorem flushBlock_workFrame (p : Place) (s : State) : (flushBlock p s).All (WorkFrame s) := by
  unfold flushBlock
  split
  · exact .refl s
  · exact Result.workFrame_bind (copyBack_workFrame _ _ s) fun _ t => t.setDline_workFrame _ _ _

theorem invalidateBlock_workFrame (p : Place) (s : State) : (invalidateBlock p s).All (WorkFrame s) := by
  unfold invalidateBlock
  split
  · exact .refl s
  · exact s.discardDline_workFrame _ _

theorem storeBlock_workFrame (p : Place) (s : State) : (storeBlock p s).All (WorkFrame s) := by
  unfold storeBlock
  split
  · exact .refl s
  · exact Result.workFrame_bind (copyBack_workFrame _ _ s) fun _ t => t.setDline_workFrame _ _ _

theorem touchBlock_workFrame (p : Place) (s : State) : (touchBlock p s).All (WorkFrame s) := by
  unfold touchBlock
  split
  · exact .refl s
  · split
    · trivial
    · exact dfill_setDlru_workFrame _ _ _ s

theorem zeroBlockAt_workFrame (ea : Word) (p : Place) (s : State) : (zeroBlockAt ea p s).All (WorkFrame s) := by
  unfold zeroBlockAt
  split
  · exact .refl s
  · split
    · trivial
    · split
      · exact (s.keepDline_workFrame _ _).trans (State.setDline_workFrame _ _ _ _)
      · exact Result.workFrame_bind ((castOut_workFrame _ _ s.drawn).imp fun _ => s.drawn_workFrame.trans)
          fun _ _ => ⟨rfl, rfl⟩

theorem iinvalidateBlock_workFrame (p : Place) (s : State) : (iinvalidateBlock p s).All (WorkFrame s) := by
  unfold iinvalidateBlock
  split
  · exact .refl s
  · exact s.dropIline_workFrame _ _

theorem itouchBlock_workFrame (p : Place) (s : State) : (itouchBlock p s).All (WorkFrame s) := by
  unfold itouchBlock
  split
  · exact .refl s
  · split
    · trivial
    · exact (((s.ifill_fetchFrame _ _).trans (State.setIlru_fetchFrame _ _ _)).trans
        (State.drawn_fetchFrame _)).workFrame

theorem dcreadWork_workFrame (rt : Reg) (ea : Word) (s : State) : WorkFrame s (dcreadWork rt ea s) := by
  unfold dcreadWork
  simp only
  split
  · exact ⟨rfl, rfl⟩
  · split <;> exact ⟨rfl, rfl⟩

theorem icreadWork_workFrame (ea : Word) (s : State) : WorkFrame s (icreadWork ea s) := by
  unfold icreadWork
  simp only
  split
  · exact ⟨rfl, rfl⟩
  · split <;> exact ⟨rfl, rfl⟩

/-! ### Registers -/

theorem State.setSprVal_workFrame (s : State) (r : Spr) (v : Word) : WorkFrame s (s.setSprVal r v) := by
  cases r <;> exact ⟨rfl, rfl⟩

theorem writeSpr_workFrame (r : Spr) (v : Word) (s : State) : WorkFrame s (writeSpr r v s) := by
  unfold writeSpr
  split <;> exact s.setSprVal_workFrame _ _

theorem readSpr_workFrame (r : Spr) (rt : Reg) (s : State) : WorkFrame s (readSpr r rt s) := by
  unfold readSpr
  split <;> exact ⟨rfl, rfl⟩

theorem tlbRead_workFrame (rt ra : Reg) (hi : Bool) (s : State) : WorkFrame s (tlbRead rt ra hi s) := by
  unfold tlbRead
  simp only
  split
  · split <;> exact ⟨rfl, rfl⟩
  · split <;> exact ⟨rfl, rfl⟩

theorem State.setEsrBit_workFrame (s : State) (b : Nat) : WorkFrame s (s.setEsrBit b) := ⟨rfl, rfl⟩

theorem State.setDear_workFrame (s : State) (ea : Word) : WorkFrame s (s.setDear ea) := ⟨rfl, rfl⟩

theorem State.setDbsrBit_workFrame (s : State) (b : Nat) : WorkFrame s (s.setDbsrBit b) := ⟨rfl, rfl⟩

theorem State.drawCr0_workFrame (s : State) (b : Bool) : WorkFrame s (s.drawCr0 b) := by
  cases b <;> exact ⟨rfl, rfl⟩

theorem State.recordOv_workFrame (s : State) (oe ov : Bool) : WorkFrame s (s.recordOv oe ov) := by
  cases oe <;> exact ⟨rfl, rfl⟩

theorem State.record_workFrame (s : State) (rc : Bool) (r : Word) : WorkFrame s (s.record rc r) := by
  cases rc <;> exact ⟨rfl, rfl⟩

theorem State.recordReserve_workFrame (s : State) (held : Bool) : WorkFrame s (s.recordReserve held) := ⟨rfl, rfl⟩

theorem State.link_workFrame (s : State) (lk : Bool) : WorkFrame s (s.link lk) := by
  cases lk <;> exact ⟨rfl, rfl⟩

/-! ### The end of an instruction -/

/-- The next instruction is 4 bytes on (10_state.md R44). -/
theorem WorkFrame.advance {s t : State} (h : WorkFrame s t) : Continues s t.advance where
  pcAligned hs := by
    rw [State.pcAligned_iff] at hs ⊢
    rw [State.advance_pc, h.pc]
    exact toNat_add_mod_four hs rfl
  reserve := h.reserve

theorem WorkFrame.advance31 {s t : State} (h : WorkFrame s t) (b31 : Bool) : Continues s (t.advance31 b31) :=
  (h.trans (t.drawCr0_workFrame b31)).advance

theorem next_advance_continues {s t : State} (h : WorkFrame s t) : Out.All (Continues s) (.next t.advance) :=
  h.advance

theorem next_advance31_continues {s t : State} {b31 : Bool} (h : WorkFrame s t) :
    Out.All (Continues s) (.next (t.advance31 b31)) := h.advance31 b31

theorem WorkFrame.jump {s t : State} (h : WorkFrame s t) {target : Word}
    (ha : s.PcAligned → target.toNat % 4 = 0) : Continues s (t.jump target) where
  pcAligned hs := (State.pcAligned_iff _).2 (ha hs)
  reserve := h.reserve

/-- An entry goes to a vector and leaves RESERVE (60_exceptions.md R502, R503). -/
theorem enter_continues (critical : Bool) (saved : Word) {offset : BitVec 16} (ho : offset.toNat % 4 = 0)
    (s : State) : Out.All (Continues s) (enter critical saved offset s) := by
  rw [Out.all_iff]
  intro t h
  have he := enter_spec h
  refine ⟨fun _ => ?_, he.others .reserve (by cases critical <;> simp)⟩
  rw [State.pcAligned_iff, he.pc]
  exact vectorAddress_mod_four s.spr.evpr ho

/-- Every exception has a vector that is a multiple of 4. -/
theorem raise_continues (x : Exc) (s : State) : Out.All (Continues s) (raise x s) := by
  have henter : ∀ (critical : Bool) (saved : Word) (offset : BitVec 16) (u : State), WorkFrame s u →
      offset.toNat % 4 = 0 → Out.All (Continues s) (enter critical saved offset u) :=
    fun critical saved _ u hu ho => (enter_continues critical saved ho u).imp fun _ => hu.continues.trans
  cases x with
  | systemCall | instructionStorage | instructionTlbMiss | debug => exact henter _ _ _ s (.refl s) rfl
  | illegal | privileged | trap => exact henter _ _ _ _ (s.setEsrBit_workFrame _) rfl
  | alignment ea | dataTlbMiss ea => exact henter _ _ _ _ (s.setDear_workFrame ea) rfl
  | dataStorage ea store zone =>
    refine henter _ _ _ _ (WorkFrame.trans ?_ (State.setDear_workFrame _ ea)) rfl
    cases store <;> cases zone <;> exact ⟨rfl, rfl⟩

/-- A return goes to a save register with its two low bits ignored (48_system.md R451, R452). -/
theorem returnFrom_continues (savedPc savedMsr : Word) (s : State) :
    Out.All (Continues s) (returnFrom savedPc savedMsr s) := by
  unfold returnFrom
  split
  · trivial
  · exact ⟨fun _ => (State.pcAligned_iff _).2 (wordAligned_mod_four savedPc), rfl⟩

theorem privileged_continues {s : State} {k : Out} (hk : Out.All (Continues s) k) :
    Out.All (Continues s) (privileged s k) := Out.all_privileged (raise_continues .privileged s) hk

theorem sprGuard_continues (sprn : BitVec 10) {s : State} {k : Out} (hk : Out.All (Continues s) k) :
    Out.All (Continues s) (sprGuard sprn s k) := by
  unfold sprGuard
  split
  · exact privileged_continues hk
  · exact hk

/-- An instruction whose work keeps the pc and RESERVE and which then goes on. -/
theorem Result.bind_finish_continues {α : Type} {s : State} {r : Result α} {f : α → State → State}
    (hr : r.All (WorkFrame s)) (hf : ∀ a t, Continues t (f a t)) :
    Out.All (Continues s) (r.bind fun a t => .ok () (f a t)).finish := by
  cases r with
  | ok a t => exact hr.continues.trans (hf a t)
  | exc x t => exact (raise_continues x t).imp fun _ => hr.continues.trans
  | stop _ => trivial
  | refuse _ => trivial

/-! ### The shared meanings -/

theorem writeArith_continues (rt : Reg) (r : Word) (ca : Option Bool) (oe ov rc : Bool) (s : State) :
    Out.All (Continues s) (writeArith rt r ca oe ov rc s) := by
  have hcarry : WorkFrame s (match ca with | some c => (s.setReg rt r).setCa c | none => s.setReg rt r) := by
    cases ca <;> exact ⟨rfl, rfl⟩
  exact ((hcarry.trans (State.recordOv_workFrame _ oe ov)).trans (State.record_workFrame _ rc r)).advance

theorem sumKeepCarry_continues (rt : Reg) (a b : Word) (c oe rc : Bool) (s : State) :
    Out.All (Continues s) (sumKeepCarry rt a b c oe rc s) := writeArith_continues _ _ _ _ _ _ s

theorem sumWithCarry_continues (rt : Reg) (a b : Word) (c oe rc : Bool) (s : State) :
    Out.All (Continues s) (sumWithCarry rt a b c oe rc s) := writeArith_continues _ _ _ _ _ _ s

theorem undefinedQuotient_continues (rt : Reg) (oe rc : Bool) (s : State) :
    Out.All (Continues s) (undefinedQuotient rt oe rc s) := by
  have hdraw : WorkFrame s (s.setReg rt s.undef).drawn := ⟨rfl, rfl⟩
  exact ((hdraw.trans (State.drawCr0_workFrame _ rc)).trans (State.recordOv_workFrame _ oe true)).advance

theorem writeLogical_continues (ra : Reg) (r : Word) (rc : Bool) (s : State) :
    Out.All (Continues s) (writeLogical ra r rc s) := by
  have hset : WorkFrame s (s.setReg ra r) := ⟨rfl, rfl⟩
  exact (hset.trans (State.record_workFrame _ rc r)).advance

theorem writeRotate_continues (ra : Reg) (r : Word) (rc : Bool) (s : State) :
    Out.All (Continues s) (writeRotate ra r rc s) := writeLogical_continues ra r rc s

theorem shiftAlgebraic_continues (ra rs : Reg) (n : Nat) (m : Word) (rc : Bool) (s : State) :
    Out.All (Continues s) (shiftAlgebraic ra rs n m rc s) := by
  have hset : ∀ v c, WorkFrame s ((s.setReg ra v).setCa c) := fun _ _ => ⟨rfl, rfl⟩
  unfold shiftAlgebraic
  exact next_advance_continues ((hset _ _).trans (State.record_workFrame _ rc _))

/-- A conditional branch goes to its target or to the next instruction (44_branch.md R320). -/
theorem branchOn_continues (bo bi : BitVec 5) (lk : Bool) {target : State → Word} (s : State)
    (ht : s.PcAligned → (target (s.setCtr (s.branchCtr bo))).toNat % 4 = 0) :
    Out.All (Continues s) (branchOn bo bi lk target s) := by
  have hcount : WorkFrame s (s.setCtr (s.branchCtr bo)) := ⟨rfl, rfl⟩
  refine (hcount.trans (State.link_workFrame _ lk)).jump fun hs => ?_
  split
  · exact ht hs
  · exact toNat_add_mod_four ((State.pcAligned_iff s).1 hs) rfl

/-- A branch target is absolute or relative to the pc, and the displacement is a multiple of 4. -/
theorem target_mod_four {s : State} (hs : s.PcAligned) {disp : Word} (hd : disp.toNat % 4 = 0) (aa : Bool) :
    (if aa then disp else s.pc + disp).toNat % 4 = 0 := by
  split
  · exact hd
  · exact toNat_add_mod_four ((State.pcAligned_iff s).1 hs) hd

theorem loadWith_continues (n : Nat) (widen : Word → Word) (rt : Reg) (ea : Word) (b31 : Bool) (s : State) :
    Out.All (Continues s) (loadWith n widen rt ea b31 s) := by
  unfold loadWith
  exact Result.bind_finish_continues (memRead_workFrame ea n s) fun w t =>
    (t.setReg_workFrame rt (widen w)).advance31 b31

theorem loadUpdateWith_continues (n : Nat) (widen : Word → Word) (rt ra : Reg) (ea : Word) (b31 : Bool)
    (s : State) : Out.All (Continues s) (loadUpdateWith n widen rt ra ea b31 s) := by
  unfold loadUpdateWith
  split
  · exact Result.bind_finish_continues (memRead_workFrame ea n s) fun w t =>
      ((t.setReg_workFrame ra ea).trans (State.setReg_workFrame _ rt (widen w))).advance31 b31
  · trivial

theorem storeWith_continues (n : Nat) (v ea : Word) (b31 : Bool) (s : State) :
    Out.All (Continues s) (storeWith n v ea b31 s) :=
  Result.bind_finish_continues (memWrite_workFrame ea n v s) fun _ t => (WorkFrame.refl t).advance31 b31

theorem storeUpdateWith_continues (n : Nat) (v : Word) (ra : Reg) (ea : Word) (b31 : Bool) (s : State) :
    Out.All (Continues s) (storeUpdateWith n v ra ea b31 s) := by
  unfold storeUpdateWith
  split
  · exact Result.bind_finish_continues (memWrite_workFrame ea n v s) fun _ t =>
      (t.setReg_workFrame ra ea).advance31 b31
  · trivial

theorem cacheOp_continues (side : CacheSide) (ea : Word) (store b31 : Bool) {work : Place → State → Result Unit}
    (hw : ∀ p t, (work p t).All (WorkFrame t)) (s : State) :
    Out.All (Continues s) (cacheOp side ea store b31 work s) :=
  Result.bind_finish_continues (Result.workFrame_bind (dataPlace_workFrame side ea store s) hw) fun _ t =>
    (WorkFrame.refl t).advance31 b31

theorem touchOp_continues (side : CacheSide) (ea : Word) (b31 : Bool) {work : Place → State → Result Unit}
    (hw : ∀ p t, (work p t).All (WorkFrame t)) (s : State) :
    Out.All (Continues s) (touchOp side ea b31 work s) := by
  have hplace := dataPlace_workFrame side ea false s
  unfold touchOp
  split <;> rename_i e <;> rw [e] at hplace
  · exact Result.bind_finish_continues ((hw _ _).imp fun _ => hplace.trans) fun _ t =>
      (WorkFrame.refl t).advance31 b31
  · exact hplace.advance31 b31
  · trivial
  · trivial

theorem takeTrap_continues (s : State) : Out.All (Continues s) (takeTrap s) := by
  have hraise : ∀ x u, WorkFrame s u → Out.All (Continues s) (raise x u) :=
    fun x u hu => (raise_continues x u).imp fun _ => hu.continues.trans
  have hstop : Out.All (Continues s) (debugStop s) := by
    have hset : ∀ u, WorkFrame s u → Continues s ((u.setDebugStopped true).setAfterIcread false) :=
      fun u hu => WorkFrame.continues ⟨hu.pc, hu.reserve⟩
    unfold debugStop
    simp only
    split
    · exact hset _ ((s.setDbsrBit_workFrame _).trans (State.setDbsrBit_workFrame _ _))
    · exact hset _ (s.setDbsrBit_workFrame _)
  unfold takeTrap
  simp only
  split
  · exact hraise .trap s (.refl s)
  · split
    · exact hstop
    · split
      · exact hraise .debug _ (s.setDbsrBit_workFrame _)
      · exact hraise .trap _ ((s.setDbsrBit_workFrame _).trans (State.setDbsrBit_workFrame _ _))

/-! ### Instructions that go their own way -/

theorem execMullw_continues (rt ra rb : Reg) (oe rc : Bool) (s : State) :
    Out.All (Continues s) (execMullw rt ra rb oe rc s) := by
  unfold execMullw
  exact writeArith_continues _ _ _ _ _ _ s

theorem execDivw_continues (rt ra rb : Reg) (oe rc : Bool) (s : State) :
    Out.All (Continues s) (execDivw rt ra rb oe rc s) := by
  unfold execDivw
  split
  · exact undefinedQuotient_continues rt oe rc s
  · exact writeArith_continues _ _ _ _ _ _ s

theorem execDivwu_continues (rt ra rb : Reg) (oe rc : Bool) (s : State) :
    Out.All (Continues s) (execDivwu rt ra rb oe rc s) := by
  unfold execDivwu
  split
  · exact undefinedQuotient_continues rt oe rc s
  · exact writeArith_continues _ _ _ _ _ _ s

theorem execB_continues (li : BitVec 24) (aa lk : Bool) (s : State) : Out.All (Continues s) (execB li aa lk s) :=
  (s.link_workFrame lk).jump fun hs => target_mod_four hs (dispI_mod_four li) aa

theorem execBc_continues (bo bi : BitVec 5) (bd : BitVec 14) (aa lk : Bool) (s : State) :
    Out.All (Continues s) (execBc bo bi bd aa lk s) :=
  branchOn_continues bo bi lk s fun hs => target_mod_four (s := s.setCtr _) hs (dispB_mod_four bd) aa

theorem execLswx_continues (rt ra rb : Reg) (b31 : Bool) (s : State) :
    Out.All (Continues s) (execLswx rt ra rb b31 s) := by
  unfold execLswx
  simp only
  split
  · exact Result.bind_finish_continues (zeroLengthCheck_workFrame _ false s) fun _ t =>
      ((t.setReg_workFrame rt t.undef).trans (State.drawn_workFrame _)).advance31 b31
  · exact Result.bind_finish_continues (loadString_workFrame _ _ _ _ s) fun _ t => (WorkFrame.refl t).advance31 b31

theorem execStswx_continues (rs ra rb : Reg) (b31 : Bool) (s : State) :
    Out.All (Continues s) (execStswx rs ra rb b31 s) := by
  refine Result.bind_finish_continues ?_ fun _ t => (WorkFrame.refl t).advance31 b31
  split
  · exact zeroLengthCheck_workFrame _ true s
  · exact storeString_workFrame _ _ _ s

theorem execDcbst_continues (ra rb : Reg) (b31 : Bool) (s : State) :
    Out.All (Continues s) (execDcbst ra rb b31 s) :=
  cacheOp_continues _ _ _ _ (fun p t => Result.workFrame_bind (storeBlock_workFrame p t) fun _ u =>
    Result.ok_workFrame (u.markOld_workFrame _ _ _)) s

theorem execIcbi_continues (ra rb : Reg) (b31 : Bool) (s : State) : Out.All (Continues s) (execIcbi ra rb b31 s) :=
  cacheOp_continues _ _ _ _ (fun p t => Result.workFrame_bind (iinvalidateBlock_workFrame p t) fun _ u =>
    Result.ok_workFrame (u.markOld_workFrame _ _ _)) s

theorem execDcread_continues (rt ra rb : Reg) (b31 : Bool) (s : State) :
    Out.All (Continues s) (execDcread rt ra rb b31 s) := by
  refine privileged_continues ?_
  split
  · exact raise_continues _ s
  · exact cacheOp_continues _ _ _ _ (fun _ t => Result.ok_workFrame (dcreadWork_workFrame rt _ t)) s

theorem execIcread_continues (ra rb : Reg) (b31 : Bool) (s : State) :
    Out.All (Continues s) (execIcread ra rb b31 s) :=
  privileged_continues <| Result.bind_finish_continues (dataPlace_workFrame _ _ _ s) fun _ t =>
    ((icreadWork_workFrame _ t).advance31 b31).trans (WorkFrame.continues ⟨rfl, rfl⟩)

theorem execMtmsr_continues (rs : Reg) (b31 : Bool) (s : State) : Out.All (Continues s) (execMtmsr rs b31 s) := by
  refine privileged_continues ?_
  unfold writeMsr
  split
  · trivial
  · exact next_advance31_continues ⟨rfl, rfl⟩

theorem execMfspr_continues (rt : Reg) (sprn : BitVec 10) (b31 : Bool) (s : State) :
    Out.All (Continues s) (execMfspr rt sprn b31 s) := by
  refine sprGuard_continues sprn ?_
  split
  · trivial
  · exact (readSpr_workFrame _ rt s).advance31 b31

theorem execMtspr_continues (sprn : BitVec 10) (rs : Reg) (b31 : Bool) (s : State) :
    Out.All (Continues s) (execMtspr sprn rs b31 s) := by
  refine sprGuard_continues sprn ?_
  split
  · trivial
  · split
    · exact (writeSpr_workFrame _ _ s).advance31 b31
    · trivial

theorem execMfdcr_continues (rt : Reg) (dcrn : BitVec 10) (b31 : Bool) (s : State) :
    Out.All (Continues s) (execMfdcr rt dcrn b31 s) := by
  refine privileged_continues ?_
  split
  · trivial
  · exact next_advance31_continues ⟨rfl, rfl⟩

theorem execMtdcr_continues (dcrn : BitVec 10) (rs : Reg) (b31 : Bool) (s : State) :
    Out.All (Continues s) (execMtdcr dcrn rs b31 s) := by
  refine privileged_continues ?_
  split
  · trivial
  · exact next_advance31_continues ⟨rfl, rfl⟩

theorem execTw_continues (tcond : BitVec 5) (ra rb : Reg) (b31 : Bool) (s : State) :
    Out.All (Continues s) (execTw tcond ra rb b31 s) := by
  unfold execTw
  split
  · exact takeTrap_continues s
  · exact (WorkFrame.refl s).advance31 b31

theorem execTwi_continues (tcond : BitVec 5) (ra : Reg) (im : BitVec 16) (s : State) :
    Out.All (Continues s) (execTwi tcond ra im s) := by
  unfold execTwi
  split
  · exact takeTrap_continues s
  · exact (WorkFrame.refl s).advance

theorem execTlbre_continues (rt ra : Reg) (ws : BitVec 5) (b31 : Bool) (s : State) :
    Out.All (Continues s) (execTlbre rt ra ws b31 s) := by
  refine privileged_continues ?_
  split
  · exact (tlbRead_workFrame rt ra _ s).advance31 b31
  · trivial

theorem execTlbwe_continues (rs ra : Reg) (ws : BitVec 5) (b31 : Bool) (s : State) :
    Out.All (Continues s) (execTlbwe rs ra ws b31 s) := by
  refine privileged_continues ?_
  split
  · trivial
  · split
    · trivial
    · exact next_advance31_continues ⟨rfl, rfl⟩

theorem execTlbsx_continues (rt ra rb : Reg) (rc : Bool) (s : State) :
    Out.All (Continues s) (execTlbsx rt ra rb rc s) := by
  have hpick : WorkFrame s (s.tlbPick (s.eaX ra rb)).2 := (s.choose_fetchFrame _).workFrame
  unfold execTlbsx
  rcases h : s.tlbPick (s.eaX ra rb) with ⟨found, s1⟩
  rw [h] at hpick
  refine privileged_continues (hpick.trans ?_).advance
  cases found <;> cases rc <;> exact ⟨rfl, rfl⟩

/-! ### Every instruction -/

/-- The two instructions that may write RESERVE. -/
def writesReserve : Instr → Bool
  | .lwarx .. => true
  | .stwcxRc .. => true
  | _ => false

theorem writesReserve_cases (i : Instr) : writesReserve i = false ∨ (∃ rt ra rb b31, i = .lwarx rt ra rb b31) ∨
    ∃ rs ra rb, i = .stwcxRc rs ra rb := by
  cases i with
  | lwarx rt ra rb b31 => exact .inr (.inl ⟨rt, ra, rb, b31, rfl⟩)
  | stwcxRc rs ra rb => exact .inr (.inr ⟨rs, ra, rb, rfl⟩)
  | _ => exact .inl rfl

/-- Every instruction but lwarx and stwcx. leaves RESERVE and keeps the pc a multiple of 4. -/
theorem exec_continues {i : Instr} (hi : writesReserve i = false) (s : State) :
    Out.All (Continues s) (exec i s) := by
  unfold exec
  cases i with
  | lwarx | stwcxRc => cases hi
  | add | addi | addis | subf | neg => exact sumKeepCarry_continues _ _ _ _ _ _ s
  | addc | adde | addic | addicRc | addme | addze | subfc | subfe | subfic | subfme | subfze =>
    exact sumWithCarry_continues _ _ _ _ _ _ s
  | mullw => exact execMullw_continues _ _ _ _ _ s
  | mulhw | mulhwu | mulli => exact writeArith_continues _ _ _ _ _ _ s
  | divw => exact execDivw_continues _ _ _ _ _ s
  | divwu => exact execDivwu_continues _ _ _ _ _ s
  | and | andc | andiRc | andisRc | cntlzw | eqv | extsb | extsh | nand | nor | or | orc | ori | oris | xor | xori
  | xoris => exact writeLogical_continues _ _ _ s
  | rlwimi | rlwinm | rlwnm | slw | srw => exact writeRotate_continues _ _ _ s
  | sraw | srawi => exact shiftAlgebraic_continues _ _ _ _ _ s
  | cmp | cmpl | mcrxr | mfcr | mtcrf => exact next_advance31_continues ⟨rfl, rfl⟩
  | cmpi | cmpli | mcrf | crand | crandc | creqv | crnand | crnor | cror | crorc | crxor =>
    exact next_advance_continues ⟨rfl, rfl⟩
  | b => exact execB_continues _ _ _ s
  | bc => exact execBc_continues _ _ _ _ _ s
  | bcctr | bclr => exact branchOn_continues _ _ _ s fun _ => wordAligned_mod_four _
  | lbz | lbzx | lha | lhax | lhbrx | lhz | lhzx | lwbrx | lwz | lwzx => exact loadWith_continues _ _ _ _ _ s
  | lbzu | lbzux | lhau | lhaux | lhzu | lhzux | lwzu | lwzux => exact loadUpdateWith_continues _ _ _ _ _ _ s
  | stb | stbx | sth | sthbrx | sthx | stw | stwbrx | stwx => exact storeWith_continues _ _ _ _ s
  | stbu | stbux | sthu | sthux | stwu | stwux => exact storeUpdateWith_continues _ _ _ _ _ s
  | lmw => exact Result.bind_finish_continues (alignedThen_workFrame _ 4 (loadWords_workFrame _ _ _ s)) fun _ t =>
      (WorkFrame.refl t).advance
  | stmw => exact Result.bind_finish_continues (alignedThen_workFrame _ 4 (storeWords_workFrame _ _ s)) fun _ t =>
      (WorkFrame.refl t).advance
  | lswi => exact Result.bind_finish_continues (loadString_workFrame _ _ _ _ s) fun _ t =>
      (WorkFrame.refl t).advance31 _
  | stswi => exact Result.bind_finish_continues (storeString_workFrame _ _ _ s) fun _ t =>
      (WorkFrame.refl t).advance31 _
  | lswx => exact execLswx_continues _ _ _ _ s
  | stswx => exact execStswx_continues _ _ _ _ s
  | dcbf => exact cacheOp_continues _ _ _ _ flushBlock_workFrame s
  | dcbi => exact privileged_continues (cacheOp_continues _ _ _ _ invalidateBlock_workFrame s)
  | dcbst => exact execDcbst_continues _ _ _ s
  | dcbt | dcbtst => exact touchOp_continues _ _ _ touchBlock_workFrame s
  | dcbz => exact cacheOp_continues _ _ _ _ (zeroBlockAt_workFrame _) s
  | dccci => exact privileged_continues (cacheOp_continues _ _ _ _ (fun _ t =>
      Result.ok_workFrame ((t.discardDline_workFrame _ .a).trans (State.discardDline_workFrame _ _ .b))) s)
  | dcread => exact execDcread_continues _ _ _ _ s
  | icbi => exact execIcbi_continues _ _ _ s
  | icbt => exact privileged_continues (touchOp_continues _ _ _ itouchBlock_workFrame s)
  | iccci => exact privileged_continues (cacheOp_continues _ _ _ _ (fun _ t =>
      Result.ok_workFrame ((t.dropIline_workFrame _ .a).trans (State.dropIline_workFrame _ _ .b))) s)
  | icread => exact execIcread_continues _ _ _ s
  | sync | eieio | isync => exact next_advance31_continues ⟨rfl, rfl⟩
  | sc => exact raise_continues .systemCall s
  | rfi | rfci => exact privileged_continues (returnFrom_continues _ _ s)
  | mfmsr | wrtee | wrteei => exact privileged_continues (next_advance31_continues ⟨rfl, rfl⟩)
  | mtmsr => exact execMtmsr_continues _ _ s
  | mfspr => exact execMfspr_continues _ _ _ s
  | mtspr => exact execMtspr_continues _ _ _ s
  | mfdcr => exact execMfdcr_continues _ _ _ s
  | mtdcr => exact execMtdcr_continues _ _ _ s
  | tw => exact execTw_continues _ _ _ _ s
  | twi => exact execTwi_continues _ _ _ s
  | tlbia | tlbsync => exact privileged_continues (next_advance_continues ⟨rfl, rfl⟩)
  | tlbre => exact execTlbre_continues _ _ _ _ s
  | tlbsx => exact execTlbsx_continues _ _ _ _ s
  | tlbwe => exact execTlbwe_continues _ _ _ _ s

/-! ### lwarx and stwcx. -/

/-- What lwarx and stwcx. keep: as `Continues`, but RESERVE may be written. -/
structure ContinuesWriting (b : Bool) (s t : State) : Prop where
  pcAligned : s.PcAligned → t.PcAligned
  reserve : t.reserve = s.reserve ∨ t.reserve = b

theorem Continues.writing {s t : State} (h : Continues s t) (b : Bool) : ContinuesWriting b s t :=
  ⟨h.pcAligned, .inl h.reserve⟩

/-- An access, then RESERVE is written and the instruction ends; an exception of the access leaves RESERVE. -/
theorem Result.bind_finish_continuesWriting {α : Type} {b : Bool} {s : State} {r : Result α}
    {f : α → State → State} (hr : r.All (WorkFrame s)) (hf : ∀ a t, Continues (t.setReserve b) (f a t)) :
    Out.All (ContinuesWriting b s) (r.bind fun a t => .ok () (f a t)).finish := by
  cases r with
  | ok a t => exact ⟨fun hs => (hf a t).pcAligned (hr.continues.pcAligned hs), .inr (hf a t).reserve⟩
  | exc x t => exact (raise_continues x t).imp fun _ h => (hr.continues.trans h).writing b
  | stop _ => trivial
  | refuse _ => trivial

theorem execLwarx_continuesWriting (rt ra rb : Reg) (b31 : Bool) (s : State) :
    Out.All (ContinuesWriting true s) (execLwarx rt ra rb b31 s) :=
  Result.bind_finish_continuesWriting (memRead_workFrame _ 4 s) fun w t =>
    ((t.setReserve true).setReg_workFrame rt w).advance31 b31

theorem execStwcxRc_continuesWriting (rs ra rb : Reg) (s : State) :
    Out.All (ContinuesWriting false s) (execStwcxRc rs ra rb s) := by
  unfold execStwcxRc
  simp only
  split
  · exact Result.bind_finish_continuesWriting (memWrite_workFrame _ 4 _ s) fun _ t =>
      ((t.setReserve false).recordReserve_workFrame true).advance
  · split
    · exact (raise_continues _ s).imp fun _ h => h.writing false
    · exact (s.recordReserve_workFrame false).advance.writing false

/-! ### A step -/

theorem exec_pcAligned {i : Instr} {s t : State} (hs : s.PcAligned) (h : exec i s = .next t) : t.PcAligned := by
  obtain hi | ⟨rt, ra, rb, b31, rfl⟩ | ⟨rs, ra, rb, rfl⟩ := writesReserve_cases i
  · exact (Out.all_iff.1 (exec_continues hi s) t h).pcAligned hs
  · exact (Out.all_iff.1 (execLwarx_continuesWriting rt ra rb b31 s) t h).pcAligned hs
  · exact (Out.all_iff.1 (execStwcxRc_continuesWriting rs ra rb s) t h).pcAligned hs

theorem raise_pcAligned {x : Exc} {s t : State} (hs : s.PcAligned) (h : raise x s = .next t) : t.PcAligned :=
  (Out.all_iff.1 (raise_continues x s) t h).pcAligned hs

theorem runDecoded_pcAligned {d : Decoded} {s t : State} (hs : s.PcAligned) (h : runDecoded d s = .next t) :
    t.PcAligned := by
  cases d with
  | ok i => exact exec_pcAligned hs h
  | illegal => exact raise_pcAligned (x := .illegal) hs h
  | reservedBits m => cases h

/-- An interrupt enters its vector; a machine check stops. -/
theorem takeIrq_continues (i : Irq) (s : State) : Out.All (Continues s) (takeIrq i s) := by
  have htaken : WorkFrame s (s.setPending (s.pending.erase i)) := ⟨rfl, rfl⟩
  cases i with
  | machineCheck => trivial
  | criticalPin | watchdog | external | fit | pit =>
    exact (enter_continues _ _ rfl _).imp fun _ => htaken.continues.trans

/-- Translation for a fetch, its exceptions included, takes a draw at most. -/
theorem fetchPlace_workFrame (s : State) : (fetchPlace s).All (WorkFrame s) := by
  have hpick : WorkFrame s (s.tlbPick s.pc).2 := (s.choose_fetchFrame _).workFrame
  unfold fetchPlace
  split
  · split <;> rename_i e <;> rw [e] at hpick
    · exact hpick
    · simp only
      split <;> exact hpick
  · exact .refl s

theorem checkFetch_workFrame (p : Place) (s : State) : (checkFetch p s).All (WorkFrame s) := by
  unfold checkFetch
  split
  · exact .refl s
  · exact checkStorage_workFrame _ 4 s

/-- A fetch, its exceptions included, leaves the pc and RESERVE. -/
theorem fetch_workFrame (s : State) : (fetch s).All (WorkFrame s) := by
  unfold fetch
  split
  · trivial
  · refine Result.workFrame_bind (fetchPlace_workFrame s) fun p s1 =>
      Result.workFrame_bind (checkFetch_workFrame p s1) fun _ s2 => ?_
    rcases hbytes : fetchBytes p (s2.itouch p) with ⟨bs, s3⟩
    exact ((s2.itouch_fetchFrame p).trans (fetchBytes_fetchFrame hbytes)).workFrame

theorem runNext_pcAligned {s t : State} (hs : s.PcAligned) (h : runNext s = .next t) : t.PcAligned := by
  have hfetch := fetch_workFrame s
  unfold runNext at h
  split at h <;> rename_i e <;> rw [e] at hfetch
  · exact runDecoded_pcAligned (hfetch.continues.pcAligned hs) h
  · exact raise_pcAligned (hfetch.continues.pcAligned hs) h
  · cases h
  · cases h

/-- Settles O14: the pc is a multiple of 4 after an interrupt, after an exception of the fetch, and after every
instruction. -/
theorem everyStepKeepsThePcAligned : Obligations.EveryStepKeepsThePcAligned := by
  unfold Obligations.EveryStepKeepsThePcAligned
  intro s t hs h
  unfold step at h
  split at h
  · cases h
  · split at h
    · exact (Out.all_iff.1 (takeIrq_continues _ s) t h).pcAligned hs
    · split at h
      · cases h
      · exact runNext_pcAligned hs h

/-- Settles O18: no instruction but lwarx and stwcx. writes RESERVE, and each of the two writes one value alone. -/
theorem onlyLwarxSetsAndStwcxClearsTheReservation : Obligations.OnlyLwarxSetsAndStwcxClearsTheReservation := by
  unfold Obligations.OnlyLwarxSetsAndStwcxClearsTheReservation
  intro i s t h hne
  obtain hi | ⟨rt, ra, rb, b31, rfl⟩ | ⟨rs, ra, rb, rfl⟩ := writesReserve_cases i
  · exact absurd (Out.all_iff.1 (exec_continues hi s) t h).reserve hne
  · have hw := (Out.all_iff.1 (execLwarx_continuesWriting rt ra rb b31 s) t h).reserve
    exact .inl ⟨hw.resolve_left hne, rt, ra, rb, b31, rfl⟩
  · have hw := (Out.all_iff.1 (execStwcxRc_continuesWriting rs ra rb s) t h).reserve
    exact .inr ⟨hw.resolve_left hne, rs, ra, rb, rfl⟩

end Sys2Proof.Machine
end

section
/-! What the work of an instruction on main storage and the caches keeps: the MSR and EVPR, the canonical form of main
storage, what a fetch may see, the old bytes that wait for dcbst, and that the machine knows whether it is at Level 0
(20_memory.md R100, R106, R133, 47_cache_sync.md R429). -/

namespace Sys2Proof.Machine

/-! ### Level 0 and empty caches -/

/-- A predicate of the lines of every class of a cache. -/
theorem vector_all_iff {α : Type} {w : Nat} (v : Vector α (2 ^ w)) (f : α → Bool) :
    v.toList.all f = true ↔ ∀ c : BitVec w, f (v.get c.toFin) = true := by
  rw [List.all_eq_true]
  constructor
  · intro h c
    rw [Vector.get_eq_getElem]
    exact h _ (Vector.mem_toList_iff.2 (Vector.getElem_mem _))
  · intro h x hx
    obtain ⟨i, hi, rfl⟩ := Vector.mem_iff_getElem.1 (Vector.mem_toList_iff.1 hx)
    exact h (BitVec.ofFin ⟨i, hi⟩)

/-- The caches are empty when no side of any class has a valid line. -/
theorem State.cachesEmpty_iff (s : State) : s.cachesEmpty = true ↔
    (∀ c side, (s.dline c side).v = false) ∧ ∀ c side, (s.iline c side).v = false := by
  have hside : ∀ f : Side → Bool, (∀ side, f side = false) ↔ (!f .a && !f .b) = true := fun f =>
    ⟨fun h => by simp [h], fun h side => by cases side <;> simp_all⟩
  unfold State.cachesEmpty
  rw [Bool.and_eq_true, vector_all_iff (w := 5), vector_all_iff (w := 6)]
  exact and_congr (forall_congr' fun c => (hside fun side => (s.dline c side).v).symm)
    (forall_congr' fun c => (hside fun side => (s.iline c side).v).symm)

theorem State.levelZero_iff (s : State) : s.levelZero = true ↔
    s.cachingSeen = false ∧ s.nothingCacheable = true ∧ s.cachesEmpty = true := by
  simp [State.levelZero, and_assoc]

theorem State.dhit_of_cachesEmpty {s : State} (h : s.cachesEmpty = true) (a : Word) : s.dhit a = none :=
  State.dhit_none_of_not_holds fun side hh => by
    have hv := (s.cachesEmpty_iff.1 h).1 (dclass a) side
    rw [hh.1] at hv
    cases hv

theorem State.ihit_of_cachesEmpty {s : State} (h : s.cachesEmpty = true) (a : Word) : s.ihit a = none := by
  have hv := (s.cachesEmpty_iff.1 h).2 (iclass a)
  simp [State.ihit, hv]

theorem State.cachesEmpty_of_levelZero {s : State} (h : s.levelZero = true) : s.cachesEmpty = true :=
  (s.levelZero_iff.1 h).2.2

/-! ### Lines of the instruction cache -/

/-- A line after one is replaced. -/
theorem State.iline_setIline (s : State) (c c' : BitVec 6) (side side' : Side) (l : ILine) :
    (s.setIline c side l).iline c' side' = if c' = c ∧ side' = side then l else s.iline c' side' := by
  unfold State.setIline State.iline State.icls State.setIcls
  by_cases hc : c' = c
  · subst hc
    cases side <;> cases side' <;> simp [IClass.setLine, IClass.line, Vector.get_eq_getElem]
  · have hn : c.toNat ≠ c'.toNat := fun he => hc (BitVec.eq_of_toNat_eq he.symm)
    simp [Vector.get_eq_getElem, hn, hc]

@[simp] theorem State.iline_setIlru (s : State) (c c' : BitVec 6) (side : Side) (v : Bool) :
    (s.setIlru c v).iline c' side = s.iline c' side := by
  unfold State.setIlru State.iline State.icls State.setIcls
  by_cases hc : c' = c
  · subst hc
    cases side <;> simp [IClass.line, Vector.get_eq_getElem]
  · have hn : c.toNat ≠ c'.toNat := fun he => hc (BitVec.eq_of_toNat_eq he.symm)
    simp [Vector.get_eq_getElem, hn]

/-- The line of a side holds the block of an address. -/
theorem State.iline_of_ihit {s : State} {a : Word} {side : Side} (h : s.ihit a = some side) :
    (s.iline (iclass a) side).v = true ∧ (s.iline (iclass a) side).tag = itag a := by
  unfold State.ihit at h
  split at h
  next hc => cases h; simpa using hc
  next =>
    split at h
    next hc => cases h; simpa using hc
    next => cases h

theorem State.ihit_eq_none_iff (s : State) (a : Word) : s.ihit a = none ↔
    ∀ side, (s.iline (iclass a) side).v = true → (s.iline (iclass a) side).tag ≠ itag a := by
  have hside : ∀ f : Side → Prop, (∀ side, f side) ↔ f .a ∧ f .b := fun f =>
    ⟨fun h => ⟨h .a, h .b⟩, fun h side => by cases side <;> simp [h]⟩
  rw [hside]
  unfold State.ihit
  split
  · simp_all
  · split <;> simp_all

/-- Dropping a line writes old bytes and marks the line invalid, and nothing else. -/
theorem State.dropIline_eq (s : State) (c : BitVec 6) (side : Side) :
    ∃ l, s.dropIline c side = (s.setStale l).setIline c side { s.iline c side with v := false } ∨
      ((s.iline c side).v = false ∧ s.dropIline c side = s) := by
  have hfold : ∀ (base : Word) (data : Vector Byte 16) (is : List (Fin 16)) (st : State), (∃ l, st = s.setStale l) →
      ∃ l, is.foldl (fun st i => st.keepQueued (base + BitVec.ofNat 32 i.val) (data.get i)) st = s.setStale l := by
    intro base data is
    induction is with
    | nil => exact fun st h => h
    | cons j is ih =>
      rintro st ⟨l, rfl⟩
      exact ih _ ⟨_, rfl⟩
  unfold State.dropIline
  simp only
  split
  next =>
    obtain ⟨l, hl⟩ := hfold (ilineBase c (s.iline c side).tag) (s.iline c side).data (List.finRange 16) s ⟨s.stale, rfl⟩
    exact ⟨l, .inl (by rw [hl])⟩
  next hv => exact ⟨s.stale, .inr ⟨by simpa using hv, rfl⟩⟩

/-- The lines after one is dropped. -/
theorem State.iline_dropIline (s : State) (c c' : BitVec 6) (side side' : Side) :
    (s.dropIline c side).iline c' side' =
      if c' = c ∧ side' = side then { s.iline c side with v := false } else s.iline c' side' := by
  obtain ⟨l, h | ⟨hv, h⟩⟩ := s.dropIline_eq c side
  · rw [h, State.iline_setIline]
    rfl
  · rw [h]
    split
    next e =>
      rw [e.1, e.2]
      cases hl : s.iline c side
      simp_all
    next => rfl

/-! ### What a fetch may see, for the instruction cache -/

/-- A new line in the place of an invalid one: no byte is gone if it does not hide the line of the other side. -/
theorem State.setIline_kept {s : State} (hs : s.MemoryCanonical) {c : BitVec 6} {side : Side} (l : ILine)
    (hold : (s.iline c side).v = false) (hhide : ∀ a, iclass a = c → l.tag = itag a → s.ihit a = none) :
    FetchKept s (s.setIline c side l) := by
  have hl : ∀ c' sd, (s.setIline c side l).iline c' sd = if c' = c ∧ sd = side then l else s.iline c' sd :=
    fun c' sd => s.iline_setIline c c' side sd l
  refine ⟨hs, fun a b h => ?_⟩
  rw [State.mem_fetchable] at h ⊢
  rcases h with h | ⟨sd, hit, hb⟩ | h | h
  · exact .inl h
  · have hline := State.iline_of_ihit hit
    have hne : ¬ (iclass a = c ∧ sd = side) := by
      rintro ⟨rfl, rfl⟩
      rw [hline.1] at hold
      cases hold
    refine .inr (.inl ⟨sd, ?_, by rw [hl, if_neg hne]; exact hb⟩)
    rw [← hit]
    by_cases hc : iclass a = c
    · have hmiss : l.tag ≠ itag a := fun e => by
        rw [hhide a hc e] at hit
        cases hit
      subst hc
      cases side <;> cases sd <;> simp_all [State.ihit]
    · simp [State.ihit, hl, hc]
  · exact .inr (.inr (.inl h))
  · exact .inr (.inr (.inr h))

theorem State.setIlru_kept {s : State} (hs : s.MemoryCanonical) (c : BitVec 6) (v : Bool) :
    FetchKept s (s.setIlru c v) := by
  refine ⟨hs, fun a b h => ?_⟩
  rw [State.mem_fetchable] at h ⊢
  have hi : (s.setIlru c v).ihit a = s.ihit a := by simp [State.ihit]
  simp only [State.iline_setIlru, hi]
  exact h

/-- Reading a block that is not in the instruction cache: the bytes of the line it replaces are kept. -/
theorem State.ifill_kept {s : State} (hs : s.MemoryCanonical) {a : Word} (hmiss : s.ihit a = none) (side : Side) :
    FetchKept s (s.ifill a side) := by
  have hdrop := State.dropIline_kept hs (iclass a) side
  refine hdrop.trans (State.setIline_kept hdrop.canonical _ ?_ fun x hx ht => ?_)
  · rw [State.iline_dropIline, if_pos ⟨rfl, rfl⟩]
  · rw [State.ihit_eq_none_iff] at hmiss ⊢
    intro sd hv
    rw [State.iline_dropIline, hx] at hv ⊢
    split
    next e => simp [e] at hv
    next e =>
      rw [if_neg e] at hv
      rw [← show itag a = itag x from ht]
      exact hmiss sd hv

/-! ### Parts that raise no exception -/

/-- A part that raises no exception, and a predicate holds of the state it goes on in. -/
def Result.Goes {α : Type} (P : State → Prop) : Result α → Prop
  | .ok _ s => P s
  | .exc _ _ => False
  | .stop _ => True
  | .refuse _ => True

theorem Result.Goes.imp {α : Type} {P Q : State → Prop} {r : Result α} (h : r.Goes P) (hPQ : ∀ s, P s → Q s) :
    r.Goes Q := by
  cases r with
  | ok a s => exact hPQ s h
  | exc x s => exact h.elim
  | stop _ => trivial
  | refuse _ => trivial

theorem Result.goes_bind {α β : Type} {P : State → Prop} {r : Result α} {f : α → State → Result β} (hr : r.Goes P)
    (hf : ∀ a s, P s → (f a s).Goes P) : (r.bind f).Goes P := by
  cases r with
  | ok a s => exact hf a s hr
  | exc x s => exact hr.elim
  | stop _ => trivial
  | refuse _ => trivial

/-! ### The context of an instruction -/

/-- What the work on main storage and the caches leaves alone: the MSR, the special purpose registers, the TLB and the
mark that Level 0 has been left. -/
structure ContextFrame (s t : State) : Prop where
  msr : t.msr = s.msr
  spr : t.spr = s.spr
  tlb : t.tlb = s.tlb
  cachingSeen : t.cachingSeen = s.cachingSeen

namespace ContextFrame

theorem refl (s : State) : ContextFrame s s := ⟨rfl, rfl, rfl, rfl⟩

theorem trans {s t u : State} (h1 : ContextFrame s t) (h2 : ContextFrame t u) : ContextFrame s u :=
  ⟨h2.msr.trans h1.msr, h2.spr.trans h1.spr, h2.tlb.trans h1.tlb, h2.cachingSeen.trans h1.cachingSeen⟩

theorem foldl {ι : Type} {f : State → ι → State} (hf : ∀ s i, ContextFrame s (f s i)) (l : List ι) (s : State) :
    ContextFrame s (l.foldl f s) := by
  induction l generalizing s with
  | nil => exact refl s
  | cons i l ih => exact (hf s i).trans (ih (f s i))

/-- Two parts after one another that raise no exception. -/
theorem goes_bind {α β : Type} {s : State} {r : Result α} {f : α → State → Result β}
    (hr : r.Goes (ContextFrame s)) (hf : ∀ a t, (f a t).Goes (ContextFrame t)) :
    (r.bind f).Goes (ContextFrame s) :=
  Result.goes_bind hr fun a t h => (hf a t).imp fun _ => h.trans

end ContextFrame

theorem State.putStorage_context (s : State) (a : Word) (b : Byte) : ContextFrame s (s.putStorage a b) := by
  unfold State.putStorage
  split
  · exact .refl s
  · exact ⟨rfl, rfl, rfl, rfl⟩

theorem State.putBlock_context (s : State) (base : Word) (data : Vector Byte 16) :
    ContextFrame s (s.putBlock base data) := .foldl (fun _ _ => State.putStorage_context _ _ _) _ s

theorem State.setDline_context (s : State) (c : BitVec 5) (side : Side) (l : DLine) :
    ContextFrame s (s.setDline c side l) := ⟨rfl, rfl, rfl, rfl⟩

theorem State.keepDline_context (s : State) (c : BitVec 5) (side : Side) : ContextFrame s (s.keepDline c side) := by
  obtain ⟨l, h⟩ := s.keepDline_stale c side
  rw [h]
  exact ⟨rfl, rfl, rfl, rfl⟩

theorem State.discardDline_context (s : State) (c : BitVec 5) (side : Side) :
    ContextFrame s (s.discardDline c side) := (s.keepDline_context c side).trans (State.setDline_context _ _ _ _)

theorem State.dropIline_context (s : State) (c : BitVec 6) (side : Side) : ContextFrame s (s.dropIline c side) := by
  obtain ⟨l, h | ⟨-, h⟩⟩ := s.dropIline_eq c side
  · rw [h]
    exact ⟨rfl, rfl, rfl, rfl⟩
  · rw [h]
    exact .refl s

theorem State.ifill_context (s : State) (a : Word) (side : Side) : ContextFrame s (s.ifill a side) :=
  (s.dropIline_context (iclass a) side).trans ⟨rfl, rfl, rfl, rfl⟩

theorem State.putData_context (s : State) (p : Place) (a : Word) (b : Byte) : ContextFrame s (s.putData p a b) := by
  unfold State.putData
  split
  next => exact s.putStorage_context a b
  next side _ =>
    have hkeep : ∀ l, ContextFrame s ((s.keepOld a ((s.dline (dclass a) side).data.get (blockByte a).toFin)).setDline
        (dclass a) side l) := fun _ => ⟨rfl, rfl, rfl, rfl⟩
    simp only
    split
    · exact hkeep _
    · exact (hkeep _).trans (State.putStorage_context _ a b)

theorem checkStorage_context (a : Word) (n : Nat) (s : State) : (checkStorage a n s).Goes (ContextFrame s) := by
  unfold checkStorage
  split
  · trivial
  · split
    · trivial
    · exact .refl s

theorem copyBack_context (c : BitVec 5) (side : Side) (s : State) : (copyBack c side s).Goes (ContextFrame s) := by
  unfold copyBack
  simp only
  split
  · exact ContextFrame.goes_bind (checkStorage_context _ _ s) fun _ t => t.putBlock_context _ _
  · exact .refl s

theorem castOut_context (c : BitVec 5) (side : Side) (s : State) : (castOut c side s).Goes (ContextFrame s) := by
  unfold castOut
  split
  · exact copyBack_context c side s
  · exact .refl s

theorem dfill_context (a : Word) (side : Side) (s : State) : (dfill a side s).Goes (ContextFrame s) :=
  ContextFrame.goes_bind (castOut_context _ side s) fun _ t => t.setDline_context _ _ _

theorem State.drawn_context (s : State) : ContextFrame s s.drawn := ⟨rfl, rfl, rfl, rfl⟩

theorem State.setDlru_context (s : State) (c : BitVec 5) (v : Bool) : ContextFrame s (s.setDlru c v) :=
  ⟨rfl, rfl, rfl, rfl⟩

/-- The fill of an access and of a touch: it comes after a draw and writes the LRU bit. -/
theorem dfill_setDlru_context (a : Word) (side : Side) (v : Bool) (s : State) :
    ((dfill a side s.drawn).bind fun _ t => .ok () (t.setDlru (dclass a) v)).Goes (ContextFrame s) :=
  ContextFrame.goes_bind ((dfill_context a side s.drawn).imp fun _ => s.drawn_context.trans) fun _ t =>
    t.setDlru_context _ _

theorem dtouch_context (p : Place) (s : State) : (dtouch p s).Goes (ContextFrame s) := by
  unfold dtouch
  simp only
  split
  · exact .refl s
  · split
    · exact (s.setDlru_context _ _).trans (State.drawn_context _)
    · split
      · exact dfill_setDlru_context _ _ _ s
      · exact s.drawn_context

theorem checkAccess_context (p : Place) (n : Nat) (store : Bool) (s : State) :
    (checkAccess p n store s).Goes (ContextFrame s) := by
  unfold checkAccess
  split
  · exact checkStorage_context _ n s
  · exact .refl s

theorem flushBlock_context (p : Place) (s : State) : (flushBlock p s).Goes (ContextFrame s) := by
  unfold flushBlock
  split
  · exact .refl s
  · exact ContextFrame.goes_bind (copyBack_context _ _ s) fun _ t => t.setDline_context _ _ _

theorem storeBlock_context (p : Place) (s : State) : (storeBlock p s).Goes (ContextFrame s) := by
  unfold storeBlock
  split
  · exact .refl s
  · exact ContextFrame.goes_bind (copyBack_context _ _ s) fun _ t => t.setDline_context _ _ _

theorem touchBlock_context (p : Place) (s : State) : (touchBlock p s).Goes (ContextFrame s) := by
  unfold touchBlock
  split
  · exact .refl s
  · split
    · trivial
    · exact dfill_setDlru_context _ _ _ s

/-- dcbz of a cacheable place that is not write-through raises no exception. -/
theorem zeroBlockAt_context {ea : Word} {p : Place} (hp : (!p.cacheable || p.writeThrough) = false) (s : State) :
    (zeroBlockAt ea p s).Goes (ContextFrame s) := by
  unfold zeroBlockAt
  rw [if_neg (by simp [hp])]
  split
  · trivial
  · split
    · exact (s.keepDline_context _ _).trans (State.setDline_context _ _ _ _)
    · exact ContextFrame.goes_bind ((castOut_context _ _ s.drawn).imp fun _ => s.drawn_context.trans)
        fun _ t => (t.setDline_context _ _ _).trans (State.setDlru_context _ _ _)

theorem iinvalidateBlock_context (p : Place) (s : State) : (iinvalidateBlock p s).Goes (ContextFrame s) := by
  unfold iinvalidateBlock
  split
  · exact .refl s
  · exact s.dropIline_context _ _

/-! ### The work of an instruction -/

/-- What the work of an instruction keeps; with `pushes` it may be that of dcbst, which takes the old bytes of its block
a step on (20_memory.md R133). -/
structure WorkKeeps (pushes : Bool) (s t : State) : Prop where
  msr : t.msr = s.msr
  evpr : t.spr.evpr = s.spr.evpr
  caching : s.cachingSeen = true → t.cachingSeen = true
  level : s.LevelKnown → t.LevelKnown
  fetch : s.MemoryCanonical → FetchKept s t
  waits : pushes = false → ∀ a b, s.Waits a b → t.Waits a b

/-- At Level 0 no access has a cacheable place (47_cache_sync.md R429). -/
def State.Fits (s : State) (p : Place) : Prop := s.levelZero = true → p.cacheable = false

namespace WorkKeeps

variable {q : Bool}

theorem refl (s : State) : WorkKeeps q s s := ⟨rfl, rfl, id, id, .refl, fun _ _ _ h => h⟩

theorem trans {s t u : State} (h1 : WorkKeeps q s t) (h2 : WorkKeeps q t u) : WorkKeeps q s u where
  msr := h2.msr.trans h1.msr
  evpr := h2.evpr.trans h1.evpr
  caching h := h2.caching (h1.caching h)
  level h := h2.level (h1.level h)
  fetch hs := (h1.fetch hs).trans (h2.fetch (h1.fetch hs).canonical)
  waits hq a b h := h2.waits hq a b (h1.waits hq a b h)

/-- What each turn of a loop keeps, the loop keeps. -/
theorem foldl {ι : Type} {f : State → ι → State} (hf : ∀ s i, WorkKeeps q s (f s i)) (l : List ι) (s : State) :
    WorkKeeps q s (l.foldl f s) := by
  induction l generalizing s with
  | nil => exact refl s
  | cons i l ih => exact (hf s i).trans (ih (f s i))

/-- Work in a known context keeps what it keeps of the old bytes, and that both caches are empty where they must be. -/
theorem of_context {s t : State} (hc : ContextFrame s t) (hl : s.levelZero = true → t.cachesEmpty = true)
    (hf : s.MemoryCanonical → FetchKept s t) (hw : q = false → ∀ a b, s.Waits a b → t.Waits a b) : WorkKeeps q s t where
  msr := hc.msr
  evpr := by rw [hc.spr]
  caching h := hc.cachingSeen.trans h
  level h := by
    obtain h | h := h
    · obtain ⟨h1, h2, -⟩ := s.levelZero_iff.1 h
      refine .inl (t.levelZero_iff.2 ⟨hc.cachingSeen.trans h1, ?_, hl h⟩)
      rw [← h2, State.nothingCacheable, State.nothingCacheable, hc.spr, hc.tlb]
    · exact .inr (hc.cachingSeen.trans h)
  fetch := hf
  waits := hw

/-- Two parts after one another. -/
theorem bind {α β : Type} {s : State} {r : Result α} {f : α → State → Result β} (hr : r.All (WorkKeeps q s))
    (hf : ∀ a t, (f a t).All (WorkKeeps q t)) : (r.bind f).All (WorkKeeps q s) :=
  Result.all_bind hr fun a t h => (hf a t).imp fun _ => h.trans

/-- A part that raises no exception, from what it keeps when it goes on. -/
theorem of_goes {α : Type} {s : State} {r : Result α} (hc : r.Goes (ContextFrame s))
    (hl : s.levelZero = true → r.All (·.cachesEmpty = true))
    (hf : ∀ a t, s.MemoryCanonical → r = .ok a t → FetchKept s t)
    (hw : q = false → ∀ a b, s.Waits a b → r.All (State.Waits · a b)) : r.All (WorkKeeps q s) := by
  cases r with
  | ok a t => exact of_context hc hl (fun hs => hf a t hs rfl) hw
  | exc x t => exact hc.elim
  | stop _ => trivial
  | refuse _ => trivial

end WorkKeeps

section

variable {q : Bool}

/-! ### One byte, one line -/

theorem State.drawn_workKeeps (s : State) : WorkKeeps q s s.drawn :=
  .of_context s.drawn_context State.cachesEmpty_of_levelZero State.drawn_kept fun _ _ _ h => h.drawn

theorem State.markOld_workKeeps (s : State) (sel : OldByte → Bool) (x y : OldStage) (hx : q = false → x ≠ .stored) :
    WorkKeeps q s (s.markOld sel x y) :=
  .of_context ⟨rfl, rfl, rfl, rfl⟩ State.cachesEmpty_of_levelZero (State.markOld_kept · sel x y) fun hq _ _ h =>
    h.markOld sel y (hx hq)

theorem State.putStorage_icache (s : State) (a : Word) (b : Byte) : (s.putStorage a b).icache = s.icache := by
  unfold State.putStorage
  split <;> rfl

/-- With empty caches a byte is stored in main storage alone. -/
theorem State.putData_cachesEmpty {s : State} (h : s.cachesEmpty = true) (p : Place) (a : Word) (b : Byte) :
    (s.putData p a b).cachesEmpty = true := by
  rw [State.putData, State.dhit_of_cachesEmpty h, State.cachesEmpty, State.putStorage_dcache, State.putStorage_icache]
  exact h

theorem State.putData_workKeeps (s : State) (p : Place) (a : Word) (b : Byte) : WorkKeeps q s (s.putData p a b) :=
  .of_context (s.putData_context p a b) (fun h => State.putData_cachesEmpty (State.cachesEmpty_of_levelZero h) p a b)
    (State.putData_kept · p a b) fun _ _ _ h => h.putData p a b

theorem State.putValue_workKeeps (s : State) (p : Place) (n : Nat) (v : Word) : WorkKeeps q s (s.putValue p n v) :=
  .foldl (fun _ _ => State.putData_workKeeps _ _ _ _) _ s

/-- A line that becomes invalid leaves empty caches empty. -/
theorem State.discardDline_cachesEmpty {s : State} (h : s.cachesEmpty = true) (c : BitVec 5) (side : Side) :
    (s.discardDline c side).cachesEmpty = true := by
  obtain ⟨hd, hi⟩ := s.cachesEmpty_iff.1 h
  obtain ⟨l, hl⟩ := s.keepDline_stale c side
  refine (State.cachesEmpty_iff _).2 ⟨fun c' sd => ?_, fun c' sd => ?_⟩
  · rw [State.discardDline, State.dinvalidate, State.dline_setDline, hl]
    split
    · rfl
    · exact hd c' sd
  · rw [State.discardDline, hl]
    exact hi c' sd

theorem State.discardDline_workKeeps (s : State) (c : BitVec 5) (side : Side) : WorkKeeps q s (s.discardDline c side) :=
  .of_context (s.discardDline_context c side)
    (fun h => State.discardDline_cachesEmpty (State.cachesEmpty_of_levelZero h) c side)
    (discardDline_kept · c side) fun _ _ _ h => h.discardDline c side

theorem State.dropIline_cachesEmpty {s : State} (h : s.cachesEmpty = true) (c : BitVec 6) (side : Side) :
    (s.dropIline c side).cachesEmpty = true := by
  obtain ⟨l, hl | ⟨-, hl⟩⟩ := s.dropIline_eq c side
  · obtain ⟨hd, hi⟩ := s.cachesEmpty_iff.1 h
    rw [hl]
    refine (State.cachesEmpty_iff _).2 ⟨hd, fun c' sd => ?_⟩
    rw [State.iline_setIline]
    split
    · rfl
    · exact hi c' sd
  · rwa [hl]

theorem State.dropIline_workKeeps (s : State) (c : BitVec 6) (side : Side) : WorkKeeps q s (s.dropIline c side) :=
  .of_context (s.dropIline_context c side)
    (fun h => State.dropIline_cachesEmpty (State.cachesEmpty_of_levelZero h) c side)
    (State.dropIline_kept · c side) fun _ _ _ h => h.dropIline c side

/-! ### Accesses -/

theorem Result.ok_workKeeps {α : Type} {a : α} {s t : State} (h : WorkKeeps q s t) :
    (Result.ok a t).All (WorkKeeps q s) := h

/-- A part with nothing to do at Level 0. -/
theorem Result.ok_cachesEmpty {r : Result Unit} {s : State} (hl : s.levelZero = true) (h : r = .ok () s) :
    r.All (·.cachesEmpty = true) := h ▸ State.cachesEmpty_of_levelZero hl

theorem dtouch_workKeeps {p : Place} {s : State} (hp : s.Fits p) : (dtouch p s).All (WorkKeeps q s) :=
  WorkKeeps.of_goes (dtouch_context p s) (fun hl => Result.ok_cachesEmpty hl (by simp [dtouch, hp hl]))
    (fun _ _ => dtouch_kept) fun _ _ _ h => h.dtouch p

theorem State.fits_of_draw {s t : State} {p : Place} (h : t = s ∨ t = s.drawn) (hp : s.Fits p) : t.Fits p := by
  obtain rfl | rfl := h <;> exact hp

theorem WorkKeeps.of_draw {s t : State} (h : t = s ∨ t = s.drawn) : WorkKeeps q s t := by
  obtain rfl | rfl := h
  · exact .refl _
  · exact s.drawn_workKeeps

/-- A translated address fits the level. -/
theorem dataPlace_fits {side : CacheSide} {ea : Word} {store : Bool} {s t : State} {p : Place}
    (h : dataPlace side ea store s = .ok p t) : t.Fits p :=
  State.fits_of_draw (dataPlace_state h) fun hl => dataPlace_cacheable (s.levelZero_iff.1 hl).2.1 h

theorem dataPlace_workKeeps (side : CacheSide) (ea : Word) (store : Bool) (s : State) :
    (dataPlace side ea store s).All (WorkKeeps q s) := by
  cases h : dataPlace side ea store s with
  | ok p t => exact .of_draw (dataPlace_state h)
  | exc x t => exact .of_draw (dataPlace_exc_state h)
  | stop _ => trivial
  | refuse _ => trivial

/-- Work at a translated address. -/
theorem dataPlace_bind_workKeeps {α : Type} (side : CacheSide) (ea : Word) (store : Bool) (s : State)
    {f : Place → State → Result α} (hf : ∀ p t, t.Fits p → (f p t).All (WorkKeeps q t)) :
    ((dataPlace side ea store s).bind f).All (WorkKeeps q s) := by
  have hplace := dataPlace_workKeeps (q := q) side ea store s
  cases h : dataPlace side ea store s with
  | ok p t =>
    rw [h] at hplace
    exact (hf p t (dataPlace_fits h)).imp fun _ => hplace.trans
  | exc x t => rw [h] at hplace; exact hplace
  | stop _ => trivial
  | refuse _ => trivial

theorem access_workKeeps (ea : Word) (n : Nat) (store : Bool) (s : State) :
    (access ea n store s).All (WorkKeeps q s) := by
  unfold access
  split
  · trivial
  · split
    · exact .refl s
    · refine dataPlace_bind_workKeeps .data ea store s fun p t hp => ?_
      cases h : checkAccess p n store t with
      | ok _ u =>
        obtain rfl := checkAccess_ok h
        exact WorkKeeps.bind (r := dtouch p u) (dtouch_workKeeps hp) fun _ v => Result.ok_workKeeps (.refl v)
      | exc x u =>
        have hcheck := checkAccess_context p n store t
        rw [h] at hcheck
        exact hcheck.elim
      | stop _ => trivial
      | refuse _ => trivial

theorem memRead_workKeeps (ea : Word) (n : Nat) (s : State) : (memRead ea n s).All (WorkKeeps q s) :=
  WorkKeeps.bind (access_workKeeps ea n false s) fun _ t => .refl t

theorem memWrite_workKeeps (ea : Word) (n : Nat) (v : Word) (s : State) : (memWrite ea n v s).All (WorkKeeps q s) :=
  WorkKeeps.bind (access_workKeeps ea n true s) fun p t => t.putValue_workKeeps p n v

/-! ### Multiples and strings -/

theorem State.setReg_workKeeps (s : State) (r : Reg) (v : Word) : WorkKeeps q s (s.setReg r v) :=
  .of_context ⟨rfl, rfl, rfl, rfl⟩ State.cachesEmpty_of_levelZero (.of_same · rfl rfl rfl rfl) fun _ _ _ h =>
    h.of_same rfl rfl

theorem loadWords_workKeeps (ra : Reg) (rs : List Reg) (ea : Word) (s : State) :
    (loadWords ra rs ea s).All (WorkKeeps q s) := by
  induction rs generalizing ea s with
  | nil => exact .refl s
  | cons r rest ih =>
    unfold loadWords
    split
    · exact WorkKeeps.bind (memRead_workKeeps ea 4 s) fun w t => (ih _ _).imp fun _ => (t.setReg_workKeeps r w).trans
    · exact ih _ s

theorem storeWords_workKeeps (rs : List Reg) (ea : Word) (s : State) : (storeWords rs ea s).All (WorkKeeps q s) := by
  induction rs generalizing ea s with
  | nil => exact .refl s
  | cons r rest ih => exact WorkKeeps.bind (memWrite_workKeeps ea 4 _ s) fun _ t => ih _ t

theorem alignedThen_workKeeps (ea : Word) (n : Nat) {s : State} {k : Result Unit} (hk : k.All (WorkKeeps q s)) :
    (alignedThen ea n s k).All (WorkKeeps q s) := by
  unfold alignedThen
  split
  · exact .refl s
  · exact hk

theorem loadStringByte_workKeeps (rt : Reg) (skip : Reg → Bool) (k : Nat) (ea : Word) (s : State) :
    (loadStringByte rt skip k ea s).All (WorkKeeps q s) := by
  have hclear : WorkKeeps q s (if k % 4 = 0 then s.setReg (stringReg rt k) 0#32 else s) := by
    split
    · exact s.setReg_workKeeps _ _
    · exact .refl s
  unfold loadStringByte
  simp only
  split
  · exact .refl s
  · exact WorkKeeps.bind ((memRead_workKeeps ea 1 _).imp fun _ => hclear.trans) fun _ t => t.setReg_workKeeps _ _

theorem loadString_workKeeps (rt : Reg) (skip : Reg → Bool) (ea : Word) (ks : List Nat) (s : State) :
    (loadString rt skip ea ks s).All (WorkKeeps q s) := by
  induction ks generalizing s with
  | nil => exact .refl s
  | cons k rest ih => exact WorkKeeps.bind (loadStringByte_workKeeps rt skip k _ s) fun _ t => ih t

theorem storeString_workKeeps (rs : Reg) (ea : Word) (ks : List Nat) (s : State) :
    (storeString rs ea ks s).All (WorkKeeps q s) := by
  induction ks generalizing s with
  | nil => exact .refl s
  | cons k rest ih => exact WorkKeeps.bind (memWrite_workKeeps _ 1 _ s) fun _ t => ih t

theorem zeroLengthCheck_workKeeps (ea : Word) (store : Bool) (s : State) :
    (zeroLengthCheck ea store s).All (WorkKeeps q s) := by
  have hplace := dataPlace_workKeeps (q := q) .data ea store s
  unfold zeroLengthCheck
  split <;> rename_i e <;> rw [e] at hplace
  · split
    · trivial
    · exact hplace
  · exact hplace
  · trivial
  · trivial

/-! ### Cache instructions -/

/-- Copying a valid line back is casting it out. -/
theorem State.Waits.copyBack {s : State} {a : Word} {b : Byte} (h : s.Waits a b) {c : BitVec 5} {side : Side}
    (hv : (s.dline c side).v = true) : (copyBack c side s).All (State.Waits · a b) := by
  have hout : Machine.castOut c side s = Machine.copyBack c side s := if_pos hv
  exact hout ▸ h.castOut c side

theorem flushBlock_workKeeps (p : Place) (s : State) : (flushBlock p s).All (WorkKeeps q s) :=
  WorkKeeps.of_goes (flushBlock_context p s)
    (fun hl => Result.ok_cachesEmpty hl (by simp [flushBlock, State.dhit_of_cachesEmpty, State.cachesEmpty_of_levelZero hl]))
    (fun _ _ => flushBlock_kept) fun _ a b h => by
      unfold flushBlock
      split
      next => exact h
      next side hd =>
        exact Result.all_bind (h.copyBack (State.holds_of_dhit hd).1) fun _ _ h => h.setDline _ _ _

theorem storeBlock_workKeeps (p : Place) (s : State) : (storeBlock p s).All (WorkKeeps q s) :=
  WorkKeeps.of_goes (storeBlock_context p s)
    (fun hl => Result.ok_cachesEmpty hl (by simp [storeBlock, State.dhit_of_cachesEmpty, State.cachesEmpty_of_levelZero hl]))
    (fun _ _ => storeBlock_kept) fun _ a b h => by
      unfold storeBlock
      split
      next => exact h
      next side hd =>
        exact Result.all_bind (h.copyBack (State.holds_of_dhit hd).1) fun _ _ h => h.setDline _ _ _

theorem invalidateBlock_workKeeps (p : Place) (s : State) : (invalidateBlock p s).All (WorkKeeps q s) := by
  unfold invalidateBlock
  split
  · exact .refl s
  · exact s.discardDline_workKeeps _ _

theorem touchBlock_workKeeps {p : Place} {s : State} (hp : s.Fits p) : (touchBlock p s).All (WorkKeeps q s) :=
  WorkKeeps.of_goes (touchBlock_context p s) (fun hl => Result.ok_cachesEmpty hl (by simp [touchBlock, hp hl]))
    (fun _ _ => touchBlock_kept) fun _ a b h => by
      unfold touchBlock
      split
      · exact h
      · split
        · trivial
        · exact Result.all_bind (h.drawn.dfill _ _) fun _ _ h => h.setDlru _ _

theorem zeroBlockAt_workKeeps (ea : Word) {p : Place} {s : State} (hp : s.Fits p) :
    (zeroBlockAt ea p s).All (WorkKeeps q s) := by
  by_cases hc : (!p.cacheable || p.writeThrough) = true
  · rw [zeroBlockAt, if_pos hc]
    exact .refl s
  · rw [Bool.not_eq_true] at hc
    refine WorkKeeps.of_goes (zeroBlockAt_context hc s) (fun hl => ?_) (fun _ _ => zeroBlockAt_kept) fun _ a b h => ?_
    · simp [hp hl] at hc
    · unfold zeroBlockAt
      rw [if_neg (by simp [hc])]
      split
      · trivial
      · split
        · exact (h.keepDline _ _).setDline _ _ _
        · exact Result.all_bind (h.drawn.castOut _ _) fun _ _ h => (h.setDline _ _ _).setDlru _ _

theorem iinvalidateBlock_workKeeps (p : Place) (s : State) : (iinvalidateBlock p s).All (WorkKeeps q s) := by
  unfold iinvalidateBlock
  split
  · exact .refl s
  · exact s.dropIline_workKeeps _ _

theorem State.Waits.ifill {s : State} {x : Word} {b : Byte} (h : s.Waits x b) (a : Word) (side : Side) :
    (s.ifill a side).Waits x b := (h.dropIline (iclass a) side).setIline _ _ _

/-- Reading a block into the instruction cache, off Level 0. -/
theorem State.ifill_workKeeps {s : State} {a : Word} (hmiss : s.ihit a = none) (hl : s.levelZero = false) (side : Side)
    (v : Bool) : WorkKeeps q s ((s.ifill a side).setIlru (iclass a) v).drawn :=
  .of_context ((s.ifill_context a side).trans ⟨rfl, rfl, rfl, rfl⟩) (by simp [hl])
    (fun hs =>
      have hfill := State.ifill_kept hs hmiss side
      have hlru := hfill.trans (State.setIlru_kept hfill.canonical (iclass a) v)
      hlru.trans (State.drawn_kept hlru.canonical))
    fun _ _ _ h => (h.ifill a side).of_same rfl rfl

theorem State.Fits.not_levelZero {s : State} {p : Place} (hp : s.Fits p) (hc : p.cacheable = true) :
    s.levelZero = false := by
  by_contra h
  rw [hp (by simpa using h)] at hc
  cases hc

theorem itouchBlock_workKeeps {p : Place} {s : State} (hp : s.Fits p) : (itouchBlock p s).All (WorkKeeps q s) := by
  unfold itouchBlock
  split
  next => exact .refl s
  next hc =>
    simp only [Bool.or_eq_true, not_or, Bool.not_eq_true, Option.isSome_eq_false_iff, Option.isNone_iff_eq_none,
      Bool.not_eq_false'] at hc
    split
    · trivial
    · exact State.ifill_workKeeps hc.1.2 (hp.not_levelZero hc.1.1) _ _

end

end Sys2Proof.Machine
end

section
/-! What every instruction keeps, its end and the exceptions it takes included, and what every step keeps: main storage
in its one form, MSR.LE = 0, and that the machine knows whether it is at Level 0 (20_memory.md R100, R106, R133,
47_cache_sync.md R429). -/

namespace Sys2Proof.Machine

/-! ### The relations -/

/-- What every step keeps. -/
structure StepKeeps (s t : State) : Prop where
  canonical : s.MemoryCanonical → t.MemoryCanonical
  bigEndian : s.BigEndian → t.BigEndian
  caching : s.cachingSeen = true → t.cachingSeen = true
  level : s.LevelKnown → t.LevelKnown

/-- What an instruction keeps. With `pushes` it is dcbst, which takes old bytes a step on; with `syncs` it ends in a
context-synchronizing operation that is no entry. Any other instruction takes a byte from what a fetch may see only by
an entry, which goes to a vector (60_exceptions.md R503, R505). -/
structure Keeps (pushes syncs : Bool) (s t : State) : Prop extends StepKeeps s t where
  fetch : syncs = false → s.MemoryCanonical →
    FetchKept s t ∨ ∃ offset ∈ vectorOffsets, t.pc = vectorAddress s.spr.evpr offset
  waits : pushes = false → ∀ a b, s.Waits a b → t.Waits a b

/-- The pieces of the state that main storage, the caches, the old bytes and the level depend on. -/
def State.stored (s : State) : List Host.Cell × Vector DClass 32 × Vector IClass 64 × List OldByte × Bool ×
    Vector TlbEntry 64 × Word × Word :=
  (s.mem, s.dcache, s.icache, s.stale, s.cachingSeen, s.tlb, s.spr.dccr, s.spr.iccr)

/-- A step that writes registers alone, none of them one of those the level or the byte order depends on. -/
structure RegisterFrame (s t : State) : Prop where
  stored : t.stored = s.stored
  msr : t.msr = s.msr

theorem State.bigEndian_congr {s t : State} (h : t.msr = s.msr) (hs : s.BigEndian) : t.BigEndian := by
  rwa [State.BigEndian, State.msrBit, h]

theorem State.levelZero_congr {s t : State} (h : t.stored = s.stored) : t.levelZero = s.levelZero := by
  simp only [State.stored, Prod.mk.injEq] at h
  obtain ⟨-, hd, hi, -, hc, htlb, hdccr, hiccr⟩ := h
  simp only [State.levelZero, State.nothingCacheable, State.cachesEmpty, hd, hi, hc, htlb, hdccr, hiccr]

section

variable {q r : Bool}

theorem StepKeeps.refl (s : State) : StepKeeps s s := ⟨id, id, id, id⟩

theorem StepKeeps.trans {s t u : State} (h1 : StepKeeps s t) (h2 : StepKeeps t u) : StepKeeps s u :=
  ⟨h2.canonical ∘ h1.canonical, h2.bigEndian ∘ h1.bigEndian, h2.caching ∘ h1.caching, h2.level ∘ h1.level⟩

theorem WorkKeeps.stepKeeps {s t : State} (h : WorkKeeps q s t) : StepKeeps s t where
  canonical hs := (h.fetch hs).canonical
  bigEndian := State.bigEndian_congr h.msr
  caching := h.caching
  level := h.level

theorem WorkKeeps.keeps {s t : State} (h : WorkKeeps q s t) : Keeps q r s t :=
  ⟨h.stepKeeps, fun _ hs => .inl (h.fetch hs), h.waits⟩

/-- The work of an instruction, then its end. -/
theorem WorkKeeps.trans_keeps {s t u : State} (h1 : WorkKeeps q s t) (h2 : Keeps q r t u) : Keeps q r s u where
  toStepKeeps := h1.stepKeeps.trans h2.toStepKeeps
  fetch hr hs := by
    have hk := h1.fetch hs
    obtain h | h := h2.fetch hr hk.canonical
    · exact .inl (hk.trans h)
    · rw [h1.evpr] at h
      exact .inr h
  waits hq a b h := h2.waits hq a b (h1.waits hq a b h)

/-- A step that leaves main storage, the caches, the old bytes and the attributes of addresses alone. -/
theorem Keeps.of_stored {s t : State} (h : t.stored = s.stored) (hle : s.BigEndian → t.BigEndian) : Keeps q r s t := by
  have hlevel := State.levelZero_congr h
  simp only [State.stored, Prod.mk.injEq] at h
  obtain ⟨hm, hd, hi, hst, hc, -⟩ := h
  refine ⟨⟨fun hs => ?_, hle, hc.trans, fun hs => ?_⟩, fun _ hs => .inl (.of_same hs hm hd hi hst),
    fun _ _ _ hs => hs.of_same hc hst⟩
  · rwa [State.MemoryCanonical, hm]
  · rwa [State.LevelKnown, hlevel, hc]

namespace RegisterFrame

theorem refl (s : State) : RegisterFrame s s := ⟨rfl, rfl⟩

theorem trans {s t u : State} (h1 : RegisterFrame s t) (h2 : RegisterFrame t u) : RegisterFrame s u :=
  ⟨h2.stored.trans h1.stored, h2.msr.trans h1.msr⟩

theorem keeps {s t : State} (h : RegisterFrame s t) : Keeps q r s t :=
  .of_stored h.stored (State.bigEndian_congr h.msr)

end RegisterFrame

/-- Registers that are written as the work of a cache instruction, none of them the EVPR. -/
theorem RegisterFrame.workKeeps {s t : State} (h : RegisterFrame s t) (he : t.spr.evpr = s.spr.evpr) :
    WorkKeeps q s t := by
  have hk : Keeps q false s t := h.keeps
  have hsame := h.stored
  simp only [State.stored, Prod.mk.injEq] at hsame
  obtain ⟨hm, hd, hi, hst, -⟩ := hsame
  exact ⟨h.msr, he, hk.caching, hk.level, (.of_same · hm hd hi hst), hk.waits⟩

/-! ### Registers and the end of an instruction -/

theorem State.drawCr0_registerFrame (s : State) (b : Bool) : RegisterFrame s (s.drawCr0 b) := by
  cases b <;> exact ⟨rfl, rfl⟩

theorem State.recordOv_registerFrame (s : State) (oe ov : Bool) : RegisterFrame s (s.recordOv oe ov) := by
  cases oe <;> exact ⟨rfl, rfl⟩

theorem State.record_registerFrame (s : State) (rc : Bool) (v : Word) : RegisterFrame s (s.record rc v) := by
  cases rc <;> exact ⟨rfl, rfl⟩

theorem State.link_registerFrame (s : State) (lk : Bool) : RegisterFrame s (s.link lk) := by
  cases lk <;> exact ⟨rfl, rfl⟩

theorem State.jump_registerFrame (s : State) (a : Word) : RegisterFrame s (s.jump a) := ⟨rfl, rfl⟩

theorem RegisterFrame.advance {s t : State} (h : RegisterFrame s t) : RegisterFrame s t.advance := h.trans ⟨rfl, rfl⟩

theorem RegisterFrame.advance31 {s t : State} (h : RegisterFrame s t) (b31 : Bool) :
    RegisterFrame s (t.advance31 b31) := (h.trans (t.drawCr0_registerFrame b31)).advance

theorem State.advance31_registerFrame (s : State) (b31 : Bool) : RegisterFrame s (s.advance31 b31) :=
  (RegisterFrame.refl s).advance31 b31

theorem next_advance_keeps {s t : State} (h : RegisterFrame s t) : Out.All (Keeps q r s) (.next t.advance) :=
  h.advance.keeps

theorem next_advance31_keeps {s t : State} {b31 : Bool} (h : RegisterFrame s t) :
    Out.All (Keeps q r s) (.next (t.advance31 b31)) := (h.advance31 b31).keeps

/-! ### Context synchronization, entries and returns -/

/-- Two steps after one another where what a fetch may see is left open. -/
theorem Keeps.trans_syncs {s t u : State} (h1 : Keeps q true s t) (h2 : Keeps q true t u) : Keeps q true s u :=
  ⟨h1.toStepKeeps.trans h2.toStepKeeps, nofun, fun hq a b h => h2.waits hq a b (h1.waits hq a b h)⟩

/-- A context-synchronizing operation drops old bytes, none of those that wait for dcbst once Level 0 has been left. -/
theorem State.contextSync_keeps (s : State) : Keeps q true s s.contextSync :=
  ⟨⟨id, id, id, id⟩, nofun, fun _ _ _ h => h.contextSync⟩

/-- A context-synchronizing operation after registers, the MSR and the pc are written. -/
theorem contextSync_setAfterIcread_keeps {s t : State} (h : t.stored = s.stored) (hle : s.BigEndian → t.BigEndian) :
    Keeps q true s (t.contextSync.setAfterIcread false) :=
  (Keeps.of_stored h hle).trans_syncs
    (t.contextSync_keeps.trans_syncs (RegisterFrame.keeps (s := t.contextSync) ⟨rfl, rfl⟩))

/-- An entry is refused where it would make LE 1, and it goes to a vector (60_exceptions.md R502, R503). -/
theorem enter_keeps (critical : Bool) (saved : Word) {offset : BitVec 16} (ho : offset ∈ vectorOffsets) {s u : State}
    (hu : RegisterFrame s u) (he : u.spr.evpr = s.spr.evpr) :
    Out.All (Keeps q r s) (enter critical saved offset u) := by
  unfold enter
  split
  next => trivial
  next hile =>
    have hstored : (((u.saveFor critical saved).setMsr (entryMsr critical u.msr)).setPc
        (vectorAddress u.spr.evpr offset)).stored = s.stored := by
      rw [← hu.stored]
      cases critical <;> rfl
    have hle : bit (entryMsr critical u.msr) msrLE = false := by
      rw [bit_entryMsr _ _ _ (by decide), if_pos (by decide)]
      simpa [State.msrBit, msrILE] using hile
    have hk : Keeps q true s _ := contextSync_setAfterIcread_keeps hstored fun _ => hle
    exact ⟨hk.toStepKeeps, fun _ _ => .inr ⟨offset, ho, he ▸ rfl⟩, hk.waits⟩

/-- Every exception is an entry to a vector. -/
theorem raise_keeps (x : Exc) (s : State) : Out.All (Keeps q r s) (raise x s) := by
  cases x with
  | systemCall | instructionStorage | instructionTlbMiss | debug => exact enter_keeps _ _ (by decide) (.refl s) rfl
  | illegal | privileged | trap | alignment ea | dataTlbMiss ea => exact enter_keeps _ _ (by decide) ⟨rfl, rfl⟩ rfl
  | dataStorage ea store zone =>
    cases store <;> cases zone <;> exact enter_keeps _ _ (by decide) ⟨rfl, rfl⟩ rfl

/-- An exception after work. -/
theorem WorkKeeps.raise_keeps {s t : State} (h : WorkKeeps q s t) (x : Exc) : Out.All (Keeps q r s) (raise x t) :=
  (Machine.raise_keeps x t).imp fun _ => h.trans_keeps

/-- A return is refused where it would make LE 1 (20_memory.md R106). -/
theorem returnFrom_keeps (savedPc savedMsr : Word) (s : State) :
    Out.All (Keeps q true s) (returnFrom savedPc savedMsr s) := by
  unfold returnFrom
  split
  next => trivial
  next hle => exact contextSync_setAfterIcread_keeps rfl fun _ => show bit savedMsr msrLE = false by simpa using hle

theorem privileged_keeps {s : State} {k : Out} (hk : Out.All (Keeps q r s) k) :
    Out.All (Keeps q r s) (privileged s k) := Out.all_privileged (raise_keeps .privileged s) hk

theorem sprGuard_keeps (sprn : BitVec 10) {s : State} {k : Out} (hk : Out.All (Keeps q r s) k) :
    Out.All (Keeps q r s) (sprGuard sprn s k) := by
  unfold sprGuard
  split
  · exact privileged_keeps hk
  · exact hk

/-- Work, then registers are written and the instruction ends. -/
theorem Result.bind_finish_keeps {α : Type} {s : State} {x : Result α} {f : α → State → State}
    (hx : x.All (WorkKeeps q s)) (hf : ∀ a t, RegisterFrame t (f a t)) :
    Out.All (Keeps q r s) (x.bind fun a t => .ok () (f a t)).finish := by
  cases x with
  | ok a t => exact hx.trans_keeps (hf a t).keeps
  | exc x t => exact hx.raise_keeps x
  | stop _ => trivial
  | refuse _ => trivial

/-! ### The shared meanings -/

theorem writeArith_keeps (rt : Reg) (v : Word) (ca : Option Bool) (oe ov rc : Bool) (s : State) :
    Out.All (Keeps q r s) (writeArith rt v ca oe ov rc s) := by
  have hcarry : RegisterFrame s (match ca with | some c => (s.setReg rt v).setCa c | none => s.setReg rt v) := by
    cases ca <;> exact ⟨rfl, rfl⟩
  exact next_advance_keeps ((hcarry.trans (State.recordOv_registerFrame _ oe ov)).trans
    (State.record_registerFrame _ rc v))

theorem sumKeepCarry_keeps (rt : Reg) (a b : Word) (c oe rc : Bool) (s : State) :
    Out.All (Keeps q r s) (sumKeepCarry rt a b c oe rc s) := writeArith_keeps _ _ _ _ _ _ s

theorem sumWithCarry_keeps (rt : Reg) (a b : Word) (c oe rc : Bool) (s : State) :
    Out.All (Keeps q r s) (sumWithCarry rt a b c oe rc s) := writeArith_keeps _ _ _ _ _ _ s

theorem undefinedQuotient_keeps (rt : Reg) (oe rc : Bool) (s : State) :
    Out.All (Keeps q r s) (undefinedQuotient rt oe rc s) := by
  have hdraw : RegisterFrame s (s.setReg rt s.undef).drawn := ⟨rfl, rfl⟩
  exact next_advance_keeps ((hdraw.trans (State.drawCr0_registerFrame _ rc)).trans
    (State.recordOv_registerFrame _ oe true))

theorem writeLogical_keeps (ra : Reg) (v : Word) (rc : Bool) (s : State) :
    Out.All (Keeps q r s) (writeLogical ra v rc s) := by
  have hset : RegisterFrame s (s.setReg ra v) := ⟨rfl, rfl⟩
  exact next_advance_keeps (hset.trans (State.record_registerFrame _ rc v))

theorem writeRotate_keeps (ra : Reg) (v : Word) (rc : Bool) (s : State) :
    Out.All (Keeps q r s) (writeRotate ra v rc s) := writeLogical_keeps ra v rc s

theorem shiftAlgebraic_keeps (ra rs : Reg) (n : Nat) (m : Word) (rc : Bool) (s : State) :
    Out.All (Keeps q r s) (shiftAlgebraic ra rs n m rc s) := by
  have hset : ∀ v c, RegisterFrame s ((s.setReg ra v).setCa c) := fun _ _ => ⟨rfl, rfl⟩
  unfold shiftAlgebraic
  exact next_advance_keeps ((hset _ _).trans (State.record_registerFrame _ rc _))

theorem branchOn_keeps (bo bi : BitVec 5) (lk : Bool) (target : State → Word) (s : State) :
    Out.All (Keeps q r s) (branchOn bo bi lk target s) := by
  have hcount : RegisterFrame s (s.setCtr (s.branchCtr bo)) := ⟨rfl, rfl⟩
  exact ((hcount.trans (State.link_registerFrame _ lk)).trans (State.jump_registerFrame _ _)).keeps

theorem loadWith_keeps (n : Nat) (widen : Word → Word) (rt : Reg) (ea : Word) (b31 : Bool) (s : State) :
    Out.All (Keeps q r s) (loadWith n widen rt ea b31 s) := by
  have hset : ∀ w (t : State), RegisterFrame t (t.setReg rt (widen w)) := fun _ _ => ⟨rfl, rfl⟩
  unfold loadWith
  exact Result.bind_finish_keeps (memRead_workKeeps ea n s) fun w t => (hset w t).advance31 b31

theorem loadUpdateWith_keeps (n : Nat) (widen : Word → Word) (rt ra : Reg) (ea : Word) (b31 : Bool) (s : State) :
    Out.All (Keeps q r s) (loadUpdateWith n widen rt ra ea b31 s) := by
  have hset : ∀ w (t : State), RegisterFrame t ((t.setReg ra ea).setReg rt (widen w)) := fun _ _ => ⟨rfl, rfl⟩
  unfold loadUpdateWith
  split
  · exact Result.bind_finish_keeps (memRead_workKeeps ea n s) fun w t => (hset w t).advance31 b31
  · trivial

theorem storeWith_keeps (n : Nat) (v ea : Word) (b31 : Bool) (s : State) :
    Out.All (Keeps q r s) (storeWith n v ea b31 s) :=
  Result.bind_finish_keeps (memWrite_workKeeps ea n v s) fun _ t => t.advance31_registerFrame b31

theorem storeUpdateWith_keeps (n : Nat) (v : Word) (ra : Reg) (ea : Word) (b31 : Bool) (s : State) :
    Out.All (Keeps q r s) (storeUpdateWith n v ra ea b31 s) := by
  have hset : ∀ t : State, RegisterFrame t (t.setReg ra ea) := fun _ => ⟨rfl, rfl⟩
  unfold storeUpdateWith
  split
  · exact Result.bind_finish_keeps (memWrite_workKeeps ea n v s) fun _ t => (hset t).advance31 b31
  · trivial

theorem cacheOp_keeps (side : CacheSide) (ea : Word) (store b31 : Bool) {work : Place → State → Result Unit}
    (hw : ∀ p t, t.Fits p → (work p t).All (WorkKeeps q t)) (s : State) :
    Out.All (Keeps q r s) (cacheOp side ea store b31 work s) :=
  Result.bind_finish_keeps (dataPlace_bind_workKeeps side ea store s hw) fun _ t => t.advance31_registerFrame b31

theorem touchOp_keeps (side : CacheSide) (ea : Word) (b31 : Bool) {work : Place → State → Result Unit}
    (hw : ∀ p t, t.Fits p → (work p t).All (WorkKeeps q t)) (s : State) :
    Out.All (Keeps q r s) (touchOp side ea b31 work s) := by
  have hplace := dataPlace_workKeeps (q := q) side ea false s
  unfold touchOp
  split <;> rename_i e <;> rw [e] at hplace
  · exact Result.bind_finish_keeps ((hw _ _ (dataPlace_fits e)).imp fun _ => hplace.trans) fun _ t =>
      t.advance31_registerFrame b31
  · exact hplace.trans_keeps (State.advance31_registerFrame _ b31).keeps
  · trivial
  · trivial

theorem takeTrap_keeps (s : State) : Out.All (Keeps q r s) (takeTrap s) := by
  have hset : ∀ (u : State) (b : Nat), WorkKeeps q u (u.setDbsrBit b) := fun u b =>
    RegisterFrame.workKeeps ⟨rfl, rfl⟩ rfl
  have hstop : Out.All (Keeps q r s) (debugStop s) := by
    have hstop : ∀ u : State, RegisterFrame u ((u.setDebugStopped true).setAfterIcread false) := fun _ => ⟨rfl, rfl⟩
    unfold debugStop
    simp only
    split
    · exact ((hset s _).trans (hset _ _)).trans_keeps (hstop _).keeps
    · exact (hset s _).trans_keeps (hstop _).keeps
  unfold takeTrap
  simp only
  split
  · exact raise_keeps .trap s
  · split
    · exact hstop
    · split
      · exact (hset s _).raise_keeps .debug
      · exact ((hset s _).trans (hset _ _)).raise_keeps .trap

/-! ### Instructions that go their own way -/

theorem execMullw_keeps (rt ra rb : Reg) (oe rc : Bool) (s : State) :
    Out.All (Keeps q r s) (execMullw rt ra rb oe rc s) := by
  unfold execMullw
  exact writeArith_keeps _ _ _ _ _ _ s

theorem execDivw_keeps (rt ra rb : Reg) (oe rc : Bool) (s : State) :
    Out.All (Keeps q r s) (execDivw rt ra rb oe rc s) := by
  unfold execDivw
  split
  · exact undefinedQuotient_keeps rt oe rc s
  · exact writeArith_keeps _ _ _ _ _ _ s

theorem execDivwu_keeps (rt ra rb : Reg) (oe rc : Bool) (s : State) :
    Out.All (Keeps q r s) (execDivwu rt ra rb oe rc s) := by
  unfold execDivwu
  split
  · exact undefinedQuotient_keeps rt oe rc s
  · exact writeArith_keeps _ _ _ _ _ _ s

theorem execB_keeps (li : BitVec 24) (aa lk : Bool) (s : State) : Out.All (Keeps q r s) (execB li aa lk s) :=
  ((s.link_registerFrame lk).trans (State.jump_registerFrame _ _)).keeps

theorem execLwarx_keeps (rt ra rb : Reg) (b31 : Bool) (s : State) :
    Out.All (Keeps q r s) (execLwarx rt ra rb b31 s) := by
  have hset : ∀ w (t : State), RegisterFrame t ((t.setReserve true).setReg rt w) := fun _ _ => ⟨rfl, rfl⟩
  exact Result.bind_finish_keeps (memRead_workKeeps _ 4 s) fun w t => (hset w t).advance31 b31

theorem execStwcxRc_keeps (rs ra rb : Reg) (s : State) : Out.All (Keeps q r s) (execStwcxRc rs ra rb s) := by
  unfold execStwcxRc
  simp only
  split
  · exact Result.bind_finish_keeps (memWrite_workKeeps _ 4 _ s) fun _ t => ⟨rfl, rfl⟩
  · split
    · exact raise_keeps _ s
    · exact next_advance_keeps ⟨rfl, rfl⟩

theorem execLswx_keeps (rt ra rb : Reg) (b31 : Bool) (s : State) :
    Out.All (Keeps q r s) (execLswx rt ra rb b31 s) := by
  have hset : ∀ t : State, RegisterFrame t (t.setReg rt t.undef).drawn := fun _ => ⟨rfl, rfl⟩
  unfold execLswx
  simp only
  split
  · exact Result.bind_finish_keeps (zeroLengthCheck_workKeeps _ false s) fun _ t => (hset t).advance31 b31
  · exact Result.bind_finish_keeps (loadString_workKeeps _ _ _ _ s) fun _ t => t.advance31_registerFrame b31

theorem execStswx_keeps (rs ra rb : Reg) (b31 : Bool) (s : State) :
    Out.All (Keeps q r s) (execStswx rs ra rb b31 s) := by
  refine Result.bind_finish_keeps ?_ fun _ t => t.advance31_registerFrame b31
  split
  · exact zeroLengthCheck_workKeeps _ true s
  · exact storeString_workKeeps _ _ _ s

/-- dcbst takes old bytes from the first stage to the second. -/
theorem execDcbst_keeps (ra rb : Reg) (b31 : Bool) (s : State) :
    Out.All (Keeps true r s) (execDcbst ra rb b31 s) :=
  cacheOp_keeps (q := true) _ _ _ _ (fun p t _ => WorkKeeps.bind (storeBlock_workKeeps p t) fun _ u =>
    Result.ok_workKeeps (u.markOld_workKeeps _ _ _ fun h => by cases h)) s

theorem execIcbi_keeps (ra rb : Reg) (b31 : Bool) (s : State) : Out.All (Keeps q r s) (execIcbi ra rb b31 s) :=
  cacheOp_keeps _ _ _ _ (fun p t _ => WorkKeeps.bind (iinvalidateBlock_workKeeps p t) fun _ u =>
    Result.ok_workKeeps (u.markOld_workKeeps _ _ _ fun _ => by decide)) s

theorem execDccci_keeps (ra rb : Reg) (b31 : Bool) (s : State) : Out.All (Keeps q r s) (execDccci ra rb b31 s) :=
  privileged_keeps (cacheOp_keeps _ _ _ _ (fun _ t _ => Result.ok_workKeeps
    ((t.discardDline_workKeeps _ .a).trans (State.discardDline_workKeeps _ _ .b))) s)

theorem execIccci_keeps (ra rb : Reg) (b31 : Bool) (s : State) : Out.All (Keeps q r s) (execIccci ra rb b31 s) :=
  privileged_keeps (cacheOp_keeps _ _ _ _ (fun _ t _ => Result.ok_workKeeps
    ((t.dropIline_workKeeps _ .a).trans (State.dropIline_workKeeps _ _ .b))) s)

theorem execDcread_keeps (rt ra rb : Reg) (b31 : Bool) (s : State) :
    Out.All (Keeps q r s) (execDcread rt ra rb b31 s) := by
  have hwork : ∀ ea (t : State), WorkKeeps q t (dcreadWork rt ea t) := by
    intro ea t
    unfold dcreadWork
    simp only
    split
    · exact t.setReg_workKeeps _ _
    · split
      · exact t.setReg_workKeeps _ _
      · exact (t.setReg_workKeeps _ _).trans (State.drawn_workKeeps _)
  refine privileged_keeps ?_
  split
  · exact raise_keeps _ s
  · exact cacheOp_keeps _ _ _ _ (fun _ t _ => Result.ok_workKeeps (hwork _ t)) s

theorem execIcread_keeps (ra rb : Reg) (b31 : Bool) (s : State) :
    Out.All (Keeps q r s) (execIcread ra rb b31 s) := by
  have hwork : ∀ ea (t : State), RegisterFrame t (icreadWork ea t) := by
    intro ea t
    unfold icreadWork
    simp only
    split
    · exact ⟨rfl, rfl⟩
    · split <;> exact ⟨rfl, rfl⟩
  exact privileged_keeps <| Result.bind_finish_keeps (dataPlace_workKeeps _ _ _ s) fun _ t =>
    ((hwork _ t).advance31 b31).trans ⟨rfl, rfl⟩

theorem execSync_keeps (b31 : Bool) (s : State) : Out.All (Keeps q r s) (execSync b31 s) :=
  (s.markOld_workKeeps _ _ _ fun _ => by decide).trans_keeps (State.advance31_registerFrame _ b31).keeps

theorem execIsync_keeps (b31 : Bool) (s : State) : Out.All (Keeps q true s) (execIsync b31 s) :=
  s.contextSync_keeps.trans_syncs (State.advance31_registerFrame _ b31).keeps

theorem execMtmsr_keeps (rs : Reg) (b31 : Bool) (s : State) : Out.All (Keeps q r s) (execMtmsr rs b31 s) := by
  refine privileged_keeps ?_
  unfold writeMsr
  split
  next => trivial
  next hle =>
    have hend := State.advance31_registerFrame (s.setMsr (s.reg rs)) b31
    exact Keeps.of_stored hend.stored fun _ => State.bigEndian_congr hend.msr <|
      show bit (s.reg rs) msrLE = false by simpa using hle

/-- wrtee and wrteei write EE alone. -/
theorem writeEe_keeps (e b31 : Bool) (s : State) : Out.All (Keeps q r s) (writeEe e b31 s) := by
  have hend := State.advance31_registerFrame (s.setMsr (setBit s.msr msrEE e)) b31
  refine privileged_keeps (Keeps.of_stored hend.stored fun hs => State.bigEndian_congr hend.msr ?_)
  show bit (setBit s.msr msrEE e) msrLE = false
  rw [bit_setBit _ _ _ _ (by decide) (by decide), if_neg (by decide)]
  exact hs

theorem execMfspr_keeps (rt : Reg) (sprn : BitVec 10) (b31 : Bool) (s : State) :
    Out.All (Keeps q r s) (execMfspr rt sprn b31 s) := by
  have hread : ∀ x, RegisterFrame s (readSpr x rt s) := by
    intro x
    unfold readSpr
    split <;> exact ⟨rfl, rfl⟩
  refine sprGuard_keeps sprn ?_
  split
  · trivial
  · exact next_advance31_keeps (hread _)

/-- Noting what is cacheable, after DCCR, ICCR or the TLB is written: if the caches are empty, or Level 0 has been left,
the machine knows its level. -/
theorem State.noteCaching_workKeeps {s t : State} (hmsr : t.msr = s.msr) (he : t.spr.evpr = s.spr.evpr)
    (h : (t.mem, t.dcache, t.icache, t.stale, t.cachingSeen) = (s.mem, s.dcache, s.icache, s.stale, s.cachingSeen)) :
    WorkKeeps q s t.noteCaching := by
  simp only [Prod.mk.injEq] at h
  obtain ⟨hm, hd, hi, hst, hc⟩ := h
  refine ⟨hmsr, he, fun hs => ?_, fun hs => State.noteCaching_levelKnown ?_, (.of_same · hm hd hi hst),
    fun _ a b hs => (hs.of_same hc hst).noteCaching⟩
  · rw [State.noteCaching_cachingSeen, hc, hs, Bool.true_or]
  · obtain hs | hs := hs
    · exact .inr (by rw [State.cachesEmpty, hd, hi]; exact State.cachesEmpty_of_levelZero hs)
    · exact .inl (hc.trans hs)

/-- mtspr notes what is cacheable where it writes DCCR or ICCR. -/
theorem State.setSprVal_advance31_keeps (s : State) (x : Spr) (v : Word) (b31 : Bool) :
    Keeps q r s ((s.setSprVal x v).advance31 b31) := by
  have hend := (s.setSprVal x v).advance31_registerFrame b31
  by_cases hx : x = .dccr ∨ x = .iccr
  · have hnote : WorkKeeps q s (s.setSprVal x v) := by
      obtain rfl | rfl := hx <;> exact State.noteCaching_workKeeps rfl rfl rfl
    exact hnote.trans_keeps hend.keeps
  · rw [not_or] at hx
    have hset : RegisterFrame s (s.setSprVal x v) := by
      cases x with
      | dccr => exact absurd rfl hx.1
      | iccr => exact absurd rfl hx.2
      | _ => exact ⟨rfl, rfl⟩
    exact (hset.trans hend).keeps

theorem execMtspr_keeps (sprn : BitVec 10) (rs : Reg) (b31 : Bool) (s : State) :
    Out.All (Keeps q r s) (execMtspr sprn rs b31 s) := by
  refine sprGuard_keeps sprn ?_
  split
  · trivial
  · split
    · unfold writeSpr
      split <;> exact s.setSprVal_advance31_keeps _ _ b31
    · trivial

theorem execMfdcr_keeps (rt : Reg) (dcrn : BitVec 10) (b31 : Bool) (s : State) :
    Out.All (Keeps q r s) (execMfdcr rt dcrn b31 s) := by
  refine privileged_keeps ?_
  split
  · trivial
  · exact next_advance31_keeps ⟨rfl, rfl⟩

theorem execMtdcr_keeps (dcrn : BitVec 10) (rs : Reg) (b31 : Bool) (s : State) :
    Out.All (Keeps q r s) (execMtdcr dcrn rs b31 s) := by
  refine privileged_keeps ?_
  split
  · trivial
  · exact next_advance31_keeps ⟨rfl, rfl⟩

theorem execTw_keeps (tcond : BitVec 5) (ra rb : Reg) (b31 : Bool) (s : State) :
    Out.All (Keeps q r s) (execTw tcond ra rb b31 s) := by
  unfold execTw
  split
  · exact takeTrap_keeps s
  · exact next_advance31_keeps (.refl s)

theorem execTwi_keeps (tcond : BitVec 5) (ra : Reg) (im : BitVec 16) (s : State) :
    Out.All (Keeps q r s) (execTwi tcond ra im s) := by
  unfold execTwi
  split
  · exact takeTrap_keeps s
  · exact next_advance_keeps (.refl s)

/-- Entries that become invalid make nothing cacheable. -/
theorem execTlbia_keeps (s : State) : Out.All (Keeps q r s) (execTlbia s) := by
  have htlb : WorkKeeps q s (s.setTlb (s.tlb.map fun e => { e with v := false })) := by
    refine ⟨rfl, rfl, id, fun h => h.imp_left fun hl => ?_, (.of_same · rfl rfl rfl rfl), fun _ _ _ h => h.of_same rfl rfl⟩
    obtain ⟨h1, h2, h3⟩ := s.levelZero_iff.1 hl
    refine (State.levelZero_iff _).2 ⟨h1, ?_, h3⟩
    simp only [State.nothingCacheable, Bool.and_eq_true] at h2 ⊢
    exact ⟨h2.1, by simp⟩
  exact privileged_keeps (htlb.trans_keeps (RegisterFrame.refl _).advance.keeps)

theorem execTlbre_keeps (rt ra : Reg) (ws : BitVec 5) (b31 : Bool) (s : State) :
    Out.All (Keeps q r s) (execTlbre rt ra ws b31 s) := by
  have hread : ∀ hi, RegisterFrame s (tlbRead rt ra hi s) := by
    intro hi
    unfold tlbRead
    simp only
    split
    · split <;> exact ⟨rfl, rfl⟩
    · split <;> exact ⟨rfl, rfl⟩
  refine privileged_keeps ?_
  split
  · exact next_advance31_keeps (hread _)
  · trivial

theorem State.setTlbEntry_workKeeps (s : State) (i : BitVec 6) (e : TlbEntry) : WorkKeeps q s (s.setTlbEntry i e) :=
  State.noteCaching_workKeeps (t := s.setTlb (s.tlb.set i.toNat e i.isLt)) rfl rfl rfl

theorem execTlbwe_keeps (rs ra : Reg) (ws : BitVec 5) (b31 : Bool) (s : State) :
    Out.All (Keeps q r s) (execTlbwe rs ra ws b31 s) := by
  refine privileged_keeps ?_
  split
  · trivial
  · split
    · trivial
    · exact (s.setTlbEntry_workKeeps _ _).trans_keeps (State.advance31_registerFrame _ b31).keeps

theorem execTlbsx_keeps (rt ra rb : Reg) (rc : Bool) (s : State) :
    Out.All (Keeps q r s) (execTlbsx rt ra rb rc s) := by
  have hpick : RegisterFrame s (s.tlbPick (s.eaX ra rb)).2 := by
    obtain h | h := s.choose_state (s.tlbMatches (s.eaX ra rb)) <;> rw [State.tlbPick, h] <;> exact ⟨rfl, rfl⟩
  unfold execTlbsx
  rcases h : s.tlbPick (s.eaX ra rb) with ⟨found, s1⟩
  rw [h] at hpick
  refine privileged_keeps (next_advance_keeps (hpick.trans ?_))
  cases found <;> cases rc <;> exact ⟨rfl, rfl⟩

end

/-! ### Every instruction -/

/-- dcbst, which takes old bytes that wait for it a step on (20_memory.md R133). -/
def pushesOld : Instr → Bool
  | .dcbst .. => true
  | _ => false

/-- The context-synchronizing instructions that are no entry (20_memory.md R125). -/
def syncsContext : Instr → Bool
  | .isync .. | .rfi | .rfci => true
  | _ => false

/-- Every instruction keeps main storage in its form, LE = 0, the level, and its share of the old bytes. -/
theorem exec_keeps (i : Instr) (s : State) : Out.All (Keeps (pushesOld i) (syncsContext i) s) (exec i s) := by
  unfold exec
  cases i with
  | add | addi | addis | subf | neg => exact sumKeepCarry_keeps _ _ _ _ _ _ s
  | addc | adde | addic | addicRc | addme | addze | subfc | subfe | subfic | subfme | subfze =>
    exact sumWithCarry_keeps _ _ _ _ _ _ s
  | mulhw | mulhwu | mulli => exact writeArith_keeps _ _ _ _ _ _ s
  | mullw => exact execMullw_keeps _ _ _ _ _ s
  | divw => exact execDivw_keeps _ _ _ _ _ s
  | divwu => exact execDivwu_keeps _ _ _ _ _ s
  | and | andc | andiRc | andisRc | cntlzw | eqv | extsb | extsh | nand | nor | or | orc | ori | oris | xor | xori
  | xoris => exact writeLogical_keeps _ _ _ s
  | rlwimi | rlwinm | rlwnm | slw | srw => exact writeRotate_keeps _ _ _ s
  | sraw | srawi => exact shiftAlgebraic_keeps _ _ _ _ _ s
  | cmp | cmpl | mcrxr | mfcr | mtcrf => exact next_advance31_keeps ⟨rfl, rfl⟩
  | cmpi | cmpli | mcrf | crand | crandc | creqv | crnand | crnor | cror | crorc | crxor =>
    exact next_advance_keeps ⟨rfl, rfl⟩
  | b => exact execB_keeps _ _ _ s
  | bc => exact branchOn_keeps _ _ _ _ s
  | bcctr | bclr => exact branchOn_keeps _ _ _ _ s
  | lbz | lbzx | lha | lhax | lhbrx | lhz | lhzx | lwbrx | lwz | lwzx => exact loadWith_keeps _ _ _ _ _ s
  | lbzu | lbzux | lhau | lhaux | lhzu | lhzux | lwzu | lwzux => exact loadUpdateWith_keeps _ _ _ _ _ _ s
  | stb | stbx | sth | sthbrx | sthx | stw | stwbrx | stwx => exact storeWith_keeps _ _ _ _ s
  | stbu | stbux | sthu | sthux | stwu | stwux => exact storeUpdateWith_keeps _ _ _ _ _ s
  | lwarx => exact execLwarx_keeps _ _ _ _ s
  | stwcxRc => exact execStwcxRc_keeps _ _ _ s
  | lmw => exact Result.bind_finish_keeps (alignedThen_workKeeps _ 4 (loadWords_workKeeps _ _ _ s)) fun _ _ => ⟨rfl, rfl⟩
  | stmw => exact Result.bind_finish_keeps (alignedThen_workKeeps _ 4 (storeWords_workKeeps _ _ s)) fun _ _ => ⟨rfl, rfl⟩
  | lswi => exact Result.bind_finish_keeps (loadString_workKeeps _ _ _ _ s) fun _ t => t.advance31_registerFrame _
  | stswi => exact Result.bind_finish_keeps (storeString_workKeeps _ _ _ s) fun _ t => t.advance31_registerFrame _
  | lswx => exact execLswx_keeps _ _ _ _ s
  | stswx => exact execStswx_keeps _ _ _ _ s
  | dcbf => exact cacheOp_keeps _ _ _ _ (fun p t _ => flushBlock_workKeeps p t) s
  | dcbi => exact privileged_keeps (cacheOp_keeps _ _ _ _ (fun p t _ => invalidateBlock_workKeeps p t) s)
  | dcbst => exact execDcbst_keeps _ _ _ s
  | dcbt | dcbtst => exact touchOp_keeps _ _ _ (fun _ _ => touchBlock_workKeeps) s
  | dcbz => exact cacheOp_keeps _ _ _ _ (fun _ _ => zeroBlockAt_workKeeps _) s
  | dccci => exact execDccci_keeps _ _ _ s
  | dcread => exact execDcread_keeps _ _ _ _ s
  | icbi => exact execIcbi_keeps _ _ _ s
  | icbt => exact privileged_keeps (touchOp_keeps _ _ _ (fun _ _ => itouchBlock_workKeeps) s)
  | iccci => exact execIccci_keeps _ _ _ s
  | icread => exact execIcread_keeps _ _ _ s
  | sync | eieio => exact execSync_keeps _ s
  | isync => exact execIsync_keeps _ s
  | sc => exact raise_keeps .systemCall s
  | rfi | rfci => exact privileged_keeps (returnFrom_keeps _ _ s)
  | mfmsr => exact privileged_keeps (next_advance31_keeps ⟨rfl, rfl⟩)
  | wrtee | wrteei => exact writeEe_keeps _ _ s
  | mtmsr => exact execMtmsr_keeps _ _ s
  | mfspr => exact execMfspr_keeps _ _ _ s
  | mtspr => exact execMtspr_keeps _ _ _ s
  | mfdcr => exact execMfdcr_keeps _ _ _ s
  | mtdcr => exact execMtdcr_keeps _ _ _ s
  | tw => exact execTw_keeps _ _ _ _ s
  | twi => exact execTwi_keeps _ _ _ s
  | tlbia => exact execTlbia_keeps s
  | tlbsync => exact privileged_keeps (next_advance_keeps (.refl s))
  | tlbre => exact execTlbre_keeps _ _ _ _ s
  | tlbsx => exact execTlbsx_keeps _ _ _ _ s
  | tlbwe => exact execTlbwe_keeps _ _ _ _ s

/-- What an instruction that completes keeps. -/
theorem keeps_of_exec {i : Instr} {s t : State} (h : exec i s = .next t) :
    Keeps (pushesOld i) (syncsContext i) s t := Out.all_iff.1 (exec_keeps i s) t h

/-! ### Every step -/

/-- A fetch from a cacheable place may read a block into the instruction cache. -/
theorem State.itouch_workKeeps {s : State} {p : Place} (hp : s.Fits p) : WorkKeeps false s (s.itouch p) := by
  unfold State.itouch
  simp only
  split
  next => exact .refl s
  next hc =>
    have hl := hp.not_levelZero (by simpa using hc)
    split
    next =>
      exact .of_context ⟨rfl, rfl, rfl, rfl⟩ (by simp [hl]) (fun hs => (State.setIlru_kept hs _ _).trans
        (State.drawn_kept hs)) fun _ _ _ h => h.of_same rfl rfl
    next hmiss =>
      split
      · exact State.ifill_workKeeps hmiss hl _ _
      · exact s.drawn_workKeeps

theorem fetchByte_workKeeps {p : Place} {a : Word} {s t : State} {b : Byte} (h : fetchByte p a s = (b, t)) :
    WorkKeeps false s t := by
  have ht : t = (fetchByte p a s).2 := by rw [h]
  rw [ht, fetchByte_state]
  exact .of_draw (s.choose_state _)

theorem fetchBytes_workKeeps {p : Place} {s t : State} {bs : List Byte} (h : fetchBytes p s = (bs, t)) :
    WorkKeeps false s t := by
  rcases h0 : fetchByte p p.real s with ⟨b0, s0⟩
  rcases h1 : fetchByte p (p.real + 1#32) s0 with ⟨b1, s1⟩
  rcases h2 : fetchByte p (p.real + 2#32) s1 with ⟨b2, s2⟩
  rcases h3 : fetchByte p (p.real + 3#32) s2 with ⟨b3, s3⟩
  simp only [fetchBytes, h0, h1, h2, h3, Prod.mk.injEq] at h
  rw [← h.2]
  exact (((fetchByte_workKeeps h0).trans (fetchByte_workKeeps h1)).trans (fetchByte_workKeeps h2)).trans
    (fetchByte_workKeeps h3)

/-- Translation for a fetch takes a draw at most. -/
theorem fetchPlace_draws (s : State) : (fetchPlace s).All fun t => t = s ∨ t = s.drawn := by
  have hpick : (s.tlbPick s.pc).2 = s ∨ (s.tlbPick s.pc).2 = s.drawn := s.choose_state _
  unfold fetchPlace
  split
  · split <;> rename_i e <;> rw [e] at hpick
    · exact hpick
    · simp only
      split <;> exact hpick
  · exact .inl rfl

theorem checkFetch_context (p : Place) (s : State) : (checkFetch p s).Goes (ContextFrame s) := by
  unfold checkFetch
  split
  · exact .refl s
  · exact checkStorage_context _ 4 s

/-- A fetch, its exceptions included. -/
theorem fetch_workKeeps (s : State) : (fetch s).All (WorkKeeps false s) := by
  have hplace := fetchPlace_draws s
  unfold fetch
  split
  · trivial
  · cases h : fetchPlace s with
    | ok p s1 =>
      rw [h] at hplace
      have hfits : s1.Fits p :=
        State.fits_of_draw hplace fun hl => fetchPlace_cacheable (s.levelZero_iff.1 hl).2.1 h
      have hcheck := checkFetch_context p s1
      cases h2 : checkFetch p s1 with
      | ok u s2 =>
        obtain rfl := checkFetch_state h2
        rcases hbytes : fetchBytes p (s2.itouch p) with ⟨bs, s3⟩
        simp only [Result.ok_bind, h2, hbytes]
        exact ((WorkKeeps.of_draw hplace).trans (State.itouch_workKeeps hfits)).trans (fetchBytes_workKeeps hbytes)
      | exc x t => rw [h2] at hcheck; exact hcheck.elim
      | stop _ => simp only [Result.ok_bind, Result.stop_bind, h2]; trivial
      | refuse _ => simp only [Result.ok_bind, Result.refuse_bind, h2]; trivial
    | exc x t => rw [h] at hplace; exact .of_draw hplace
    | stop _ => trivial
    | refuse _ => trivial

theorem runDecoded_stepKeeps (d : Decoded) (s : State) : Out.All (StepKeeps s) (runDecoded d s) := by
  cases d with
  | ok i => exact (exec_keeps i s).imp fun _ h => h.toStepKeeps
  | illegal => exact (raise_keeps (q := false) (r := false) .illegal s).imp fun _ h => h.toStepKeeps
  | reservedBits m => trivial

theorem runNext_stepKeeps (s : State) : Out.All (StepKeeps s) (runNext s) := by
  have hfetch := fetch_workKeeps s
  unfold runNext
  split <;> rename_i e <;> rw [e] at hfetch
  · exact (runDecoded_stepKeeps _ _).imp fun _ => hfetch.stepKeeps.trans
  · exact (hfetch.raise_keeps (r := false) _).imp fun _ h => h.toStepKeeps
  · trivial
  · trivial

/-- An interrupt is an entry; a machine check stops. -/
theorem takeIrq_stepKeeps (i : Irq) (s : State) : Out.All (StepKeeps s) (takeIrq i s) := by
  have henter : ∀ (critical : Bool) (saved : Word) (offset : BitVec 16), offset ∈ vectorOffsets →
      Out.All (StepKeeps s) (enter critical saved offset (s.setPending (s.pending.erase i))) :=
    fun critical saved offset ho =>
      (enter_keeps (q := false) (r := false) (s := s)
        (u := s.setPending (s.pending.erase i)) critical saved ho ⟨rfl, rfl⟩ rfl).imp fun _ h => h.toStepKeeps
  cases i with
  | machineCheck => trivial
  | criticalPin | watchdog | external | fit | pit => exact henter _ _ _ (by decide)

/-- Every step keeps main storage in its form, LE = 0, and that the machine knows its level. -/
theorem step_keeps {s t : State} (h : step s = .next t) : StepKeeps s t := by
  unfold step at h
  split at h
  · cases h
  · split at h
    · exact Out.all_iff.1 (takeIrq_stepKeeps _ s) t h
    · split at h
      · cases h
      · exact Out.all_iff.1 (runNext_stepKeeps s) t h

/-- Settles O13: main storage keeps its canonical form because each of its writes is `memSet`. -/
theorem everyStepKeepsMemoryCanonical : Obligations.EveryStepKeepsMemoryCanonical := by
  unfold Obligations.EveryStepKeepsMemoryCanonical
  exact fun _ _ hs h => (step_keeps h).canonical hs

/-- Settles O15: whatever would make LE 1 is refused, and nothing else writes it. -/
theorem everyStepKeepsBigEndianMode : Obligations.EveryStepKeepsBigEndianMode := by
  unfold Obligations.EveryStepKeepsBigEndianMode
  exact fun _ _ hs h => (step_keeps h).bigEndian hs

end Sys2Proof.Machine
end

section
/-! The synchronisation instructions, misaligned accesses, and a fetch that nothing stands in the way of. -/

namespace Sys2Proof.Machine

/-! ### sync, eieio and isync -/

@[simp] theorem State.advance31_stale (s : State) (b : Bool) : (s.advance31 b).stale = s.stale := by cases b <;> rfl

theorem State.syncStorage_stale (s : State) : s.syncStorage.stale =
    s.stale.map fun o => if o.stage = .pushed then { o with stage := .synced } else o := by
  simp [State.syncStorage, State.markOld]

theorem execSync_completes (s : State) (b31 : Bool) : Completes (.sync b31) s (cr0If b31) fun t =>
    t.stale = s.stale.map fun o => if o.stage = .pushed then { o with stage := .synced } else o :=
  ⟨s.syncStorage.advance31 b31, rfl, State.advance31_pc _ b31,
    (unchanged_markOld s _ _ _ _).trans' (unchanged_advance31 _ b31),
    (State.advance31_stale _ b31).trans s.syncStorage_stale⟩

theorem execIsync_completes (s : State) (b31 : Bool) :
    Completes (.isync b31) s (cr0If b31) fun t => QueueDiscarded s t :=
  ⟨s.contextSync.advance31 b31, rfl, State.advance31_pc _ b31,
    (unchanged_contextSync s _).trans' (unchanged_advance31 _ b31), fun o => by
      rw [State.advance31_stale]
      exact s.contextSync_queue o⟩

/-- Settles O49: each of the three writes the old bytes and, with bit 31, CR field 0; eieio does what sync does. -/
theorem synchronisationsChangeNoRegisterOrByte : Obligations.SynchronisationsChangeNoRegisterOrByte := by
  unfold Obligations.SynchronisationsChangeNoRegisterOrByte
  refine ⟨fun s b31 i hi => ?_, execIsync_completes⟩
  obtain rfl | hi := List.mem_cons.1 hi
  · exact execSync_completes s b31
  · obtain rfl := List.mem_singleton.1 hi
    exact execSync_completes s b31

/-! ### The alignment exception -/

/-- An instruction that comes to the alignment exception in the state it was given takes it and does nothing else. -/
theorem trapsAlignment_of_raise {i : Instr} {s : State} {ea : Word} (hile : s.msrBit msrILE = false)
    (h : exec i s = raise (.alignment ea) s) : TrapsAlignment i s ea := by
  obtain ⟨t, ht⟩ := enter_completes (critical := false) (saved := s.pc) (offset := 0x0600#16) (s := s.setDear ea) hile
  have he := enter_spec ht
  refine ⟨t, h.trans ht, ⟨he.savedPc, he.savedMsr, he.msr, he.endian, he.pc, ?_, he.queue⟩, ?_⟩
  · exact ((unchanged_setSprVal s .dear ea).trans he.others).mono (by simp)
  · exact he.others (.spr .dear) (by simp)

section

variable {s : State} {ea : Word} {n : Nat}

/-- An access at an address that is not a multiple of its width. -/
theorem access_misaligned (hle : s.BigEndian) (h : ea.toNat % n ≠ 0) (store : Bool) :
    access ea n store s = .exc (.alignment ea) s := by
  have hle' : s.msrBit msrLE = false := hle
  simp [access, hle', aligned, h]

theorem loadWith_misaligned (hle : s.BigEndian) (h : ea.toNat % n ≠ 0) (widen : Word → Word) (rt : Reg) (b31 : Bool) :
    loadWith n widen rt ea b31 s = raise (.alignment ea) s := by
  simp [loadWith, memRead, access_misaligned hle h, Result.finish]

theorem loadUpdateWith_misaligned (hle : s.BigEndian) (h : ea.toNat % n ≠ 0) {rt ra : Reg} (h0 : ra ≠ 0)
    (hrt : ra ≠ rt) (widen : Word → Word) (b31 : Bool) :
    loadUpdateWith n widen rt ra ea b31 s = raise (.alignment ea) s := by
  have hok : loadUpdateOk rt ra = true := by
    rw [loadUpdateOk, bne_iff_ne.2 h0, bne_iff_ne.2 hrt]
    rfl
  simp [loadUpdateWith, hok, memRead, access_misaligned hle h, Result.finish]

theorem storeWith_misaligned (hle : s.BigEndian) (h : ea.toNat % n ≠ 0) (v : Word) (b31 : Bool) :
    storeWith n v ea b31 s = raise (.alignment ea) s := by
  simp [storeWith, memWrite, access_misaligned hle h, Result.finish]

theorem storeUpdateWith_misaligned (hle : s.BigEndian) (h : ea.toNat % n ≠ 0) {ra : Reg} (h0 : ra ≠ 0) (v : Word)
    (b31 : Bool) : storeUpdateWith n v ra ea b31 s = raise (.alignment ea) s := by
  have hok : storeUpdateOk ra = true := bne_iff_ne.2 h0
  simp [storeUpdateWith, hok, memWrite, access_misaligned hle h, Result.finish]

/-- lmw and stmw test their first address alone (46_multiple_string.md R407). -/
theorem alignedThen_misaligned (h : ea.toNat % n ≠ 0) (k : Result Unit) :
    alignedThen ea n s k = .exc (.alignment ea) s := by
  simp [alignedThen, aligned, h]

end

theorem execLwarx_misaligned {s : State} {ra rb : Reg} (hle : s.BigEndian) (h : (s.eaX ra rb).toNat % 4 ≠ 0) (rt : Reg)
    (b31 : Bool) : execLwarx rt ra rb b31 s = raise (.alignment (s.eaX ra rb)) s := by
  simp [execLwarx, memRead, access_misaligned hle h, Result.finish]

/-- stwcx. makes the test whether RESERVE is 0 or 1 (20_memory.md R109). -/
theorem execStwcxRc_misaligned {s : State} {ra rb : Reg} (hle : s.BigEndian) (h : (s.eaX ra rb).toNat % 4 ≠ 0)
    (rs : Reg) : execStwcxRc rs ra rb s = raise (.alignment (s.eaX ra rb)) s := by
  unfold execStwcxRc
  cases s.reserve
  · simp [aligned, h]
  · simp [memWrite, access_misaligned hle h, Result.finish]

/-- Settles O38: the test of an access, or of the first access of a multiple, comes before any effect. -/
theorem misalignedAccessesTrap : Obligations.MisalignedAccessesTrap := by
  unfold Obligations.MisalignedAccessesTrap
  intro s rt ra rb d b31 hle hile
  simp only [List.forall_mem_cons, List.not_mem_nil, false_implies, implies_true, and_true]
  have htrap := fun {i : Instr} {ea : Word} => trapsAlignment_of_raise (i := i) (ea := ea) hile
  exact ⟨
    fun h => ⟨htrap (loadWith_misaligned hle h _ _ _), htrap (loadWith_misaligned hle h _ _ _),
      htrap (storeWith_misaligned hle h _ _)⟩,
    fun h h0 hrt => ⟨htrap (loadUpdateWith_misaligned hle h h0 hrt _ _),
      htrap (loadUpdateWith_misaligned hle h h0 hrt _ _)⟩,
    fun h h0 => htrap (storeUpdateWith_misaligned hle h h0 _ _),
    fun h => ⟨htrap (loadWith_misaligned hle h _ _ _), htrap (loadWith_misaligned hle h _ _ _),
      htrap (loadWith_misaligned hle h _ _ _), htrap (storeWith_misaligned hle h _ _),
      htrap (storeWith_misaligned hle h _ _)⟩,
    fun h h0 hrt => ⟨htrap (loadUpdateWith_misaligned hle h h0 hrt _ _),
      htrap (loadUpdateWith_misaligned hle h h0 hrt _ _)⟩,
    fun h h0 => htrap (storeUpdateWith_misaligned hle h h0 _ _),
    fun h => ⟨htrap (loadWith_misaligned hle h _ _ _), htrap (storeWith_misaligned hle h _ _),
      htrap (congrArg Result.finish (congrArg (Result.bind · _) (alignedThen_misaligned h _))),
      htrap (congrArg Result.finish (congrArg (Result.bind · _) (alignedThen_misaligned h _)))⟩,
    fun h h0 hrt => htrap (loadUpdateWith_misaligned hle h h0 hrt _ _),
    fun h h0 => htrap (storeUpdateWith_misaligned hle h h0 _ _),
    fun h => ⟨htrap (loadWith_misaligned hle h _ _ _), htrap (loadWith_misaligned hle h _ _ _),
      htrap (execLwarx_misaligned hle h _ _), htrap (storeWith_misaligned hle h _ _),
      htrap (storeWith_misaligned hle h _ _), htrap (execStwcxRc_misaligned hle h _)⟩,
    fun h h0 hrt => htrap (loadUpdateWith_misaligned hle h h0 hrt _ _),
    fun h h0 => htrap (storeUpdateWith_misaligned hle h h0 _ _)⟩

/-! ### A fetch that sees main storage alone -/

/-- A byte that nothing stands in place of. -/
theorem fetchByte_plain {p : Place} {a : Word} {s : State} (hp : p.cacheable = false) (hstale : s.stale = [])
    (hd : s.dhit a = none) (hi : s.ihit a = none) : fetchByte p a s = (s.storage a, s) := by
  have hb : s.instrByte p a = s.storage a := by simp [State.instrByte, hp]
  have hf : s.fetchable a = [s.storage a] := by simp [State.fetchable, hstale, hd, hi]
  simp [fetchByte, hb, hf, State.choose]

/-- A plain fetch reads the four bytes of main storage at the pc and changes nothing. -/
theorem fetch_plain {s : State} (hle : s.BigEndian) (hir : s.msrBit msrIR = false)
    (hc : regionBit s.spr.iccr s.pc = false) (hstale : s.stale = []) (hplain : s.PlainAt s.pc 4)
    (hmiss : ∀ k < 4, s.dhit (s.pc + BitVec.ofNat 32 k) = none ∧ s.ihit (s.pc + BitVec.ofNat 32 k) = none) :
    fetch s = .ok [s.storage s.pc, s.storage (s.pc + 1#32), s.storage (s.pc + 2#32), s.storage (s.pc + 3#32)] s := by
  have hle' : s.msrBit msrLE = false := hle
  have hplace : fetchPlace s = .ok (s.realModePlace .instruction s.pc) s := by simp [fetchPlace, hir]
  have hp : (s.realModePlace .instruction s.pc).cacheable = false := hc
  have hcheck : checkFetch (s.realModePlace .instruction s.pc) s = .ok () s := by
    simp [checkFetch, hp, checkStorage_plain hplain]
  have htouch : s.itouch (s.realModePlace .instruction s.pc) = s := by simp [State.itouch, hp]
  have hbyte : ∀ k < 4, fetchByte (s.realModePlace .instruction s.pc) (s.pc + BitVec.ofNat 32 k) s =
      (s.storage (s.pc + BitVec.ofNat 32 k), s) := fun k hk => fetchByte_plain hp hstale (hmiss k hk).1 (hmiss k hk).2
  have hbytes : fetchBytes (s.realModePlace .instruction s.pc) s =
      ([s.storage s.pc, s.storage (s.pc + 1#32), s.storage (s.pc + 2#32), s.storage (s.pc + 3#32)], s) := by
    have h0 := hbyte 0 (by decide)
    rw [BitVec.add_zero] at h0
    simp [fetchBytes, h0, hbyte 1, hbyte 2, hbyte 3]
  simp [fetch, hle', hplace, hcheck, htouch, hbytes]

/-- Settles O7: the plain fetch answers with the bytes at the pc, and the decoder reads their word. -/
theorem aStepRunsTheWordStoredAtThePc : Obligations.AStepRunsTheWordStoredAtThePc := by
  unfold Obligations.AStepRunsTheWordStoredAtThePc
  intro s i hstop hirq hwait hle hir hc hstale hplain hmiss hdecode
  have hfetch := fetch_plain hle hir hc hstale hplain hmiss
  have hbytes : decodeBytes [s.storage s.pc, s.storage (s.pc + 1#32), s.storage (s.pc + 2#32),
      s.storage (s.pc + 3#32)] = some (.ok i, []) := congrArg (fun d => some (d, [])) hdecode
  calc step s = runNext s := step_eq_runNext hstop hirq hwait
    _ = runDecoded (.ok i) s := runNext_of_fetch hfetch hbytes
    _ = exec i s := rfl

end Sys2Proof.Machine
end

section
/-! The translation of an address, bit by bit, and the place it gives (20_memory.md R115 to R119). -/

namespace Sys2Proof.Machine

/-- SIZE is one of 0 to 7: a page has at most 24 address bits below its number. -/
theorem TlbEntry.size_le (e : TlbEntry) : e.size.toNat ≤ 7 := by
  have h := e.size.isLt
  omega

/-- The real address has the bits of the page from RPN and the others from EA (20_memory.md R116). -/
theorem TlbEntry.getLsbD_realAddress (e : TlbEntry) (ea : Word) {k : Nat} (hk : k < 32) :
    (e.realAddress ea).getLsbD k =
      if k < 10 + 2 * e.size.toNat then ea.getLsbD k else e.rpn.getLsbD (k - 10) := by
  have hsize := e.size_le
  have hoffset : (BitVec.allOnes 32 >>> (22 - 2 * e.size.toNat)).getLsbD k = decide (k < 10 + 2 * e.size.toNat) := by
    rw [BitVec.getLsbD_ushiftRight, BitVec.getLsbD_allOnes]
    exact decide_eq_decide.2 (by omega)
  simp only [TlbEntry.realAddress, BitVec.getLsbD_or, BitVec.getLsbD_and, BitVec.getLsbD_not, hoffset, hk,
    decide_true, Bool.true_and]
  split
  next h => simp [h]
  next h =>
    have happend : (e.rpn ++ 0#10).getLsbD k = e.rpn.getLsbD (k - 10) :=
      BitVec.getLsbD_append.trans (if_neg (by omega))
    simpa [h] using happend

/-- Two 22-bit page numbers agree above their `n` low bits. -/
theorem ushiftRight_eq_iff (x : BitVec 22) (ea : Word) (n : Nat) :
    x >>> n = ea.extractLsb' 10 22 >>> n ↔
      ∀ k, 10 + n ≤ k → k < 32 → x.getLsbD (k - 10) = ea.getLsbD k := by
  constructor
  · intro h k hk1 hk2
    have hbit := congrArg (·.getLsbD (k - 10 - n)) h
    simp only [BitVec.getLsbD_ushiftRight, BitVec.getLsbD_extractLsb', show n + (k - 10 - n) = k - 10 by omega,
      show 10 + (k - 10) = k by omega, show k - 10 < 22 by omega, decide_true, Bool.true_and] at hbit
    exact hbit
  · intro h
    refine BitVec.eq_of_getLsbD_eq fun i _ => ?_
    rw [BitVec.getLsbD_ushiftRight, BitVec.getLsbD_ushiftRight, BitVec.getLsbD_extractLsb']
    by_cases hn : n + i < 22
    · have hbit := h (10 + (n + i)) (by omega) (by omega)
      rw [show 10 + (n + i) - 10 = n + i by omega] at hbit
      rw [hbit, decide_eq_true (by omega), Bool.true_and]
    · rw [BitVec.getLsbD_of_ge _ _ (by omega)]
      simp [hn]

/-- The match rule (20_memory.md R116). -/
theorem TlbEntry.translates_iff (e : TlbEntry) (ea : Word) (pid : BitVec 8) : e.translates ea pid = true ↔
    e.v = true ∧ (e.tid = 0#8 ∨ e.tid = pid) ∧
      ∀ k, 10 + 2 * e.size.toNat ≤ k → k < 32 → e.epn.getLsbD (k - 10) = ea.getLsbD k := by
  simp only [TlbEntry.translates, Bool.and_eq_true, Bool.or_eq_true, beq_iff_eq, and_assoc, ushiftRight_eq_iff]

/-- ZSEL selects the two bits of ZPR that it counts from the left. -/
theorem State.zoneField_eq (s : State) (e : TlbEntry) : s.zoneField e =
    BitVec.ofBool (bit (s.sprVal .zpr) (2 * e.zsel.toNat)) ++ BitVec.ofBool (bit (s.sprVal .zpr) (2 * e.zsel.toNat + 1)) := by
  have hz := e.zsel.isLt
  show s.spr.zpr.extractLsb' (30 - 2 * e.zsel.toNat) 2 =
    BitVec.ofBool (bit s.spr.zpr _) ++ BitVec.ofBool (bit s.spr.zpr _)
  rw [bit_eq_getLsbD _ _ (by omega), bit_eq_getLsbD _ _ (by omega)]
  refine BitVec.eq_of_getLsbD_eq fun i hi => ?_
  rw [BitVec.getLsbD_extractLsb', decide_eq_true hi, Bool.true_and, BitVec.getLsbD_append]
  obtain rfl | rfl : i = 0 ∨ i = 1 := by omega
  · rw [if_pos (by decide), show 30 - 2 * e.zsel.toNat + 0 = 31 - (2 * e.zsel.toNat + 1) by omega]
    simp only [BitVec.getLsbD_ofBool, decide_true, Bool.true_and]
  · rw [if_neg (by decide), show 30 - 2 * e.zsel.toNat + 1 = 31 - 2 * e.zsel.toNat by omega]
    simp only [BitVec.getLsbD_ofBool, Nat.sub_self, decide_true, Bool.true_and]

/-- The bit of a real-mode register for a 128MB region (20_memory.md R119). -/
theorem regionBit_eq (w ea : Word) : regionBit w ea = bit w (ea.toNat / 2 ^ 27) := by
  rw [regionBit, BitVec.toNat_ushiftRight, Nat.shiftRight_eq_div_pow]

/-- The place of a data address in real mode (20_memory.md R115, R119). -/
theorem State.realModePlace_data (s : State) (ea : Word) : s.realModePlace .data ea =
    ⟨ea, bit (s.sprVal .dccr) (ea.toNat / 2 ^ 27), bit (s.sprVal .dcwr) (ea.toNat / 2 ^ 27)⟩ := by
  simp [State.realModePlace, regionBit_eq, State.sprVal]

/-- The place of an instruction address in real mode (20_memory.md R115, R119). -/
theorem State.realModePlace_instruction (s : State) (ea : Word) : s.realModePlace .instruction ea =
    ⟨ea, bit (s.sprVal .iccr) (ea.toNat / 2 ^ 27), bit (s.sprVal .dcwr) (ea.toNat / 2 ^ 27)⟩ := by
  simp [State.realModePlace, regionBit_eq, State.sprVal]

/-- A data address with one entry that translates it, the tests of the protection taken together: the zone is reported
where it forbids (60_exceptions.md R517, R529). -/
theorem dataPlace_only_eq {s : State} {side : CacheSide} {ea : Word} {store : Bool} {k : BitVec 6}
    (hdr : s.msrBit msrDR = true) (h : s.OnlyEntry ea k) : dataPlace side ea store s =
      if (s.zoneForbids (s.tlbEntry k) || (store && !(s.tlbEntry k).wr) || s.boundsForbid ea store) = true then
        .exc (.dataStorage ea store (s.zoneForbids (s.tlbEntry k))) s
      else .ok ((s.tlbEntry k).place ea) s := by
  rw [dataPlace_only hdr h, checkBounds]
  cases hz : s.zoneForbids (s.tlbEntry k)
  · cases hw : store && !(s.tlbEntry k).wr <;> simp
  · simp

/-- A data address in real mode. -/
theorem dataPlace_untranslated {s : State} {side : CacheSide} {ea : Word} {store : Bool}
    (hdr : s.msrBit msrDR = false) : dataPlace side ea store s = checkBounds ea store (s.realModePlace side ea) s := by
  simp [dataPlace, hdr]

theorem fetchPlace_none {s : State} (hir : s.msrBit msrIR = true) (h : s.NoEntry s.pc) :
    fetchPlace s = .exc .instructionTlbMiss s := by
  simp [fetchPlace, hir, State.tlbPick_none h]

theorem fetchPlace_only {s : State} {k : BitVec 6} (hir : s.msrBit msrIR = true) (h : s.OnlyEntry s.pc k) :
    fetchPlace s = if (!(s.tlbEntry k).ex || s.zoneForbids (s.tlbEntry k)) = true then .exc .instructionStorage s
      else .ok ((s.tlbEntry k).place s.pc) s := by
  simp [fetchPlace, hir, State.tlbPick_only h]

theorem fetchPlace_untranslated {s : State} (hir : s.msrBit msrIR = false) :
    fetchPlace s = .ok (s.realModePlace .instruction s.pc) s := by
  simp [fetchPlace, hir]

/-- Settles O39: the match rule and the real address bit by bit, the place of the only entry, and real mode. -/
theorem aTranslatedAddressTakesItsPageFromTheEntry : Obligations.ATranslatedAddressTakesItsPageFromTheEntry := by
  unfold Obligations.ATranslatedAddressTakesItsPageFromTheEntry
  refine ⟨fun e ea k => e.getLsbD_realAddress ea, TlbEntry.translates_iff, fun s e => ⟨rfl, ?_⟩, fun _ _ _ => rfl,
    fun s side ea store hdr => ⟨dataPlace_none hdr, ?_⟩, fun s side ea store hdr => ?_,
    fun s hir => ⟨fetchPlace_none hir, ?_⟩, fun s hir => ?_⟩
  · rw [← s.zoneField_eq e]
    rfl
  · rintro k e h rfl
    exact dataPlace_only_eq hdr h
  · rw [dataPlace_untranslated hdr, checkBounds]
    cases side
    case data => simp only [State.realModePlace_data]
    case instruction => simp only [State.realModePlace_instruction]
  · rintro k e h rfl
    exact fetchPlace_only hir h
  · rw [fetchPlace_untranslated hir, State.realModePlace_instruction]

end Sys2Proof.Machine
end

section
/-! The state without the old bytes that the prefetch queue alone may still have. A store does the same to main storage
and the caches with and without them, so what it keeps for fetches it keeps also where an isync follows (20_memory.md
R133). -/

namespace Sys2Proof.Machine

/-- The bytes that only the prefetch queue has are gone: what isync does off Level 0. -/
def State.unqueued (s : State) : State := s.setStale (s.stale.filter fun o => o.stage != .queued)

/-- Off Level 0 a context-synchronizing operation empties the prefetch queue and no more. -/
theorem State.contextSync_eq_unqueued {s : State} (h : s.levelZero = false) : s.contextSync = s.unqueued := by
  simp [State.contextSync, State.unqueued, h]

/-- The result of a part, seen through a change of the state it ends in. -/
def Result.over {α : Type} (f : State → State) : Result α → Result α
  | .ok a s => .ok a (f s)
  | .exc x s => .exc x (f s)
  | .stop w => .stop w
  | .refuse w => .refuse w

theorem Result.over_bind {α β : Type} {f : State → State} {r : Result α} {g : α → State → Result β}
    (hg : ∀ a t, g a (f t) = (g a t).over f) : (r.over f).bind g = (r.bind g).over f := by
  cases r with
  | ok a t => exact hg a t
  | exc x t => rfl
  | stop w => rfl
  | refuse w => rfl

/-- A byte that a store keeps waits from the first stage, whether the prefetch queue alone had it before or not. -/
theorem State.unqueued_keepOld (s : State) (a : Word) (b : Byte) :
    s.unqueued.keepOld a b = (s.keepOld a b).unqueued := by
  have hstale : ∀ l : List OldByte, ⟨a, b, .stored⟩ :: (l.filter (·.stage != .queued)).filter (fun o => !o.is a b) =
      (⟨a, b, .stored⟩ :: l.filter fun o => !o.is a b).filter (·.stage != .queued) := fun l => by
    rw [List.filter_cons_of_pos (by rfl), List.filter_filter, List.filter_filter]
    simp only [Bool.and_comm]
  exact congrArg s.setStale (hstale s.stale)

theorem State.unqueued_putStorage (s : State) (a : Word) (b : Byte) :
    s.unqueued.putStorage a b = (s.putStorage a b).unqueued := by
  unfold State.putStorage
  rw [apply_ite State.unqueued, s.unqueued_keepOld]
  rfl

theorem State.unqueued_putBlock (s : State) (base : Word) (data : Vector Byte 16) :
    s.unqueued.putBlock base data = (s.putBlock base data).unqueued :=
  List.foldl_hom State.unqueued fun t _ => t.unqueued_putStorage _ _

theorem State.unqueued_putData (s : State) (p : Place) (a : Word) (b : Byte) :
    s.unqueued.putData p a b = (s.putData p a b).unqueued := by
  have hd : s.unqueued.dhit a = s.dhit a := rfl
  unfold State.putData
  rw [hd]
  cases s.dhit a with
  | none => exact s.unqueued_putStorage a b
  | some side =>
    simp only
    rw [apply_ite State.unqueued, ← State.unqueued_putStorage, s.unqueued_keepOld]
    rfl

theorem State.unqueued_putValue (s : State) (p : Place) (n : Nat) (v : Word) :
    s.unqueued.putValue p n v = (s.putValue p n v).unqueued :=
  List.foldl_hom State.unqueued fun t _ => t.unqueued_putData p _ _

theorem checkStorage_unqueued (a : Word) (n : Nat) (s : State) :
    checkStorage a n s.unqueued = (checkStorage a n s).over State.unqueued := by
  unfold checkStorage
  rw [apply_ite (Result.over State.unqueued), apply_ite (Result.over State.unqueued)]
  rfl

theorem copyBack_unqueued (c : BitVec 5) (side : Side) (s : State) :
    copyBack c side s.unqueued = (copyBack c side s).over State.unqueued := by
  have hline : s.unqueued.dline c side = s.dline c side := rfl
  unfold copyBack
  simp only [hline]
  rw [apply_ite (Result.over State.unqueued), checkStorage_unqueued,
    Result.over_bind fun _ t => by rw [t.unqueued_putBlock]; rfl]
  rfl

theorem castOut_unqueued (c : BitVec 5) (side : Side) (s : State) :
    castOut c side s.unqueued = (castOut c side s).over State.unqueued := by
  unfold castOut
  rw [apply_ite (Result.over State.unqueued), ← copyBack_unqueued]
  rfl

theorem dfill_unqueued (a : Word) (side : Side) (s : State) :
    dfill a side s.unqueued = (dfill a side s).over State.unqueued := by
  unfold dfill
  rw [castOut_unqueued, Result.over_bind fun _ _ => rfl]

theorem dtouch_unqueued (p : Place) (s : State) : dtouch p s.unqueued = (dtouch p s).over State.unqueued := by
  have hd : s.unqueued.dhit p.real = s.dhit p.real := rfl
  have hfill : dfill p.real (sideOf s.undef) s.unqueued.drawn =
      (dfill p.real (sideOf s.undef) s.drawn).over State.unqueued := dfill_unqueued _ _ s.drawn
  unfold dtouch
  rw [apply_ite (Result.over State.unqueued)]
  simp only [hd]
  cases s.dhit p.real with
  | some side => rfl
  | none =>
    rw [apply_ite (Result.over State.unqueued), ← Result.over_bind fun _ _ => rfl, ← hfill]
    rfl

theorem checkAccess_unqueued (p : Place) (n : Nat) (store : Bool) (s : State) :
    checkAccess p n store s.unqueued = (checkAccess p n store s).over State.unqueued := by
  unfold checkAccess
  rw [apply_ite (Result.over State.unqueued), ← checkStorage_unqueued]
  rfl

theorem checkBounds_unqueued (ea : Word) (store : Bool) (p : Place) (s : State) :
    checkBounds ea store p s.unqueued = (checkBounds ea store p s).over State.unqueued := by
  unfold checkBounds
  rw [apply_ite (Result.over State.unqueued)]
  rfl

theorem State.unqueued_choose {α : Type} (s : State) (l : List α) :
    s.unqueued.choose l = ((s.choose l).1, (s.choose l).2.unqueued) := by
  cases l with
  | nil => rfl
  | cons x l => cases l <;> rfl

theorem dataPlace_unqueued (side : CacheSide) (ea : Word) (store : Bool) (s : State) :
    dataPlace side ea store s.unqueued = (dataPlace side ea store s).over State.unqueued := by
  have hpick : s.unqueued.tlbPick ea = ((s.tlbPick ea).1, (s.tlbPick ea).2.unqueued) := s.unqueued_choose _
  unfold dataPlace
  rw [apply_ite (Result.over State.unqueued), ← checkBounds_unqueued]
  simp only [hpick]
  obtain ⟨found, t⟩ := s.tlbPick ea
  cases found with
  | none => rfl
  | some i =>
    simp only
    rw [apply_ite (Result.over State.unqueued), apply_ite (Result.over State.unqueued), ← checkBounds_unqueued]
    rfl

theorem access_unqueued (ea : Word) (n : Nat) (store : Bool) (s : State) :
    access ea n store s.unqueued = (access ea n store s).over State.unqueued := by
  unfold access
  rw [apply_ite (Result.over State.unqueued), apply_ite (Result.over State.unqueued), dataPlace_unqueued,
    Result.over_bind fun p t => by
      rw [checkAccess_unqueued, Result.over_bind fun _ u => by rw [dtouch_unqueued, Result.over_bind fun _ _ => rfl]]]
  rfl

theorem memWrite_unqueued (ea : Word) (n : Nat) (v : Word) (s : State) :
    memWrite ea n v s.unqueued = (memWrite ea n v s).over State.unqueued := by
  unfold memWrite
  rw [access_unqueued, Result.over_bind fun p t => by rw [t.unqueued_putValue]; rfl]

/-- A store keeps every byte that a fetch may see and the prefetch queue is not alone to have. -/
theorem memWrite_unqueued_kept {ea : Word} {n : Nat} {v : Word} {s t : State} (hs : s.MemoryCanonical)
    (h : memWrite ea n v s = .ok () t) : FetchKept s.unqueued t.unqueued := by
  have hwork := memWrite_workKeeps (q := true) ea n v s.unqueued
  rw [memWrite_unqueued, h] at hwork
  exact WorkKeeps.fetch hwork hs

end Sys2Proof.Machine
end

section
/-! What a fetch may see of stored bytes: the sequence dcbst, sync, icbi and isync of a block takes its old bytes from
stage to stage until none is left, a store and an isync alone leave them, and at Level 0 there are none (20_memory.md
R133, 70_reset_and_hazards.md R573, 92_eei_decisions.md D24). -/

namespace Sys2Proof.Machine

/-! ### One block in both caches -/

/-- The block of an instruction cache line and that of a data cache line are the same 16 bytes. -/
theorem iclass_eq_of_sameBlock {a b : Word} (h : sameBlock a b = true) : iclass a = iclass b ∧ itag a = itag b := by
  obtain ⟨hc, ht⟩ := sameBlock_iff.1 h
  have hc' := congrArg BitVec.toNat hc
  have ht' := congrArg BitVec.toNat ht
  simp only [dclass, dtag, BitVec.extractLsb'_toNat, Nat.shiftRight_eq_div_pow] at hc' ht'
  constructor <;> apply BitVec.eq_of_toNat_eq <;>
    simp only [iclass, itag, BitVec.extractLsb'_toNat, Nat.shiftRight_eq_div_pow] <;> omega

theorem inBlockOf_iff {a : Word} {o : OldByte} : inBlockOf a o = true ↔ blockBase o.addr = blockBase a := beq_iff_eq

theorem blockBase_eq_of_sameBlock {a b : Word} (h : sameBlock a b = true) : blockBase a = blockBase b := by
  obtain ⟨hc, ht⟩ := sameBlock_iff.1 h
  rw [blockBase_eq, blockBase_eq, hc, ht]

/-! ### The stages of the old bytes of a block -/

/-- The stages at which the old bytes of the block of an address are. -/
def State.BlockStages (s : State) (x : Word) (P : OldStage → Prop) : Prop :=
  ∀ o ∈ s.stale, inBlockOf x o = true → P o.stage

/-- A step of the sequence takes the old bytes of the block on. -/
theorem State.BlockStages.markOld {s : State} {x : Word} {P Q : OldStage → Prop} (h : s.BlockStages x P)
    {sel : OldByte → Bool} {before after : OldStage} (hsel : ∀ o, inBlockOf x o = true → sel o = true)
    (hpass : ∀ g, P g → g ≠ before → Q g) (hafter : Q after) : (s.markOld sel before after).BlockStages x Q := by
  intro o ho hin
  obtain ⟨old, hold, rfl⟩ := List.mem_map.1 ho
  by_cases hgo : (sel old && old.stage == before) = true
  · rw [if_pos hgo]
    exact hafter
  · rw [if_neg hgo] at hin ⊢
    refine hpass old.stage (h old hold hin) fun e => hgo ?_
    simp [hsel old hin, e]

theorem State.BlockStages.setIline {s : State} {x : Word} {P : OldStage → Prop} (h : s.BlockStages x P)
    (c : BitVec 6) (side : Side) (l : ILine) : (s.setIline c side l).BlockStages x P := h

/-- A line that is dropped adds bytes that the prefetch queue alone has. -/
theorem State.BlockStages.dropIline {s : State} {x : Word} {P : OldStage → Prop} (h : s.BlockStages x P)
    (hq : P .queued) (c : BitVec 6) (side : Side) : (s.dropIline c side).BlockStages x P := by
  have hkeep : ∀ (t : State) (a : Word) (b : Byte), t.BlockStages x P → (t.keepQueued a b).BlockStages x P := by
    intro t a b ht o ho
    have hmem : o ∈ if t.stale.any (fun o => o.is a b) then t.stale else ⟨a, b, .queued⟩ :: t.stale := ho
    split at hmem
    · exact ht o hmem
    · obtain rfl | hmem := List.mem_cons.1 hmem
      · exact fun _ => hq
      · exact ht o hmem
  have hfold : ∀ (base : Word) (data : Vector Byte 16) (l : List (Fin 16)) (t : State), t.BlockStages x P →
      (l.foldl (fun st i => st.keepQueued (base + BitVec.ofNat 32 i.val) (data.get i)) t).BlockStages x P := by
    intro base data l
    induction l with
    | nil => exact fun t ht => ht
    | cons i l ih => exact fun t ht => ih _ (hkeep t _ _ ht)
  unfold State.dropIline
  simp only
  split
  · exact (hfold _ _ (List.finRange 16) s h).setIline _ _ _
  · exact h

/-! ### icbi -/

theorem State.iline_congr {s t : State} (h : t.icache = s.icache) (c : BitVec 6) (side : Side) :
    t.iline c side = s.iline c side := by
  simp [State.iline, State.icls, h]

theorem State.ihit_congr {s t : State} (h : t.icache = s.icache) (a : Word) : t.ihit a = s.ihit a := by
  simp [State.ihit, State.iline_congr h]

/-- Dropping a line leaves main storage and the data cache alone. -/
theorem State.dropIline_mem (s : State) (c : BitVec 6) (side : Side) :
    (s.dropIline c side).mem = s.mem ∧ (s.dropIline c side).dcache = s.dcache := by
  obtain ⟨l, h | ⟨-, h⟩⟩ := s.dropIline_eq c side
  · rw [h]
    exact ⟨rfl, rfl⟩
  · rw [h]
    exact ⟨rfl, rfl⟩

/-- After icbi the block is in no line of the instruction cache. -/
theorem State.ihit_dropIline {s : State} (hu : s.InstrLinesUnique) {a : Word} {side : Side} (h : s.ihit a = some side) :
    (s.dropIline (iclass a) side).ihit a = none := by
  rw [State.ihit_eq_none_iff]
  intro sd hv htag
  rw [State.iline_dropIline] at hv htag
  split at hv
  next => cases hv
  next hne =>
    rw [if_neg hne] at htag
    obtain ⟨hv', htag'⟩ := State.iline_of_ihit h
    have huniq := hu (iclass a)
    cases sd <;> cases side <;> simp_all

/-- The work of icbi: the block leaves the instruction cache, and its old bytes that wait for icbi go on. -/
theorem iinvalidateBlock_ok {p : Place} {s t : State} (hu : s.InstrLinesUnique) (h : iinvalidateBlock p s = .ok () t) :
    t.ihit p.real = none ∧ t.mem = s.mem ∧ t.dcache = s.dcache ∧
      ∀ (x : Word) (P : OldStage → Prop), P .queued → s.BlockStages x P → t.BlockStages x P := by
  unfold iinvalidateBlock at h
  split at h
  next hmiss =>
    cases h
    exact ⟨hmiss, rfl, rfl, fun _ _ _ h => h⟩
  next side hhit =>
    cases h
    obtain ⟨hm, hd⟩ := s.dropIline_mem (iclass p.real) side
    exact ⟨State.ihit_dropIline hu hhit, hm, hd, fun x P hq hs => hs.dropIline hq _ _⟩

/-! ### The instructions of the sequence in real mode -/

/-- A cache instruction in real mode whose work raises no exception. -/
theorem cacheOp_real {side : CacheSide} {ea : Word} {store b31 : Bool} {work : Place → State → Result Unit}
    {s t : State} {P : State → Prop} (hdr : s.msrBit msrDR = false) (hpe : s.msrBit msrPE = false)
    (h : cacheOp side ea store b31 work s = .next t) (hgoes : (work (s.realModePlace side ea) s).Goes P) :
    ∃ u, work (s.realModePlace side ea) s = .ok () u ∧ t = u.advance31 b31 := by
  rw [cacheOp, dataPlace_real hdr hpe, Result.ok_bind] at h
  cases hw : work (s.realModePlace side ea) s with
  | ok _ u =>
    rw [hw] at h
    exact ⟨u, rfl, (Host.Outcome.next.inj h).symm⟩
  | exc x u =>
    rw [hw] at hgoes
    exact hgoes.elim
  | stop w =>
    rw [hw] at h
    cases h
  | refuse w =>
    rw [hw] at h
    cases h

theorem execDcbst_real {s t : State} {ra rb : Reg} (hs : s.RealStorage) (h : exec (.dcbst ra rb false) s = .next t) :
    ∃ u, storeBlock (s.realModePlace .data (s.eaX ra rb)) s = .ok () u ∧
      t = (u.markOld (inBlockOf (s.eaX ra rb)) .stored .pushed).advance31 false := by
  obtain ⟨u, hu, rfl⟩ := cacheOp_real hs.untranslated hs.unbounded h
    (ContextFrame.goes_bind (storeBlock_context _ s) fun _ _ => ⟨rfl, rfl, rfl, rfl⟩)
  obtain ⟨_, v, hv, he⟩ := Result.bind_eq_ok.1 hu
  exact ⟨v, hv, by rw [← (Result.ok.inj he).2]; rfl⟩

theorem execIcbi_real {s t : State} {ra rb : Reg} (hdr : s.msrBit msrDR = false) (hpe : s.msrBit msrPE = false)
    (h : exec (.icbi ra rb false) s = .next t) :
    ∃ u, iinvalidateBlock (s.realModePlace .instruction (s.eaX ra rb)) s = .ok () u ∧
      t = (u.markOld (inBlockOf (s.eaX ra rb)) .synced .queued).advance31 false := by
  obtain ⟨u, hu, rfl⟩ := cacheOp_real hdr hpe h
    (ContextFrame.goes_bind (iinvalidateBlock_context _ s) fun _ _ => ⟨rfl, rfl, rfl, rfl⟩)
  obtain ⟨_, v, hv, he⟩ := Result.bind_eq_ok.1 hu
  exact ⟨v, hv, by rw [← (Result.ok.inj he).2]; rfl⟩

theorem State.eaX_congr {s t : State} (h : ∀ r, t.reg r = s.reg r) (ra rb : Reg) : t.eaX ra rb = s.eaX ra rb := by
  simp [State.eaX, State.base, h]

/-! ### The sequence -/

/-- What dcbst and sync leave of the block of `x`, as against the state before them: main storage has the bytes the
processor saw, its line is not modified, and no old byte of it waits for either. -/
structure BlockPushed (x : Word) (s t : State) : Prop where
  storage : ∀ a, sameBlock a x = true → t.storage a = s.dataByte a
  clean : ∀ side, t.dhit x = some side → (t.dline (dclass x) side).d = false
  icache : t.icache = s.icache
  msr : t.msr = s.msr
  reg : ∀ r, t.reg r = s.reg r
  stages : t.BlockStages x fun g => g = .synced ∨ g = .queued

theorem dcbst_sync_blockPushed {s s1 s2 : State} {ra rb : Reg} (hs : s.RealStorage)
    (h1 : exec (.dcbst ra rb false) s = .next s1) (h2 : exec (.sync false) s1 = .next s2) :
    BlockPushed (s.eaX ra rb) s s2 := by
  obtain ⟨u, hu, rfl⟩ := execDcbst_real hs h1
  obtain ⟨hview, -, hclean, hstorage⟩ := storeBlock_ok hs.coherent hu
  obtain rfl := Host.Outcome.next.inj h2
  have hall : u.BlockStages (s.eaX ra rb) fun _ => True := fun _ _ _ => trivial
  have hpushed : (u.markOld (inBlockOf (s.eaX ra rb)) .stored .pushed).BlockStages (s.eaX ra rb) (· ≠ .stored) :=
    hall.markOld (fun _ h => h) (fun _ _ h => h) (by decide)
  have hsynced : (u.markOld (inBlockOf (s.eaX ra rb)) .stored .pushed).syncStorage.BlockStages (s.eaX ra rb)
      fun g => g = .synced ∨ g = .queued :=
    hpushed.markOld (fun _ _ => rfl) (fun g hstored hpushed => by cases g <;> simp_all) (.inl rfl)
  exact
    { storage := hstorage
      clean := hclean
      icache := hview.frame .instrCache (by simp)
      msr := hview.frame .msr (by simp)
      reg := fun r => hview.frame (.reg r) (by simp)
      stages := hsynced }

/-- What the whole sequence leaves of the block of `x`: nothing stands in the place of main storage. -/
structure BlockFetchable (x : Word) (s t : State) : Prop where
  storage : ∀ a, sameBlock a x = true → t.storage a = s.dataByte a
  clean : ∀ side, t.dhit x = some side → (t.dline (dclass x) side).d = false
  missed : t.ihit x = none
  stages : t.BlockStages x fun _ => False

theorem icbi_isync_blockFetchable {s s2 s3 s4 : State} {ra rb : Reg} (hs : s.RealStorage) (hu : s.InstrLinesUnique)
    (h : BlockPushed (s.eaX ra rb) s s2) (h3 : exec (.icbi ra rb false) s2 = .next s3)
    (h4 : exec (.isync false) s3 = .next s4) : BlockFetchable (s.eaX ra rb) s s4 := by
  have hmsr : ∀ b, s2.msrBit b = s.msrBit b := fun b => by rw [State.msrBit, h.msr, State.msrBit]
  have hu2 : s2.InstrLinesUnique := fun c => by simpa only [State.iline_congr h.icache] using hu c
  obtain ⟨u, hw, rfl⟩ := execIcbi_real ((hmsr _).trans hs.untranslated) ((hmsr _).trans hs.unbounded) h3
  obtain rfl := Host.Outcome.next.inj h4
  obtain ⟨hmiss, hmem, hdcache, hstages⟩ := iinvalidateBlock_ok hu2 hw
  rw [State.eaX_congr h.reg] at hmiss ⊢
  have hqueued : (u.markOld (inBlockOf (s.eaX ra rb)) .synced .queued).BlockStages (s.eaX ra rb) (· = .queued) :=
    (hstages _ _ (.inr rfl) h.stages).markOld (fun _ h => h) (fun g h1 h2 => h1.resolve_left h2) rfl
  refine ⟨fun a ha => (State.storage_congr hmem a).trans (h.storage a ha), fun side hd => ?_, hmiss, fun o ho hin => ?_⟩
  · exact (congrArg DLine.d (State.dline_congr hdcache _ _)).trans
      (h.clean side ((State.dhit_congr hdcache _).symm.trans hd))
  · obtain ⟨hold, -, hstage⟩ := (State.contextSync_queue _ o).1 ho
    exact hstage (hqueued o hold hin)

/-- A fetch of the block sees the bytes that the processor saw, and no others. -/
theorem BlockFetchable.fetches {x a : Word} {s t : State} (h : BlockFetchable x s t) (ha : sameBlock a x = true)
    (p : Place) : t.instrByte p a = s.dataByte a ∧ ∀ b ∈ t.fetchable a, b = s.dataByte a := by
  obtain ⟨hc, ht⟩ := sameBlock_iff.1 ha
  obtain ⟨hic, hit⟩ := iclass_eq_of_sameBlock ha
  have hmiss : t.ihit a = none := by
    rw [← h.missed]
    simp [State.ihit, hic, hit]
  refine ⟨?_, fun b hb => ?_⟩
  · rw [← h.storage a ha]
    simp [State.instrByte, hmiss]
  · rw [State.mem_fetchable, hmiss, State.dhit_of_block hc ht, hc] at hb
    obtain hb | ⟨side, hhit, -⟩ | ⟨side, hhit, hdirty, -⟩ | ⟨o, ho, haddr, -⟩ := hb
    · exact hb.trans (h.storage a ha)
    · cases hhit
    · rw [h.clean side hhit] at hdirty
      cases hdirty
    · exact (h.stages o ho (inBlockOf_iff.2 (by rw [haddr, blockBase_eq_of_sameBlock ha]))).elim

/-! ### Without the sequence -/

/-- The byte the processor sees is one that a fetch may see: the line has it when it is modified, else main storage. -/
theorem State.dataByte_mem_fetchable {s : State} (hs : s.CleanLinesAgree) (a : Word) : s.dataByte a ∈ s.fetchable a := by
  rw [State.mem_fetchable]
  cases hhit : s.dhit a with
  | none => exact .inl (State.dataByte_of_dhit_none hhit)
  | some side =>
    have hbyte : s.dataByte a = (s.dline (dclass a) side).data.get (blockByte a).toFin := by
      simp [State.dataByte, hhit]
    cases hd : (s.dline (dclass a) side).d
    · exact .inl (hbyte.trans (State.clean_at hs (State.holds_of_dhit hhit) hd))
    · exact .inr (.inr (.inl ⟨side, rfl, hd, hbyte⟩))

/-- A store and an isync off Level 0 leave every byte that a fetch may see and the prefetch queue is not alone to have. -/
theorem stw_isync_kept {s s1 s2 : State} {p : Place} {rs ra : Reg} {d : BitVec 16}
    (hc : s.CanAccess (s.eaD ra d) 4 true p) (h1 : exec (.stw rs d ra) s = .next s1) (hl : s1.levelZero = false)
    (h2 : exec (.isync false) s1 = .next s2) : FetchKept s.unqueued s2 := by
  obtain ⟨t, ht, -⟩ := memWrite_completes (v := s.reg rs) (by decide) hc
  have hstore : exec (.stw rs d ra) s = .next (t.advance31 false) :=
    show storeWith 4 (s.reg rs) (s.eaD ra d) false s = _ by simp [storeWith, ht, Result.finish]
  obtain rfl := Host.Outcome.next.inj (hstore.symm.trans h1)
  obtain rfl := Host.Outcome.next.inj h2
  have hkept := memWrite_unqueued_kept hc.coherent.canonical ht
  rw [State.contextSync_eq_unqueued hl]
  exact hkept.trans (.of_same hkept.canonical rfl rfl rfl rfl)

/-- At Level 0 an isync leaves the byte of main storage alone. -/
theorem isync_levelZero {s t : State} {b31 : Bool} (hl : s.levelZero = true) (h : exec (.isync b31) s = .next t)
    {a : Word} {b : Byte} (hb : b ∈ t.fetchable a) : b = s.storage a := by
  obtain ⟨t', ht', -, hsame, hqueue⟩ := execIsync_completes s b31
  obtain rfl := Host.Outcome.next.inj (ht'.symm.trans h)
  have hempty := State.cachesEmpty_of_levelZero hl
  have hd : t'.dhit a = none :=
    (State.dhit_congr (hsame .dataCache (by cases b31 <;> decide)) a).trans (State.dhit_of_cachesEmpty hempty a)
  have hi : t'.ihit a = none :=
    (State.ihit_congr (hsame .instrCache (by cases b31 <;> decide)) a).trans (State.ihit_of_cachesEmpty hempty a)
  rw [State.mem_fetchable, hd, hi] at hb
  obtain hb | ⟨_, hhit, -⟩ | ⟨_, hhit, -⟩ | ⟨o, ho, -⟩ := hb
  · exact hb.trans (hsame .storage (by cases b31 <;> decide) a)
  · cases hhit
  · cases hhit
  · have hoff := ((hqueue o).1 ho).2.1
    rw [hl] at hoff
    cases hoff

/-- Nothing is cacheable when DCCR and ICCR are 0 and every valid entry inhibits caching. -/
theorem State.nothingCacheable_iff (s : State) : s.nothingCacheable = true ↔
    s.sprVal .dccr = 0 ∧ s.sprVal .iccr = 0 ∧ ∀ k, (s.tlbEntry k).v = true → (s.tlbEntry k).i = true := by
  unfold State.nothingCacheable
  rw [Bool.and_eq_true, Bool.and_eq_true, beq_iff_eq, beq_iff_eq, vector_all_iff (w := 6), and_assoc]
  refine and_congr Iff.rfl (and_congr Iff.rfl (forall_congr' fun k => ?_))
  show (!(s.tlbEntry k).v || (s.tlbEntry k).i) = true ↔ _
  cases (s.tlbEntry k).v <;> simp

/-- Only isync, sc, rfi, rfci and an entry take a byte from what a fetch may see. -/
theorem exec_fetchKept {i : Instr} {s t : State} (hs : s.MemoryCanonical) (h : exec i s = .next t)
    (hsync : ∀ b31, i ≠ .isync b31) (hret : i ∉ [Instr.sc, .rfi, .rfci])
    (hvector : ∀ offset ∈ vectorOffsets, t.pc ≠ vectorAddress s.spr.evpr offset) : FetchKept s t := by
  have hno : syncsContext i = false := by
    by_contra hc
    unfold syncsContext at hc
    split at hc
    · exact hsync _ rfl
    · exact hret (by decide)
    · exact hret (by decide)
    · exact hc rfl
  obtain hk | ⟨offset, ho, hpc⟩ := (keeps_of_exec h).fetch hno hs
  · exact hk
  · exact (hvector offset ho hpc).elim

/-- An old byte that waits for dcbst waits after every other instruction. -/
theorem exec_waits {i : Instr} {s t : State} (h : exec i s = .next t) (hi : ∀ ra rb b31, i ≠ .dcbst ra rb b31)
    {a : Word} {b : Byte} (hw : s.Waits a b) : t.Waits a b := by
  have hno : pushesOld i = false := by
    by_contra hc
    unfold pushesOld at hc
    split at hc
    · exact hi _ _ _ rfl
    · exact hc rfl
  exact (keeps_of_exec h).waits hno a b hw

/-- Settles O50: the sequence follows the old bytes of the block through their stages; the other clauses are what a
store, an isync, an instruction and a step keep. -/
theorem selfModifyingSequenceMakesStoresFetchable : Obligations.SelfModifyingSequenceMakesStoresFetchable := by
  unfold Obligations.SelfModifyingSequenceMakesStoresFetchable
  refine ⟨?sequence, ?store, ?levelZero, ?prefetched, ?waiting, fun s t h hs => (step_keeps hs).level h⟩
  case sequence =>
    intro s s1 s2 s3 s4 ra rb p a hs hu h1 h2 h3 h4 ha
    exact (icbi_isync_blockFetchable hs hu (dcbst_sync_blockPushed hs h1 h2) h3 h4).fetches ha p
  case store =>
    intro s s1 s2 p rs ra d a hc h1 hl h2
    have hkept := (stw_isync_kept hc h1 hl h2).kept a
    exact ⟨hkept _ (State.mem_fetchable.2 (.inl rfl)),
      hkept _ (State.dataByte_mem_fetchable (s := s.unqueued) hc.coherent.clean a)⟩
  case levelZero =>
    intro s t b31 hd hi hdccr hiccr htlb hseen h a b hb
    exact isync_levelZero (s.levelZero_iff.2
      ⟨hseen, s.nothingCacheable_iff.2 ⟨hdccr, hiccr, htlb⟩, s.cachesEmpty_iff.2 ⟨hd, hi⟩⟩) h hb
  case prefetched =>
    intro i s t a b hs h hsync hret hvector hb
    exact (exec_fetchKept hs h hsync hret hvector).kept a b hb
  case waiting =>
    intro i s t hseen h
    exact ⟨(keeps_of_exec h).caching hseen, fun hi a b hb => (exec_waits h hi ⟨hseen, hb⟩).2⟩

end Sys2Proof.Machine
end

section
/-! The opcode table and the encoder agree. Two facts are checked case by case: encoding what a row builds from a word
gives the row's code with the operand bits of the word (`Row.Rebuilds`), and the row of an instruction reads its operands
back from its word (`build_encode`). That the words of instructions fit their rows, and both round trips, follow by algebra
on the masks of a row (30_encoding.md R151, R163 to R167). -/

namespace Sys2Proof

/-! ### Operand fields as masked words -/

/-- A field read from a word and put back at its place is the word under the mask of the field. -/
theorem place_field (w : Word) (s n : Nat) : place (field w s n) s = w &&& place (BitVec.allOnes n) s := by
  apply BitVec.eq_of_getLsbD_eq
  intro i _
  simp only [BitVec.getLsbD_and, getLsbD_place, getLsbD_field, BitVec.getLsbD_allOnes]
  by_cases hs : s ≤ i
  · rw [Nat.add_sub_cancel' hs]
    ac_rfl
  · simp [hs]

theorem placeBit_flag (w : Word) (s : Nat) : placeBit (flag w s) s = w &&& place (BitVec.allOnes 1) s := by
  have hbit : BitVec.ofBool (flag w s) = field w s 1 := by
    apply BitVec.eq_of_getLsbD_eq
    intro i hi
    obtain rfl : i = 0 := by omega
    simp [field, flag]
  rw [placeBit, hbit, place_field]

/-- Parts of one word under two masks, put beside a code, are the part under both. -/
theorem or_and_or_and (c w a b : Word) : c ||| (w &&& a) ||| (w &&& b) = c ||| (w &&& (a ||| b)) := by
  rw [BitVec.or_assoc, ← BitVec.and_or_distrib_left]

/-- A code with no operand bits beside it. -/
theorem or_and_zero (c w : Word) : c ||| (w &&& 0#32) = c := by simp

/-- A field of a code that is 0, stated for a numeral so that it rewrites codes and no placed operand. -/
theorem field_ofNat_eq_zero {s n k : Nat} (h : BitVec.extractLsb' s n (BitVec.ofNat 32 k) = 0#n) :
    field (BitVec.ofNat 32 k) s n = 0#n := h

/-- A bit of a code that is 0, stated for a numeral. -/
theorem flag_ofNat_eq_false {s k : Nat} (h : (BitVec.ofNat 32 k).getLsbD s = false) :
    flag (BitVec.ofNat 32 k) s = false := h

/-! ### The parts of a row -/

/-- The operand bits of a row: those that are neither defined nor reserved. -/
def Row.operands (r : Row) : Word := ~~~(r.mask ||| r.reserved)

theorem Row.operands_and_mask (r : Row) : r.operands &&& r.mask = 0#32 := by
  apply BitVec.eq_of_getLsbD_eq
  intro i hi
  cases hm : r.mask.getLsbD i <;> simp [operands, hm]

theorem Row.operands_and_reserved (r : Row) : r.operands &&& r.reserved = 0#32 := by
  apply BitVec.eq_of_getLsbD_eq
  intro i hi
  cases hz : r.reserved.getLsbD i <;> simp [operands, hz]

/-- Every bit of a word is a defined, a reserved or an operand bit of the row. -/
theorem Row.or_and_operands (r : Row) (w : Word) :
    (w &&& r.mask) ||| (w &&& r.reserved) ||| (w &&& r.operands) = w := by
  rw [← BitVec.and_or_distrib_left, ← BitVec.and_or_distrib_left, operands, BitVec.or_not_self, BitVec.and_allOnes]

/-- The code of a row lies under its mask and outside its reserved bits. -/
theorem opcodeRows_code : ∀ r ∈ opcodeRows, r.code &&& r.mask = r.code ∧ r.code &&& r.reserved = 0#32 := by
  decide +kernel

/-- A row's code with any operand bits matches the row and has no reserved bit. -/
theorem code_or_operands_fits {r : Row} (hr : r ∈ opcodeRows) (w : Word) :
    r.matches (r.code ||| (w &&& r.operands)) = true ∧ (r.code ||| (w &&& r.operands)) &&& r.reserved = 0#32 := by
  obtain ⟨hmask, hreserved⟩ := opcodeRows_code r hr
  constructor
  · rw [Row.matches, word_or_and, BitVec.and_assoc, r.operands_and_mask, hmask]
    simp
  · rw [word_or_and, BitVec.and_assoc, r.operands_and_reserved, hreserved]
    simp

/-- A word that decodes to an instruction matches a row, has no reserved bit of it, and is built by it. -/
theorem decodeWord_eq_ok {w : Word} {i : Instr} (h : decodeWord w = .ok i) :
    ∃ r ∈ opcodeRows, w &&& r.mask = r.code ∧ w &&& r.reserved = 0#32 ∧ r.build w = i := by
  unfold decodeWord at h
  split at h
  next => exact Decoded.noConfusion h
  next r hfind =>
    unfold Row.read at h
    split at h
    next hz =>
      have hw : r.matches w = true := by simpa using List.find?_some hfind
      exact ⟨r, List.mem_of_find?_eq_some hfind, eq_of_beq hw, hz, Decoded.ok.inj h⟩
    next => exact Decoded.noConfusion h

/-! ### Encoding what a row builds -/

/-- Encoding what the row builds from a word gives the row's code and the operand bits of the word. -/
def Row.Rebuilds (r : Row) : Prop := ∀ w, encode (r.build w) = r.code ||| (w &&& r.operands)

/-- Every row of the opcode table: each operand field of the word is put back where it was read, and the fields together
are the operand bits. Five rows have no operand bits (sc, rfi, rfci, tlbia and tlbsync). -/
theorem opcodeRows_rebuild : ∀ r ∈ opcodeRows, r.Rebuilds := by
  simp only [opcodeRows, arithmeticRows, logicalRows, rotateRows, compareRows, branchRows, loadRows, storeRows,
    multipleRows, cacheControlRows, systemRows, List.forall_mem_append, List.forall_mem_cons, List.not_mem_nil,
    false_imp_iff, implies_true, and_true]
  and_intros <;> intro w
  all_goals simp only [encode, place_field, placeBit_flag, or_and_or_and, swapHalves_swapHalves]
  all_goals try rfl
  all_goals exact (or_and_zero _ _).symm

/-! ### Building from the encoding -/

/-- The row of an instruction reads each operand back from its place in the word. The constructors of `Instr` stand in the
order of the opcode table. -/
theorem build_encode (i : Instr) : ∃ r, opcodeRows[i.ctorIdx]? = some r ∧ r.build (encode i) = i := by
  cases i
  all_goals
    refine ⟨_, rfl, ?_⟩
    simp (disch := decide) only [encode, field_or, flag_or, field_place_self, field_place_other, field_placeBit_other,
      field_ofNat_eq_zero, flag_placeBit_self, flag_placeBit_other, flag_place_other, flag_ofNat_eq_false,
      swapHalves_swapHalves, BitVec.zero_or, BitVec.or_zero, Bool.false_or, Bool.or_false]

/-- What a row builds from a word is what its encoding decodes to. -/
theorem decodeWord_encode_build {r : Row} (hr : r ∈ opcodeRows) (w : Word) :
    decodeWord (encode (r.build w)) = .ok (r.build (encode (r.build w))) := by
  obtain ⟨hmatch, hreserved⟩ := code_or_operands_fits hr w
  rw [← opcodeRows_rebuild r hr w] at hmatch hreserved
  rw [decodeWord_of_row hr hmatch, Row.read, if_pos hreserved]

/-! ### The statements -/

/-- Settles O1: the row of the instruction builds it from its word, so its word decodes to what the row builds. -/
theorem decodingAnEncodedInstructionGivesItBack : Obligations.DecodingAnEncodedInstructionGivesItBack := by
  unfold Obligations.DecodingAnEncodedInstructionGivesItBack
  intro i
  obtain ⟨r, hr, hbuild⟩ := build_encode i
  have hdecode := decodeWord_encode_build (List.mem_of_getElem? hr) (encode i)
  rwa [hbuild, hbuild] at hdecode

/-- Settles O2: the word is its row's code and its operand bits, for its reserved bits are 0. -/
theorem encodingADecodedWordGivesItBack : Obligations.EncodingADecodedWordGivesItBack := by
  unfold Obligations.EncodingADecodedWordGivesItBack
  intro w i h
  obtain ⟨r, hr, hcode, hreserved, rfl⟩ := decodeWord_eq_ok h
  calc encode (r.build w)
    _ = r.code ||| (w &&& r.operands) := opcodeRows_rebuild r hr w
    _ = (w &&& r.mask) ||| (w &&& r.reserved) ||| (w &&& r.operands) := by rw [hcode, hreserved, BitVec.or_zero]
    _ = w := r.or_and_operands w

/-- Settles O3: two rows at different places differ at a bit that both define. -/
theorem aWordMatchesAtMostOneRow : Obligations.AWordMatchesAtMostOneRow := by
  unfold Obligations.AWordMatchesAtMostOneRow
  have hbefore : ∀ (w : Word) (j k : Nat) (r q : Row), opcodeRows[j]? = some r → opcodeRows[k]? = some q →
      r.matches w = true → q.matches w = true → ¬ j < k := by
    intro w j k r q hj hk hr hq hjk
    obtain ⟨hjl, rfl⟩ := List.getElem?_eq_some_iff.1 hj
    obtain ⟨hkl, rfl⟩ := List.getElem?_eq_some_iff.1 hk
    have hapart := List.pairwise_iff_getElem.1 opcodeRows_apart j k hjl hkl hjk
    exact absurd hq (by simp [Row.not_both_match hapart w hr])
  intro w j k r q hj hk hr hq
  exact Nat.le_antisymm (Nat.not_lt.1 (hbefore w k j q r hk hj hq hr)) (Nat.not_lt.1 (hbefore w j k r q hj hk hr hq))

end Sys2Proof
end

section
/-! The arithmetic instructions. All but the divisions without a quotient end in `writeArith`, and what that leaves in
the registers, in XER and in CR field 0 is proved once (`writeArith_writes`). The sums and differences then come to
arithmetic on their two addends and the carry in, the products and quotients to arithmetic on the words
(40_arithmetic.md R200 to R232, 10_state.md R50, R53, R54). -/

namespace Sys2Proof.Machine

/-! ### Registers and XER at the end of an instruction -/

@[simp] theorem State.advance_reg (s : State) (r : Reg) : s.advance.reg r = s.reg r := rfl
@[simp] theorem State.advance_xer (s : State) : s.advance.xer = s.xer := rfl
@[simp] theorem State.setCa_reg (s : State) (c : Bool) (r : Reg) : (s.setCa c).reg r = s.reg r := rfl
@[simp] theorem State.recordOv_reg (s : State) (oe ov : Bool) (r : Reg) : (s.recordOv oe ov).reg r = s.reg r := by
  cases oe <;> rfl
@[simp] theorem State.record_reg (s : State) (rc : Bool) (v : Word) (r : Reg) : (s.record rc v).reg r = s.reg r := by
  cases rc <;> rfl
@[simp] theorem State.record_xer (s : State) (rc : Bool) (v : Word) : (s.record rc v).xer = s.xer := by cases rc <;> rfl
@[simp] theorem State.drawCr0_xer (s : State) (b : Bool) : (s.drawCr0 b).xer = s.xer := by cases b <;> rfl

/-- The bits of XER after OV and the sticky SO are written. -/
theorem State.bit_recordOv (s : State) (ov : Bool) {k : Nat} (hk : k < 32) : bit (s.recordOv true ov).xer k =
    if k = xerSO then s.so || ov else if k = xerOV then ov else bit s.xer k := by
  rw [State.recordOv, if_pos rfl, State.setXer_xer, bit_setBit _ _ _ _ (by decide) hk,
    bit_setBit _ _ _ _ (by decide) hk]

theorem XerAfter.of_xer_eq {s t : State} (h : t.xer = s.xer) : XerAfter s t none false false := by
  rw [XerAfter, h]
  exact ⟨rfl, rfl, rfl, fun _ _ _ => rfl⟩

/-- XerAfter speaks of the XER of its states alone. -/
theorem XerAfter.congr {s s' t t' : State} {ca : Option Bool} {oe ov : Bool} (h : XerAfter s t ca oe ov)
    (hs : s'.xer = s.xer) (ht : t'.xer = t.xer) : XerAfter s' t' ca oe ov := by
  rwa [XerAfter, hs, ht]

theorem State.setCa_xerAfter (s : State) (c : Bool) : XerAfter s (s.setCa c) (some c) false false := by
  have hbit : ∀ k < 32, bit (s.setCa c).xer k = if k = xerCA then c else bit s.xer k := fun k hk =>
    bit_setBit _ _ _ _ (by decide) hk
  refine ⟨hbit _ (by decide), hbit _ (by decide), hbit _ (by decide), fun k h3 hk => ?_⟩
  rw [hbit k hk, if_neg (by unfold xerCA; omega)]

/-- The overflow bits are written after the carry. -/
theorem XerAfter.recordOv {s t : State} {ca : Option Bool} (h : XerAfter s t ca false false) (oe ov : Bool) :
    XerAfter s (t.recordOv oe ov) ca oe ov := by
  obtain ⟨hca, hov, hso, hrest⟩ := h
  cases oe with
  | false => exact ⟨hca, hov, hso, hrest⟩
  | true =>
    refine ⟨(t.bit_recordOv ov (by decide)).trans hca, t.bit_recordOv ov (by decide), ?_, fun k h3 hk => ?_⟩
    · have hsum : bit (t.recordOv true ov).xer xerSO = (bit t.xer xerSO || ov) := t.bit_recordOv ov (by decide)
      rw [hsum, hso]
      rfl
    · rw [t.bit_recordOv ov hk, if_neg (by unfold xerSO; omega), if_neg (by unfold xerOV; omega)]
      exact hrest k h3 hk

/-- An XER of which nothing is written is the same word. -/
theorem XerAfter.xer_eq {s t : State} {ov : Bool} (h : XerAfter s t none false ov) : t.xer = s.xer := by
  obtain ⟨hca, hov, hso, hrest⟩ := h
  apply eq_of_bit_eq
  intro k hk
  match k with
  | 0 => exact hso
  | 1 => exact hov
  | 2 => exact hca
  | k + 3 => exact hrest _ (by omega) hk

/-! ### What an arithmetic instruction writes -/

section

variable {i : Instr} {s : State} {rt : Reg} {v : Word} {ca : Option Bool} {oe ov rc : Bool}

/-- With OE = 0 it does not matter what the overflow would be. -/
theorem WritesArith.withoutOe (h : WritesArith i s rt v ca false ov rc) (ov' : Bool) :
    WritesArith i s rt v ca false ov' rc := h

/-- An arithmetic instruction that writes nothing of XER writes its register alone. -/
theorem WritesArith.writesReg (h : WritesArith i s rt v none false ov rc) : WritesReg i s rt v rc := by
  obtain ⟨t, hexec, hpc, hrest, hreg, hxer, hrecord⟩ := h
  refine ⟨t, hexec, hpc, fun p hp => ?_, hreg, hrecord⟩
  by_cases hx : p = .spr .xer
  · subst hx
    exact hxer.xer_eq
  · exact hrest p (by simp_all)

/-- The end of an arithmetic instruction, from the state `u` that has the result and the carry. -/
theorem WritesArith.of_carried {u : State} (hexec : exec i s = .next ((u.recordOv oe ov).record rc v).advance)
    (hpc : u.pc = s.pc) (hreg : u.reg rt = v) (hrest : Unchanged (.reg rt :: .spr .xer :: cr0If rc) s u)
    (hxer : XerAfter s u ca false false) : WritesArith i s rt v ca oe ov rc := by
  refine ⟨_, hexec, by simp [hpc], ?_, by simpa using hreg, (hxer.recordOv oe ov).congr rfl (by simp), ?_⟩
  · exact (((hrest.trans (unchanged_recordOv u oe ov)).trans (unchanged_record _ rc v)).trans
      (unchanged_advance _ [])).mono (by simp)
  · rintro rfl
    exact State.recordsResult_advance (State.record_recordsResult _ v)

/-- The one reasoning rule of `writeArith`: effects 3 to 6 of 40_arithmetic.md R201. -/
theorem writeArith_writes (hexec : exec i s = writeArith rt v ca oe ov rc s) : WritesArith i s rt v ca oe ov rc := by
  have hset := unchanged_setReg s rt v
  have hreg := s.reg_setReg_self rt v
  cases ca with
  | none => exact .of_carried hexec rfl hreg (hset.mono (by simp)) (.of_xer_eq rfl)
  | some c =>
    exact .of_carried hexec rfl hreg ((hset.trans (unchanged_setCa _ c)).mono (by simp))
      (((s.setReg rt v).setCa_xerAfter c).congr rfl rfl)

end

/-! ### Sums -/

theorem carry32_eq (a b : Word) (c : Bool) : carry32 a b c = decide (2 ^ 32 ≤ a.toNat + b.toNat + c.toNat) :=
  decide_eq_decide.2 (by omega)

theorem overflow32_eq (a b : Word) (c : Bool) : overflow32 a b c = outOfRange (a.toInt + b.toInt + c.toNat) :=
  congrArg (_ || ·) (decide_eq_decide.2 (by omega))

section

variable {i : Instr} {s : State} {rt : Reg} {a b v : Word} {c ca oe rc : Bool} {x : Int}

theorem sumKeepCarry_writes (hexec : exec i s = sumKeepCarry rt a b c oe rc s) (hv : a + b + wordOfBool c = v)
    (hx : a.toInt + b.toInt + c.toNat = x) : WritesArith i s rt v none oe (outOfRange x) rc := by
  subst hv hx
  rw [← overflow32_eq]
  exact writeArith_writes hexec

theorem sumWithCarry_writes (hexec : exec i s = sumWithCarry rt a b c oe rc s) (hv : a + b + wordOfBool c = v)
    (hca : decide (2 ^ 32 ≤ a.toNat + b.toNat + c.toNat) = ca) (hx : a.toInt + b.toInt + c.toNat = x) :
    WritesArith i s rt v (some ca) oe (outOfRange x) rc := by
  subst hv hca hx
  rw [← overflow32_eq, ← carry32_eq]
  exact writeArith_writes hexec

/-! ### Differences: sums with a complement (40_arithmetic.md R219 to R225) -/

/-- A complement and a carry subtract, and without the carry one more. -/
theorem not_add_add_wordOfBool (a b : Word) (c : Bool) :
    ~~~a + b + wordOfBool c = b - a - (if c then 0#32 else 1#32) := by
  rw [BitVec.not_eq_neg_add]
  cases c <;> simp only [wordOfBool, if_true, Bool.false_eq_true, if_false] <;> bv_omega

theorem toInt_not_word (a : Word) : (~~~a).toInt = -a.toInt - 1 := by
  have ha := a.isLt
  rw [BitVec.toInt_eq_toNat_cond, BitVec.toInt_eq_toNat_cond, BitVec.toNat_not]
  split <;> split <;> omega

theorem subtractKeepCarry_writes (hexec : exec i s = sumKeepCarry rt (~~~a) b true oe rc s) :
    WritesArith i s rt (b - a) none oe (outOfRange (b.toInt - a.toInt)) rc := by
  refine sumKeepCarry_writes hexec ?_ ?_
  · rw [not_add_add_wordOfBool, if_pos rfl, BitVec.sub_zero]
  · rw [toInt_not_word, Bool.toNat_true]
    omega

/-- The carry out of a difference is the absence of a borrow. -/
theorem subtractWithCarry_writes (hexec : exec i s = sumWithCarry rt (~~~a) b c oe rc s)
    (hv : b - a - (if c then 0#32 else 1#32) = v) (hca : decide (a.toNat < b.toNat + c.toNat) = ca)
    (hx : b.toInt - a.toInt - 1 + c.toNat = x) : WritesArith i s rt v (some ca) oe (outOfRange x) rc := by
  refine sumWithCarry_writes hexec ((not_add_add_wordOfBool a b c).trans hv) ?_ ?_
  · have ha := a.isLt
    rw [← hca, BitVec.toNat_not]
    exact decide_eq_decide.2 (by omega)
  · rw [toInt_not_word]
    omega

/-- A difference without a carry in: the carry of the complement is 1. -/
theorem subtract_writes (hexec : exec i s = sumWithCarry rt (~~~a) b true oe rc s) :
    WritesArith i s rt (b - a) (some (decide (a.toNat ≤ b.toNat))) oe (outOfRange (b.toInt - a.toInt)) rc := by
  refine subtractWithCarry_writes hexec ?_ (decide_eq_decide.2 Nat.lt_succ_iff) ?_
  · rw [if_pos rfl, BitVec.sub_zero]
  · rw [Bool.toNat_true]
    omega

end

/-- Only the least word has no negative. -/
theorem outOfRange_neg (a : Word) : outOfRange ((0#32).toInt - a.toInt) = decide (a = 0x80000000#32) := by
  have hlow := a.le_toInt
  have hhigh := a.toInt_lt
  have hleast : a = 0x80000000#32 ↔ a.toInt = -2 ^ 31 := by rw [← BitVec.toInt_inj]; rfl
  rw [outOfRange, ← Bool.decide_or, BitVec.toInt_zero]
  exact decide_eq_decide.2 (by rw [hleast]; omega)

/-- Settles O21: each instruction is a sum of two addends and a carry in; minus one and zero are addends too. -/
theorem addInstructionsSumAndSetFlags : Obligations.AddInstructionsSumAndSetFlags := by
  unfold Obligations.AddInstructionsSumAndSetFlags
  have hzero : ∀ a b : Word, a + b + wordOfBool false = a + b := fun a b => BitVec.add_zero (a + b)
  refine ⟨?add, ?addc, ?adde, ?addi, ?addis, ?addic, ?addicRc, ?addme, ?addze⟩
  case add => exact fun s rt ra rb oe rc => sumKeepCarry_writes rfl (hzero _ _) (Int.add_zero _)
  case addc => exact fun s rt ra rb oe rc => sumWithCarry_writes rfl (hzero _ _) rfl (Int.add_zero _)
  case adde => exact fun s rt ra rb oe rc => sumWithCarry_writes rfl rfl rfl rfl
  case addi => exact fun s rt ra im => (sumKeepCarry_writes rfl (hzero _ _) rfl).writesReg
  case addis => exact fun s rt ra im => (sumKeepCarry_writes rfl (hzero _ _) rfl).writesReg
  case addic => exact fun s rt ra im => (sumWithCarry_writes rfl (hzero _ _) rfl rfl).withoutOe false
  case addicRc => exact fun s rt ra im => (sumWithCarry_writes rfl (hzero _ _) rfl rfl).withoutOe false
  case addme =>
    intro s rt ra oe rc
    refine sumWithCarry_writes rfl ?_ (decide_eq_decide.2 ?_) ?_
    · cases s.ca <;> simp [wordOfBool, BitVec.add_assoc]
    · simp only [BitVec.reduceToNat]
      omega
    · simp only [BitVec.reduceToInt]
      omega
  case addze =>
    intro s rt ra oe rc
    refine sumWithCarry_writes rfl ?_ rfl ?_
    · rw [BitVec.add_zero]
      rfl
    · rw [BitVec.toInt_zero, Int.add_zero]

/-- Settles O22: each instruction is a sum with the complement of RA, which subtracts. -/
theorem subtractInstructionsSubtractAndSetFlags : Obligations.SubtractInstructionsSubtractAndSetFlags := by
  unfold Obligations.SubtractInstructionsSubtractAndSetFlags
  refine ⟨?subf, ?subfc, ?subfe, ?subfic, ?subfme, ?subfze, ?neg⟩
  case subf => exact fun s rt ra rb oe rc => subtractKeepCarry_writes rfl
  case subfc => exact fun s rt ra rb oe rc => subtract_writes rfl
  case subfe => exact fun s rt ra rb oe rc => subtractWithCarry_writes rfl rfl rfl rfl
  case subfic => exact fun s rt ra im => (subtract_writes rfl).withoutOe false
  case subfme =>
    intro s rt ra oe rc
    refine subtractWithCarry_writes rfl ?_ (decide_eq_decide.2 ?_) ?_
    · cases s.ca <;> simp only [if_true, Bool.false_eq_true, if_false] <;> bv_omega
    · simp only [BitVec.reduceToNat]
      omega
    · simp only [BitVec.reduceToInt]
      omega
  case subfze =>
    intro s rt ra oe rc
    refine subtractWithCarry_writes rfl ?_ ?_ ?_
    · cases s.ca <;> simp only [if_true, Bool.false_eq_true, if_false] <;> bv_omega
    · cases s.ca <;> simp [← BitVec.toNat_inj]
    · rw [BitVec.toInt_zero]
      omega
  case neg =>
    intro s rt ra oe rc
    rw [← outOfRange_neg]
    exact subtractKeepCarry_writes rfl

/-! ### Products (40_arithmetic.md R226 to R229) -/

theorem extractLsb'_high_ofInt (x : Int) : (BitVec.ofInt 64 x).extractLsb' 32 32 = BitVec.ofInt 32 (x / 2 ^ 32) := by
  apply BitVec.eq_of_toNat_eq
  rw [BitVec.extractLsb'_toNat, BitVec.toNat_ofInt, BitVec.toNat_ofInt, Nat.shiftRight_eq_div_pow]
  omega

theorem extractLsb'_low_ofInt (x : Int) : (BitVec.ofInt 64 x).extractLsb' 0 32 = BitVec.ofInt 32 x := by
  apply BitVec.eq_of_toNat_eq
  rw [BitVec.extractLsb'_toNat, BitVec.toNat_ofInt, BitVec.toNat_ofInt, Nat.shiftRight_zero]
  omega

theorem extractLsb'_high_ofNat (n : Nat) : (BitVec.ofNat 64 n).extractLsb' 32 32 = BitVec.ofNat 32 (n / 2 ^ 32) := by
  apply BitVec.eq_of_toNat_eq
  rw [BitVec.extractLsb'_toNat, BitVec.toNat_ofNat, BitVec.toNat_ofNat, Nat.shiftRight_eq_div_pow]
  omega

theorem ofInt_toInt_mul_toInt (a b : Word) : BitVec.ofInt 32 (a.toInt * b.toInt) = a * b := by
  rw [BitVec.ofInt_mul, BitVec.ofInt_toInt, BitVec.ofInt_toInt]

/-- A 64-bit value is in the range of 32 bits when its high word repeats the sign of its low word. -/
theorem high_ne_sign_eq_outOfRange {x : Int} (hlow : -2 ^ 63 ≤ x) (hhigh : x < 2 ^ 63) :
    (BitVec.ofInt 32 (x / 2 ^ 32) != (if (BitVec.ofInt 32 x).msb then BitVec.allOnes 32 else 0#32)) = outOfRange x := by
  rw [Bool.eq_iff_iff, bne_iff_ne, outOfRange, ← Bool.decide_or, decide_eq_true_iff, Ne, ← BitVec.toNat_inj,
    BitVec.msb_eq_decide, apply_ite BitVec.toNat, BitVec.toNat_ofInt, BitVec.toNat_ofInt]
  simp only [decide_eq_true_eq, BitVec.toNat_allOnes, BitVec.toNat_zero]
  split <;> omega

theorem outOfRange_mul (a b : Word) : ((productSigned a b).extractLsb' 32 32 !=
    (if ((productSigned a b).extractLsb' 0 32).msb then BitVec.allOnes 32 else 0#32)) =
      outOfRange (a.toInt * b.toInt) := by
  have hlow : -2 ^ 62 ≤ a.toInt * b.toInt := BitVec.le_toInt_mul_toInt
  have hhigh : a.toInt * b.toInt ≤ 2 ^ 62 := BitVec.toInt_mul_toInt_le
  rw [productSigned, extractLsb'_high_ofInt, extractLsb'_low_ofInt]
  exact high_ne_sign_eq_outOfRange (by omega) (by omega)

/-- Settles O23: the product is exact in 64 bits, and its words are the quotient and the remainder by 2^32. -/
theorem multiplyInstructionsGiveTheProduct : Obligations.MultiplyInstructionsGiveTheProduct := by
  unfold Obligations.MultiplyInstructionsGiveTheProduct
  refine ⟨?mulhw, ?mulhwu, ?mulli, ?mullw⟩
  case mulhw =>
    intro s rt ra rb rc
    rw [← extractLsb'_high_ofInt]
    exact (writeArith_writes rfl).writesReg
  case mulhwu =>
    intro s rt ra rb rc
    rw [← extractLsb'_high_ofNat]
    exact (writeArith_writes rfl).writesReg
  case mulli =>
    intro s rt ra im
    rw [← ofInt_toInt_mul_toInt, BitVec.toInt_signExtend_of_le (by decide)]
    exact (writeArith_writes rfl).writesReg
  case mullw =>
    intro s rt ra rb oe rc
    rw [← ofInt_toInt_mul_toInt, ← extractLsb'_low_ofInt, ← outOfRange_mul]
    exact writeArith_writes rfl

/-! ### Quotients (40_arithmetic.md R231, R232) -/

/-- Only the least word divided by minus one has a quotient that a word does not hold. -/
theorem toInt_ofInt_tdiv {a b : Word} (h : ¬ (a = 0x80000000#32 ∧ b = 0xFFFFFFFF#32)) :
    (BitVec.ofInt 32 (a.toInt.tdiv b.toInt)).toInt = a.toInt.tdiv b.toInt := by
  rw [← BitVec.toInt_sdiv_of_ne_or_ne a b (not_and_or.1 h), BitVec.ofInt_toInt]

/-- A truncated remainder is smaller than the divisor. -/
theorem natAbs_tmod_lt (x : Int) {y : Int} (hy : y ≠ 0) : (x.tmod y).natAbs < y.natAbs := by
  rw [Int.natAbs_tmod]
  exact Nat.mod_lt _ (Int.natAbs_pos.2 hy)

theorem tmod_nonpos {x : Int} (y : Int) (hx : x ≤ 0) : x.tmod y ≤ 0 := by
  have h := Int.tmod_nonneg y (Int.neg_nonneg.2 hx)
  rw [Int.neg_tmod] at h
  exact Int.neg_nonneg.1 h

/-- A division without a quotient: RT and, if Rc, CR field 0 take whatever is drawn. -/
theorem undefinedQuotient_completes {i : Instr} {s : State} {rt : Reg} {oe rc : Bool}
    (hexec : exec i s = undefinedQuotient rt oe rc s) :
    Completes i s (.reg rt :: .spr .xer :: cr0If rc) fun t => XerAfter s t none oe true := by
  refine ⟨_, hexec, by simp, ?_, ?_⟩
  · exact (((((unchanged_setReg s rt s.undef).trans (unchanged_drawn _ [])).trans (unchanged_drawCr0 _ rc)).trans
      (unchanged_recordOv _ oe true)).trans (unchanged_advance _ [])).mono (by simp)
  · have hdrawn : XerAfter s ((s.setReg rt s.undef).drawn.drawCr0 rc) none false false :=
      .of_xer_eq (State.drawCr0_xer _ rc)
    exact hdrawn.recordOv oe true

/-- Settles O24: the truncated quotient and remainder where they are defined, a draw elsewhere. -/
theorem divideInstructionsGiveTheQuotientOrAFreeValue : Obligations.DivideInstructionsGiveTheQuotientOrAFreeValue := by
  unfold Obligations.DivideInstructionsGiveTheQuotientOrAFreeValue
  refine ⟨?divw, ?divwu, ?divwFree, ?divwuFree⟩
  case divw =>
    intro s rt ra rb oe rc hrb hover
    have hdivisor : (s.reg rb).toInt ≠ 0 := fun h => hrb (BitVec.toInt_inj.1 (h.trans BitVec.toInt_zero.symm))
    refine ⟨_, (s.reg ra).toInt.tmod (s.reg rb).toInt, writeArith_writes (if_neg (not_or.2 ⟨hrb, hover⟩)), ?_,
      natAbs_tmod_lt _ hdivisor, Int.tmod_nonneg _, tmod_nonpos _⟩
    rw [toInt_ofInt_tdiv hover, Int.tdiv_mul_add_tmod]
  case divwu =>
    intro s rt ra rb oe rc hrb
    have hdivisor : 0 < (s.reg rb).toNat :=
      Nat.pos_of_ne_zero fun h => hrb (BitVec.toNat_inj.1 (h.trans BitVec.toNat_zero.symm))
    refine ⟨_, (s.reg ra).toNat % (s.reg rb).toNat, writeArith_writes (if_neg hrb), ?_, Nat.mod_lt _ hdivisor⟩
    rw [BitVec.toNat_ofNat, Nat.mod_eq_of_lt ((Nat.div_le_self _ _).trans_lt (s.reg ra).isLt), Nat.div_add_mod']
  case divwFree => exact fun s rt ra rb oe rc h => undefinedQuotient_completes (if_pos h)
  case divwuFree => exact fun s rt ra rb oe rc h => undefinedQuotient_completes (if_pos h)

end Sys2Proof.Machine
end

section
/-! The logical instructions. Each of them is `writeLogical` of its result (41_logical.md R240), which is the end of an
arithmetic instruction that writes nothing of XER; what is left to say is that the widened immediates, the sign
extensions and the count of leading zeros are the values the statements name (41_logical.md R241 to R257). -/

namespace Sys2Proof.Machine

/-- The one reasoning rule of `writeLogical`. -/
theorem writeLogical_writes {i : Instr} {s : State} {ra : Reg} {v : Word} {rc : Bool}
    (hexec : exec i s = writeLogical ra v rc s) : WritesReg i s ra v rc :=
  have harith : exec i s = writeArith ra v none false false rc s := hexec
  (writeArith_writes harith).writesReg

/-! ### Immediates (30_encoding.md R165) -/

theorem immUnsigned_eq_append (im : BitVec 16) : immUnsigned im = 0#16 ++ im :=
  BitVec.setWidth_eq_append (by decide)

/-- Settles O25: each instruction writes the operation of RS and the second operand, immediates widened by halves. -/
theorem bitwiseInstructionsCombineTheirOperands : Obligations.BitwiseInstructionsCombineTheirOperands := by
  unfold Obligations.BitwiseInstructionsCombineTheirOperands
  simp only [← immUnsigned_eq_append]
  refine ⟨?and, ?andc, ?andiRc, ?andisRc, ?eqv, ?nand, ?nor, ?or, ?orc, ?ori, ?oris, ?xor, ?xori, ?xoris⟩
  case and | andc | eqv | nand | nor | or | orc | xor => exact fun s ra rs rb rc => writeLogical_writes rfl
  case andiRc | ori | xori => exact fun s ra rs im => writeLogical_writes rfl
  case andisRc | oris | xoris => exact fun s ra rs im => writeLogical_writes rfl

/-! ### Counting (41_logical.md R245) -/

theorem leadingZeros_succ_of_bit {w : Word} {n : Nat} (fuel : Nat) (h : bit w n = true) :
    leadingZeros w (fuel + 1) n = 0 := if_pos h

theorem leadingZeros_succ_of_not_bit {w : Word} {n : Nat} (fuel : Nat) (h : bit w n = false) :
    leadingZeros w (fuel + 1) n = leadingZeros w fuel (n + 1) + 1 := by
  rw [leadingZeros, h, if_neg Bool.false_ne_true, Nat.add_comm]

theorem leadingZeros_le (w : Word) (fuel n : Nat) : leadingZeros w fuel n ≤ fuel := by
  induction fuel generalizing n with
  | zero => exact Nat.le_refl 0
  | succ fuel ih =>
    cases h : bit w n with
    | true => simp [leadingZeros_succ_of_bit fuel h]
    | false => simpa [leadingZeros_succ_of_not_bit fuel h] using ih (n + 1)

/-- The bits counted are 0. -/
theorem bit_of_lt_leadingZeros {w : Word} {fuel n k : Nat} (hn : n ≤ k) (hk : k < n + leadingZeros w fuel n) :
    bit w k = false := by
  induction fuel generalizing n with
  | zero => exact absurd hk (Nat.not_lt.2 hn)
  | succ fuel ih =>
    cases h : bit w n with
    | true =>
      rw [leadingZeros_succ_of_bit fuel h] at hk
      omega
    | false =>
      rw [leadingZeros_succ_of_not_bit fuel h] at hk
      obtain rfl | hlt := hn.eq_or_lt
      · exact h
      · exact ih (n := n + 1) hlt (by omega)

/-- The bit the count stops at, before its fuel is used up, is 1. -/
theorem bit_leadingZeros {w : Word} {fuel n : Nat} (hstop : leadingZeros w fuel n < fuel) :
    bit w (n + leadingZeros w fuel n) = true := by
  induction fuel generalizing n with
  | zero => exact absurd hstop (Nat.not_lt_zero _)
  | succ fuel ih =>
    cases h : bit w n with
    | true => rwa [leadingZeros_succ_of_bit fuel h]
    | false =>
      rw [leadingZeros_succ_of_not_bit fuel h] at hstop ⊢
      rw [← Nat.add_assoc, Nat.add_right_comm]
      exact ih (Nat.lt_of_succ_lt_succ hstop)

/-! ### Extending (41_logical.md R247, R248) -/

theorem signByte_eq_ofInt (w : Word) : signByte w = BitVec.ofInt 32 (w.setWidth 8).toInt := rfl

theorem signHalf_eq_ofInt (w : Word) : signHalf w = BitVec.ofInt 32 (w.setWidth 16).toInt := rfl

/-- Settles O26: sign extension keeps the signed value, and the count stops at the first 1 or at the word's end. -/
theorem extendAndCountInstructionsGiveTheirValue : Obligations.ExtendAndCountInstructionsGiveTheirValue := by
  unfold Obligations.ExtendAndCountInstructionsGiveTheirValue
  simp only [← signByte_eq_ofInt, ← signHalf_eq_ofInt]
  refine ⟨?extsb, ?extsh, ?cntlzw⟩
  case extsb | extsh => exact fun s ra rs rc => writeLogical_writes rfl
  case cntlzw =>
    intro s ra rs rc
    refine ⟨leadingZeros (s.reg rs) 32 0, leadingZeros_le _ _ _, fun k hk => ?_, fun hstop => ?_,
      writeLogical_writes rfl⟩
    · exact bit_of_lt_leadingZeros (Nat.zero_le k) (by rwa [Nat.zero_add])
    · have hone := bit_leadingZeros hstop
      rwa [Nat.zero_add] at hone

end Sys2Proof.Machine
end

section
/-! The rotate and shift instructions. The rotates are read bit by bit (42_rotate_shift.md R270, R271). A shift is a
rotate under the mask of the bits it keeps, and that mask is itself a shift of all ones by the shift amount
(`leftMask_eq`, `rightMask_eq`), so the masked rotates are the shifts of bit vectors, whose values are products and
quotients by powers of two (42_rotate_shift.md R276 to R279). -/

namespace Sys2Proof.Machine

/-- The one reasoning rule of `writeRotate`, which ends as the logical instructions do. -/
theorem writeRotate_writes {i : Instr} {s : State} {ra : Reg} {v : Word} {rc : Bool}
    (hexec : exec i s = writeRotate ra v rc s) : WritesReg i s ra v rc :=
  have hlogical : exec i s = writeLogical ra v rc s := hexec
  writeLogical_writes hlogical

/-! ### Rotates, shifts and masks, bit by bit -/

theorem bit_and (x y : Word) (k : Nat) : bit (x &&& y) k = (bit x k && bit y k) := BitVec.getMsbD_and

theorem bit_or (x y : Word) (k : Nat) : bit (x ||| y) k = (bit x k || bit y k) := BitVec.getMsbD_or

theorem bit_not (x : Word) {k : Nat} (hk : k < 32) : bit (~~~x) k = !bit x k := by simp [bit, hk]

theorem bit_allOnes (k : Nat) : bit (BitVec.allOnes 32) k = decide (k < 32) := by
  rw [bit, BitVec.getMsbD, BitVec.getLsbD_allOnes, Bool.and_eq_left_iff_imp, decide_eq_true_iff, decide_eq_true_iff]
  omega

theorem bit_rotl32 (x : Word) (n : Nat) {k : Nat} (hk : k < 32) : bit (rotl32 x n) k = bit x ((k + n) % 32) := by
  simp [bit, rotl32, BitVec.getMsbD_rotateLeft, hk, Nat.add_comm]

theorem bit_shiftLeft (x : Word) (n k : Nat) : bit (x <<< n) k = bit x (k + n) := BitVec.getMsbD_shiftLeft x n

theorem bit_shiftRight (x : Word) (n : Nat) {k : Nat} (hk : k < 32) :
    bit (x >>> n) k = (decide (n ≤ k) && bit x (k - n)) := by
  rw [bit, BitVec.getMsbD_ushiftRight, decide_eq_true hk, Bool.true_and, ← decide_not, decide_eq_decide.2 not_lt, bit]

theorem bit_sshiftRight (x : Word) (n : Nat) {k : Nat} (hk : k < 32) :
    bit (x.sshiftRight n) k = if n ≤ k then bit x (k - n) else bit x 0 := by
  rw [bit, BitVec.getMsbD_sshiftRight, decide_eq_true hk, Bool.true_and, ← ite_not, if_congr not_lt rfl rfl]
  rfl

/-- The bits of the mask of a left shift. -/
theorem bit_allOnes_shiftLeft (n k : Nat) : bit (BitVec.allOnes 32 <<< n) k = decide (k + n < 32) := by
  rw [bit_shiftLeft, bit_allOnes]

/-- The bits of the mask of a right shift. -/
theorem bit_allOnes_shiftRight (n : Nat) {k : Nat} (hk : k < 32) :
    bit (BitVec.allOnes 32 >>> n) k = decide (n ≤ k) := by
  rw [bit_shiftRight _ _ hk, bit_allOnes, decide_eq_true (by omega : k - n < 32), Bool.and_true]

/-- The mask of MB and ME, wrapping or not (42_rotate_shift.md R271). -/
theorem bit_maskBits (mb me : Nat) {k : Nat} (hk : k < 32) : bit (maskBits mb me) k = inMask mb me k := by
  have hright : decide (k + (31 - me) < 32) = decide (k ≤ me) := decide_eq_decide.2 (by omega)
  unfold maskBits inMask
  split
  · rw [bit_and, bit_allOnes_shiftRight _ hk, bit_allOnes_shiftLeft, hright]
  · rw [bit_or, bit_allOnes_shiftRight _ hk, bit_allOnes_shiftLeft, hright, Bool.or_comm]

/-! ### The rotates -/

theorem shiftCount_eq (b : Word) : shiftCount b = b.toNat % 32 := by simp [shiftCount]

/-- Settles O27: the bits of the rotated word where the bits of the mask are 1. -/
theorem rotateInstructionsRotateAndMask : Obligations.RotateInstructionsRotateAndMask := by
  unfold Obligations.RotateInstructionsRotateAndMask
  refine ⟨?rlwinm, ?rlwnm, ?rlwimi⟩
  case rlwinm =>
    refine fun s ra rs sh mb me rc => ⟨_, writeRotate_writes rfl, fun k hk => ?_⟩
    rw [bit_and, bit_rotl32 _ _ hk, bit_maskBits _ _ hk, Bool.and_comm]
  case rlwnm =>
    refine fun s ra rs rb mb me rc => ⟨_, writeRotate_writes rfl, fun k hk => ?_⟩
    rw [bit_and, bit_rotl32 _ _ hk, bit_maskBits _ _ hk, Bool.and_comm, shiftCount_eq, Nat.add_mod_mod]
  case rlwimi =>
    refine fun s ra rs sh mb me rc => ⟨_, writeRotate_writes rfl, fun k hk => ?_⟩
    rw [bit_or, bit_and, bit_and, bit_not _ hk, bit_rotl32 _ _ hk, bit_maskBits _ _ hk]
    cases inMask mb.toNat me.toNat k <;> simp

/-! ### The masks of the shifts -/

theorem shiftCount_lt (b : Word) : shiftCount b < 32 := by
  rw [shiftCount_eq]
  exact Nat.mod_lt _ (by decide)

/-- The count is the amount modulo the width of a word. -/
theorem shiftCount_eq_mod (b : Word) : shiftCount b = b.toNat % 64 % 32 := by
  rw [shiftCount_eq, Nat.mod_mod_of_dvd _ (by decide)]

/-- Bit 26 of RB is the bit of weight 32 of the shift amount. -/
theorem shiftAmount_eq (b : Word) : b.toNat % 64 = shiftCount b + if bit b 26 then 32 else 0 := by
  have hbit : bit b 26 = decide (b.toNat / 2 ^ 5 % 2 = 1) := by
    rw [bit_eq_getLsbD b 26 (by decide), BitVec.getLsbD, Nat.testBit_eq_decide_div_mod_eq]
  rw [hbit, shiftCount_eq]
  split_ifs with h <;> simp only [decide_eq_true_eq] at h <;> omega

theorem maskBits_from_zero {n : Nat} (hn : n < 32) : maskBits 0 (31 - n) = BitVec.allOnes 32 <<< n := by
  refine eq_of_bit_eq fun k hk => ?_
  rw [bit_maskBits _ _ hk, bit_allOnes_shiftLeft, inMask, if_pos (Nat.zero_le _), decide_eq_true (Nat.zero_le k),
    Bool.true_and]
  exact decide_eq_decide.2 (by omega)

theorem maskBits_to_end {n : Nat} (hn : n < 32) : maskBits n 31 = BitVec.allOnes 32 >>> n := by
  refine eq_of_bit_eq fun k hk => ?_
  rw [bit_maskBits _ _ hk, bit_allOnes_shiftRight _ hk, inMask, if_pos (by omega),
    decide_eq_true (by omega : k ≤ 31), Bool.and_true]

/-- The mask of slw is a left shift of all ones, 0 when the amount is 32 or more. -/
theorem leftMask_eq (b : Word) :
    (if bit b 26 then 0#32 else maskBits 0 (31 - shiftCount b)) = BitVec.allOnes 32 <<< (b.toNat % 64) := by
  rw [shiftAmount_eq]
  split
  · exact (BitVec.shiftLeft_eq_zero (Nat.le_add_left 32 _)).symm
  · exact maskBits_from_zero (shiftCount_lt b)

/-- The mask of srw and sraw is a right shift of all ones, 0 when the amount is 32 or more. -/
theorem rightMask_eq (b : Word) : rightMask b = BitVec.allOnes 32 >>> (b.toNat % 64) := by
  rw [rightMask, shiftAmount_eq]
  split
  · exact (BitVec.ushiftRight_eq_zero (Nat.le_add_left 32 _)).symm
  · exact maskBits_to_end (shiftCount_lt b)

/-! ### Masked rotates are shifts -/

theorem rotl32_and_leftMask (x : Word) (p : Nat) : rotl32 x (p % 32) &&& BitVec.allOnes 32 <<< p = x <<< p := by
  refine eq_of_bit_eq fun k hk => ?_
  rw [bit_and, bit_rotl32 _ _ hk, bit_allOnes_shiftLeft, bit_shiftLeft, Nat.add_mod_mod]
  by_cases h : k + p < 32
  · rw [Nat.mod_eq_of_lt h, decide_eq_true h, Bool.and_true]
  · rw [decide_eq_false h, Bool.and_false, bit, BitVec.getMsbD_of_ge _ _ (by omega)]

/-- The bits that stay in the word. -/
theorem bit_rotl32_of_le (x : Word) {p k : Nat} (hp : p ≤ k) (hk : k < 32) :
    bit (rotl32 x (32 - p % 32)) k = bit x (k - p) := by
  rw [bit_rotl32 _ _ hk, show (k + (32 - p % 32)) % 32 = k - p by omega]

theorem rotl32_and_rightMask (x : Word) (p : Nat) :
    rotl32 x (32 - p % 32) &&& BitVec.allOnes 32 >>> p = x >>> p := by
  refine eq_of_bit_eq fun k hk => ?_
  rw [bit_and, bit_allOnes_shiftRight _ hk, bit_shiftRight _ _ hk, Bool.and_comm]
  by_cases h : p ≤ k
  · rw [bit_rotl32_of_le x h hk]
  · rw [decide_eq_false h, Bool.false_and, Bool.false_and]

/-- An algebraic shift fills with the sign outside the mask. -/
theorem rotl32_and_rightMask_or_sign (x : Word) (p : Nat) :
    (rotl32 x (32 - p % 32) &&& BitVec.allOnes 32 >>> p) |||
      ((if bit x 0 then BitVec.allOnes 32 else 0#32) &&& ~~~(BitVec.allOnes 32 >>> p)) = x.sshiftRight p := by
  refine eq_of_bit_eq fun k hk => ?_
  have hsign : bit (if bit x 0 then BitVec.allOnes 32 else 0#32) k = bit x 0 := by
    cases bit x 0 with
    | true => exact (bit_allOnes k).trans (decide_eq_true hk)
    | false => exact BitVec.getMsbD_zero
  rw [rotl32_and_rightMask, bit_or, bit_and, bit_not _ hk, hsign, bit_allOnes_shiftRight _ hk, bit_shiftRight _ _ hk,
    bit_sshiftRight _ _ hk]
  by_cases h : p ≤ k <;> simp [h]

/-! ### The bits an algebraic shift loses -/

/-- By less than a word, the bits lost are those a left shift by the rest of the word keeps. -/
theorem rotl32_and_not_rightMask (x : Word) {p : Nat} (hp : p < 32) :
    rotl32 x (32 - p % 32) &&& ~~~(BitVec.allOnes 32 >>> p) = x <<< (32 - p) := by
  refine eq_of_bit_eq fun k hk => ?_
  rw [bit_and, bit_not _ hk, bit_rotl32 _ _ hk, bit_allOnes_shiftRight _ hk, bit_shiftLeft, Nat.mod_eq_of_lt hp]
  by_cases h : p ≤ k
  · rw [decide_eq_true h, Bool.not_true, Bool.and_false, bit, BitVec.getMsbD_of_ge _ _ (by omega)]
  · rw [decide_eq_false h, Bool.not_false, Bool.and_true, Nat.mod_eq_of_lt (by omega)]

theorem shiftLeft_eq_zero_iff_dvd (x : Word) {p : Nat} (hp : p ≤ 32) : x <<< (32 - p) = 0#32 ↔ 2 ^ p ∣ x.toNat := by
  have hsplit : 2 ^ 32 = 2 ^ p * 2 ^ (32 - p) := by rw [← Nat.pow_add, Nat.add_sub_cancel' hp]
  rw [← BitVec.toNat_inj, BitVec.toNat_shiftLeft, Nat.shiftLeft_eq, BitVec.toNat_zero, ← Nat.dvd_iff_mod_eq_zero,
    hsplit]
  exact Nat.mul_dvd_mul_iff_right (Nat.two_pow_pos _)

/-- A power of two up to 2^32 divides the signed and the unsigned value of a word alike. -/
theorem two_pow_dvd_toInt (x : Word) {p : Nat} (hp : p ≤ 32) : (2 ^ p : Int) ∣ x.toInt ↔ 2 ^ p ∣ x.toNat := by
  have hword : (2 ^ p : Int) ∣ ((2 ^ 32 : Nat) : Int) := by exact_mod_cast pow_dvd_pow 2 hp
  have hnat : (2 ^ p : Int) ∣ (x.toNat : Int) ↔ 2 ^ p ∣ x.toNat := by exact_mod_cast Int.natCast_dvd_natCast
  rw [BitVec.toInt_eq_toNat_cond, ← hnat]
  split
  · rfl
  · exact dvd_sub_left hword

theorem bit_zero_eq (x : Word) : bit x 0 = decide (x.toInt < 0) := BitVec.msb_eq_toInt

/-- By a word or more, a negative word loses its sign. -/
theorem rotl32_and_not_rightMask_ne_zero {x : Word} (hx : x.toInt < 0) {p : Nat} (hp : 32 ≤ p) :
    rotl32 x (32 - p % 32) &&& ~~~(BitVec.allOnes 32 >>> p) ≠ 0#32 := by
  have hk : p % 32 < 32 := Nat.mod_lt _ (by decide)
  have hbit : bit (rotl32 x (32 - p % 32) &&& ~~~(BitVec.allOnes 32 >>> p)) (p % 32) = true := by
    rw [bit_and, bit_not _ hk, bit_rotl32 _ _ hk, bit_allOnes_shiftRight _ hk, Nat.add_sub_cancel' hk.le, bit_zero_eq,
      decide_eq_true hx, decide_eq_false (by omega)]
    rfl
  intro hzero
  rw [hzero] at hbit
  exact Bool.false_ne_true (BitVec.getMsbD_zero.symm.trans hbit)

/-- A power of two of a word or more does not divide a negative word. -/
theorem not_two_pow_dvd_toInt {x : Word} (hx : x.toInt < 0) {p : Nat} (hp : 32 ≤ p) : ¬ (2 ^ p : Int) ∣ x.toInt := by
  intro hdvd
  have hword : 2 ^ 32 ∣ x.toNat := (two_pow_dvd_toInt x le_rfl).1 ((pow_dvd_pow 2 hp).trans hdvd)
  have hzero : x = 0#32 := BitVec.eq_of_toNat_eq (Nat.eq_zero_of_dvd_of_lt hword x.isLt)
  subst hzero
  exact absurd hx (by decide)

/-- A negative word loses a 1 bit when the power of two does not divide it. -/
theorem lostBits_eq_zero_iff {x : Word} (hx : x.toInt < 0) (p : Nat) :
    rotl32 x (32 - p % 32) &&& ~~~(BitVec.allOnes 32 >>> p) = 0#32 ↔ x.toInt % 2 ^ p = 0 := by
  rw [← Int.dvd_iff_emod_eq_zero]
  by_cases hp : p < 32
  · rw [rotl32_and_not_rightMask x hp, shiftLeft_eq_zero_iff_dvd x hp.le, two_pow_dvd_toInt x hp.le]
  · exact iff_of_false (rotl32_and_not_rightMask_ne_zero hx (not_lt.1 hp)) (not_two_pow_dvd_toInt hx (not_lt.1 hp))

/-- CA of the algebraic shifts (42_rotate_shift.md R278, R279). -/
theorem lostCarry_eq (x : Word) (p : Nat) :
    (bit x 0 && rotl32 x (32 - p % 32) &&& ~~~(BitVec.allOnes 32 >>> p) != 0#32) =
      decide (x.toInt < 0 ∧ x.toInt % 2 ^ p ≠ 0) := by
  rw [Bool.decide_and, ← bit_zero_eq]
  cases hsign : bit x 0 with
  | false => rfl
  | true =>
    rw [bit_zero_eq, decide_eq_true_iff] at hsign
    rw [Bool.true_and, Bool.true_and, Bool.eq_iff_iff, bne_iff_ne, decide_eq_true_iff]
    exact not_congr (lostBits_eq_zero_iff hsign p)

/-! ### The shifts as arithmetic -/

theorem shiftLeft_eq_ofNat (x : Word) (p : Nat) : x <<< p = BitVec.ofNat 32 (x.toNat * 2 ^ p) := by
  apply BitVec.eq_of_toNat_eq
  rw [BitVec.toNat_shiftLeft, BitVec.toNat_ofNat, Nat.shiftLeft_eq]

theorem shiftRight_eq_ofNat (x : Word) (p : Nat) : x >>> p = BitVec.ofNat 32 (x.toNat / 2 ^ p) := by
  rw [← Nat.shiftRight_eq_div_pow, ← BitVec.toNat_ushiftRight, BitVec.ofNat_toNat, BitVec.setWidth_eq]

theorem sshiftRight_eq_ofInt (x : Word) (p : Nat) : x.sshiftRight p = BitVec.ofInt 32 (x.toInt / 2 ^ p) := by
  rw [BitVec.sshiftRight, Int.shiftRight_eq_div_pow]
  push_cast
  rfl

/-- The one reasoning rule of `shiftAlgebraic`: by an amount `p` it divides by `2 ^ p`, rounding down. -/
theorem shiftAlgebraic_writes {i : Instr} {s : State} {ra rs : Reg} {p : Nat} {rc : Bool}
    (hexec : exec i s = shiftAlgebraic ra rs (p % 32) (BitVec.allOnes 32 >>> p) rc s) :
    WritesArith i s ra (BitVec.ofInt 32 ((s.reg rs).toInt / 2 ^ p))
      (some (decide ((s.reg rs).toInt < 0 ∧ (s.reg rs).toInt % 2 ^ p ≠ 0))) false false rc := by
  rw [← sshiftRight_eq_ofInt, ← lostCarry_eq, ← rotl32_and_rightMask_or_sign]
  exact writeArith_writes hexec

/-- Settles O28: each mask is all ones shifted by the amount, so each masked rotate is a shift by it. -/
theorem shiftInstructionsMultiplyAndDivideByPowersOfTwo :
    Obligations.ShiftInstructionsMultiplyAndDivideByPowersOfTwo := by
  unfold Obligations.ShiftInstructionsMultiplyAndDivideByPowersOfTwo
  refine ⟨?slw, ?srw, ?sraw, ?srawi⟩
  case slw =>
    intro s ra rs rb rc
    rw [← shiftLeft_eq_ofNat, ← rotl32_and_leftMask, ← leftMask_eq, ← shiftCount_eq_mod]
    exact writeRotate_writes rfl
  case srw =>
    intro s ra rs rb rc
    rw [← shiftRight_eq_ofNat, ← rotl32_and_rightMask, ← rightMask_eq, ← shiftCount_eq_mod]
    exact writeRotate_writes rfl
  case sraw =>
    intro s ra rs rb rc
    apply shiftAlgebraic_writes
    rw [← rightMask_eq, ← shiftCount_eq_mod]
    rfl
  case srawi =>
    intro s ra rs sh rc
    apply shiftAlgebraic_writes
    rw [← maskBits_to_end sh.isLt, Nat.mod_eq_of_lt sh.isLt]
    rfl

end Sys2Proof.Machine
end

section
/-! The compare and condition-register instructions. Each of them writes the CR, one of them XER or a general register
too, and ends as an instruction with a reserved bit 31 does, or as one whose bit 31 is 0; what is left to say is the
field, the bit or the mask that is written (43_compare_cr.md R290 to R308, 10_state.md R48, R51). -/

namespace Sys2Proof.Machine

/-! ### The end of an instruction whose bit 31 is reserved -/

@[simp] theorem State.advance31_reg (s : State) (b31 : Bool) (r : Reg) : (s.advance31 b31).reg r = s.reg r := by
  cases b31 <;> rfl

@[simp] theorem State.advance31_xer (s : State) (b31 : Bool) : (s.advance31 b31).xer = s.xer := s.drawCr0_xer b31

/-- Only CR field 0 is drawn, and only when bit 31 is 1 (10_state.md R51). -/
theorem State.crField_advance31 (s : State) {b31 : Bool} {n : BitVec 3} (h : b31 = false ∨ n ≠ 0) :
    (s.advance31 b31).crField n = s.crField n := by
  refine unchanged_advance31 s b31 (.crField n) ?_
  cases b31 with
  | false => exact List.not_mem_nil
  | true => simpa [cr0If] using h

theorem cr0If_subset_crFields (b : Bool) : cr0If b ⊆ crFields := by cases b <;> decide

section

variable {i : Instr} {s u : State} {l : List Part} {b31 : Bool} {P Q : State → Prop}

theorem Completes.imp (h : Completes i s l P) (hPQ : ∀ t, P t → Q t) : Completes i s l Q := by
  obtain ⟨t, hexec, hpc, hrest, hdone⟩ := h
  exact ⟨t, hexec, hpc, hrest, hPQ t hdone⟩

/-- An instruction whose effect leads to the state `u`, and whose bit 31 is reserved. -/
theorem Completes.of_advance31 (hexec : exec i s = .next (u.advance31 b31)) (hpc : u.pc = s.pc)
    (hrest : Unchanged l s u) (hcr0 : cr0If b31 ⊆ l) (hdone : P (u.advance31 b31)) : Completes i s l P :=
  ⟨_, hexec, by rw [State.advance31_pc, hpc], hrest.trans' ((unchanged_advance31 u b31).mono hcr0), hdone⟩

/-! ### Writing a CR field -/

variable {bf : BitVec 3} {v w : BitVec 4}

@[simp] theorem State.crField_setCrField_self (s : State) (n : BitVec 3) (v : BitVec 4) :
    (s.setCrField n v).crField n = v := by
  rw [State.crField_setCrField, if_pos rfl]

theorem Completes.of_setCrField31 (hexec : exec i s = .next ((s.setCrField bf v).advance31 b31)) (hv : v = w) :
    Completes i s (.crField bf :: cr0If b31) fun t => b31 = false ∨ bf ≠ 0 → t.crField bf = w :=
  .of_advance31 hexec rfl ((unchanged_setCrField s bf v).mono (by simp)) (by simp) fun h => by
    rw [State.crField_advance31 _ h, State.crField_setCrField_self, hv]

theorem Completes.of_setCrField (hexec : exec i s = .next (s.setCrField bf v).advance) (hv : v = w) :
    Completes i s [.crField bf] fun t => t.crField bf = w :=
  have hexec31 : exec i s = .next ((s.setCrField bf v).advance31 false) := hexec
  (Completes.of_setCrField31 hexec31 hv).imp fun _ h => h (.inl rfl)

end

/-! ### Comparing with an immediate -/

theorem toInt_immSigned (im : BitVec 16) : (immSigned im).toInt = im.toInt :=
  BitVec.toInt_signExtend_of_le (by decide)

theorem toNat_immUnsigned (im : BitVec 16) : (immUnsigned im).toNat = im.toNat :=
  BitVec.toNat_setWidth_of_le (by decide)

theorem compareSigned_immSigned (a : Word) (im : BitVec 16) (so : Bool) : compareSigned a (immSigned im) so =
    nibbleOf (decide (a.toInt < im.toInt)) (decide (im.toInt < a.toInt)) (decide (a.toInt = im.toInt)) so := by
  have heq : a = immSigned im ↔ a.toInt = im.toInt := by rw [← BitVec.toInt_inj, toInt_immSigned]
  rw [compareSigned, toInt_immSigned, decide_eq_decide.2 heq]

theorem compareUnsigned_immUnsigned (a : Word) (im : BitVec 16) (so : Bool) : compareUnsigned a (immUnsigned im) so =
    nibbleOf (decide (a.toNat < im.toNat)) (decide (im.toNat < a.toNat)) (decide (a.toNat = im.toNat)) so := by
  have heq : a = immUnsigned im ↔ a.toNat = im.toNat := by rw [← BitVec.toNat_inj, toNat_immUnsigned]
  rw [compareUnsigned, toNat_immUnsigned, decide_eq_decide.2 heq]

/-- Settles O29: each compare writes its field; a widened immediate has the value of the immediate. -/
theorem compareInstructionsSetTheField : Obligations.CompareInstructionsSetTheField := by
  unfold Obligations.CompareInstructionsSetTheField
  refine ⟨?cmp, ?cmpi, ?cmpl, ?cmpli⟩
  case cmp | cmpl => exact fun s bf ra rb b31 => .of_setCrField31 rfl rfl
  case cmpi => exact fun s bf ra im => .of_setCrField rfl (compareSigned_immSigned _ im s.so)
  case cmpli => exact fun s bf ra im => .of_setCrField rfl (compareUnsigned_immUnsigned _ im s.so)

/-! ### Writing a CR bit (43_compare_cr.md R308) -/

theorem State.crBit_setCr_setBit (s : State) (bt k : BitVec 5) (v : Bool) :
    (s.setCr (setBit s.cr bt.toNat v)).crBit k = if k = bt then v else s.crBit k :=
  (bit_setBit s.cr bt.toNat k.toNat v bt.isLt k.isLt).trans (if_congr BitVec.toNat_inj rfl rfl)

/-- The one reasoning rule of `writeCrBit`. -/
theorem writeCrBit_completes {i : Instr} {s : State} {bt : BitVec 5} {v w : Bool}
    (hexec : exec i s = writeCrBit bt v s) (hv : v = w) :
    Completes i s crFields fun t => ∀ k, t.crBit k = if k = bt then w else s.crBit k :=
  ⟨_, hexec, rfl, (unchanged_setCr s _).trans' (unchanged_advance _ _), hv ▸ fun k => s.crBit_setCr_setBit bt k v⟩

/-- Settles O30: each logical instruction writes one bit with its operation, creqv with the negated exclusive or. -/
theorem crInstructionsWriteOneBitOrField : Obligations.CrInstructionsWriteOneBitOrField := by
  unfold Obligations.CrInstructionsWriteOneBitOrField
  refine ⟨?crand, ?crandc, ?creqv, ?crnand, ?crnor, ?cror, ?crorc, ?crxor, ?mcrf⟩
  case crand | crandc | crnand | crnor | cror | crorc | crxor => exact fun s bt ba bb => writeCrBit_completes rfl rfl
  case creqv => exact fun s bt ba bb => writeCrBit_completes rfl (Bool.not_not _)
  case mcrf => exact fun s bf bfa => .of_setCrField rfl rfl

/-! ### XER[0:3] (43_compare_cr.md R303) -/

theorem getMsbD_nibble_zero (w : Word) {j : Nat} (hj : j < 4) : (nibble w 0).getMsbD j = bit w j :=
  (getMsbD_nibble w 0 j hj).trans (congrArg (bit w) (Nat.zero_add j))

theorem bit_setNibble_zero_zero (w : Word) {k : Nat} (hk : k < 32) :
    bit (setNibble w 0 0#4) k = if k < 4 then false else bit w k := by
  rw [bit_setNibble _ _ _ _ hk, BitVec.getMsbD_zero]
  exact if_congr (by simp [Nat.div_eq_zero_iff]) rfl rfl

/-! ### The mask of mtcrf (43_compare_cr.md R305) -/

theorem nibble_fxmMask (fxm : BitVec 8) (n : BitVec 3) :
    nibble (fxmMask fxm) n = if fxm.getMsbD n.toNat then 0xF#4 else 0#4 := by
  obtain ⟨⟨n, hn⟩⟩ := n
  unfold nibble fxmMask
  interval_cases n <;> simp [BitVec.extractLsb'_append_eq_ite (w := 4)]

theorem bit_fxmMask (fxm : BitVec 8) (n : BitVec 3) {j : Nat} (hj : j < 4) :
    bit (fxmMask fxm) (4 * n.toNat + j) = fxm.getMsbD n.toNat := by
  rw [← getMsbD_nibble _ _ _ hj, nibble_fxmMask]
  cases fxm.getMsbD n.toNat with
  | false => exact BitVec.getMsbD_zero
  | true => interval_cases j <;> rfl

/-- A field of a word merged under the mask comes from one of the two words. -/
theorem nibble_merge_fxmMask (x y : Word) (fxm : BitVec 8) (n : BitVec 3) :
    nibble ((x &&& fxmMask fxm) ||| (y &&& ~~~fxmMask fxm)) n =
      if fxm.getMsbD n.toNat then nibble x n else nibble y n := by
  apply BitVec.eq_of_getMsbD_eq
  intro j hj
  have hn := n.isLt
  rw [getMsbD_nibble _ _ _ hj, bit_or, bit_and, bit_and, bit_not _ (by omega), bit_fxmMask fxm n hj]
  cases fxm.getMsbD n.toNat <;> simp [getMsbD_nibble _ _ _ hj]

/-- Settles O31: XER[0:3] is field 0 of XER, and the mask of mtcrf takes whole fields. -/
theorem crMovesCopyWholeFields : Obligations.CrMovesCopyWholeFields := by
  unfold Obligations.CrMovesCopyWholeFields
  refine ⟨?mcrxr, ?mfcr, ?mtcrf⟩
  case mcrxr =>
    intro s bf b31
    have hrest := (unchanged_setCrField s bf (nibble s.xer 0)).trans (unchanged_setXer _ (setNibble s.xer 0 0#4))
    refine .of_advance31 rfl rfl (hrest.mono (by simp)) (by simp) ⟨fun h j hj => ?_, fun j hj => ?_, fun k h4 hk => ?_⟩
    · have hfield := s.crField_setCrField_self bf (nibble s.xer 0)
      rw [State.crField_advance31 _ h, ← getMsbD_nibble_zero _ hj]
      exact congrArg (·.getMsbD j) hfield
    · rw [State.advance31_xer, State.setXer_xer, bit_setNibble_zero_zero _ (by omega), if_pos hj]
    · rw [State.advance31_xer, State.setXer_xer, bit_setNibble_zero_zero _ hk, if_neg (by omega)]
  case mfcr =>
    refine fun s rt b31 => .of_advance31 rfl rfl ((unchanged_setReg s rt s.cr).mono (by simp)) (by simp) ?_
    rw [State.advance31_reg, State.reg_setReg_self]
  case mtcrf =>
    refine fun s fxm rs b31 => .of_advance31 rfl rfl (unchanged_setCr s _) (cr0If_subset_crFields b31) fun n h => ?_
    rw [State.crField_advance31 _ h]
    exact nibble_merge_fxmMask (s.reg rs) s.cr fxm n

end Sys2Proof.Machine
end

section
/-! The branch instructions. The count leaves LR as it is and the link leaves CTR, so one rule serves the three
conditional branches: the target is read off the counted state, whose LR is still the old one (44_branch.md R320 to
R325). -/

namespace Sys2Proof.Machine

@[simp] theorem State.jump_lr (s : State) (a : Word) : (s.jump a).lr = s.lr := rfl
@[simp] theorem State.jump_ctr (s : State) (a : Word) : (s.jump a).ctr = s.ctr := rfl
@[simp] theorem State.link_ctr (s : State) (lk : Bool) : (s.link lk).ctr = s.ctr := by cases lk <;> rfl

theorem State.link_lr (s : State) (lk : Bool) : (s.link lk).lr = if lk then s.pc + 4#32 else s.lr := by
  cases lk <;> rfl

theorem unchanged_link_lr (s : State) (lk : Bool) : Unchanged [.spr .lr] s (s.link lk) :=
  (unchanged_link s lk).mono (by cases lk <;> simp)

/-- The mask of a target keeps the upper 30 bits and clears the other two (R323, R324). -/
theorem wordAligned_eq_append (w : Word) : wordAligned w = w.extractLsb' 2 30 ++ 0#2 := by
  have hsplit : w.extractLsb' 2 30 ++ w.extractLsb' 0 2 = w :=
    (BitVec.extractLsb'_append_extractLsb'_eq_extractLsb' rfl).trans BitVec.extractLsb'_eq_self
  calc wordAligned w
    _ = (w.extractLsb' 2 30 ++ w.extractLsb' 0 2) &&& (BitVec.allOnes 30 ++ 0#2) :=
      congrArg (· &&& 0xFFFFFFFC#32) hsplit.symm
    _ = w.extractLsb' 2 30 ++ 0#2 := by rw [BitVec.and_append, BitVec.and_allOnes, BitVec.and_zero]

/-- The one reasoning rule of `branchOn`: where it goes, what it counts and links, and that nothing else changes. -/
theorem branchOn_next (bo bi : BitVec 5) (lk : Bool) (target : State → Word) (s : State) :
    ∃ t, branchOn bo bi lk target s = .next t ∧
      t.pc = (if s.branchTaken bo bi then target (s.setCtr (s.branchCtr bo)) else s.pc + 4#32) ∧
      t.ctr = s.branchCtr bo ∧ t.lr = (if lk then s.pc + 4#32 else s.lr) ∧ Unchanged [.spr .ctr, .spr .lr] s t := by
  have hcount := unchanged_setCtr s (s.branchCtr bo)
  have hlink := unchanged_link_lr (s.setCtr (s.branchCtr bo)) lk
  refine ⟨_, rfl, State.jump_pc _ _, ?ctr, ?lr, (hcount.trans hlink).trans' (unchanged_jump _ _ _)⟩
  case ctr => rw [State.jump_ctr, State.link_ctr, State.setCtr_ctr]
  case lr => rw [State.jump_lr, State.link_lr, State.setCtr_pc, State.setCtr_lr]

/-- Settles O32: b links and jumps; the others are `branchOn`, each with its target of the counted state. -/
theorem branchesCountTestAndLink : Obligations.BranchesCountTestAndLink := by
  unfold Obligations.BranchesCountTestAndLink
  refine ⟨fun s li aa lk => ?b, fun s bo bi bd aa lk ctr taken hctr htaken i target hi => ?conditional⟩
  case b =>
    have hframe := (unchanged_link_lr s lk).trans' (unchanged_jump _ (if aa then dispI li else s.pc + dispI li) _)
    exact ⟨_, rfl, State.jump_pc _ _, (State.jump_lr _ _).trans (s.link_lr lk), hframe⟩
  case conditional =>
    obtain rfl : ctr = s.branchCtr bo := hctr
    obtain rfl : taken = s.branchTaken bo bi := htaken
    simp only [← wordAligned_eq_append, List.mem_cons, List.not_mem_nil, or_false, Prod.mk.injEq] at hi
    obtain ⟨rfl, rfl⟩ | ⟨rfl, rfl⟩ | ⟨rfl, rfl⟩ := hi
    case inl => exact branchOn_next bo bi lk (fun c => if aa then dispB bd else c.pc + dispB bd) s
    case inr.inl => exact branchOn_next bo bi lk (fun c => wordAligned c.ctr) s
    case inr.inr => exact branchOn_next bo bi lk (fun c => wordAligned c.lr) s

end Sys2Proof.Machine
end

section
/-! The loads, the stores and the reservation pair. Each of them makes one access and then writes registers, so two
rules say what is left when the access goes through: `read_next` and `write_next`. What differs is the value a load
widens and the bytes a store takes from its register (45_load_store.md R340 to R388). -/

namespace Sys2Proof.Machine

/-! ### Bytes of words (20_memory.md R103) -/

theorem byteOf_append (b0 b1 b2 b3 : Byte) :
    byteOf (b0 ++ b1 ++ b2 ++ b3) 0 = b0 ∧ byteOf (b0 ++ b1 ++ b2 ++ b3) 1 = b1 ∧
    byteOf (b0 ++ b1 ++ b2 ++ b3) 2 = b2 ∧ byteOf (b0 ++ b1 ++ b2 ++ b3) 3 = b3 := by
  simp [byteOf, BitVec.extractLsb'_append_eq_ite (w := 8)]

theorem half_eq_append (b0 b1 : Byte) : 0#16 ++ (b0 ++ b1) = 0#8 ++ 0#8 ++ b0 ++ b1 :=
  (BitVec.append_assoc (x₁ := 0#8 ++ 0#8) (x₂ := b0) (x₃ := b1)).symm

theorem byteOf_half (b0 b1 : Byte) : byteOf (0#16 ++ (b0 ++ b1)) 2 = b0 ∧ byteOf (0#16 ++ (b0 ++ b1)) 3 = b1 := by
  rw [half_eq_append]
  obtain ⟨-, -, h2, h3⟩ := byteOf_append 0#8 0#8 b0 b1
  exact ⟨h2, h3⟩

theorem signHalf_half (h : Half) : signHalf (0#16 ++ h) = h.signExtend 32 := by
  rw [signHalf, BitVec.setWidth_append_eq_right]

/-- A byte of a reversed word (45_load_store.md R380). -/
theorem byteOf_swapWord (w : Word) {k : Nat} (hk : k < 4) : byteOf (swapWord w) k = byteOf w (3 - k) := by
  obtain ⟨h0, h1, h2, h3⟩ := byteOf_append (byteOf w 3) (byteOf w 2) (byteOf w 1) (byteOf w 0)
  interval_cases k
  · exact h0
  · exact h1
  · exact h2
  · exact h3

/-- A byte of a reversed halfword (R375). -/
theorem byteOf_swapHalf (w : Word) {k : Nat} (hk : k < 2) : byteOf (swapHalf w) (2 + k) = byteOf w (3 - k) := by
  obtain ⟨h2, h3⟩ := byteOf_half (byteOf w 3) (byteOf w 2)
  interval_cases k
  · exact h2
  · exact h3

/-- The bytes that a store of `n` bytes takes are the last `n` of its register. -/
theorem valueByte_eq_byteOf (v : Word) {n k : Nat} (hn : n ≤ 4) (hk : k < n) : valueByte v n k = byteOf v (4 - n + k) :=
  congrArg (fun x => v.extractLsb' x 8) (by omega)

/-! ### The value of a load -/

theorem State.dataValue_byte (s : State) (a : Word) : s.dataValue a 1 = 0#24 ++ s.dataByte a :=
  (s.dataValue_one a).trans (BitVec.setWidth_eq_append (by decide))

theorem State.signHalf_dataValue (s : State) (a : Word) :
    signHalf (s.dataValue a 2) = (s.seenHalf a).signExtend 32 := by
  rw [State.dataValue_two]
  exact signHalf_half (s.seenHalf a)

theorem State.swapHalf_dataValue (s : State) (a : Word) :
    swapHalf (s.dataValue a 2) = 0#16 ++ (s.dataByte (a + 1#32) ++ s.dataByte a) := by
  obtain ⟨h2, h3⟩ := byteOf_half (s.dataByte a) (s.dataByte (a + 1#32))
  rw [State.dataValue_two, swapHalf, h2, h3]

theorem State.swapWord_dataValue (s : State) (a : Word) : swapWord (s.dataValue a 4) =
    s.dataByte (a + 3#32) ++ s.dataByte (a + 2#32) ++ s.dataByte (a + 1#32) ++ s.dataByte a := by
  obtain ⟨h0, h1, h2, h3⟩ :=
    byteOf_append (s.dataByte a) (s.dataByte (a + 1#32)) (s.dataByte (a + 2#32)) (s.dataByte (a + 3#32))
  rw [State.dataValue_four, swapWord, h0, h1, h2, h3]

/-! ### Forms with update (45_load_store.md R342) -/

theorem loadUpdateOk_iff {rt ra : Reg} : loadUpdateOk rt ra = true ↔ ra ≠ 0 ∧ ra ≠ rt := by
  simp [loadUpdateOk]

theorem storeUpdateOk_iff {ra : Reg} : storeUpdateOk ra = true ↔ ra ≠ 0 := bne_iff_ne

/-- A load with update whose form is valid is a read and the writes of both registers. -/
theorem loadUpdateWith_eq {rt ra : Reg} (hok : loadUpdateOk rt ra = true) (n : Nat) (widen : Word → Word) (ea : Word)
    (b31 : Bool) (s : State) : loadUpdateWith n widen rt ra ea b31 s =
      ((memRead ea n s).bind fun w u => .ok () (((u.setReg ra ea).setReg rt (widen w)).advance31 b31)).finish :=
  if_pos hok

theorem storeUpdateWith_eq {ra : Reg} (hok : storeUpdateOk ra = true) (n : Nat) (v ea : Word) (b31 : Bool) (s : State) :
    storeUpdateWith n v ra ea b31 s =
      ((memWrite ea n v s).bind fun _ u => .ok () ((u.setReg ra ea).advance31 b31)).finish :=
  if_pos hok

/-! ### One access, then registers -/

section

variable {i : Instr} {s : State} {p : Place} {ea v : Word} {n : Nat} {rt ra : Reg} {b31 : Bool}

/-- An instruction that reads and then works on registers: the value is that of the bytes at the place, in a state that
shows the same bytes. -/
theorem read_next {f : Word → State → State} (h : s.CanAccess ea n false p)
    (hexec : exec i s = ((memRead ea n s).bind fun w u => .ok () ((f w u).advance31 b31)).finish) :
    ∃ u, KeepsView s u ∧ exec i s = .next ((f (s.dataValue p.real n) u).advance31 b31) := by
  obtain ⟨u, hread, hview⟩ := memRead_completes h
  exact ⟨u, hview, by rw [hexec, hread]; rfl⟩

/-- An instruction that writes and then works on registers. -/
theorem write_next {f : State → State} (h : s.CanAccess ea n true p) (hn : n ≤ 4)
    (hexec : exec i s = ((memWrite ea n v s).bind fun _ u => .ok () ((f u).advance31 b31)).finish) :
    ∃ u, Stores p n v s u ∧ exec i s = .next ((f u).advance31 b31) := by
  obtain ⟨u, hwrite, hstores⟩ := memWrite_completes (v := v) hn h
  exact ⟨u, hstores, by rw [hexec, hwrite]; rfl⟩

/-! ### Loads -/

/-- The one reasoning rule of `loadWith`. -/
theorem loadWith_loads {widen : Word → Word} (h : s.CanAccess ea n false p)
    (hexec : exec i s = loadWith n widen rt ea b31 s) (hv : widen (s.dataValue p.real n) = v) :
    LoadsReg i s rt v none b31 := by
  obtain ⟨u, hview, hnext⟩ := read_next (f := fun w u => u.setReg rt (widen w)) h hexec
  rw [hv] at hnext
  refine .of_advance31 hnext hview.pc ((hview.frame.trans (unchanged_setReg u rt v)).mono ?_)
    (List.subset_append_right _ _) ⟨?_, by simp⟩
  · simp
  · rw [State.advance31_reg, State.reg_setReg_self]

/-- The one reasoning rule of `loadUpdateWith`. -/
theorem loadUpdateWith_loads {widen : Word → Word} (h0 : ra ≠ 0) (hrt : ra ≠ rt) (h : s.CanAccess ea n false p)
    (hexec : exec i s = loadUpdateWith n widen rt ra ea b31 s) (hv : widen (s.dataValue p.real n) = v) :
    LoadsReg i s rt v (some (ra, ea)) b31 := by
  obtain ⟨u, hview, hnext⟩ := read_next (f := fun w u => (u.setReg ra ea).setReg rt (widen w)) h
    (hexec.trans (loadUpdateWith_eq (loadUpdateOk_iff.2 ⟨h0, hrt⟩) n widen ea b31 s))
  rw [hv] at hnext
  have hregs := (unchanged_setReg u ra ea).trans (unchanged_setReg (u.setReg ra ea) rt v)
  refine .of_advance31 hnext hview.pc ((hview.frame.trans hregs).mono ?_) (List.subset_append_right _ _)
    ⟨?_, fun x hx => ?_⟩
  · simp
  · rw [State.advance31_reg, State.reg_setReg_self]
  · obtain rfl := Option.some.inj hx
    rw [State.advance31_reg, State.reg_setReg_ne _ _ hrt, State.reg_setReg_self]

/-! ### Stores -/

theorem State.advance31_dataByte (s : State) (b31 : Bool) (a : Word) : (s.advance31 b31).dataByte a = s.dataByte a :=
  unchanged_advance31 s b31 .memory (by cases b31 <;> decide) a

/-- What the processor sees after a store, in a state that shows the same bytes as the one the store has led to. -/
theorem Stores.seen {u t : State} {bytes : Nat → Byte} (h : Stores p n v s u) (ht : ∀ a, t.dataByte a = u.dataByte a)
    (hbytes : ∀ k < n, valueByte v n k = bytes k) : (∀ k < n, t.dataByte (p.real + BitVec.ofNat 32 k) = bytes k) ∧
      ∀ x, (∀ k < n, x ≠ p.real + BitVec.ofNat 32 k) → t.dataByte x = s.dataByte x :=
  ⟨fun k hk => by rw [ht, h.stored k hk, hbytes k hk], fun x hx => by rw [ht, h.kept x hx]⟩

variable {bytes : Nat → Byte}

/-- The one reasoning rule of `storeWith`. -/
theorem storeWith_stores (h : s.CanAccess ea n true p) (hn : n ≤ 4) (hexec : exec i s = storeWith n v ea b31 s)
    (hbytes : ∀ k < n, byteOf v (4 - n + k) = bytes k) : StoresBytes i s p.real n bytes none b31 := by
  obtain ⟨u, hstores, hnext⟩ := write_next (f := id) h hn hexec
  obtain ⟨hstored, hkept⟩ := hstores.seen (State.advance31_dataByte u b31)
    fun k hk => (valueByte_eq_byteOf v hn hk).trans (hbytes k hk)
  exact .of_advance31 hnext hstores.pc (hstores.frame.mono (by simp)) (List.subset_append_right _ _)
    ⟨hstored, hkept, by simp⟩

/-- The one reasoning rule of `storeUpdateWith`. -/
theorem storeUpdateWith_stores (h0 : ra ≠ 0) (h : s.CanAccess ea n true p) (hn : n ≤ 4)
    (hexec : exec i s = storeUpdateWith n v ra ea b31 s) (hbytes : ∀ k < n, byteOf v (4 - n + k) = bytes k) :
    StoresBytes i s p.real n bytes (some (ra, ea)) b31 := by
  obtain ⟨u, hstores, hnext⟩ := write_next (f := fun u => u.setReg ra ea) h hn
    (hexec.trans (storeUpdateWith_eq (storeUpdateOk_iff.2 h0) n v ea b31 s))
  obtain ⟨hstored, hkept⟩ := hstores.seen
    (fun a => (State.advance31_dataByte (u.setReg ra ea) b31 a).trans (State.dataByte_congr rfl rfl a))
    fun k hk => (valueByte_eq_byteOf v hn hk).trans (hbytes k hk)
  refine .of_advance31 hnext hstores.pc ((hstores.frame.trans (unchanged_setReg u ra ea)).mono ?_)
    (List.subset_append_right _ _) ⟨hstored, hkept, fun x hx => ?_⟩
  · simp
  · obtain rfl := Option.some.inj hx
    rw [State.advance31_reg, State.reg_setReg_self]

end

/-- Settles O33: each load is `loadWith`, its value that of the bytes at the place, widened. -/
theorem loadsReadTheBytesAtTheirAddress : Obligations.LoadsReadTheBytesAtTheirAddress := by
  unfold Obligations.LoadsReadTheBytesAtTheirAddress
  refine ⟨?byteD, ?byteX, ?halfD, ?halfX, ?wordD, ?wordX⟩
  case byteD => exact fun s p rt d ra h => loadWith_loads h rfl (s.dataValue_byte _)
  case byteX => exact fun s p rt ra rb b31 h => loadWith_loads h rfl (s.dataValue_byte _)
  case halfD =>
    exact fun s p rt d ra h => ⟨loadWith_loads h rfl (s.dataValue_two _), loadWith_loads h rfl (s.signHalf_dataValue _)⟩
  case halfX =>
    exact fun s p rt ra rb b31 h => ⟨loadWith_loads h rfl (s.dataValue_two _),
      loadWith_loads h rfl (s.signHalf_dataValue _), loadWith_loads h rfl (s.swapHalf_dataValue _)⟩
  case wordD => exact fun s p rt d ra h => loadWith_loads h rfl (s.dataValue_four _)
  case wordX =>
    exact fun s p rt ra rb b31 h => ⟨loadWith_loads h rfl (s.dataValue_four _),
      loadWith_loads h rfl (s.swapWord_dataValue _)⟩

/-- Settles O34: each load with update is `loadUpdateWith`, with the values of the loads. -/
theorem updateLoadsAlsoWriteTheirBase : Obligations.UpdateLoadsAlsoWriteTheirBase := by
  unfold Obligations.UpdateLoadsAlsoWriteTheirBase
  intro s p rt ra h0 hrt
  refine ⟨?byteD, ?byteX, ?halfD, ?halfX, ?wordD, ?wordX⟩
  case byteD => exact fun d h => loadUpdateWith_loads h0 hrt h rfl (s.dataValue_byte _)
  case byteX => exact fun rb b31 h => loadUpdateWith_loads h0 hrt h rfl (s.dataValue_byte _)
  case halfD =>
    exact fun d h => ⟨loadUpdateWith_loads h0 hrt h rfl (s.dataValue_two _),
      loadUpdateWith_loads h0 hrt h rfl (s.signHalf_dataValue _)⟩
  case halfX =>
    exact fun rb b31 h => ⟨loadUpdateWith_loads h0 hrt h rfl (s.dataValue_two _),
      loadUpdateWith_loads h0 hrt h rfl (s.signHalf_dataValue _)⟩
  case wordD => exact fun d h => loadUpdateWith_loads h0 hrt h rfl (s.dataValue_four _)
  case wordX => exact fun rb b31 h => loadUpdateWith_loads h0 hrt h rfl (s.dataValue_four _)

/-- The byte that a byte store takes. -/
theorem byteOf_last (w : Word) : ∀ k < 1, byteOf w (4 - 1 + k) = byteOf w 3 := by
  intro k hk
  obtain rfl := Nat.lt_one_iff.1 hk
  rfl

/-- The bytes that a word store takes. -/
theorem byteOf_from_first (w : Word) : ∀ k < 4, byteOf w (4 - 4 + k) = byteOf w k :=
  fun k _ => congrArg (byteOf w) (Nat.zero_add k)

/-- Settles O35: each store is `storeWith` of RS or of RS reversed. -/
theorem storesWriteTheBytesAtTheirAddress : Obligations.StoresWriteTheBytesAtTheirAddress := by
  unfold Obligations.StoresWriteTheBytesAtTheirAddress
  refine ⟨?byteD, ?byteX, ?halfD, ?halfX, ?wordD, ?wordX⟩
  case byteD => exact fun s p rs d ra h => storeWith_stores h (by decide) rfl (byteOf_last _)
  case byteX => exact fun s p rs ra rb b31 h => storeWith_stores h (by decide) rfl (byteOf_last _)
  case halfD => exact fun s p rs d ra h => storeWith_stores h (by decide) rfl fun _ _ => rfl
  case halfX =>
    exact fun s p rs ra rb b31 h => ⟨storeWith_stores h (by decide) rfl fun _ _ => rfl,
      storeWith_stores h (by decide) rfl fun _ => byteOf_swapHalf _⟩
  case wordD =>
    exact fun s p rs d ra h => storeWith_stores h (by decide) rfl (byteOf_from_first _)
  case wordX =>
    exact fun s p rs ra rb b31 h =>
      ⟨storeWith_stores h (by decide) rfl (byteOf_from_first _),
        storeWith_stores h (by decide) rfl fun k hk => (byteOf_from_first _ k hk).trans (byteOf_swapWord _ hk)⟩

/-- Settles O36: each store with update is `storeUpdateWith`, which takes RS before it writes RA. -/
theorem updateStoresAlsoWriteTheirBase : Obligations.UpdateStoresAlsoWriteTheirBase := by
  unfold Obligations.UpdateStoresAlsoWriteTheirBase
  intro s p rs ra h0
  refine ⟨?byteD, ?byteX, ?halfD, ?halfX, ?wordD, ?wordX⟩
  case byteD => exact fun d h => storeUpdateWith_stores h0 h (by decide) rfl (byteOf_last _)
  case byteX => exact fun rb b31 h => storeUpdateWith_stores h0 h (by decide) rfl (byteOf_last _)
  case halfD => exact fun d h => storeUpdateWith_stores h0 h (by decide) rfl fun _ _ => rfl
  case halfX => exact fun rb b31 h => storeUpdateWith_stores h0 h (by decide) rfl fun _ _ => rfl
  case wordD =>
    exact fun d h => storeUpdateWith_stores h0 h (by decide) rfl (byteOf_from_first _)
  case wordX =>
    exact fun rb b31 h => storeUpdateWith_stores h0 h (by decide) rfl (byteOf_from_first _)

/-! ### The reservation pair (45_load_store.md R386, R388) -/

/-- CR field 0 by its four bits. -/
theorem State.cr0Is_of_crField {t : State} {a b c d : Bool} (h : t.crField 0 = nibbleOf a b c d) : t.Cr0Is a b c d := by
  have hbit : ∀ j < 4, t.crBit (BitVec.ofNat 5 j) = (nibbleOf a b c d).getMsbD j := by
    intro j hj
    rw [← h, ← t.crBit_eq 0 j hj]
    exact congrArg (fun k => t.crBit (BitVec.ofNat 5 k)) (Nat.zero_add j).symm
  obtain ⟨ha, hb, hc, hd⟩ := getMsbD_nibbleOf a b c d
  exact ⟨(hbit 0 (by decide)).trans ha, (hbit 1 (by decide)).trans hb, (hbit 2 (by decide)).trans hc,
    (hbit 3 (by decide)).trans hd⟩

theorem State.recordReserve_cr0Is (s : State) (held : Bool) :
    (s.recordReserve held).advance.Cr0Is false false held s.so :=
  State.cr0Is_of_crField (s.crField_setCrField_self 0 _)

theorem unchanged_recordReserve (s : State) (held : Bool) : Unchanged [.crField 0] s (s.recordReserve held) :=
  unchanged_setCrField s 0 _

@[simp] theorem State.advance31_reserve (s : State) (b31 : Bool) : (s.advance31 b31).reserve = s.reserve := by
  cases b31 <;> rfl

theorem execLwarx_completes {s : State} {p : Place} {ra rb : Reg} (h : s.CanAccess (s.eaX ra rb) 4 false p) (rt : Reg)
    (b31 : Bool) : Completes (.lwarx rt ra rb b31) s (.reg rt :: .storage :: .dataCache :: .reserve :: cr0If b31)
      fun t => t.reg rt = s.seenWord p.real ∧ t.reserve = true := by
  obtain ⟨u, hview, hnext⟩ :=
    read_next (i := .lwarx rt ra rb b31) (f := fun w u => (u.setReserve true).setReg rt w) h rfl
  have hwrites := (unchanged_setReserve u true).trans (unchanged_setReg (u.setReserve true) rt (s.dataValue p.real 4))
  refine .of_advance31 hnext hview.pc ((hview.frame.trans hwrites).mono (by simp))
    (List.subset_append_right [_, _, _, _] _) ⟨?_, ?_⟩
  · rw [State.advance31_reg, State.reg_setReg_self]
    exact s.dataValue_four p.real
  · rw [State.advance31_reserve, State.setReg_reserve, State.setReserve_reserve]

/-- With the reservation the word is stored. -/
theorem execStwcxRc_reserved {s : State} {p : Place} {ra rb : Reg} (hres : s.reserve = true)
    (h : s.CanAccess (s.eaX ra rb) 4 true p) (rs : Reg) :
    Completes (.stwcxRc rs ra rb) s [.memory, .storage, .dataCache, .reserve, .crField 0] fun t =>
      t.reserve = false ∧ t.Cr0Is false false true s.so ∧
      (∀ k < 4, t.dataByte (p.real + BitVec.ofNat 32 k) = byteOf (s.reg rs) k) ∧
      ∀ x, (∀ k < 4, x ≠ p.real + BitVec.ofNat 32 k) → t.dataByte x = s.dataByte x := by
  obtain ⟨u, hstores, hnext⟩ := write_next (i := .stwcxRc rs ra rb) (v := s.reg rs) (b31 := false)
    (f := fun u => (u.setReserve false).recordReserve true) h (by decide) (if_pos hres)
  have hso : u.so = s.so := congrArg (bit · xerSO) (hstores.frame (.spr .xer) (by decide))
  have hwrites := (unchanged_setReserve u false).trans (unchanged_recordReserve (u.setReserve false) true)
  obtain ⟨hstored, hkept⟩ := hstores.seen (t := ((u.setReserve false).recordReserve true).advance)
    (State.dataByte_congr rfl rfl)
    fun k hk => (valueByte_eq_byteOf (s.reg rs) (by decide) hk).trans (byteOf_from_first _ k hk)
  exact .of_advance31 hnext hstores.pc ((hstores.frame.trans hwrites).mono (by simp)) (by simp [cr0If])
    ⟨rfl, hso ▸ State.recordReserve_cr0Is _ true, hstored, hkept⟩

/-- Without it CR field 0 alone is written, whatever the translation of EA would be. -/
theorem execStwcxRc_unreserved {s : State} {ra rb : Reg} (hres : s.reserve = false)
    (hal : (s.eaX ra rb).toNat % 4 = 0) (rs : Reg) :
    Completes (.stwcxRc rs ra rb) s [.crField 0] fun t => t.Cr0Is false false false s.so := by
  have hnext : exec (.stwcxRc rs ra rb) s = .next ((s.recordReserve false).advance31 false) :=
    show execStwcxRc rs ra rb s = _ by simp [execStwcxRc, hres, aligned, hal]; rfl
  exact .of_advance31 hnext rfl (unchanged_recordReserve s false) (by simp [cr0If]) (s.recordReserve_cr0Is false)

/-- Settles O37: the load and the conditional store by whether RESERVE is 1. -/
theorem reservationPairStoresOnlyWhenReserved : Obligations.ReservationPairStoresOnlyWhenReserved := by
  unfold Obligations.ReservationPairStoresOnlyWhenReserved
  exact ⟨fun s p rt ra rb b31 h => execLwarx_completes h rt b31,
    fun s p rs ra rb hres h => execStwcxRc_reserved hres h rs,
    fun s rs ra rb hres hal => execStwcxRc_unreserved hres hal rs⟩

end Sys2Proof.Machine
end

section
/-! The exceptions of a data access. `dataExceptions_of_raise` derives all that a statement says about them from one
fact about the instruction: the exception that the translation of the address comes to, in the state the earlier
accesses have led to, is the one it takes. What is left is that fact for each shape of instruction: one access, a cache
operation, and the loops of the multiples and strings, cut at any access (60_exceptions.md R517, R518, R529). -/

namespace Sys2Proof.Machine

/-! ### Exceptions that set DEAR and ESR before they enter -/

/-- A state that an exception prepares: special purpose registers are set, and nothing that the entry sequence goes by
changes. -/
structure Prepared (also : List Spr) (u v : State) : Prop where
  msr : v.msr = u.msr
  evpr : v.spr.evpr = u.spr.evpr
  stale : v.stale = u.stale
  levelZero : v.levelZero = u.levelZero
  rest : Unchanged (also.map Part.spr) u v

theorem Prepared.trans {l m : List Spr} {s t u : State} (h1 : Prepared l s t) (h2 : Prepared m t u) :
    Prepared (l ++ m) s u where
  msr := h2.msr.trans h1.msr
  evpr := h2.evpr.trans h1.evpr
  stale := h2.stale.trans h1.stale
  levelZero := h2.levelZero.trans h1.levelZero
  rest := List.map_append ▸ h1.rest.trans h2.rest

theorem State.setDear_prepared (u : State) (ea : Word) : Prepared [.dear] u (u.setDear ea) :=
  ⟨rfl, rfl, rfl, rfl, (unchanged_setSprVal u .dear ea).mono (by simp)⟩

theorem State.setEsr_prepared (u : State) (w : Word) : Prepared [.esr] u (u.setSprVal .esr w) :=
  ⟨rfl, rfl, rfl, rfl, (unchanged_setSprVal u .esr w).mono (by simp)⟩

/-- An entry from the prepared state, seen from the state before. -/
theorem Entered.of_prepared {critical : Bool} {saved : Word} {offset : BitVec 16} {also : List Spr} {u v t : State}
    (he : Entered critical saved offset [] v t) (h : Prepared also u v) : Entered critical saved offset also u t where
  savedPc := he.savedPc
  savedMsr := he.savedMsr.trans h.msr
  msr := h.msr ▸ he.msr
  endian := h.msr ▸ he.endian
  pc := h.evpr ▸ he.pc
  others := (h.rest.trans he.others).mono (by simp)
  queue := fun o => by rw [he.queue o, h.stale, h.levelZero]

/-- An instruction that prepares and enters traps; but for SRR0 and SRR1 the special purpose registers are those that
were prepared. -/
theorem trapsFrom_of_enter {i : Instr} {s u v : State} {offset : BitVec 16} {also : List Spr} {P : State → Prop}
    (hile : u.msrBit msrILE = false) (hv : Prepared also u v) (hexec : exec i s = enter false s.pc offset v)
    (hdone : ∀ t : State, (∀ r, r ≠ .srr0 → r ≠ .srr1 → t.sprVal r = v.sprVal r) → P t) :
    TrapsFrom i s u offset also P := by
  have hile' : v.msrBit msrILE = false := by rw [State.msrBit, hv.msr]; exact hile
  obtain ⟨t, ht⟩ := enter_completes (critical := false) (saved := s.pc) (offset := offset) hile'
  have he := enter_spec ht
  exact ⟨t, hexec.trans ht, he.of_prepared hv, hdone t fun r h0 h1 => he.others (.spr r) (by simp [h0, h1])⟩

/-- A bit after one bit is set on a condition. -/
theorem bit_setBit_if (w : Word) {b k : Nat} (c : Bool) (hb : b < 32) (hk : k < 32) :
    bit (if c then setBit w b true else w) k = ((decide (k = b) && c) || bit w k) := by
  cases c with
  | false => simp
  | true =>
    rw [if_pos rfl, bit_setBit _ _ _ _ hb hk]
    by_cases h : k = b <;> simp [h]

/-- ESR as a data storage exception leaves it (60_exceptions.md R517). -/
def State.storageEsr (u : State) (store zone : Bool) : Word :=
  let w := if store then setBit u.spr.esr esrDST true else u.spr.esr
  if zone then setBit w esrDIZ true else w

theorem State.bit_storageEsr (u : State) (store zone : Bool) {k : Nat} (hk : k < 32) : bit (u.storageEsr store zone) k =
    ((decide (k = 8) && store) || (decide (k = 9) && zone) || bit u.spr.esr k) := by
  rw [State.storageEsr, bit_setBit_if _ _ (by decide) hk, bit_setBit_if _ _ (by decide) hk, Bool.or_left_comm,
    Bool.or_assoc]
  rfl

theorem raise_dataStorage (ea : Word) (store zone : Bool) (u : State) : raise (.dataStorage ea store zone) u =
    enter false u.pc 0x0300#16 ((u.setDear ea).setSprVal .esr (u.storageEsr store zone)) := by
  cases store <;> cases zone <;> rfl

/-! ### The state an access is made in -/

/-- What decides where an access goes and how its exceptions are taken is as at the start of the instruction. -/
structure SameContext (s u : State) : Prop where
  pc : u.pc = s.pc
  msr : u.msr = s.msr
  spr : u.spr = s.spr
  tlb : u.tlb = s.tlb

namespace SameContext

variable {s u : State}

theorem refl (s : State) : SameContext s s := ⟨rfl, rfl, rfl, rfl⟩

theorem setReg (h : SameContext s u) (r : Reg) (v : Word) : SameContext s (u.setReg r v) := ⟨h.pc, h.msr, h.spr, h.tlb⟩

theorem msrBit (h : SameContext s u) (k : Nat) : u.msrBit k = s.msrBit k := by rw [State.msrBit, h.msr, State.msrBit]

theorem bigEndian (h : SameContext s u) (hle : s.BigEndian) : u.BigEndian := State.bigEndian_congr h.msr hle

theorem tlbEntry (h : SameContext s u) (k : BitVec 6) : u.tlbEntry k = s.tlbEntry k := by
  rw [State.tlbEntry, h.tlb, State.tlbEntry]

theorem pidTag (h : SameContext s u) : u.pidTag = s.pidTag := by rw [State.pidTag, h.spr, State.pidTag]

theorem noEntry (h : SameContext s u) {ea : Word} (hno : s.NoEntry ea) : u.NoEntry ea := fun j => by
  rw [h.tlbEntry, h.pidTag]
  exact hno j

theorem onlyEntry (h : SameContext s u) {ea : Word} {k : BitVec 6} (hk : s.OnlyEntry ea k) : u.OnlyEntry ea k :=
  fun j => by
    rw [h.tlbEntry, h.pidTag]
    exact hk j

theorem zoneForbids (h : SameContext s u) (e : TlbEntry) : u.zoneForbids e = s.zoneForbids e := by
  simp only [State.zoneForbids, State.problem, State.zoneField, h.msrBit, h.spr]

theorem boundsForbid (h : SameContext s u) (ea : Word) (store : Bool) :
    u.boundsForbid ea store = s.boundsForbid ea store := by
  simp only [State.boundsForbid, h.msrBit, h.spr]

end SameContext

/-- The accesses of one instruction leave its context. -/
theorem Moved.sameContext {s t : State} (h : Moved s t) : SameContext s t where
  pc := h.pc
  msr := h.frame .msr (by simp [mem_allRegs_iff])
  spr := h.spr
  tlb := h.frame .tlb (by simp [mem_allRegs_iff])

/-! ### The exceptions of an access, from what the translation comes to -/

section

variable {i : Instr} {s u : State} {ea : Word} {store zone : Bool} {side : CacheSide}

/-- The data TLB miss (60_exceptions.md R518). -/
theorem trapsFrom_dataTlbMiss (hc : SameContext s u) (hile : s.msrBit msrILE = false)
    (hexec : exec i s = raise (.dataTlbMiss ea) u) :
    TrapsFrom i s u 0x1100#16 [.dear] fun t => t.sprVal .dear = ea := by
  have henter : exec i s = enter false s.pc 0x1100#16 (u.setDear ea) := hc.pc ▸ hexec
  exact trapsFrom_of_enter ((hc.msrBit _).trans hile) (u.setDear_prepared ea) henter
    fun t ht => ht .dear (by decide) (by decide)

/-- The data storage exception (60_exceptions.md R517). -/
theorem storageForbidden_of_raise (hc : SameContext s u) (hile : s.msrBit msrILE = false)
    (hexec : exec i s = raise (.dataStorage ea store zone) u) : StorageForbidden i s u ea store zone := by
  rw [raise_dataStorage, hc.pc] at hexec
  have hprepared := (u.setDear_prepared ea).trans (State.setEsr_prepared _ (u.storageEsr store zone))
  refine trapsFrom_of_enter ((hc.msrBit _).trans hile) hprepared hexec
    fun t ht => ⟨ht .dear (by decide) (by decide), fun k hk => ?_⟩
  have hesr : t.sprVal .esr = u.storageEsr store zone := ht .esr (by decide) (by decide)
  rw [hesr, u.bit_storageEsr store zone hk, hc.spr]
  rfl

/-- The exceptions of an access, where the one its translation comes to is the one the instruction takes. -/
theorem dataExceptions_of_raise (hc : SameContext s u) (hile : s.msrBit msrILE = false)
    (h : ∀ x, dataPlace side ea store u = .exc x u → exec i s = raise x u) : DataExceptions i s u ea store := by
  refine ⟨fun hdr hno => ?miss, fun hdr k hk => ?entry, fun hdr => ?untranslated⟩
  case miss => exact trapsFrom_dataTlbMiss hc hile (h _ (dataPlace_none ((hc.msrBit _).trans hdr) (hc.noEntry hno)))
  case entry =>
    have hplace := dataPlace_only_eq (side := side) (store := store) ((hc.msrBit _).trans hdr) (hc.onlyEntry hk)
    rw [hc.tlbEntry, hc.zoneForbids, hc.boundsForbid] at hplace
    split
    next hforbids => exact storageForbidden_of_raise hc hile (h _ (hplace.trans (if_pos hforbids)))
    next hforbids => exact ⟨_, (dataPlace_only_eq hdr hk).trans (if_neg hforbids)⟩
  case untranslated =>
    have hplace := dataPlace_untranslated (side := side) (ea := ea) (store := store) ((hc.msrBit _).trans hdr)
    rw [checkBounds, hc.boundsForbid] at hplace
    split
    next hforbids => exact storageForbidden_of_raise hc hile (h _ (hplace.trans (if_pos hforbids)))
    next hforbids => exact ⟨_, (dataPlace_untranslated hdr).trans (if_neg hforbids)⟩

end

/-! ### One access -/

section

variable {i : Instr} {s u t : State} {x : Exc} {ea v : Word} {n : Nat} {store b31 : Bool} {rt ra rb : Reg}

/-- An aligned access comes to the exception of its translation. -/
theorem access_exc (hle : s.BigEndian) (hal : ea.toNat % n = 0) (hx : dataPlace .data ea store s = .exc x t) :
    access ea n store s = .exc x t := by
  have hle' : s.msrBit msrLE = false := hle
  simp [access, hle', aligned, hal, hx]

theorem memRead_exc (h : access ea n false s = .exc x t) : memRead ea n s = .exc x t := by rw [memRead, h]; rfl

theorem memWrite_exc (h : access ea n true s = .exc x t) : memWrite ea n v s = .exc x t := by rw [memWrite, h]; rfl

/-- An instruction that begins with a part that comes to an exception takes it. -/
theorem Result.bind_finish_exc {α : Type} {r : Result α} (h : r = .exc x t) (f : α → State → Result Unit) :
    (r.bind f).finish = raise x t := by rw [h]; rfl

theorem loadUpdateWith_exc (hok : loadUpdateOk rt ra = true) (h : access ea n false s = .exc x t)
    (widen : Word → Word) : loadUpdateWith n widen rt ra ea b31 s = raise x t :=
  (loadUpdateWith_eq hok n widen ea b31 s).trans (Result.bind_finish_exc (memRead_exc h) _)

theorem storeUpdateWith_exc (hok : storeUpdateOk ra = true) (h : access ea n true s = .exc x t) :
    storeUpdateWith n v ra ea b31 s = raise x t :=
  (storeUpdateWith_eq hok n v ea b31 s).trans (Result.bind_finish_exc (memWrite_exc h) _)

/-- stwcx. makes its access when the reservation is held (45_load_store.md R388). -/
theorem execStwcxRc_exc {rs : Reg} (hres : s.reserve = true) (h : access (s.eaX ra rb) 4 true s = .exc x t) :
    execStwcxRc rs ra rb s = raise x t :=
  (if_pos hres).trans (Result.bind_finish_exc (memWrite_exc h) _)

/-! ### Cache instructions (47_cache_sync.md R420, R421) -/

/-- Out of problem state a privileged instruction goes on. -/
theorem privileged_eq (h : s.problem = false) (k : Out) : privileged s k = k := by simp [privileged, h]

theorem cacheOp_exc {side : CacheSide} {work : Place → State → Result Unit}
    (h : dataPlace side ea store s = .exc x t) : cacheOp side ea store b31 work s = raise x t := by
  rw [cacheOp, h]
  rfl

theorem execDcread_exc (hproblem : s.problem = false) (hal : (s.eaX ra rb).toNat % 4 = 0)
    (h : dataPlace .data (s.eaX ra rb) false s = .exc x t) : execDcread rt ra rb b31 s = raise x t := by
  have haligned : (!aligned (s.eaX ra rb) 4) = false := by simp [aligned, hal]
  rw [execDcread, privileged_eq hproblem, haligned]
  exact cacheOp_exc h

end

/-! ### Multiples (46_multiple_string.md R401, R402) -/

section

variable {s u : State} {x : Exc} {ra : Reg} {d : BitVec 16} {k : Nat}

/-- The registers of a multiple, cut at the one of the access numbered `k`. -/
theorem regsFrom_cut (r : Reg) (hk : k < 32 - r.toNat) :
    ∃ l, regsFrom r (multipleCount r) = regsFrom r k ++ (r + BitVec.ofNat 5 k) :: l := by
  obtain ⟨m, hm⟩ := Nat.exists_eq_add_of_lt hk
  refine ⟨regsFrom (r + BitVec.ofNat 5 (k + 1)) m, ?_⟩
  rw [multipleCount, hm, Nat.add_right_comm, regsFrom_add, regsFrom_succ, List.append_assoc, List.singleton_append]

theorem alignedThen_eq {ea : Word} {n : Nat} (h : ea.toNat % n = 0) (r : Result Unit) : alignedThen ea n s r = r := by
  simp [alignedThen, aligned, h]

/-- lmw takes the exception of the access numbered `k`, once those before it have gone through. -/
theorem execLmw_exc {rt : Reg} (hal : (s.eaD ra d).toNat % 4 = 0) (hk : k < 32 - rt.toNat)
    (hloads : wordLoads ra (rt + BitVec.ofNat 5 k) = true)
    (hfirst : loadWords ra (regsFrom rt k) (s.eaD ra d) s = .ok () u)
    (hx : access (s.eaD ra d + BitVec.ofNat 32 (4 * k)) 4 false u = .exc x u) : execLmw rt d ra s = raise x u := by
  obtain ⟨l, hl⟩ := regsFrom_cut rt hk
  refine Result.bind_finish_exc ?_ _
  rw [alignedThen_eq hal, hl, loadWords_append, hfirst, Result.ok_bind, regsFrom_length, loadWords,
    if_pos (by simpa [wordLoads] using hloads), memRead_exc hx]
  rfl

/-- The same of stmw. -/
theorem execStmw_exc {rs : Reg} (hal : (s.eaD ra d).toNat % 4 = 0) (hk : k < 32 - rs.toNat)
    (hfirst : storeWords (regsFrom rs k) (s.eaD ra d) s = .ok () u)
    (hx : access (s.eaD ra d + BitVec.ofNat 32 (4 * k)) 4 true u = .exc x u) : execStmw rs d ra s = raise x u := by
  obtain ⟨l, hl⟩ := regsFrom_cut rs hk
  refine Result.bind_finish_exc ?_ _
  rw [alignedThen_eq hal, hl, storeWords_append, hfirst, Result.ok_bind, regsFrom_length, storeWords, memWrite_exc hx]
  rfl

end

/-! ### Strings (46_multiple_string.md R403 to R406) -/

theorem immediateCount_pos (nb : BitVec 5) : 0 < immediateCount nb := by
  unfold immediateCount
  split
  next => decide
  next h => exact Nat.pos_of_ne_zero fun e => h (BitVec.eq_of_toNat_eq e)

theorem xerTBC_eq (w : Word) : xerTBC w = w.toNat % 128 := by simp [xerTBC]

section

variable {i : Instr} {s u v : State} {x : Exc} {rt rs : Reg} {ea : Word} {count k : Nat} {skip : List Reg} {b31 : Bool}

/-- The registers that a string load passes over, as the loop tests them. -/
theorem not_stringLoads_one (rt ra : Reg) (count : Nat) :
    (fun r => r == ra && r != stringFinal rt count) = fun r => !stringLoads rt count [ra] r := by
  funext r
  simp [stringLoads, stringFinal, stringReg, bne, Bool.beq_eq_decide_eq]

theorem not_stringLoads_two (rt ra rb : Reg) (count : Nat) :
    (fun r => (r == ra || r == rb) && r != stringFinal rt count) = fun r => !stringLoads rt count [ra, rb] r := by
  funext r
  simp [stringLoads, stringFinal, stringReg, bne, Bool.beq_eq_decide_eq]

/-- A string load that loads a byte is its loop. -/
theorem IsStringLoad.exec_eq (h : IsStringLoad i s rt ea count skip b31) (hcount : 0 < count) : exec i s =
    ((loadString rt (fun r => !stringLoads rt count skip r) ea (List.range count) s).bind
      fun _ u => .ok () (u.advance31 b31)).finish := by
  obtain ⟨ra, nb, rfl, rfl, rfl, rfl⟩ | ⟨ra, rb, rfl, rfl, rfl, rfl⟩ := h
  · rw [← not_stringLoads_one]
    rfl
  · rw [← xerTBC_eq] at hcount ⊢
    rw [← not_stringLoads_two]
    exact if_neg hcount.ne'

theorem IsStringLoad.count_lt (h : IsStringLoad i s rt ea count skip b31) : count < 128 := by
  obtain ⟨ra, nb, -, -, rfl, -⟩ | ⟨ra, rb, -, -, rfl, -⟩ := h
  · have := nb.isLt
    split <;> omega
  · omega

/-- A string store that stores a byte is its loop. -/
theorem IsStringStore.exec_eq (h : IsStringStore i s rs ea count b31) (hcount : 0 < count) : exec i s =
    ((storeString rs ea (List.range count) s).bind fun _ u => .ok () (u.advance31 b31)).finish := by
  obtain ⟨ra, nb, rfl, rfl, rfl⟩ | ⟨ra, rb, rfl, rfl, rfl⟩ := h
  · rfl
  · rw [← xerTBC_eq] at hcount ⊢
    exact congrArg (fun r => (Result.bind r _).finish) (if_neg hcount.ne')

/-- The bytes of a string, cut at the one numbered `k`. -/
theorem range_cut (hk : k < count) : ∃ l, List.range count = List.range k ++ k :: l := by
  obtain ⟨m, rfl⟩ := Nat.exists_eq_add_of_lt hk
  rw [Nat.add_right_comm, List.range_add, List.range_succ, List.append_assoc, List.singleton_append]
  exact ⟨_, rfl⟩

/-- The state a string load reads byte `k` in: the register of the byte is cleared before its first one (R403). -/
def State.beginByte (v : State) (rt : Reg) (k : Nat) : State :=
  if k % 4 = 0 then v.setReg (stringReg rt k) 0#32 else v

/-- A string load takes the exception of the access of byte `k`, once those before it have gone through. -/
theorem IsStringLoad.exec_exc (h : IsStringLoad i s rt ea count skip b31) (hk : k < count)
    (hloads : stringLoads rt count skip (stringReg rt k) = true)
    (hfirst : loadString rt (fun r => !stringLoads rt count skip r) ea (List.range k) s = .ok () v)
    (hx : access (ea + BitVec.ofNat 32 k) 1 false (v.beginByte rt k) = .exc x (v.beginByte rt k)) :
    exec i s = raise x (v.beginByte rt k) := by
  obtain ⟨l, hl⟩ := range_cut hk
  have hbyte : loadStringByte rt (fun r => !stringLoads rt count skip r) k (ea + BitVec.ofNat 32 k) v =
      .exc x (v.beginByte rt k) := by
    simp only [loadStringByte, hloads, Bool.not_true, Bool.false_eq_true, if_false]
    exact congrArg (Result.bind · _) (memRead_exc hx)
  rw [h.exec_eq (by omega)]
  refine Result.bind_finish_exc ?_ _
  rw [hl, loadString_append, hfirst, Result.ok_bind, loadString, hbyte]
  rfl

/-- The same of a string store. -/
theorem IsStringStore.exec_exc (h : IsStringStore i s rs ea count b31) (hk : k < count)
    (hfirst : storeString rs ea (List.range k) s = .ok () u)
    (hx : access (ea + BitVec.ofNat 32 k) 1 true u = .exc x u) : exec i s = raise x u := by
  obtain ⟨l, hl⟩ := range_cut hk
  rw [h.exec_eq (by omega)]
  refine Result.bind_finish_exc ?_ _
  rw [hl, storeString_append, hfirst, Result.ok_bind, storeString, memWrite_exc hx]
  rfl

/-- Bytes of registers that are passed over load nothing. -/
theorem loadString_pass {skips : Reg → Bool} {l : List Nat} (h : ∀ m ∈ l, skips (stringReg rt m) = true) :
    loadString rt skips ea l s = .ok () s := by
  induction l with
  | nil => rfl
  | cons m l ih =>
    obtain ⟨hm, hl⟩ := List.forall_mem_cons.1 h
    rw [loadString, loadStringByte, if_pos hm, Result.ok_bind, ih hl]

end

/-! ### The access an instruction makes first -/

/-- What the statement says of a row of its list: an instruction, the address of its access, its width and its class. -/
def AccessTraps (s : State) (row : Instr × Word × Nat × Bool) : Prop :=
  row.1.wellFormed = true → (privilegedInstr row.1 = true → s.problem = false) → row.2.1.toNat % row.2.2.1 = 0 →
    DataExceptions row.1 s s row.2.1 row.2.2.2

section

variable {i : Instr} {s : State} {ea v : Word} {n : Nat} {st b31 : Bool} {rt ra : Reg} {side : CacheSide}

/-- An instruction whose first access is one of memory. -/
theorem AccessTraps.of_access (hle : s.BigEndian) (hile : s.msrBit msrILE = false)
    (h : i.wellFormed = true → ea.toNat % n = 0 → ∀ x, access ea n st s = .exc x s → exec i s = raise x s) :
    AccessTraps s (i, ea, n, st) := fun hwf _ hal =>
  dataExceptions_of_raise (side := .data) (.refl s) hile fun x hx => h hwf hal x (access_exc hle hal hx)

theorem AccessTraps.load (hle : s.BigEndian) (hile : s.msrBit msrILE = false) {widen : Word → Word}
    (hexec : exec i s = loadWith n widen rt ea b31 s) : AccessTraps s (i, ea, n, false) :=
  .of_access hle hile fun _ _ _ hx => hexec.trans (Result.bind_finish_exc (memRead_exc hx) _)

theorem AccessTraps.loadUpdate (hle : s.BigEndian) (hile : s.msrBit msrILE = false) {widen : Word → Word}
    (hwf : i.wellFormed = loadUpdateOk rt ra) (hexec : exec i s = loadUpdateWith n widen rt ra ea b31 s) :
    AccessTraps s (i, ea, n, false) :=
  .of_access hle hile fun hok _ _ hx => hexec.trans (loadUpdateWith_exc (hwf ▸ hok) hx widen)

theorem AccessTraps.store (hle : s.BigEndian) (hile : s.msrBit msrILE = false)
    (hexec : exec i s = storeWith n v ea b31 s) : AccessTraps s (i, ea, n, true) :=
  .of_access hle hile fun _ _ _ hx => hexec.trans (Result.bind_finish_exc (memWrite_exc hx) _)

theorem AccessTraps.storeUpdate (hle : s.BigEndian) (hile : s.msrBit msrILE = false)
    (hwf : i.wellFormed = storeUpdateOk ra) (hexec : exec i s = storeUpdateWith n v ra ea b31 s) :
    AccessTraps s (i, ea, n, true) :=
  .of_access hle hile fun hok _ _ hx => hexec.trans (storeUpdateWith_exc (hwf ▸ hok) hx)

/-- A cache instruction, whose address is translated and tested as an access of its class. -/
theorem AccessTraps.of_place (hile : s.msrBit msrILE = false) (h : (privilegedInstr i = true → s.problem = false) →
    ea.toNat % n = 0 → ∀ x, dataPlace side ea st s = .exc x s → exec i s = raise x s) :
    AccessTraps s (i, ea, n, st) := fun _ hpriv hal =>
  dataExceptions_of_raise (.refl s) hile (h hpriv hal)

theorem AccessTraps.cacheOp (hile : s.msrBit msrILE = false) {work : Place → State → Result Unit}
    (hexec : exec i s = Machine.cacheOp side ea st b31 work s) : AccessTraps s (i, ea, n, st) :=
  .of_place hile fun _ _ _ hx => hexec.trans (cacheOp_exc hx)

theorem AccessTraps.privilegedCacheOp (hile : s.msrBit msrILE = false) {work : Place → State → Result Unit}
    (hpriv : privilegedInstr i = true) (hexec : exec i s = privileged s (Machine.cacheOp side ea st b31 work s)) :
    AccessTraps s (i, ea, n, st) :=
  .of_place hile fun hproblem _ _ hx =>
    (hexec.trans (privileged_eq (hproblem hpriv) _)).trans (cacheOp_exc hx)

end

theorem wordLoads_iff {ra r : Reg} : wordLoads ra r = true ↔ r ≠ ra ∨ r = 31#5 := by simp [wordLoads]

/-- The first word of an lmw is that of RT, or of the next register where RT is RA and is passed over
(46_multiple_string.md R401). -/
theorem AccessTraps.lmw {s : State} (hle : s.BigEndian) (hile : s.msrBit msrILE = false) (rt ra : Reg) (d : BitVec 16) :
    AccessTraps s (.lmw rt d ra, if rt = ra ∧ rt ≠ 31 then s.eaD ra d + 4#32 else s.eaD ra d, 4, false) := by
  have hlt := rt.isLt
  split
  next hpass =>
    obtain ⟨rfl, h31⟩ := hpass
    refine .of_access hle hile fun _ hal x hx => ?_
    have hne : rt.toNat ≠ 31 := fun e => h31 (BitVec.eq_of_toNat_eq e)
    have hal' : (s.eaD rt d).toNat % 4 = 0 := by
      rw [BitVec.toNat_add, BitVec.toNat_ofNat] at hal
      omega
    have hnext : wordLoads rt (rt + BitVec.ofNat 5 1) = true := wordLoads_iff.2 (.inl (by simp))
    have hpassed : loadWords rt (regsFrom rt 1) (s.eaD rt d) s = .ok () s := by
      simp only [regsFrom, List.range_one, List.map_cons, List.map_nil, BitVec.add_zero]
      exact if_neg (by simpa using h31)
    exact execLmw_exc hal' (by omega) hnext hpassed hx
  next hread =>
    refine .of_access hle hile fun _ hal x hx => ?_
    have hfirst : wordLoads ra (rt + BitVec.ofNat 5 0) = true := by
      rw [BitVec.add_zero, wordLoads_iff]
      by_contra hnot
      exact hread (by simpa using hnot)
    exact execLmw_exc hal (by omega) hfirst rfl (by simpa using hx)

theorem AccessTraps.stmw {s : State} (hle : s.BigEndian) (hile : s.msrBit msrILE = false) (rs ra : Reg)
    (d : BitVec 16) : AccessTraps s (.stmw rs d ra, s.eaD ra d, 4, true) :=
  .of_access hle hile fun _ hal _ hx => execStmw_exc (k := 0) hal (Nat.sub_pos_of_lt rs.isLt) rfl (by simpa using hx)

/-- The first byte of a string store. -/
theorem AccessTraps.stringStore {i : Instr} {s : State} {rs : Reg} {ea : Word} {count : Nat} {b31 : Bool}
    (hle : s.BigEndian) (hile : s.msrBit msrILE = false) (h : IsStringStore i s rs ea count b31) (hcount : 0 < count) :
    AccessTraps s (i, ea, 1, true) :=
  .of_access hle hile fun _ _ _ hx => h.exec_exc hcount rfl (by simpa using hx)

/-! ### Every access, once those before it have gone through (46_multiple_string.md R407) -/

/-- Each access of a run is as aligned as the first. -/
theorem add_mul_mod_eq_zero {ea : Word} {n : Nat} (hn : n ∣ 2 ^ 32) (h : ea.toNat % n = 0) (k : Nat) :
    (ea + BitVec.ofNat 32 (n * k)).toNat % n = 0 := by
  rw [BitVec.toNat_add, BitVec.toNat_ofNat, Nat.add_mod_mod, Nat.mod_mod_of_dvd _ hn, Nat.add_mul_mod_self_left, h]

section

variable {i : Instr} {s : State} {place : Nat → Place} {k : Nat}

theorem lmw_dataExceptions {rt ra : Reg} {d : BitVec 16} (hile : s.msrBit msrILE = false) (hk : k < 32 - rt.toNat)
    (hloads : wordLoads ra (rt + BitVec.ofNat 5 k) = true)
    (h : s.CanAccessEach (s.eaD ra d) 4 false (fun j => j < k ∧ wordLoads ra (rt + BitVec.ofNat 5 j) = true) place) :
    ∃ u, Unchanged (.storage :: .dataCache :: allRegs) s u ∧ WordsLoaded s u rt ra place k ∧
      DataExceptions (.lmw rt d ra) s u (s.eaD ra d + BitVec.ofNat 32 (4 * k)) false := by
  obtain ⟨u, hfirst, hmoved, hseen, hloaded⟩ := loadWords_first hk.le h
  have hc := hmoved.sameContext
  exact ⟨u, hmoved.loads hseen, hloaded, dataExceptions_of_raise hc hile fun x hx =>
    execLmw_exc h.aligned hk hloads hfirst
      (access_exc (hc.bigEndian h.bigEndian) (add_mul_mod_eq_zero (by decide) h.aligned k) hx)⟩

theorem stmw_dataExceptions {rs ra : Reg} {d : BitVec 16} (hile : s.msrBit msrILE = false) (hk : k < 32 - rs.toNat)
    (h : s.CanAccessEach (s.eaD ra d) 4 true (· < k) place) :
    ∃ u, Unchanged [.memory, .storage, .dataCache] s u ∧
      BytesStored s u (4 * k) (fun m => (place (m / 4)).real + BitVec.ofNat 32 (m % 4)) (s.runByte rs) ∧
      DataExceptions (.stmw rs d ra) s u (s.eaD ra d + BitVec.ofNat 32 (4 * k)) true := by
  obtain ⟨u, hfirst, hmoved, hframe, hstored⟩ := storeWords_first h
  have hc := hmoved.sameContext
  exact ⟨u, hframe, hstored, dataExceptions_of_raise hc hile fun x hx =>
    execStmw_exc h.aligned hk hfirst
      (access_exc (hc.bigEndian h.bigEndian) (add_mul_mod_eq_zero (by decide) h.aligned k) hx)⟩

theorem SameContext.beginByte {v : State} (h : SameContext s v) (rt : Reg) (k : Nat) :
    SameContext s (v.beginByte rt k) := by
  unfold State.beginByte
  split
  · exact h.setReg _ _
  · exact h

theorem Moved.beginByte {v : State} (h : Moved s v) (rt : Reg) (k : Nat) : Moved s (v.beginByte rt k) := by
  unfold State.beginByte
  split
  · exact h.setReg _ _
  · exact h

theorem State.beginByte_dataByte (v : State) (rt : Reg) (k : Nat) (a : Word) :
    (v.beginByte rt k).dataByte a = v.dataByte a := by
  unfold State.beginByte
  split
  · exact State.dataByte_congr rfl rfl a
  · rfl

/-- A byte of a string load, in whatever state the bytes before it have led to. -/
theorem IsStringLoad.dataExceptions {v : State} {rt : Reg} {ea : Word} {count : Nat} {skip : List Reg} {b31 : Bool}
    (h : IsStringLoad i s rt ea count skip b31) (hle : s.BigEndian) (hile : s.msrBit msrILE = false) (hk : k < count)
    (hloads : stringLoads rt count skip (stringReg rt k) = true) (hc : SameContext s v)
    (hfirst : loadString rt (fun r => !stringLoads rt count skip r) ea (List.range k) s = .ok () v) :
    DataExceptions i s (v.beginByte rt k) (ea + BitVec.ofNat 32 k) false :=
  have hc' := hc.beginByte rt k
  dataExceptions_of_raise hc' hile fun _ hx =>
    h.exec_exc hk hloads hfirst (access_exc (hc'.bigEndian hle) (Nat.mod_one _) hx)

/-- The first byte of a string load that is read: the registers before its own are passed over. -/
theorem stringLoad_firstByte {rt r : Reg} {ea : Word} {count j : Nat} {skip : List Reg} {b31 : Bool}
    (h : IsStringLoad i s rt ea count skip b31) (hj : 4 * j < count) (hr : r = rt + BitVec.ofNat 5 j)
    (hloads : stringLoads rt count skip r = true)
    (hpass : ∀ k < j, stringLoads rt count skip (rt + BitVec.ofNat 5 k) = false) (hle : s.BigEndian)
    (hile : s.msrBit msrILE = false) :
    DataExceptions i s (s.setReg r 0#32) (ea + BitVec.ofNat 32 (4 * j)) false := by
  have hreg : stringReg rt (4 * j) = r := by rw [hr, stringReg, Nat.mul_div_cancel_left j (by decide)]
  have hbegin : s.beginByte rt (4 * j) = s.setReg r 0#32 := by
    rw [State.beginByte, if_pos (Nat.mul_mod_right 4 j), hreg]
  rw [← hbegin]
  refine h.dataExceptions hle hile hj (hreg ▸ hloads) (.refl s) (loadString_pass fun m hm => ?_)
  have hm' := List.mem_range.1 hm
  rw [stringReg, hpass (m / 4) (by omega)]
  rfl

/-- A later byte of a string load. -/
theorem stringLoad_laterByte {rt : Reg} {ea : Word} {count : Nat} {skip : List Reg} {b31 : Bool}
    (h : IsStringLoad i s rt ea count skip b31) (hile : s.msrBit msrILE = false) (hk : k < count)
    (hloads : stringLoads rt count skip (rt + BitVec.ofNat 5 (k / 4)) = true)
    (hacc : s.CanAccessEach ea 1 false
      (fun j => j < k ∧ stringLoads rt count skip (rt + BitVec.ofNat 5 (j / 4)) = true) place) :
    ∃ u, Unchanged (.storage :: .dataCache :: allRegs) s u ∧ BytesLoaded s u rt count skip place (k + 1) k ∧
      DataExceptions i s u (ea + BitVec.ofNat 32 k) false := by
  have hk128 : k < 128 := hk.trans h.count_lt
  obtain ⟨v, hfirst, hmoved, hseen, hloaded⟩ := loadString_first hk128.le (fun _ => rfl) hacc
  exact ⟨v.beginByte rt k,
    (hmoved.beginByte rt k).loads fun a => (v.beginByte_dataByte rt k a).trans (hseen a),
    hloaded.begin hk128 hloads,
    h.dataExceptions hacc.bigEndian hile hk hloads hmoved.sameContext hfirst⟩

/-- A later byte of a string store. -/
theorem stringStore_laterByte {rs : Reg} {ea : Word} {count : Nat} {b31 : Bool}
    (h : IsStringStore i s rs ea count b31) (hile : s.msrBit msrILE = false) (hk : k < count)
    (hacc : s.CanAccessEach ea 1 true (· < k) place) :
    ∃ u, Unchanged [.memory, .storage, .dataCache] s u ∧
      BytesStored s u k (fun m => (place m).real) (s.runByte rs) ∧
      DataExceptions i s u (ea + BitVec.ofNat 32 k) true := by
  obtain ⟨u, hfirst, hmoved, hframe, hstored⟩ := storeString_first hacc
  have hc := hmoved.sameContext
  exact ⟨u, hframe, hstored, dataExceptions_of_raise hc hile fun x hx =>
    h.exec_exc hk hfirst (access_exc (hc.bigEndian hacc.bigEndian) (Nat.mod_one _) hx)⟩

end

/-- Settles O40: each row of the list is one shape of access, and a later access is made in the state that those before
it have led to. -/
theorem dataAccessesThatCannotBeTranslatedTrap : Obligations.DataAccessesThatCannotBeTranslatedTrap := by
  unfold Obligations.DataAccessesThatCannotBeTranslatedTrap
  refine ⟨?single, ?stringFirst, ?lmw, ?stmw, ?stringLoad, ?stringStore⟩
  case single =>
    intro s r ra rb d nb b31 i ea n store hmem hwf hpriv hle hile hal
    refine (?_ : ∀ row ∈ _, AccessTraps s row) (i, ea, n, store) hmem hwf hpriv hal
    simp only [List.forall_mem_append, List.forall_mem_cons, List.not_mem_nil, false_implies, implies_true, and_true]
    refine ⟨⟨⟨⟨?loads, ?stores⟩, ?stwcx⟩, ?stswx⟩, ?cache⟩
    case loads =>
      exact ⟨.load hle hile rfl, .loadUpdate hle hile rfl rfl, .loadUpdate hle hile rfl rfl, .load hle hile rfl,
        .load hle hile rfl, .loadUpdate hle hile rfl rfl, .loadUpdate hle hile rfl rfl, .load hle hile rfl,
        .load hle hile rfl, .load hle hile rfl, .loadUpdate hle hile rfl rfl, .loadUpdate hle hile rfl rfl,
        .load hle hile rfl, .of_access hle hile fun _ _ _ hx => Result.bind_finish_exc (memRead_exc hx) _,
        .load hle hile rfl, .load hle hile rfl, .loadUpdate hle hile rfl rfl, .loadUpdate hle hile rfl rfl,
        .load hle hile rfl, .lmw hle hile r ra d⟩
    case stores =>
      exact ⟨.store hle hile rfl, .storeUpdate hle hile rfl rfl, .storeUpdate hle hile rfl rfl, .store hle hile rfl,
        .store hle hile rfl, .store hle hile rfl, .storeUpdate hle hile rfl rfl, .storeUpdate hle hile rfl rfl,
        .store hle hile rfl, .store hle hile rfl, .store hle hile rfl, .storeUpdate hle hile rfl rfl,
        .storeUpdate hle hile rfl rfl, .store hle hile rfl, .stmw hle hile r ra d,
        .stringStore hle hile (.inl ⟨ra, nb, rfl, rfl, rfl⟩) (immediateCount_pos nb)⟩
    case stwcx =>
      split
      · next hres => exact List.forall_mem_singleton.2 (.of_access hle hile fun _ _ _ hx => execStwcxRc_exc hres hx)
      · exact List.forall_mem_nil _
    case stswx =>
      split
      · next hcount =>
        have hstore : IsStringStore (.stswx r ra rb b31) s r (s.eaX ra rb) _ b31 := .inr ⟨ra, rb, rfl, rfl, rfl⟩
        exact List.forall_mem_singleton.2 (.stringStore hle hile hstore (Nat.pos_of_ne_zero hcount))
      · exact List.forall_mem_nil _
    case cache =>
      exact ⟨.cacheOp (side := .data) hile rfl, .cacheOp (side := .data) hile rfl,
        .privilegedCacheOp (side := .data) hile rfl rfl, .cacheOp (side := .data) hile rfl,
        .privilegedCacheOp (side := .data) hile rfl rfl,
        .of_place hile fun hproblem hal _ hx => execDcread_exc (hproblem rfl) hal hx,
        .cacheOp (side := .instruction) hile rfl, .privilegedCacheOp (side := .instruction) hile rfl rfl,
        .of_place hile fun hproblem _ _ hx => (privileged_eq (hproblem rfl) _).trans (Result.bind_finish_exc hx _)⟩
  case stringFirst =>
    exact fun s i rt r ea count j skip b31 h hj hr hloads hpass hle hile =>
      stringLoad_firstByte h hj hr hloads hpass hle hile
  case lmw => exact fun s rt ra d k place hile hk hloads h => lmw_dataExceptions hile hk hloads h
  case stmw => exact fun s rs ra d k place hile hk h => stmw_dataExceptions hile hk h
  case stringLoad =>
    exact fun s i rt ea count k skip b31 place h hile hk hloads hacc => stringLoad_laterByte h hile hk hloads hacc
  case stringStore => exact fun s i rs ea count k b31 place h hile hk hacc => stringStore_laterByte h hile hk hacc

end Sys2Proof.Machine
end

section
/-! The multiples and strings where every access goes through. The first `k` accesses of each loop are known for every
`k`, so what is left to say is that the loop makes exactly as many as the instruction asks for, and that its end keeps
the registers and bytes it has left. A string of length 0 makes no access: its address is translated and tested for a
line fill that would meet an absent address (46_multiple_string.md R401 to R406, R408). -/

namespace Sys2Proof.Machine

/-! ### What the statements say rests on registers and bytes alone -/

section

variable {s t u : State} {place : Nat → Place} {k : Nat}

theorem WordsLoaded.congr {rt ra : Reg} (h : WordsLoaded s u rt ra place k) (ht : ∀ r, t.reg r = u.reg r) :
    WordsLoaded s t rt ra place k := fun r => (ht r).trans (h r)

theorem BytesLoaded.congr {rt : Reg} {count begun : Nat} {skip : List Reg}
    (h : BytesLoaded s u rt count skip place begun k) (ht : ∀ r, t.reg r = u.reg r) :
    BytesLoaded s t rt count skip place begun k := fun r => by
  rw [ht r]
  exact h r

theorem BytesStored.congr {address : Nat → Word} {bytes : Nat → Byte} (h : BytesStored s u k address bytes)
    (ht : ∀ a, t.dataByte a = u.dataByte a) : BytesStored s t k address bytes := by
  obtain ⟨hstored, hkept⟩ := h
  exact ⟨fun j hj hlast => (ht _).trans (hstored j hj hlast), fun x hx => (ht x).trans (hkept x hx)⟩

end

section

variable {i : Instr} {s u : State} {l : List Part} {b31 : Bool} {P : State → Prop}

/-- An instruction that is a piece of work which leads to `u`, and then the end of an instruction. -/
theorem Completes.of_work {r : Result Unit} {f : State → State}
    (hexec : exec i s = (r.bind fun _ v => .ok () ((f v).advance31 b31)).finish) (hwork : r = .ok () u)
    (hpc : (f u).pc = s.pc) (hrest : Unchanged l s (f u)) (hcr0 : cr0If b31 ⊆ l) (hdone : P ((f u).advance31 b31)) :
    Completes i s l P :=
  .of_advance31 (by rw [hexec, hwork]; rfl) hpc hrest hcr0 hdone

end

/-! ### Multiples (46_multiple_string.md R401, R402) -/

section

variable {s : State} {ra : Reg} {d : BitVec 16} {place : Nat → Place}

theorem lmw_completes {rt : Reg} (h : s.CanAccessEach (s.eaD ra d) 4 false
      (fun k => k < 32 - rt.toNat ∧ wordLoads ra (rt + BitVec.ofNat 5 k) = true) place) :
    Completes (.lmw rt d ra) s (.storage :: .dataCache :: allRegs) fun t =>
      WordsLoaded s t rt ra place (32 - rt.toNat) := by
  obtain ⟨u, hloop, hmoved, hseen, hloaded⟩ := loadWords_first le_rfl h
  exact .of_work (b31 := false) (f := id) rfl ((alignedThen_eq h.aligned _).trans hloop) hmoved.pc (hmoved.loads hseen)
    (List.nil_subset _) (hloaded.congr fun _ => rfl)

theorem stmw_completes {rs : Reg} (h : s.CanAccessEach (s.eaD ra d) 4 true (· < 32 - rs.toNat) place) :
    Completes (.stmw rs d ra) s [.memory, .storage, .dataCache] fun t =>
      BytesStored s t (4 * (32 - rs.toNat)) (fun m => (place (m / 4)).real + BitVec.ofNat 32 (m % 4))
        (s.runByte rs) := by
  obtain ⟨u, hloop, hmoved, hframe, hstored⟩ := storeWords_first h
  exact .of_work (b31 := false) (f := id) rfl ((alignedThen_eq h.aligned _).trans hloop) hmoved.pc hframe
    (List.nil_subset _) (hstored.congr (u.advance31_dataByte false))

end

/-- Settles O41: each multiple is its loop over RT or RS to GPR(31). -/
theorem multiplesMoveConsecutiveWords : Obligations.MultiplesMoveConsecutiveWords := by
  unfold Obligations.MultiplesMoveConsecutiveWords
  exact ⟨fun s rt ra d place h => lmw_completes h, fun s rs ra d place h => stmw_completes h⟩

/-! ### Strings (46_multiple_string.md R403 to R406) -/

section

variable {i : Instr} {s : State} {ea : Word} {count : Nat} {b31 : Bool} {place : Nat → Place}

theorem IsStringLoad.completes {rt : Reg} {skip : List Reg} (h : IsStringLoad i s rt ea count skip b31)
    (hcount : 0 < count) (hacc : s.CanAccessEach ea 1 false
      (fun k => k < count ∧ stringLoads rt count skip (rt + BitVec.ofNat 5 (k / 4)) = true) place) :
    Completes i s (.storage :: .dataCache :: allRegs ++ cr0If b31) fun t =>
      BytesLoaded s t rt count skip place count count := by
  obtain ⟨u, hloop, hmoved, hseen, hloaded⟩ := loadString_first h.count_lt.le (fun _ => rfl) hacc
  exact .of_work (f := id) (h.exec_eq hcount) hloop hmoved.pc ((hmoved.loads hseen).mono (List.subset_append_left _ _))
    (List.subset_append_right _ _) (hloaded.congr (u.advance31_reg b31))

theorem IsStringStore.completes {rs : Reg} (h : IsStringStore i s rs ea count b31) (hcount : 0 < count)
    (hacc : s.CanAccessEach ea 1 true (· < count) place) :
    Completes i s (.memory :: .storage :: .dataCache :: cr0If b31) fun t =>
      BytesStored s t count (fun m => (place m).real) (s.runByte rs) := by
  obtain ⟨u, hloop, hmoved, hframe, hstored⟩ := storeString_first hacc
  exact .of_work (f := id) (h.exec_eq hcount) hloop hmoved.pc (hframe.mono (List.subset_append_left _ (cr0If b31)))
    (List.subset_append_right [_, _, _] _) (hstored.congr (u.advance31_dataByte b31))

end

/-! ### Strings of length 0 (46_multiple_string.md R408) -/

section

variable {s u : State} {p : Place} {ea : Word} {store : Bool}

/-- The line fill request is tested after the translation, which may have taken a draw: the cache and the storage map
are those of the state before it. -/
theorem State.absentMiss_iff (h : dataPlace .data ea store s = .ok p u) : s.AbsentMiss p ↔
    (p.cacheable && (u.dhit p.real).isNone && u.touches .absent p.real 1) = true := by
  obtain rfl | rfl := dataPlace_state h
  · simp [State.AbsentMiss, and_assoc]
  · rw [State.dhit_congr (s := s) (t := s.drawn) rfl, touches_congr (s := s) (t := s.drawn) rfl]
    simp [State.AbsentMiss, and_assoc]

/-- The machine check of a string of length 0. -/
theorem zeroLengthCheck_stops (h : dataPlace .data ea store s = .ok p u) (hmiss : s.AbsentMiss p) :
    zeroLengthCheck ea store s = .stop .machineCheck := by
  simp only [zeroLengthCheck, h]
  exact if_pos ((State.absentMiss_iff h).1 hmiss)

/-- Otherwise nothing happens but the draw of a translation: its exception is not raised. -/
theorem zeroLengthCheck_passes (h : ∀ p u, dataPlace .data ea store s = .ok p u → ¬ s.AbsentMiss p) :
    ∃ u, zeroLengthCheck ea store s = .ok () u ∧ (u = s ∨ u = s.drawn) := by
  obtain ⟨p, u, hplace⟩ | ⟨x, u, hplace⟩ := dataPlace_ok_or_exc .data ea store s
  · refine ⟨u, ?_, dataPlace_state hplace⟩
    simp only [zeroLengthCheck, hplace]
    exact if_neg fun hmiss => h p u hplace ((State.absentMiss_iff hplace).2 hmiss)
  · refine ⟨u, ?_, dataPlace_exc_state hplace⟩
    simp only [zeroLengthCheck, hplace]

/-- A draw changes no piece. -/
theorem Unchanged.of_draw (h : u = s ∨ u = s.drawn) (l : List Part) : Unchanged l s u := by
  obtain rfl | rfl := h
  · exact .refl l _
  · exact unchanged_drawn s l

theorem State.pc_of_draw (h : u = s ∨ u = s.drawn) : u.pc = s.pc := by
  obtain rfl | rfl := h <;> rfl

variable {rt rs ra rb : Reg} {b31 : Bool}

/-- lswx of length 0 is the test of its address, then RT is drawn. -/
theorem exec_lswx_zero (hcount : s.xer.toNat % 128 = 0) : exec (.lswx rt ra rb b31) s =
    ((zeroLengthCheck (s.eaX ra rb) false s).bind
      fun _ u => .ok () ((u.setReg rt u.undef).drawn.advance31 b31)).finish :=
  if_pos ((xerTBC_eq s.xer).trans hcount)

/-- stswx of length 0 is the test of its address. -/
theorem exec_stswx_zero (hcount : s.xer.toNat % 128 = 0) : exec (.stswx rs ra rb b31) s =
    ((zeroLengthCheck (s.eaX ra rb) true s).bind fun _ u => .ok () (u.advance31 b31)).finish :=
  congrArg (fun r => (Result.bind r _).finish) (if_pos ((xerTBC_eq s.xer).trans hcount))

theorem lswx_zero_completes (hcount : s.xer.toNat % 128 = 0)
    (h : ∀ p u, dataPlace .data (s.eaX ra rb) false s = .ok p u → ¬ s.AbsentMiss p) :
    Completes (.lswx rt ra rb b31) s (.reg rt :: cr0If b31) fun _ => True := by
  obtain ⟨u, hcheck, hdraw⟩ := zeroLengthCheck_passes h
  have hreg : Unchanged [.reg rt] s (u.setReg rt u.undef).drawn :=
    ((Unchanged.of_draw hdraw _).trans' (unchanged_setReg u rt u.undef)).trans' (unchanged_drawn _ _)
  have hpc : u.pc = s.pc := State.pc_of_draw hdraw
  exact .of_work (f := fun v => (v.setReg rt v.undef).drawn) (exec_lswx_zero hcount) hcheck hpc
    (hreg.mono (by simp)) (List.subset_cons_self _ _) trivial

theorem stswx_zero_completes (hcount : s.xer.toNat % 128 = 0)
    (h : ∀ p u, dataPlace .data (s.eaX ra rb) true s = .ok p u → ¬ s.AbsentMiss p) :
    Completes (.stswx rs ra rb b31) s (cr0If b31) fun _ => True := by
  obtain ⟨u, hcheck, hdraw⟩ := zeroLengthCheck_passes h
  exact .of_work (f := id) (exec_stswx_zero hcount) hcheck (State.pc_of_draw hdraw) (.of_draw hdraw _)
    (List.Subset.refl _) trivial

end

/-- Settles O42: a string load is its loop over the bytes of its count, and with a count of 0 the test of its
address. -/
theorem loadStringFillsTheRegisters : Obligations.LoadStringFillsTheRegisters := by
  unfold Obligations.LoadStringFillsTheRegisters
  refine ⟨fun s i rt ea count skip b31 place h hcount hacc => h.completes hcount hacc,
    fun s rt ra rb b31 hcount => ⟨lswx_zero_completes hcount, fun p u hplace hmiss => ?_⟩⟩
  rw [exec_lswx_zero hcount, zeroLengthCheck_stops hplace hmiss]
  rfl

/-- Settles O43: a string store is its loop over the bytes of its count, and with a count of 0 the test of its
address. -/
theorem storeStringEmptiesTheRegisters : Obligations.StoreStringEmptiesTheRegisters := by
  unfold Obligations.StoreStringEmptiesTheRegisters
  refine ⟨fun s i rs ea count b31 place h hcount hacc => h.completes hcount hacc,
    fun s rs ra rb b31 hcount => ⟨stswx_zero_completes hcount, fun p u hplace hmiss => ?_⟩⟩
  rw [exec_stswx_zero hcount, zeroLengthCheck_stops hplace hmiss]
  rfl

end Sys2Proof.Machine
end

section
/-! What the work of an instruction on main storage and the caches keeps in order: no block in two lines of a cache,
clean lines that agree with main storage, and the registers of the system as they were (47_cache_sync.md R422, R428,
60_exceptions.md R535). -/

namespace Sys2Proof.Machine

/-! ### The relations -/

/-- The order of main storage and the caches that every step keeps. -/
structure KeepsOrder (s t : State) : Prop where
  coherent : s.MemoryCoherent → t.MemoryCoherent
  instrLines : s.InstrLinesUnique → t.InstrLinesUnique

theorem KeepsOrder.refl (s : State) : KeepsOrder s s := ⟨id, id⟩

theorem KeepsOrder.trans {s t u : State} (h1 : KeepsOrder s t) (h2 : KeepsOrder t u) : KeepsOrder s u :=
  ⟨h2.coherent ∘ h1.coherent, h2.instrLines ∘ h1.instrLines⟩

/-- The registers that a program in problem state does not write: the MSR, the special purpose registers but XER, LR
and CTR, the TLB and the device control registers (60_exceptions.md R535, R536). -/
def State.system (s : State) : Word × Sprs × Vector TlbEntry 64 × Vector Word 34 := (s.msr, s.spr, s.tlb, s.dcr)

/-- Main storage and the two caches. -/
def State.memories (s : State) : List Host.Cell × Vector DClass 32 × Vector IClass 64 := (s.mem, s.dcache, s.icache)

theorem State.instrLinesUnique_congr {s t : State} (h : t.icache = s.icache) (hs : s.InstrLinesUnique) :
    t.InstrLinesUnique := by
  have hl : ∀ c side, t.iline c side = s.iline c side := fun c side => by rw [State.iline, State.icls, h]; rfl
  intro c
  rw [hl, hl]
  exact hs c

theorem KeepsOrder.of_memories {s t : State} (h : t.memories = s.memories) : KeepsOrder s t := by
  simp only [State.memories, Prod.mk.injEq] at h
  obtain ⟨hm, hd, hi⟩ := h
  exact ⟨State.memoryCoherent_congr hd hm, State.instrLinesUnique_congr hi⟩

/-- What the work of an instruction keeps: the order of the caches, and the registers of the system. -/
structure WorkOrder (s t : State) : Prop extends KeepsOrder s t where
  system : t.system = s.system

/-- Registers are written that are none of the system. -/
structure UserFrame (s t : State) : Prop where
  memories : t.memories = s.memories
  system : t.system = s.system

namespace UserFrame

theorem refl (s : State) : UserFrame s s := ⟨rfl, rfl⟩

theorem trans {s t u : State} (h1 : UserFrame s t) (h2 : UserFrame t u) : UserFrame s u :=
  ⟨h2.memories.trans h1.memories, h2.system.trans h1.system⟩

theorem workOrder {s t : State} (h : UserFrame s t) : WorkOrder s t := ⟨.of_memories h.memories, h.system⟩

theorem of_draw {s t : State} (h : t = s ∨ t = s.drawn) : UserFrame s t := by
  obtain rfl | rfl := h <;> exact ⟨rfl, rfl⟩

end UserFrame

/-- What the work on main storage and the data cache leaves alone. -/
def State.outsideData (s : State) : (Word × Sprs × Vector TlbEntry 64 × Vector Word 34) × Vector IClass 64 :=
  (s.system, s.icache)

/-- Work on main storage and the data cache. -/
def DataFrame (s t : State) : Prop := t.outsideData = s.outsideData

namespace DataFrame

theorem refl (s : State) : DataFrame s s := rfl

theorem trans {s t u : State} (h1 : DataFrame s t) (h2 : DataFrame t u) : DataFrame s u := Eq.trans h2 h1

/-- What each turn of a loop leaves alone, the loop leaves alone. -/
theorem foldl {ι : Type} {f : State → ι → State} (hf : ∀ s i, DataFrame s (f s i)) (l : List ι) (s : State) :
    DataFrame s (l.foldl f s) := by
  induction l generalizing s with
  | nil => exact refl s
  | cons i l ih => exact (hf s i).trans (ih (f s i))

/-- Two parts after one another that raise no exception. -/
theorem goes_bind {α β : Type} {s : State} {r : Result α} {f : α → State → Result β} (hr : r.Goes (DataFrame s))
    (hf : ∀ a t, (f a t).Goes (DataFrame t)) : (r.bind f).Goes (DataFrame s) :=
  Result.goes_bind hr fun a t h => (hf a t).imp fun _ => h.trans

end DataFrame

namespace WorkOrder

theorem refl (s : State) : WorkOrder s s := ⟨.refl s, rfl⟩

theorem trans {s t u : State} (h1 : WorkOrder s t) (h2 : WorkOrder t u) : WorkOrder s u :=
  ⟨h1.toKeepsOrder.trans h2.toKeepsOrder, h2.system.trans h1.system⟩

/-- What each turn of a loop keeps, the loop keeps. -/
theorem foldl {ι : Type} {f : State → ι → State} (hf : ∀ s i, WorkOrder s (f s i)) (l : List ι) (s : State) :
    WorkOrder s (l.foldl f s) := by
  induction l generalizing s with
  | nil => exact refl s
  | cons i l ih => exact (hf s i).trans (ih (f s i))

/-- Two parts after one another. -/
theorem bind {α β : Type} {s : State} {r : Result α} {f : α → State → Result β} (hr : r.All (WorkOrder s))
    (hf : ∀ a t, (f a t).All (WorkOrder t)) : (r.bind f).All (WorkOrder s) :=
  Result.all_bind hr fun a t h => (hf a t).imp fun _ => h.trans

theorem of_data {s t : State} (h : DataFrame s t) (hc : s.MemoryCoherent → t.MemoryCoherent) : WorkOrder s t :=
  ⟨⟨hc, State.instrLinesUnique_congr (congrArg Prod.snd h)⟩, congrArg Prod.fst h⟩

/-- A part on the data side that raises no exception. -/
theorem of_goes {α : Type} {s : State} {r : Result α} (hg : r.Goes (DataFrame s))
    (hc : ∀ a t, s.MemoryCoherent → r = .ok a t → t.MemoryCoherent) : r.All (WorkOrder s) := by
  cases r with
  | ok a t => exact of_data hg fun hs => hc a t hs rfl
  | exc x t => exact hg.elim
  | stop _ => trivial
  | refuse _ => trivial

end WorkOrder

theorem Result.ok_workOrder {α : Type} {a : α} {s t : State} (h : WorkOrder s t) :
    (Result.ok a t).All (WorkOrder s) := h

/-! ### Main storage and the data cache: what is left alone -/

theorem State.putStorage_dataFrame (s : State) (a : Word) (b : Byte) : DataFrame s (s.putStorage a b) := by
  unfold State.putStorage
  split
  · exact .refl s
  · rfl

theorem State.putBlock_dataFrame (s : State) (base : Word) (data : Vector Byte 16) :
    DataFrame s (s.putBlock base data) := .foldl (fun _ _ => State.putStorage_dataFrame _ _ _) _ s

theorem State.setDline_dataFrame (s : State) (c : BitVec 5) (side : Side) (l : DLine) :
    DataFrame s (s.setDline c side l) := rfl

theorem State.setDlru_dataFrame (s : State) (c : BitVec 5) (v : Bool) : DataFrame s (s.setDlru c v) := rfl

theorem State.keepOld_dataFrame (s : State) (a : Word) (b : Byte) : DataFrame s (s.keepOld a b) := rfl

theorem State.keepDline_dataFrame (s : State) (c : BitVec 5) (side : Side) : DataFrame s (s.keepDline c side) := by
  obtain ⟨l, h⟩ := s.keepDline_stale c side
  rw [h]
  rfl

theorem State.discardDline_dataFrame (s : State) (c : BitVec 5) (side : Side) :
    DataFrame s (s.discardDline c side) := (s.keepDline_dataFrame c side).trans (State.setDline_dataFrame _ _ _ _)

theorem State.putData_dataFrame (s : State) (p : Place) (a : Word) (b : Byte) : DataFrame s (s.putData p a b) := by
  unfold State.putData
  split
  next => exact s.putStorage_dataFrame a b
  next side _ =>
    simp only
    split
    · rfl
    · exact ((s.keepOld_dataFrame a _).trans (State.setDline_dataFrame _ _ side _)).trans
        (State.putStorage_dataFrame _ a b)

theorem checkStorage_dataFrame (a : Word) (n : Nat) (s : State) : (checkStorage a n s).Goes (DataFrame s) := by
  unfold checkStorage
  split
  · trivial
  · split
    · trivial
    · exact .refl s

theorem copyBack_dataFrame (c : BitVec 5) (side : Side) (s : State) : (copyBack c side s).Goes (DataFrame s) := by
  unfold copyBack
  simp only
  split
  · exact DataFrame.goes_bind (checkStorage_dataFrame _ _ s) fun _ t => t.putBlock_dataFrame _ _
  · exact .refl s

theorem castOut_dataFrame (c : BitVec 5) (side : Side) (s : State) : (castOut c side s).Goes (DataFrame s) := by
  unfold castOut
  split
  · exact copyBack_dataFrame c side s
  · exact .refl s

/-- A line is filled after a draw, and the LRU bit is written. -/
theorem dfill_dataFrame (a : Word) (side : Side) (v : Bool) (s : State) :
    ((dfill a side s.drawn).bind fun _ t => .ok () (t.setDlru (dclass a) v)).Goes (DataFrame s) :=
  DataFrame.goes_bind (DataFrame.goes_bind (castOut_dataFrame _ side s.drawn) fun _ t => t.setDline_dataFrame _ _ _)
    fun _ t => t.setDlru_dataFrame _ _

theorem dtouch_dataFrame (p : Place) (s : State) : (dtouch p s).Goes (DataFrame s) := by
  unfold dtouch
  simp only
  split
  · exact .refl s
  · split
    · rfl
    · split
      · exact dfill_dataFrame _ _ _ s
      · rfl

theorem flushBlock_dataFrame (p : Place) (s : State) : (flushBlock p s).Goes (DataFrame s) := by
  unfold flushBlock
  split
  · exact .refl s
  · exact DataFrame.goes_bind (copyBack_dataFrame _ _ s) fun _ t => t.setDline_dataFrame _ _ _

theorem storeBlock_dataFrame (p : Place) (s : State) : (storeBlock p s).Goes (DataFrame s) := by
  unfold storeBlock
  split
  · exact .refl s
  · exact DataFrame.goes_bind (copyBack_dataFrame _ _ s) fun _ t => t.setDline_dataFrame _ _ _

theorem invalidateBlock_dataFrame (p : Place) (s : State) : (invalidateBlock p s).Goes (DataFrame s) := by
  unfold invalidateBlock
  split
  · exact .refl s
  · exact s.discardDline_dataFrame _ _

theorem touchBlock_dataFrame (p : Place) (s : State) : (touchBlock p s).Goes (DataFrame s) := by
  unfold touchBlock
  split
  · exact .refl s
  · split
    · trivial
    · exact dfill_dataFrame _ _ _ s

theorem zeroBlockAt_dataFrame {ea : Word} {p : Place} (hp : (!p.cacheable || p.writeThrough) = false) (s : State) :
    (zeroBlockAt ea p s).Goes (DataFrame s) := by
  unfold zeroBlockAt
  rw [if_neg (by simp [hp])]
  split
  · trivial
  · split
    · exact (s.keepDline_dataFrame _ _).trans (State.setDline_dataFrame _ _ _ _)
    · exact DataFrame.goes_bind (castOut_dataFrame _ _ s.drawn) fun _ t =>
        (t.setDline_dataFrame _ _ _).trans (State.setDlru_dataFrame _ _ _)

/-! ### Main storage and the data cache: the order -/

theorem State.putData_workOrder (s : State) (p : Place) (a : Word) (b : Byte) : WorkOrder s (s.putData p a b) :=
  .of_data (s.putData_dataFrame p a b) fun hs => (putData_spec hs p a b).1

theorem State.putValue_workOrder (s : State) (p : Place) (n : Nat) (v : Word) : WorkOrder s (s.putValue p n v) :=
  .foldl (fun _ _ => State.putData_workOrder _ _ _ _) _ s

theorem State.discardDline_workOrder (s : State) (c : BitVec 5) (side : Side) : WorkOrder s (s.discardDline c side) :=
  .of_data (s.discardDline_dataFrame c side) fun hs => (discardDline_spec hs c side).1

theorem dtouch_workOrder (p : Place) (s : State) : (dtouch p s).All (WorkOrder s) :=
  WorkOrder.of_goes (dtouch_dataFrame p s) fun _ _ hs h => (dtouch_keeps hs h).coherent

theorem flushBlock_workOrder (p : Place) (s : State) : (flushBlock p s).All (WorkOrder s) :=
  WorkOrder.of_goes (flushBlock_dataFrame p s) fun _ _ hs h => (flushBlock_ok hs h).1.coherent

theorem storeBlock_workOrder (p : Place) (s : State) : (storeBlock p s).All (WorkOrder s) :=
  WorkOrder.of_goes (storeBlock_dataFrame p s) fun _ _ hs h => (storeBlock_ok hs h).1.coherent

theorem invalidateBlock_workOrder (p : Place) (s : State) : (invalidateBlock p s).All (WorkOrder s) :=
  WorkOrder.of_goes (invalidateBlock_dataFrame p s) fun _ _ hs h => (invalidateBlock_ok hs h).1

theorem touchBlock_workOrder (p : Place) (s : State) : (touchBlock p s).All (WorkOrder s) :=
  WorkOrder.of_goes (touchBlock_dataFrame p s) fun _ _ hs h => (touchBlock_ok hs h).1.coherent

/-- dcbz zeroes a block, or raises its exception in the state it was given. -/
theorem zeroBlockAt_workOrder (ea : Word) (p : Place) (s : State) : (zeroBlockAt ea p s).All (WorkOrder s) := by
  by_cases hp : (!p.cacheable || p.writeThrough) = true
  · rw [zeroBlockAt, if_pos hp]
    exact .refl s
  · exact WorkOrder.of_goes (zeroBlockAt_dataFrame (Bool.not_eq_true _ ▸ hp) s) fun _ _ hs h => (zeroBlockAt_ok hs h).1

/-! ### The instruction cache -/

/-- A line that is invalid, or whose block the other side does not hold, leaves the lines unique. -/
theorem State.instrLinesUnique_setIline {s : State} (hs : s.InstrLinesUnique) {c : BitVec 6} {side : Side} {l : ILine}
    (hl : l.v = true → ∀ other, (s.iline c other).v = true → other ≠ side → (s.iline c other).tag ≠ l.tag) :
    (s.setIline c side l).InstrLinesUnique := by
  intro c'
  simp only [State.iline_setIline]
  by_cases hc : c' = c
  · subst hc
    cases side with
    | a =>
      simp only [true_and, if_true, reduceCtorEq, if_false]
      exact fun ha hb => (hl ha .b hb (by decide)).symm
    | b =>
      simp only [true_and, if_true, reduceCtorEq, if_false]
      exact fun ha hb => hl hb .a ha (by decide)
  · simp only [hc, false_and, if_false]
    exact hs c'

theorem State.dropIline_workOrder (s : State) (c : BitVec 6) (side : Side) : WorkOrder s (s.dropIline c side) := by
  obtain ⟨l, h | ⟨-, h⟩⟩ := s.dropIline_eq c side
  · rw [h]
    exact ⟨⟨State.memoryCoherent_congr rfl rfl, fun hs =>
      State.instrLinesUnique_setIline (s := s.setStale l) hs fun hv => by cases hv⟩, rfl⟩
  · rw [h]
    exact .refl s

/-- A block that is read in is in no other line: it missed. -/
theorem State.ifill_workOrder {s : State} {a : Word} (hmiss : s.ihit a = none) (side : Side) (v : Bool) :
    WorkOrder s ((s.ifill a side).setIlru (iclass a) v).drawn := by
  have hdrop := s.dropIline_workOrder (iclass a) side
  refine ⟨⟨fun hs =>
    State.memoryCoherent_congr (s := s.dropIline (iclass a) side) rfl rfl (hdrop.coherent hs), fun hs => ?_⟩,
    hdrop.system⟩
  have hfill : (s.ifill a side).InstrLinesUnique := by
    refine State.instrLinesUnique_setIline (hdrop.instrLines hs) fun _ other hv hne => ?_
    rw [State.iline_dropIline, if_neg fun h => hne h.2] at hv ⊢
    exact (s.ihit_eq_none_iff a).1 hmiss other hv
  intro c
  have hline : ∀ sd, ((s.ifill a side).setIlru (iclass a) v).drawn.iline c sd = (s.ifill a side).iline c sd :=
    fun sd => State.iline_setIlru _ _ c sd v
  rw [hline, hline]
  exact hfill c

theorem State.itouch_workOrder (s : State) (p : Place) : WorkOrder s (s.itouch p) := by
  unfold State.itouch
  simp only
  split
  · exact .refl s
  · split
    next =>
      refine ⟨⟨State.memoryCoherent_congr rfl rfl, fun hs c => ?_⟩, rfl⟩
      have hline : ∀ sd, ((s.setIlru (iclass p.real) (s.undef.getLsbD 2)).drawn).iline c sd = s.iline c sd :=
        fun sd => State.iline_setIlru _ _ c sd _
      rw [hline, hline]
      exact hs c
    next hmiss =>
      split
      · exact State.ifill_workOrder hmiss _ _
      · exact UserFrame.workOrder ⟨rfl, rfl⟩

theorem iinvalidateBlock_workOrder (p : Place) (s : State) : (iinvalidateBlock p s).All (WorkOrder s) := by
  unfold iinvalidateBlock
  split
  · exact .refl s
  · exact s.dropIline_workOrder _ _

theorem itouchBlock_workOrder (p : Place) (s : State) : (itouchBlock p s).All (WorkOrder s) := by
  unfold itouchBlock
  split
  next => exact .refl s
  next hc =>
    simp only [Bool.or_eq_true, not_or, Bool.not_eq_true, Option.isSome_eq_false_iff, Option.isNone_iff_eq_none] at hc
    obtain ⟨⟨-, hmiss⟩, -⟩ := hc
    split
    · trivial
    · exact State.ifill_workOrder hmiss _ _

/-! ### Accesses -/

/-- Translation takes a draw at most, its exceptions included. -/
theorem dataPlace_userFrame (side : CacheSide) (ea : Word) (store : Bool) (s : State) :
    (dataPlace side ea store s).All (UserFrame s) := by
  cases h : dataPlace side ea store s with
  | ok p t => exact .of_draw (dataPlace_state h)
  | exc x t => exact .of_draw (dataPlace_exc_state h)
  | stop _ => trivial
  | refuse _ => trivial

theorem dataPlace_workOrder (side : CacheSide) (ea : Word) (store : Bool) (s : State) :
    (dataPlace side ea store s).All (WorkOrder s) := (dataPlace_userFrame side ea store s).imp fun _ => (·.workOrder)

theorem checkAccess_workOrder (p : Place) (n : Nat) (store : Bool) (s : State) :
    (checkAccess p n store s).All (WorkOrder s) := by
  unfold checkAccess
  split
  · exact WorkOrder.of_goes (checkStorage_dataFrame _ _ s) fun _ _ hs h => checkStorage_ok h ▸ hs
  · exact .refl s

theorem access_workOrder (ea : Word) (n : Nat) (store : Bool) (s : State) :
    (access ea n store s).All (WorkOrder s) := by
  unfold access
  split
  · trivial
  · split
    · exact .refl s
    · exact WorkOrder.bind (dataPlace_workOrder .data ea store s) fun p s1 =>
        WorkOrder.bind (checkAccess_workOrder p n store s1) fun _ s2 =>
          WorkOrder.bind (dtouch_workOrder p s2) fun _ s3 => .refl s3

theorem memRead_workOrder (ea : Word) (n : Nat) (s : State) : (memRead ea n s).All (WorkOrder s) :=
  WorkOrder.bind (access_workOrder ea n false s) fun _ t => .refl t

theorem memWrite_workOrder (ea : Word) (n : Nat) (v : Word) (s : State) : (memWrite ea n v s).All (WorkOrder s) :=
  WorkOrder.bind (access_workOrder ea n true s) fun p t => t.putValue_workOrder p n v

/-! ### Multiples and strings -/

theorem State.setReg_userFrame (s : State) (r : Reg) (v : Word) : UserFrame s (s.setReg r v) := ⟨rfl, rfl⟩

theorem State.setReg_workOrder (s : State) (r : Reg) (v : Word) : WorkOrder s (s.setReg r v) :=
  (s.setReg_userFrame r v).workOrder

theorem loadWords_workOrder (ra : Reg) (rs : List Reg) (ea : Word) (s : State) :
    (loadWords ra rs ea s).All (WorkOrder s) := by
  induction rs generalizing ea s with
  | nil => exact .refl s
  | cons r rest ih =>
    unfold loadWords
    split
    · exact WorkOrder.bind (memRead_workOrder ea 4 s) fun w t => (ih _ _).imp fun _ => (t.setReg_workOrder r w).trans
    · exact ih _ s

theorem storeWords_workOrder (rs : List Reg) (ea : Word) (s : State) : (storeWords rs ea s).All (WorkOrder s) := by
  induction rs generalizing ea s with
  | nil => exact .refl s
  | cons r rest ih => exact WorkOrder.bind (memWrite_workOrder ea 4 _ s) fun _ t => ih _ t

theorem alignedThen_workOrder (ea : Word) (n : Nat) {s : State} {k : Result Unit} (hk : k.All (WorkOrder s)) :
    (alignedThen ea n s k).All (WorkOrder s) := by
  unfold alignedThen
  split
  · exact .refl s
  · exact hk

theorem loadStringByte_workOrder (rt : Reg) (skip : Reg → Bool) (k : Nat) (ea : Word) (s : State) :
    (loadStringByte rt skip k ea s).All (WorkOrder s) := by
  have hclear : WorkOrder s (if k % 4 = 0 then s.setReg (stringReg rt k) 0#32 else s) := by
    split
    · exact s.setReg_workOrder _ _
    · exact .refl s
  unfold loadStringByte
  simp only
  split
  · exact .refl s
  · exact WorkOrder.bind ((memRead_workOrder ea 1 _).imp fun _ => hclear.trans) fun _ t => t.setReg_workOrder _ _

theorem loadString_workOrder (rt : Reg) (skip : Reg → Bool) (ea : Word) (ks : List Nat) (s : State) :
    (loadString rt skip ea ks s).All (WorkOrder s) := by
  induction ks generalizing s with
  | nil => exact .refl s
  | cons k rest ih => exact WorkOrder.bind (loadStringByte_workOrder rt skip k _ s) fun _ t => ih t

theorem storeString_workOrder (rs : Reg) (ea : Word) (ks : List Nat) (s : State) :
    (storeString rs ea ks s).All (WorkOrder s) := by
  induction ks generalizing s with
  | nil => exact .refl s
  | cons k rest ih => exact WorkOrder.bind (memWrite_workOrder _ 1 _ s) fun _ t => ih t

theorem zeroLengthCheck_workOrder (ea : Word) (store : Bool) (s : State) :
    (zeroLengthCheck ea store s).All (WorkOrder s) := by
  have hplace := dataPlace_workOrder .data ea store s
  unfold zeroLengthCheck
  split <;> rename_i e <;> rw [e] at hplace
  · split
    · trivial
    · exact hplace
  · exact hplace
  · trivial
  · trivial

end Sys2Proof.Machine
end

section
/-! What every step keeps in order, and what a step in problem state may do to the registers of the system: enter a
vector, or nothing (47_cache_sync.md R422, R428, 60_exceptions.md R513, R535, R536). -/

namespace Sys2Proof.Machine

/-! ### The relations -/

/-- A step has left problem state for a vector under EVPR (60_exceptions.md R502, R503). -/
structure EntersVector (s t : State) : Prop where
  supervisor : t.problem = false
  vector : ∃ offset ∈ vectorOffsets, t.pc = vectorAddress s.spr.evpr offset

/-- A step has left the registers of the system as they were, but for DBSR where it ends in Debug Stop
(48_system.md R471, 60_exceptions.md R536). -/
structure SystemKept (s t : State) : Prop where
  msr : t.msr = s.msr
  spr : ∀ r : Spr, r ∉ [Spr.xer, .lr, .ctr] → ¬ (r = .dbsr ∧ t.debugStopped = true) → t.sprVal r = s.sprVal r
  tlb : t.tlb = s.tlb
  dcr : t.dcr = s.dcr

/-- What every step keeps: the order of the caches, and in problem state the registers of the system unless it is an
entry. -/
structure StepOrder (s t : State) : Prop extends KeepsOrder s t where
  system : s.problem = true → EntersVector s t ∨ SystemKept s t

theorem State.sprVal_of_spr {s t : State} (h : t.spr = s.spr) {r : Spr} (hr : r ∉ [Spr.xer, .lr, .ctr]) :
    t.sprVal r = s.sprVal r := by
  cases r with
  | xer | lr | ctr => exact absurd hr (by decide)
  | _ => simp only [State.sprVal, h]

theorem SystemKept.of_system {s t : State} (h : t.system = s.system) : SystemKept s t := by
  simp only [State.system, Prod.mk.injEq] at h
  obtain ⟨hmsr, hspr, htlb, hdcr⟩ := h
  exact ⟨hmsr, fun _ hr _ => State.sprVal_of_spr hspr hr, htlb, hdcr⟩

theorem WorkOrder.stepOrder {s t : State} (h : WorkOrder s t) : StepOrder s t :=
  ⟨h.toKeepsOrder, fun _ => .inr (.of_system h.system)⟩

theorem UserFrame.stepOrder {s t : State} (h : UserFrame s t) : StepOrder s t := h.workOrder.stepOrder

/-- The work of an instruction, then its end. -/
theorem WorkOrder.trans_step {s t u : State} (h1 : WorkOrder s t) (h2 : StepOrder t u) : StepOrder s u := by
  refine ⟨h1.toKeepsOrder.trans h2.toKeepsOrder, fun hs => ?_⟩
  have hsys := h1.system
  simp only [State.system, Prod.mk.injEq] at hsys
  obtain ⟨hmsr, hspr, htlb, hdcr⟩ := hsys
  have ht : t.problem = true := by rwa [State.problem, State.msrBit, hmsr]
  obtain h | h := h2.system ht
  · exact .inl ⟨h.supervisor, hspr ▸ h.vector⟩
  · exact .inr ⟨h.msr.trans hmsr, fun r hr hd => (h.spr r hr hd).trans (State.sprVal_of_spr hspr hr),
      h.tlb.trans htlb, h.dcr.trans hdcr⟩

/-! ### Registers and the end of an instruction -/

theorem State.drawCr0_userFrame (s : State) (b : Bool) : UserFrame s (s.drawCr0 b) := by
  cases b <;> exact ⟨rfl, rfl⟩

theorem State.recordOv_userFrame (s : State) (oe ov : Bool) : UserFrame s (s.recordOv oe ov) := by
  cases oe <;> exact ⟨rfl, rfl⟩

theorem State.record_userFrame (s : State) (rc : Bool) (v : Word) : UserFrame s (s.record rc v) := by
  cases rc <;> exact ⟨rfl, rfl⟩

theorem State.link_userFrame (s : State) (lk : Bool) : UserFrame s (s.link lk) := by
  cases lk <;> exact ⟨rfl, rfl⟩

theorem UserFrame.advance {s t : State} (h : UserFrame s t) : UserFrame s t.advance := h.trans ⟨rfl, rfl⟩

theorem UserFrame.advance31 {s t : State} (h : UserFrame s t) (b31 : Bool) : UserFrame s (t.advance31 b31) :=
  (h.trans (t.drawCr0_userFrame b31)).advance

theorem State.advance31_userFrame (s : State) (b31 : Bool) : UserFrame s (s.advance31 b31) :=
  (UserFrame.refl s).advance31 b31

theorem State.advance31_order (s : State) (b31 : Bool) : KeepsOrder s (s.advance31 b31) :=
  (s.advance31_userFrame b31).workOrder.toKeepsOrder

theorem next_advance_stepOrder {s t : State} (h : UserFrame s t) : Out.All (StepOrder s) (.next t.advance) :=
  h.advance.stepOrder

theorem next_advance31_stepOrder {s t : State} {b31 : Bool} (h : UserFrame s t) :
    Out.All (StepOrder s) (.next (t.advance31 b31)) := (h.advance31 b31).stepOrder

/-! ### Entries -/

/-- An entry leaves problem state (60_exceptions.md R502). -/
theorem Entered.supervisor {critical : Bool} {saved : Word} {offset : BitVec 16} {also : List Spr} {s t : State}
    (h : Entered critical saved offset also s t) : t.problem = false := by
  have hpr := h.msr msrPR (by decide)
  rwa [if_pos (by cases critical <;> decide)] at hpr

/-- An entry leaves main storage and the caches, and ends in supervisor state at its vector. -/
theorem enter_stepOrder (critical : Bool) (saved : Word) {offset : BitVec 16} (ho : offset ∈ vectorOffsets)
    {s u : State} (hu : u.memories = s.memories) (he : u.spr.evpr = s.spr.evpr) :
    Out.All (StepOrder s) (enter critical saved offset u) := by
  refine Out.all_iff.2 fun t h => ?_
  have hentered := enter_spec h
  have hmem : t.memories = u.memories := by
    unfold enter at h
    split at h
    · cases h
    · obtain rfl := Host.Outcome.next.inj h
      cases critical <;> rfl
  exact ⟨.of_memories (hmem.trans hu), fun _ => .inl ⟨hentered.supervisor, offset, ho, he ▸ hentered.pc⟩⟩

theorem raise_stepOrder (x : Exc) (s : State) : Out.All (StepOrder s) (raise x s) := by
  cases x with
  | systemCall | instructionStorage | instructionTlbMiss | debug => exact enter_stepOrder _ _ (by decide) rfl rfl
  | illegal | privileged | trap | alignment ea | dataTlbMiss ea => exact enter_stepOrder _ _ (by decide) rfl rfl
  | dataStorage ea store zone =>
    cases store <;> cases zone <;> exact enter_stepOrder _ _ (by decide) rfl rfl

/-- An exception after work. -/
theorem WorkOrder.raise {s t : State} (h : WorkOrder s t) (x : Exc) : Out.All (StepOrder s) (Machine.raise x t) :=
  (raise_stepOrder x t).imp fun _ => h.trans_step

/-- Work, then registers of the user are written and the instruction ends. -/
theorem Result.bind_finish_stepOrder {α : Type} {s : State} {r : Result α} {f : α → State → State}
    (hr : r.All (WorkOrder s)) (hf : ∀ a t, UserFrame t (f a t)) :
    Out.All (StepOrder s) (r.bind fun a t => .ok () (f a t)).finish := by
  cases r with
  | ok a t => exact hr.trans_step (hf a t).stepOrder
  | exc x t => exact hr.raise x
  | stop _ => trivial
  | refuse _ => trivial

/-! ### Privileged instructions: in problem state they are an entry -/

theorem privileged_stepOrder {s : State} {k : Out} (hk : Out.All (KeepsOrder s) k) :
    Out.All (StepOrder s) (privileged s k) := by
  unfold privileged
  split
  next => exact raise_stepOrder .privileged s
  next hs => exact hk.imp fun _ h => ⟨h, fun hp => absurd hp hs⟩

theorem Out.All.order {s : State} {k : Out} (h : Out.All (StepOrder s) k) : Out.All (KeepsOrder s) k :=
  h.imp fun _ => (·.toKeepsOrder)

/-- A move to or from a special purpose register, privileged or not by its number (10_state.md R70). -/
theorem sprGuard_stepOrder {sprn : BitVec 10} {s : State} {k : Out} (hk : Out.All (KeepsOrder s) k)
    (huser : sprPrivileged sprn = false → Out.All (StepOrder s) k) : Out.All (StepOrder s) (sprGuard sprn s k) := by
  unfold sprGuard
  split
  next => exact privileged_stepOrder hk
  next h => exact huser (by simpa using h)

/-- A privileged instruction that writes registers alone. -/
theorem next_advance31_order {s t : State} {b31 : Bool} (h : t.memories = s.memories) :
    Out.All (KeepsOrder s) (.next (t.advance31 b31)) :=
  (KeepsOrder.of_memories h).trans (t.advance31_order b31)

/-! ### The shared meanings -/

theorem writeArith_stepOrder (rt : Reg) (v : Word) (ca : Option Bool) (oe ov rc : Bool) (s : State) :
    Out.All (StepOrder s) (writeArith rt v ca oe ov rc s) := by
  have hcarry : UserFrame s (match ca with | some c => (s.setReg rt v).setCa c | none => s.setReg rt v) := by
    cases ca <;> exact ⟨rfl, rfl⟩
  exact next_advance_stepOrder ((hcarry.trans (State.recordOv_userFrame _ oe ov)).trans
    (State.record_userFrame _ rc v))

theorem undefinedQuotient_stepOrder (rt : Reg) (oe rc : Bool) (s : State) :
    Out.All (StepOrder s) (undefinedQuotient rt oe rc s) := by
  have hdraw : UserFrame s (s.setReg rt s.undef).drawn := ⟨rfl, rfl⟩
  exact next_advance_stepOrder ((hdraw.trans (State.drawCr0_userFrame _ rc)).trans (State.recordOv_userFrame _ oe true))

theorem execDivw_stepOrder (rt ra rb : Reg) (oe rc : Bool) (s : State) :
    Out.All (StepOrder s) (execDivw rt ra rb oe rc s) := by
  unfold execDivw
  split
  · exact undefinedQuotient_stepOrder rt oe rc s
  · exact writeArith_stepOrder _ _ _ _ _ _ s

theorem execDivwu_stepOrder (rt ra rb : Reg) (oe rc : Bool) (s : State) :
    Out.All (StepOrder s) (execDivwu rt ra rb oe rc s) := by
  unfold execDivwu
  split
  · exact undefinedQuotient_stepOrder rt oe rc s
  · exact writeArith_stepOrder _ _ _ _ _ _ s

theorem sumKeepCarry_stepOrder (rt : Reg) (a b : Word) (c oe rc : Bool) (s : State) :
    Out.All (StepOrder s) (sumKeepCarry rt a b c oe rc s) := writeArith_stepOrder _ _ _ _ _ _ s

theorem sumWithCarry_stepOrder (rt : Reg) (a b : Word) (c oe rc : Bool) (s : State) :
    Out.All (StepOrder s) (sumWithCarry rt a b c oe rc s) := writeArith_stepOrder _ _ _ _ _ _ s

theorem execMullw_stepOrder (rt ra rb : Reg) (oe rc : Bool) (s : State) :
    Out.All (StepOrder s) (execMullw rt ra rb oe rc s) := by
  unfold execMullw
  exact writeArith_stepOrder _ _ _ _ _ _ s

theorem writeLogical_stepOrder (ra : Reg) (v : Word) (rc : Bool) (s : State) :
    Out.All (StepOrder s) (writeLogical ra v rc s) :=
  next_advance_stepOrder ((s.setReg_userFrame ra v).trans (State.record_userFrame _ rc v))

theorem writeRotate_stepOrder (ra : Reg) (v : Word) (rc : Bool) (s : State) :
    Out.All (StepOrder s) (writeRotate ra v rc s) := writeLogical_stepOrder ra v rc s

theorem shiftAlgebraic_stepOrder (ra rs : Reg) (n : Nat) (m : Word) (rc : Bool) (s : State) :
    Out.All (StepOrder s) (shiftAlgebraic ra rs n m rc s) := by
  have hset : ∀ v c, UserFrame s ((s.setReg ra v).setCa c) := fun _ _ => ⟨rfl, rfl⟩
  unfold shiftAlgebraic
  exact next_advance_stepOrder ((hset _ _).trans (State.record_userFrame _ rc _))

theorem State.jump_userFrame (s : State) (a : Word) : UserFrame s (s.jump a) := ⟨rfl, rfl⟩

theorem execB_stepOrder (li : BitVec 24) (aa lk : Bool) (s : State) : Out.All (StepOrder s) (execB li aa lk s) :=
  ((s.link_userFrame lk).trans (State.jump_userFrame _ _)).stepOrder

theorem branchOn_stepOrder (bo bi : BitVec 5) (lk : Bool) (target : State → Word) (s : State) :
    Out.All (StepOrder s) (branchOn bo bi lk target s) := by
  have hcount : UserFrame s (s.setCtr (s.branchCtr bo)) := ⟨rfl, rfl⟩
  exact ((hcount.trans (State.link_userFrame _ lk)).trans (State.jump_userFrame _ _)).stepOrder

theorem loadWith_stepOrder (n : Nat) (widen : Word → Word) (rt : Reg) (ea : Word) (b31 : Bool) (s : State) :
    Out.All (StepOrder s) (loadWith n widen rt ea b31 s) := by
  unfold loadWith
  exact Result.bind_finish_stepOrder (memRead_workOrder ea n s) fun w t =>
    (t.setReg_userFrame rt (widen w)).advance31 b31

theorem loadUpdateWith_stepOrder (n : Nat) (widen : Word → Word) (rt ra : Reg) (ea : Word) (b31 : Bool) (s : State) :
    Out.All (StepOrder s) (loadUpdateWith n widen rt ra ea b31 s) := by
  unfold loadUpdateWith
  split
  · exact Result.bind_finish_stepOrder (memRead_workOrder ea n s) fun w t =>
      ((t.setReg_userFrame ra ea).trans (State.setReg_userFrame _ rt (widen w))).advance31 b31
  · trivial

theorem storeWith_stepOrder (n : Nat) (v ea : Word) (b31 : Bool) (s : State) :
    Out.All (StepOrder s) (storeWith n v ea b31 s) :=
  Result.bind_finish_stepOrder (memWrite_workOrder ea n v s) fun _ t => t.advance31_userFrame b31

theorem storeUpdateWith_stepOrder (n : Nat) (v : Word) (ra : Reg) (ea : Word) (b31 : Bool) (s : State) :
    Out.All (StepOrder s) (storeUpdateWith n v ra ea b31 s) := by
  unfold storeUpdateWith
  split
  · exact Result.bind_finish_stepOrder (memWrite_workOrder ea n v s) fun _ t => (t.setReg_userFrame ra ea).advance31 b31
  · trivial

theorem cacheOp_stepOrder (side : CacheSide) (ea : Word) (store b31 : Bool) {work : Place → State → Result Unit}
    (hw : ∀ p t, (work p t).All (WorkOrder t)) (s : State) :
    Out.All (StepOrder s) (cacheOp side ea store b31 work s) :=
  Result.bind_finish_stepOrder (WorkOrder.bind (dataPlace_workOrder side ea store s) hw) fun _ t =>
    t.advance31_userFrame b31

theorem touchOp_stepOrder (side : CacheSide) (ea : Word) (b31 : Bool) {work : Place → State → Result Unit}
    (hw : ∀ p t, (work p t).All (WorkOrder t)) (s : State) : Out.All (StepOrder s) (touchOp side ea b31 work s) := by
  have hplace := dataPlace_workOrder side ea false s
  unfold touchOp
  split <;> rename_i e <;> rw [e] at hplace
  · exact Result.bind_finish_stepOrder ((hw _ _).imp fun _ => hplace.trans) fun _ t => t.advance31_userFrame b31
  · exact hplace.trans_step (State.advance31_userFrame _ b31).stepOrder
  · trivial
  · trivial

/-! ### Traps -/

/-- Only the step into Debug Stop writes DBSR without an entry (48_system.md R471). -/
theorem debugStop_stepOrder (s : State) : Out.All (StepOrder s) (debugStop s) := by
  have hstop : ∀ w : Word, StepOrder s
      (((s.setSpr { s.spr with dbsr := w }).setDebugStopped true).setAfterIcread false) := fun w =>
    ⟨.of_memories rfl, fun _ => .inr ⟨rfl, fun r hr hd => by
      cases r with
      | xer | lr | ctr => exact absurd hr (by decide)
      | dbsr => exact absurd ⟨rfl, rfl⟩ hd
      | _ => rfl, rfl, rfl⟩⟩
  unfold debugStop
  simp only
  split
  · exact hstop _
  · exact hstop _

theorem takeTrap_stepOrder (s : State) : Out.All (StepOrder s) (takeTrap s) := by
  unfold takeTrap
  simp only
  split
  · exact raise_stepOrder .trap s
  · split
    · exact debugStop_stepOrder s
    · split
      · exact enter_stepOrder _ _ (by decide) rfl rfl
      · exact enter_stepOrder _ _ (by decide) rfl rfl

theorem execTw_stepOrder (tcond : BitVec 5) (ra rb : Reg) (b31 : Bool) (s : State) :
    Out.All (StepOrder s) (execTw tcond ra rb b31 s) := by
  unfold execTw
  split
  · exact takeTrap_stepOrder s
  · exact next_advance31_stepOrder (.refl s)

theorem execTwi_stepOrder (tcond : BitVec 5) (ra : Reg) (im : BitVec 16) (s : State) :
    Out.All (StepOrder s) (execTwi tcond ra im s) := by
  unfold execTwi
  split
  · exact takeTrap_stepOrder s
  · exact next_advance_stepOrder (.refl s)

/-! ### Instructions that go their own way -/

theorem execStwcxRc_stepOrder (rs ra rb : Reg) (s : State) : Out.All (StepOrder s) (execStwcxRc rs ra rb s) := by
  unfold execStwcxRc
  simp only
  split
  · exact Result.bind_finish_stepOrder (memWrite_workOrder _ 4 _ s) fun _ t => ⟨rfl, rfl⟩
  · split
    · exact raise_stepOrder _ s
    · exact next_advance_stepOrder ⟨rfl, rfl⟩

theorem execLswx_stepOrder (rt ra rb : Reg) (b31 : Bool) (s : State) :
    Out.All (StepOrder s) (execLswx rt ra rb b31 s) := by
  have hset : ∀ t : State, UserFrame t (t.setReg rt t.undef).drawn := fun _ => ⟨rfl, rfl⟩
  unfold execLswx
  simp only
  split
  · exact Result.bind_finish_stepOrder (zeroLengthCheck_workOrder _ false s) fun _ t => (hset t).advance31 b31
  · exact Result.bind_finish_stepOrder (loadString_workOrder _ _ _ _ s) fun _ t => t.advance31_userFrame b31

theorem execStswx_stepOrder (rs ra rb : Reg) (b31 : Bool) (s : State) :
    Out.All (StepOrder s) (execStswx rs ra rb b31 s) := by
  refine Result.bind_finish_stepOrder ?_ fun _ t => t.advance31_userFrame b31
  split
  · exact zeroLengthCheck_workOrder _ true s
  · exact storeString_workOrder _ _ _ s

theorem State.markOld_workOrder (s : State) (sel : OldByte → Bool) (x y : OldStage) : WorkOrder s (s.markOld sel x y) :=
  UserFrame.workOrder ⟨rfl, rfl⟩

theorem execDcread_stepOrder (rt ra rb : Reg) (b31 : Bool) (s : State) :
    Out.All (StepOrder s) (execDcread rt ra rb b31 s) := by
  have hwork : ∀ ea (t : State), UserFrame t (dcreadWork rt ea t) := by
    intro ea t
    unfold dcreadWork
    simp only
    split
    · exact ⟨rfl, rfl⟩
    · split <;> exact ⟨rfl, rfl⟩
  refine privileged_stepOrder ?_
  split
  · exact (raise_stepOrder _ s).order
  · exact (cacheOp_stepOrder _ _ _ _ (fun _ t => Result.ok_workOrder (hwork _ t).workOrder) s).order

/-- icread writes ICDBDR, a register of the system, and is privileged. -/
theorem execIcread_stepOrder (ra rb : Reg) (b31 : Bool) (s : State) :
    Out.All (StepOrder s) (execIcread ra rb b31 s) := by
  have hwork : ∀ ea (t : State), (icreadWork ea t).memories = t.memories := by
    intro ea t
    unfold icreadWork
    simp only
    split
    · rfl
    · split <;> rfl
  refine privileged_stepOrder ?_
  have hplace := dataPlace_workOrder .instruction (s.eaX ra rb) false s
  cases h : dataPlace .instruction (s.eaX ra rb) false s with
  | ok p t =>
    rw [h] at hplace
    have hend : KeepsOrder t (((icreadWork (s.eaX ra rb) t).advance31 b31).setAfterIcread true) :=
      (KeepsOrder.of_memories (hwork _ t)).trans ((State.advance31_order _ b31).trans (.of_memories rfl))
    exact hplace.toKeepsOrder.trans hend
  | exc x t =>
    rw [h] at hplace
    exact (hplace.raise x).order
  | stop _ => trivial
  | refuse _ => trivial

theorem returnFrom_order (savedPc savedMsr : Word) (s : State) :
    Out.All (KeepsOrder s) (returnFrom savedPc savedMsr s) := by
  unfold returnFrom
  split
  · trivial
  · exact KeepsOrder.of_memories rfl

theorem execMtmsr_stepOrder (rs : Reg) (b31 : Bool) (s : State) : Out.All (StepOrder s) (execMtmsr rs b31 s) := by
  refine privileged_stepOrder ?_
  unfold writeMsr
  split
  · trivial
  · exact next_advance31_order rfl

theorem execMfspr_stepOrder (rt : Reg) (sprn : BitVec 10) (b31 : Bool) (s : State) :
    Out.All (StepOrder s) (execMfspr rt sprn b31 s) := by
  have hread : ∀ x, UserFrame s (readSpr x rt s) := by
    intro x
    unfold readSpr
    split <;> exact ⟨rfl, rfl⟩
  have hall : Out.All (StepOrder s) (match sprOfNumber sprn with
      | none => .refused .invalidSpr
      | some r => .next ((readSpr r rt s).advance31 b31)) := by
    split
    · trivial
    · exact next_advance31_stepOrder (hread _)
  exact sprGuard_stepOrder hall.order fun _ => hall

/-- The special purpose registers that mtspr may write by an unprivileged number (10_state.md R70, R71). -/
theorem sprOfNumber_user {n : BitVec 10} {r : Spr} (h : sprOfNumber n = some r) (hn : sprPrivileged n = false)
    (hw : sprWritable r = true) : r ∈ [Spr.xer, .lr, .ctr] := by
  have hrows : ∀ row ∈ sprNumbers, sprPrivileged row.1 = false → sprWritable row.2 = true →
      row.2 ∈ [Spr.xer, .lr, .ctr] := by decide
  obtain ⟨row, hfind, rfl⟩ := Option.map_eq_some_iff.1 h
  have hrow : row.1 = n := by simpa using List.find?_some hfind
  exact hrows row (List.mem_of_find?_eq_some hfind) (hrow ▸ hn) hw

theorem writeSpr_memories (r : Spr) (v : Word) (s : State) : (writeSpr r v s).memories = s.memories := by
  cases r <;> rfl

theorem writeSpr_userFrame {r : Spr} (hr : r ∈ [Spr.xer, .lr, .ctr]) (v : Word) (s : State) :
    UserFrame s (writeSpr r v s) := by
  simp only [List.mem_cons, List.not_mem_nil, or_false] at hr
  obtain rfl | rfl | rfl := hr <;> exact ⟨rfl, rfl⟩

theorem execMtspr_stepOrder (sprn : BitVec 10) (rs : Reg) (b31 : Bool) (s : State) :
    Out.All (StepOrder s) (execMtspr sprn rs b31 s) := by
  refine sprGuard_stepOrder ?_ fun hn => ?_
  · split
    · trivial
    · split
      · exact next_advance31_order (writeSpr_memories _ _ s)
      · trivial
  · split
    next => trivial
    next r hr =>
      split
      next hw => exact next_advance31_stepOrder (writeSpr_userFrame (sprOfNumber_user hr hn hw) _ s)
      next => trivial

theorem execMfdcr_stepOrder (rt : Reg) (dcrn : BitVec 10) (b31 : Bool) (s : State) :
    Out.All (StepOrder s) (execMfdcr rt dcrn b31 s) := by
  refine privileged_stepOrder ?_
  split
  · trivial
  · exact next_advance31_order rfl

theorem execMtdcr_stepOrder (dcrn : BitVec 10) (rs : Reg) (b31 : Bool) (s : State) :
    Out.All (StepOrder s) (execMtdcr dcrn rs b31 s) := by
  refine privileged_stepOrder ?_
  split
  · trivial
  · exact next_advance31_order rfl

theorem tlbRead_memories (rt ra : Reg) (hi : Bool) (s : State) : (tlbRead rt ra hi s).memories = s.memories := by
  unfold tlbRead
  simp only
  split
  · cases hi <;> rfl
  · split <;> rfl

theorem execTlbre_stepOrder (rt ra : Reg) (ws : BitVec 5) (b31 : Bool) (s : State) :
    Out.All (StepOrder s) (execTlbre rt ra ws b31 s) := by
  refine privileged_stepOrder ?_
  split
  · exact next_advance31_order (tlbRead_memories _ _ _ s)
  · trivial

theorem execTlbwe_stepOrder (rs ra : Reg) (ws : BitVec 5) (b31 : Bool) (s : State) :
    Out.All (StepOrder s) (execTlbwe rs ra ws b31 s) := by
  refine privileged_stepOrder ?_
  split
  · trivial
  · split
    · trivial
    · exact next_advance31_order rfl

theorem execTlbsx_stepOrder (rt ra rb : Reg) (rc : Bool) (s : State) :
    Out.All (StepOrder s) (execTlbsx rt ra rb rc s) := by
  have hpick : UserFrame s (s.tlbPick (s.eaX ra rb)).2 := .of_draw (s.choose_state _)
  unfold execTlbsx
  rcases h : s.tlbPick (s.eaX ra rb) with ⟨found, s1⟩
  rw [h] at hpick
  refine privileged_stepOrder (next_advance_stepOrder (hpick.trans ?_)).order
  cases found <;> cases rc <;> exact ⟨rfl, rfl⟩

/-! ### Every instruction -/

/-- Every instruction keeps the order of the caches, and in problem state the registers of the system unless it is an
entry. -/
theorem exec_stepOrder (i : Instr) (s : State) : Out.All (StepOrder s) (exec i s) := by
  unfold exec
  cases i with
  | add | addi | addis | subf | neg => exact sumKeepCarry_stepOrder _ _ _ _ _ _ s
  | addc | adde | addic | addicRc | addme | addze | subfc | subfe | subfic | subfme | subfze =>
    exact sumWithCarry_stepOrder _ _ _ _ _ _ s
  | mulhw | mulhwu | mulli => exact writeArith_stepOrder _ _ _ _ _ _ s
  | mullw => exact execMullw_stepOrder _ _ _ _ _ s
  | divw => exact execDivw_stepOrder _ _ _ _ _ s
  | divwu => exact execDivwu_stepOrder _ _ _ _ _ s
  | and | andc | andiRc | andisRc | cntlzw | eqv | extsb | extsh | nand | nor | or | orc | ori | oris | xor | xori
  | xoris => exact writeLogical_stepOrder _ _ _ s
  | rlwimi | rlwinm | rlwnm | slw | srw => exact writeRotate_stepOrder _ _ _ s
  | sraw | srawi => exact shiftAlgebraic_stepOrder _ _ _ _ _ s
  | cmp | cmpl | mcrxr | mfcr | mtcrf | sync | eieio | isync => exact next_advance31_stepOrder ⟨rfl, rfl⟩
  | cmpi | cmpli | mcrf | crand | crandc | creqv | crnand | crnor | cror | crorc | crxor =>
    exact next_advance_stepOrder ⟨rfl, rfl⟩
  | b => exact execB_stepOrder _ _ _ s
  | bc | bcctr | bclr => exact branchOn_stepOrder _ _ _ _ s
  | lbz | lbzx | lha | lhax | lhbrx | lhz | lhzx | lwbrx | lwz | lwzx => exact loadWith_stepOrder _ _ _ _ _ s
  | lbzu | lbzux | lhau | lhaux | lhzu | lhzux | lwzu | lwzux => exact loadUpdateWith_stepOrder _ _ _ _ _ _ s
  | stb | stbx | sth | sthbrx | sthx | stw | stwbrx | stwx => exact storeWith_stepOrder _ _ _ _ s
  | stbu | stbux | sthu | sthux | stwu | stwux => exact storeUpdateWith_stepOrder _ _ _ _ _ s
  | lwarx => exact Result.bind_finish_stepOrder (memRead_workOrder _ 4 s) fun _ t =>
      UserFrame.trans (t := (t.setReserve true).setReg _ _) ⟨rfl, rfl⟩ (State.advance31_userFrame _ _)
  | stwcxRc => exact execStwcxRc_stepOrder _ _ _ s
  | lmw => exact Result.bind_finish_stepOrder (alignedThen_workOrder _ 4 (loadWords_workOrder _ _ _ s)) fun _ t =>
      (UserFrame.refl t).advance
  | stmw => exact Result.bind_finish_stepOrder (alignedThen_workOrder _ 4 (storeWords_workOrder _ _ s)) fun _ t =>
      (UserFrame.refl t).advance
  | lswi => exact Result.bind_finish_stepOrder (loadString_workOrder _ _ _ _ s) fun _ t => t.advance31_userFrame _
  | stswi => exact Result.bind_finish_stepOrder (storeString_workOrder _ _ _ s) fun _ t => t.advance31_userFrame _
  | lswx => exact execLswx_stepOrder _ _ _ _ s
  | stswx => exact execStswx_stepOrder _ _ _ _ s
  | dcbf => exact cacheOp_stepOrder _ _ _ _ flushBlock_workOrder s
  | dcbi => exact privileged_stepOrder (cacheOp_stepOrder _ _ _ _ invalidateBlock_workOrder s).order
  | dcbst => exact cacheOp_stepOrder _ _ _ _ (fun p t => WorkOrder.bind (storeBlock_workOrder p t) fun _ u =>
      Result.ok_workOrder (u.markOld_workOrder _ _ _)) s
  | dcbt | dcbtst => exact touchOp_stepOrder _ _ _ touchBlock_workOrder s
  | dcbz => exact cacheOp_stepOrder _ _ _ _ (zeroBlockAt_workOrder _) s
  | dccci => exact privileged_stepOrder (cacheOp_stepOrder _ _ _ _ (fun _ t => Result.ok_workOrder
      ((t.discardDline_workOrder _ .a).trans (State.discardDline_workOrder _ _ .b))) s).order
  | dcread => exact execDcread_stepOrder _ _ _ _ s
  | icbi => exact cacheOp_stepOrder _ _ _ _ (fun p t => WorkOrder.bind (iinvalidateBlock_workOrder p t) fun _ u =>
      Result.ok_workOrder (u.markOld_workOrder _ _ _)) s
  | icbt => exact privileged_stepOrder (touchOp_stepOrder _ _ _ itouchBlock_workOrder s).order
  | iccci => exact privileged_stepOrder (cacheOp_stepOrder _ _ _ _ (fun _ t => Result.ok_workOrder
      ((t.dropIline_workOrder _ .a).trans (State.dropIline_workOrder _ _ .b))) s).order
  | icread => exact execIcread_stepOrder _ _ _ s
  | sc => exact raise_stepOrder .systemCall s
  | rfi | rfci => exact privileged_stepOrder (returnFrom_order _ _ s)
  | mfmsr | wrtee | wrteei => exact privileged_stepOrder (next_advance31_order rfl)
  | mtmsr => exact execMtmsr_stepOrder _ _ s
  | mfspr => exact execMfspr_stepOrder _ _ _ s
  | mtspr => exact execMtspr_stepOrder _ _ _ s
  | mfdcr => exact execMfdcr_stepOrder _ _ _ s
  | mtdcr => exact execMtdcr_stepOrder _ _ _ s
  | tw => exact execTw_stepOrder _ _ _ _ s
  | twi => exact execTwi_stepOrder _ _ _ s
  | tlbia | tlbsync => exact privileged_stepOrder (KeepsOrder.of_memories rfl)
  | tlbre => exact execTlbre_stepOrder _ _ _ _ s
  | tlbsx => exact execTlbsx_stepOrder _ _ _ _ s
  | tlbwe => exact execTlbwe_stepOrder _ _ _ _ s

/-! ### Every step -/

theorem fetchByte_userFrame {p : Place} {a : Word} {s t : State} {b : Byte} (h : fetchByte p a s = (b, t)) :
    UserFrame s t := by
  have ht : t = (fetchByte p a s).2 := by rw [h]
  rw [ht, fetchByte_state]
  exact .of_draw (s.choose_state _)

/-- The four bytes of an instruction take draws at most. -/
theorem fetchBytes_userFrame {p : Place} {s t : State} {bs : List Byte} (h : fetchBytes p s = (bs, t)) :
    UserFrame s t := by
  rcases h0 : fetchByte p p.real s with ⟨b0, s0⟩
  rcases h1 : fetchByte p (p.real + 1#32) s0 with ⟨b1, s1⟩
  rcases h2 : fetchByte p (p.real + 2#32) s1 with ⟨b2, s2⟩
  rcases h3 : fetchByte p (p.real + 3#32) s2 with ⟨b3, s3⟩
  simp only [fetchBytes, h0, h1, h2, h3, Prod.mk.injEq] at h
  rw [← h.2]
  exact (((fetchByte_userFrame h0).trans (fetchByte_userFrame h1)).trans (fetchByte_userFrame h2)).trans
    (fetchByte_userFrame h3)

theorem checkFetch_workOrder (p : Place) (s : State) : (checkFetch p s).All (WorkOrder s) := by
  unfold checkFetch
  split
  · exact .refl s
  · exact WorkOrder.of_goes (checkStorage_dataFrame _ 4 s) fun _ _ hs h => checkStorage_ok h ▸ hs

/-- A fetch, its exceptions included, is work on the instruction cache. -/
theorem fetch_workOrder (s : State) : (fetch s).All (WorkOrder s) := by
  unfold fetch
  split
  · trivial
  · have hplace := (fetchPlace_draws s).imp fun t ht => (UserFrame.of_draw ht).workOrder
    refine WorkOrder.bind hplace fun p s1 => WorkOrder.bind (checkFetch_workOrder p s1) fun _ s2 => ?_
    rcases hbytes : fetchBytes p (s2.itouch p) with ⟨bs, s3⟩
    exact (s2.itouch_workOrder p).trans (fetchBytes_userFrame hbytes).workOrder

theorem runDecoded_stepOrder (d : Decoded) (s : State) : Out.All (StepOrder s) (runDecoded d s) := by
  cases d with
  | ok i => exact exec_stepOrder i s
  | illegal => exact raise_stepOrder .illegal s
  | reservedBits m => trivial

theorem runNext_stepOrder (s : State) : Out.All (StepOrder s) (runNext s) := by
  have hfetch := fetch_workOrder s
  unfold runNext
  split <;> rename_i e <;> rw [e] at hfetch
  · exact (runDecoded_stepOrder _ _).imp fun _ => hfetch.trans_step
  · exact hfetch.raise _
  · trivial
  · trivial

theorem takeIrq_stepOrder (i : Irq) (s : State) : Out.All (StepOrder s) (takeIrq i s) := by
  cases i with
  | machineCheck => trivial
  | criticalPin | watchdog | external | fit | pit => exact enter_stepOrder _ _ (by decide) rfl rfl

theorem stepOrder_of_step {s t : State} (h : step s = .next t) : StepOrder s t := by
  unfold step at h
  split at h
  · cases h
  · split at h
    · exact Out.all_iff.1 (takeIrq_stepOrder _ s) t h
    · split at h
      · cases h
      · exact Out.all_iff.1 (runNext_stepOrder s) t h

/-- Settles O16: each operation on main storage and the data cache keeps the order, and every step is made of them. -/
theorem everyStepKeepsTheDataCacheCoherent : Obligations.EveryStepKeepsTheDataCacheCoherent := by
  unfold Obligations.EveryStepKeepsTheDataCacheCoherent
  exact fun _ _ hs h => (stepOrder_of_step h).coherent hs

/-- Settles O17: a block is read into the instruction cache only where it missed. -/
theorem everyStepKeepsInstructionLinesUnique : Obligations.EveryStepKeepsInstructionLinesUnique := by
  unfold Obligations.EveryStepKeepsInstructionLinesUnique
  exact fun _ _ hs h => (stepOrder_of_step h).instrLines hs

/-- Settles O19: a privileged instruction is an entry in problem state, and no other writes a register of the system
but by an entry or by the step into Debug Stop. -/
theorem problemStateReachesSystemStateOnlyThroughAVector :
    Obligations.ProblemStateReachesSystemStateOnlyThroughAVector := by
  unfold Obligations.ProblemStateReachesSystemStateOnlyThroughAVector
  intro s t hs h
  obtain he | hk := (stepOrder_of_step h).system hs
  · exact .inl ⟨he.supervisor, he.vector⟩
  · exact .inr ⟨hk.msr, hk.spr, hk.tlb, hk.dcr⟩

end Sys2Proof.Machine
end

section
/-! The moves between general registers and the MSR, the special purpose and the device control registers, and the
system call with the returns from it (48_system.md R450 to R463). -/

namespace Sys2Proof.Machine

/-! ### Registers after the end of an instruction -/

@[simp] theorem State.advance31_msr (s : State) (b31 : Bool) : (s.advance31 b31).msr = s.msr := by cases b31 <;> rfl

@[simp] theorem State.advance31_sprVal (s : State) (b31 : Bool) (r : Spr) :
    (s.advance31 b31).sprVal r = s.sprVal r := by
  cases b31 <;> exact State.sprVal_congr rfl rfl rfl rfl r

@[simp] theorem State.advance31_dcrVal (s : State) (b31 : Bool) (d : Dcr) :
    (s.advance31 b31).dcrVal d = s.dcrVal d := by
  cases b31 <;> rfl

@[simp] theorem State.advance31_tlbEntry (s : State) (b31 : Bool) (k : BitVec 6) :
    (s.advance31 b31).tlbEntry k = s.tlbEntry k := by
  cases b31 <;> rfl

/-- An instruction that writes one piece of the state, and whose bit 31 is reserved. -/
theorem Completes.of_piece {i : Instr} {s u : State} {piece : Part} {b31 : Bool} {P : State → Prop}
    (hexec : exec i s = .next (u.advance31 b31)) (hpc : u.pc = s.pc) (hrest : Unchanged [piece] s u)
    (hdone : P (u.advance31 b31)) : Completes i s (piece :: cr0If b31) P :=
  .of_advance31 hexec hpc (hrest.mono (by simp)) (List.subset_cons_self _ _) hdone

/-! ### The MSR (48_system.md R455 to R458) -/

theorem execMtmsr_eq {s : State} (hp : s.problem = false) {r : Reg} (hle : bit (s.reg r) msrLE = false) (b31 : Bool) :
    execMtmsr r b31 s = .next ((s.setMsr (s.reg r)).advance31 b31) := by
  rw [execMtmsr, privileged_eq hp, writeMsr, if_neg (by simp [hle])]

/-- wrtee and wrteei write EE and no other bit. -/
theorem writeEe_completes {i : Instr} {s : State} {e b31 : Bool} (hp : s.problem = false)
    (hexec : exec i s = writeEe e b31 s) : Completes i s (.msr :: cr0If b31) fun t =>
      ∀ k < 32, bit t.msr k = if k = 16 then e else bit s.msr k := by
  refine .of_piece (hexec.trans (privileged_eq hp _)) rfl (unchanged_setMsr s _) fun k hk => ?_
  rw [State.advance31_msr, State.setMsr_msr, bit_setBit _ _ _ _ (by decide) hk]
  rfl

/-- Settles O53: each of the moves is privileged, so in supervisor state it does its work, which is one register. -/
theorem msrMovesReadAndWriteTheMsr : Obligations.MsrMovesReadAndWriteTheMsr := by
  unfold Obligations.MsrMovesReadAndWriteTheMsr
  intro s r e b31 hp
  refine ⟨?_, fun hle => ?_, fun hle => ?_, writeEe_completes hp rfl, writeEe_completes hp rfl⟩
  · exact .of_piece (privileged_eq hp _) rfl (unchanged_setReg s r s.msr) (by simp)
  · exact .of_piece (execMtmsr_eq hp hle b31) rfl (unchanged_setMsr s _) (by simp)
  · calc exec (.mtmsr r b31) s = writeMsr (s.reg r) b31 s := privileged_eq hp _
      _ = .refused .littleEndian := if_pos hle

/-! ### Special purpose registers (R460, R461) -/

/-- A move passes the privilege test in supervisor state, and by an unprivileged number (10_state.md R70). -/
theorem sprGuard_eq {s : State} {n : BitVec 10} (h : s.problem = false ∨ n.getLsbD 4 = false) (k : Out) :
    sprGuard n s k = k := by
  unfold sprGuard
  split
  next hn => exact privileged_eq (h.resolve_right (by simpa [sprPrivileged] using hn)) k
  next => rfl

theorem execMfspr_eq {s : State} {n : BitVec 10} {r : Spr} (hn : sprOfNumber n = some r)
    (h : s.problem = false ∨ n.getLsbD 4 = false) (rt : Reg) (b31 : Bool) :
    execMfspr rt n b31 s = .next ((readSpr r rt s).advance31 b31) := by
  rw [execMfspr, sprGuard_eq h]
  simp only [hn]

theorem execMtspr_eq {s : State} {n : BitVec 10} {r : Spr} (hn : sprOfNumber n = some r) (hw : sprWritable r = true)
    (h : s.problem = false ∨ n.getLsbD 4 = false) (rs : Reg) (b31 : Bool) :
    execMtspr n rs b31 s = .next ((writeSpr r (s.reg rs) s).advance31 b31) := by
  rw [execMtspr, sprGuard_eq h]
  simp only [hn, hw, if_true]

theorem readSpr_frame (r : Spr) (rt : Reg) (s : State) :
    (readSpr r rt s).pc = s.pc ∧ Unchanged [.reg rt] s (readSpr r rt s) := by
  unfold readSpr
  split
  · exact ⟨rfl, (unchanged_setReg s rt s.undef).trans' (unchanged_drawn _ _)⟩
  · exact ⟨rfl, unchanged_setReg s rt _⟩

/-- A register that is no running counter gives its value, ICDBDR not right after icread. -/
theorem readSpr_value {r : Spr} {rt : Reg} {s : State} (hr : sprRunning r = false)
    (hi : ¬ (r = .icdbdr ∧ s.afterIcread = true)) : (readSpr r rt s).reg rt = s.sprVal r := by
  rw [readSpr, if_neg (by simpa [hr] using hi), State.reg_setReg_self]

theorem sprRunning_eq_false {r : Spr} (h : r ∉ [Spr.tbhi, .tblo, .tbhu, .tblu, .pit]) : sprRunning r = false := by
  cases r with
  | tbhi | tblo | tbhu | tblu | pit => exact absurd h (by decide)
  | _ => rfl

/-- Settles O54: past the privilege test mfspr is `readSpr`, whatever register the number names. -/
theorem moveFromSprReadsTheRegister : Obligations.MoveFromSprReadsTheRegister := by
  unfold Obligations.MoveFromSprReadsTheRegister
  intro s rt n r b31 hn hp
  obtain ⟨hpc, hrest⟩ := readSpr_frame r rt s
  refine .of_piece (execMfspr_eq hn hp rt b31) hpc hrest fun hr hi => ?_
  rw [State.advance31_reg]
  exact readSpr_value (sprRunning_eq_false hr) hi

theorem sprWritable_of_not_mem {r : Spr} (h : r ∉ [Spr.pvr, .tbhu, .tblu, .dear, .dbcr]) : sprWritable r = true := by
  cases r with
  | pvr | tbhu | tblu | dear | dbcr => exact absurd h (by decide)
  | _ => rfl

/-- mtspr stores the value, but clears in TSR and DBSR the bits that are 1 in it. -/
theorem writeSpr_eq (r : Spr) (v : Word) (s : State) :
    writeSpr r v s = s.setSprVal r (if r = .dbsr ∨ r = .tsr then s.sprVal r &&& ~~~v else v) := by
  cases r <;> rfl

/-- TBHU and TBLU are the only other registers that show what is written (10_state.md R85). -/
theorem unchanged_setSprVal_writable {r : Spr} (hw : sprWritable r = true) (v : Word) (s : State) :
    Unchanged (.spr r :: if r = .tbhi then [.spr .tbhu] else if r = .tblo then [.spr .tblu] else []) s
      (s.setSprVal r v) := by
  refine (unchanged_setSprVal s r v).mono ?_
  cases r with
  | pvr | tbhu | tblu | dear | dbcr => cases hw
  | _ => decide

/-- Settles O55: past the privilege test mtspr is one store to the register. -/
theorem moveToSprWritesTheRegister : Obligations.MoveToSprWritesTheRegister := by
  unfold Obligations.MoveToSprWritesTheRegister
  intro s rs n r b31 hn hr hp
  have hw := sprWritable_of_not_mem hr
  have hpc : ∀ v, (s.setSprVal r v).pc = s.pc := fun v => by cases r <;> rfl
  refine .of_advance31 (execMtspr_eq hn hw hp rs b31) ?_ ?_ (List.subset_append_right _ _) ?_
  · rw [writeSpr_eq, hpc]
  · rw [writeSpr_eq]
    exact (unchanged_setSprVal_writable hw _ s).mono (List.subset_append_left _ _)
  · rw [State.advance31_sprVal, writeSpr_eq, State.sprVal_setSprVal _ _ _ fun h => hr (by simp [h])]

/-! ### Device control registers (R462, R463) -/

theorem execMfdcr_eq {s : State} {n : BitVec 10} {d : Dcr} (hp : s.problem = false) (hn : dcrOfNumber n = some d)
    (rt : Reg) (b31 : Bool) : execMfdcr rt n b31 s = .next ((s.setReg rt (s.dcrVal d)).advance31 b31) := by
  rw [execMfdcr, privileged_eq hp]
  simp only [hn]

theorem execMtdcr_eq {s : State} {n : BitVec 10} {d : Dcr} (hp : s.problem = false) (hn : dcrOfNumber n = some d)
    (rs : Reg) (b31 : Bool) : execMtdcr n rs b31 s = .next ((s.setDcrVal d (s.reg rs)).advance31 b31) := by
  rw [execMtdcr, privileged_eq hp]
  simp only [hn]

/-- Settles O56: a device control register is one element of the register file. -/
theorem dcrMovesReadAndWriteTheCell : Obligations.DcrMovesReadAndWriteTheCell := by
  unfold Obligations.DcrMovesReadAndWriteTheCell
  intro s r n d b31 hp hn
  refine ⟨.of_piece (execMfdcr_eq hp hn r b31) rfl (unchanged_setReg s r _) (by simp),
    .of_piece (execMtdcr_eq hp hn r b31) rfl (unchanged_setDcr s _) fun d' => ?_⟩
  rw [State.advance31_dcrVal, State.dcrVal_setDcrVal]

/-! ### The system call and the returns (R450 to R452) -/

/-- The two low bits of an address made 0. -/
theorem wordAligned_eq (w : Word) : wordAligned w = w.extractLsb' 2 30 ++ 0#2 := by
  have hmask : ∀ i < 32, (0xFFFFFFFC#32).getLsbD i = decide (2 ≤ i) := by decide
  refine BitVec.eq_of_getLsbD_eq fun i hi => ?_
  rw [wordAligned, BitVec.getLsbD_and, hmask i hi, BitVec.getLsbD_append]
  by_cases h : i < 2
  · simp [h]
  · rw [if_neg h, BitVec.getLsbD_extractLsb', decide_eq_true (by omega : i - 2 < 30), decide_eq_true (by omega : 2 ≤ i),
      Nat.add_sub_cancel' (by omega), Bool.and_true, Bool.true_and]

/-- An address that is a multiple of 4 already has two low bits 0. -/
theorem wordAligned_eq_self {w : Word} (h : w &&& 3#32 = 0#32) : wordAligned w = w := by
  have hmask : ∀ i < 32, (0xFFFFFFFC#32).getLsbD i = !(3#32).getLsbD i := by decide
  refine BitVec.eq_of_getLsbD_eq fun i hi => ?_
  have hlow : (w.getLsbD i && (3#32).getLsbD i) = false := by
    rw [← BitVec.getLsbD_and, h, BitVec.getLsbD_zero]
  rw [wordAligned, BitVec.getLsbD_and, hmask i hi]
  cases hw : w.getLsbD i <;> simp_all

/-- A return restores the MSR and the pc, discards the prefetch queue, and does nothing else. -/
theorem returnFrom_restores {savedPc savedMsr : Word} {s : State} (hle : bit savedMsr msrLE = false) :
    ∃ t, returnFrom savedPc savedMsr s = .next t ∧ t.msr = savedMsr ∧ t.pc = wordAligned savedPc ∧
      QueueDiscarded s t ∧ Unchanged [.msr] s t := by
  refine ⟨_, if_neg (by simp [hle]), rfl, rfl, ?_, ?_⟩
  · exact ((s.setMsr savedMsr).setPc (wordAligned savedPc)).contextSync_queue
  · exact (unchanged_setMsr s savedMsr).trans' <| (unchanged_setPc _ _ _).trans' <|
      (unchanged_contextSync _ _).trans' (unchanged_setAfterIcread _ _ _)

/-- Settles O51: sc is one entry, rfi and rfci are one return from the save registers of their class. -/
theorem systemCallSavesAndReturnsRestore : Obligations.SystemCallSavesAndReturnsRestore := by
  unfold Obligations.SystemCallSavesAndReturnsRestore
  refine ⟨fun s hile => ?_, fun s hp => ⟨fun hle => ?_, fun hle => ?_⟩⟩
  · obtain ⟨t, ht⟩ := enter_completes (critical := false) (saved := s.pc + 4#32) (offset := 0x0C00#16) hile
    exact ⟨t, ht, enter_spec ht⟩
  · rw [← wordAligned_eq]
    obtain ⟨t, ht, hrest⟩ := returnFrom_restores (savedPc := s.spr.srr0) (s := s) hle
    exact ⟨t, (privileged_eq hp _).trans ht, hrest⟩
  · rw [← wordAligned_eq]
    obtain ⟨t, ht, hrest⟩ := returnFrom_restores (savedPc := s.spr.srr2) (s := s) hle
    exact ⟨t, (privileged_eq hp _).trans ht, hrest⟩

/-- Settles O52: the entry saves the address of the next instruction and the MSR, and the return gives them back. -/
theorem returningFromASystemCallResumesTheProgram : Obligations.ReturningFromASystemCallResumesTheProgram := by
  unfold Obligations.ReturningFromASystemCallResumesTheProgram
  intro s hpc hle hile
  obtain ⟨t, hsc, he⟩ := systemCallSavesAndReturnsRestore.1 s hile
  have hmsr : t.sprVal .srr1 = s.msr := he.savedMsr
  have hsaved : t.sprVal .srr0 = s.pc + 4#32 := he.savedPc
  have hle' : bit (t.sprVal .srr1) 31 = false := by rw [hmsr]; exact hle
  obtain ⟨u, hrfi, humsr, hupc, -, hrest⟩ := (systemCallSavesAndReturnsRestore.2 t he.supervisor).1 hle'
  have hnext : (s.pc + 4#32) &&& 3#32 = 0#32 :=
    (and_three_eq_zero_iff _).2 (toNat_add_mod_four ((State.pcAligned_iff s).1 hpc) rfl)
  refine ⟨t, u, hsc, hrfi, ?_, fun p hp => ?_⟩
  · rw [hupc, hsaved, ← wordAligned_eq, wordAligned_eq_self hnext]
  · by_cases hm : p = .msr
    · subst hm
      exact humsr.trans hmsr
    · have hentry : Part.Same s t p := he.others p (by simpa [hm] using hp)
      exact hentry.trans (hrest p (by simpa using hm))

end Sys2Proof.Machine
end

section
/-! Exceptions and interrupts: what enters a vector, with which bits of ESR and DBSR set, the traps of tw and twi, the
privileged instructions, an illegal word, a fetch that cannot be translated, and the interrupts (48_system.md R470 to
R473, 60_exceptions.md R503, R512, R513, R519, R520, R525 to R528). -/

namespace Sys2Proof.Machine

/-! ### Entries from a prepared state -/

/-- An entry goes through from a state an exception prepares, and the special purpose registers that are no save
registers are those that were prepared. -/
theorem enter_prepared {critical : Bool} {saved : Word} {offset : BitVec 16} {also : List Spr} {u v : State}
    (hile : u.msrBit msrILE = false) (hv : Prepared also u v) :
    ∃ t, enter critical saved offset v = .next t ∧ Entered critical saved offset also u t ∧
      ∀ r, r ∉ [Spr.srr0, .srr1, .srr2, .srr3] → t.sprVal r = v.sprVal r := by
  have hile' : v.msrBit msrILE = false := by rw [State.msrBit, hv.msr]; exact hile
  obtain ⟨t, ht⟩ := enter_completes (critical := critical) (saved := saved) (offset := offset) hile'
  have he := enter_spec ht
  refine ⟨t, ht, he.of_prepared hv, fun r hr => he.others (.spr r) ?_⟩
  cases critical <;> simp_all

/-- An entry that nothing has to be prepared for. -/
theorem enter_plain {critical : Bool} {saved : Word} {offset : BitVec 16} {s : State}
    (hile : s.msrBit msrILE = false) :
    ∃ t, enter critical saved offset s = .next t ∧ Entered critical saved offset [] s t := by
  obtain ⟨t, ht⟩ := enter_completes (critical := critical) (saved := saved) (offset := offset) hile
  exact ⟨t, ht, enter_spec ht⟩

/-- A bit after one bit is set. -/
theorem bit_setBit_true (w : Word) {b k : Nat} (hb : b < 32) (hk : k < 32) :
    bit (setBit w b true) k = (decide (k = b) || bit w k) := by
  rw [bit_setBit _ _ _ _ hb hk]
  by_cases h : k = b <;> simp [h]

theorem State.setEsrBit_prepared (u : State) (b : Nat) : Prepared [.esr] u (u.setEsrBit b) := u.setEsr_prepared _

theorem State.setDbsrBit_prepared (u : State) (b : Nat) : Prepared [.dbsr] u (u.setDbsrBit b) :=
  ⟨rfl, rfl, rfl, rfl, (unchanged_setSprVal u .dbsr _).mono (by simp)⟩

/-- A program exception sets one bit of ESR and enters 0x0700 (60_exceptions.md R511). -/
theorem enter_program {saved : Word} {b : Nat} (hb : b < 32) {u : State} (hile : u.msrBit msrILE = false) :
    ∃ t, enter false saved 0x0700#16 (u.setEsrBit b) = .next t ∧ Entered false saved 0x0700#16 [.esr] u t ∧
      ∀ k < 32, bit (t.sprVal .esr) k = (decide (k = b) || bit (u.sprVal .esr) k) := by
  obtain ⟨t, ht, he, hspr⟩ := enter_prepared (critical := false) (saved := saved) (offset := 0x0700#16) hile
    (u.setEsrBit_prepared b)
  refine ⟨t, ht, he, fun k hk => ?_⟩
  rw [hspr .esr (by decide)]
  exact bit_setBit_true _ hb hk

theorem trapsProgram_of_enter {i : Instr} {s : State} {b : Nat} (hb : b < 32) (hile : s.msrBit msrILE = false)
    (hexec : exec i s = enter false s.pc 0x0700#16 (s.setEsrBit b)) : TrapsProgram i s b := by
  obtain ⟨t, ht, he, hesr⟩ := enter_program (saved := s.pc) hb hile
  exact ⟨t, hexec.trans ht, he, hesr⟩

/-! ### Privileged instructions (R513) -/

/-- In problem state a privileged instruction is its exception, whatever its operands are. -/
theorem exec_privilegedInstr {i : Instr} {s : State} (hi : privilegedInstr i = true) (hs : s.problem = true) :
    exec i s = raise .privileged s := by
  have hguard : ∀ k, privileged s k = raise .privileged s := fun k => if_pos hs
  have hspr : ∀ (n : BitVec 10) (k : Out), n.getLsbD 4 = true → sprGuard n s k = raise .privileged s :=
    fun n k hn => (if_pos hn).trans (hguard k)
  cases i with
  | dcbi | dccci | dcread | icbt | iccci | icread | mfdcr | mtdcr | mfmsr | mtmsr | rfi | rfci | tlbia | tlbre
  | tlbsync | tlbwe | wrtee | wrteei | tlbsx => exact hguard _
  | mfspr rt n b31 => exact hspr n _ hi
  | mtspr n rs b31 => exact hspr n _ hi
  | _ => cases hi

/-- Settles O20: the privilege test comes before any other, so the instruction is one entry. -/
theorem privilegedInstructionsTrapInProblemState : Obligations.PrivilegedInstructionsTrapInProblemState := by
  unfold Obligations.PrivilegedInstructionsTrapInProblemState
  exact fun i s hi hs hile => trapsProgram_of_enter (by decide) hile (exec_privilegedInstr hi hs)

/-! ### Traps (48_system.md R470 to R473) -/

/-- tw and twi are one instruction over their second operand. -/
theorem IsTrap.exec_eq {i : Instr} {s : State} {tcond : BitVec 5} {ra : Reg} {b : Word} {b31 : Bool}
    (h : IsTrap i s tcond ra b b31) :
    exec i s = if trapHolds tcond (s.reg ra) b = true then takeTrap s else .next (s.advance31 b31) := by
  obtain ⟨im, rfl, rfl, rfl⟩ | ⟨rb, rfl, rfl⟩ := h <;> rfl

/-- Case 1 of a trap: no trap debug event is on (R471). -/
theorem takeTrap_program {s : State}
    (h : bit (s.sprVal .dbcr) 7 = false ∨ (bit (s.sprVal .dbcr) 0 = false ∧ bit (s.sprVal .dbcr) 1 = false)) :
    takeTrap s = raise .trap s := by
  refine if_pos ?_
  obtain h | ⟨h0, h1⟩ := h
  · rw [show bit s.spr.dbcr dbcrTDE = false from h]
    rfl
  · rw [show bit s.spr.dbcr dbcrEDM = false from h0, show bit s.spr.dbcr dbcrIDM = false from h1]
    exact Bool.or_true _

/-- Settles O57: the instruction is the trap of case 1, or no operation. -/
theorem trapsAreTakenWhenTheConditionHolds : Obligations.TrapsAreTakenWhenTheConditionHolds := by
  unfold Obligations.TrapsAreTakenWhenTheConditionHolds
  intro s i tcond ra b b31 hi
  refine ⟨fun hno => ?_, fun hyes hcase hile => ?_⟩
  · have hexec : exec i s = .next (s.advance31 b31) := by rw [hi.exec_eq, if_neg (by simp [hno])]
    exact .of_advance31 hexec rfl (.refl _ s) (List.Subset.refl _) trivial
  · refine trapsProgram_of_enter (by decide) hile ?_
    rw [hi.exec_eq, if_pos hyes, takeTrap_program hcase]
    rfl

section

variable {s : State}

/-- Case 2: external debug mode (R471). -/
theorem takeTrap_external (htde : bit (s.sprVal .dbcr) 7 = true) (hedm : bit (s.sprVal .dbcr) 0 = true) :
    takeTrap s = debugStop s := by
  have htde' : bit s.spr.dbcr dbcrTDE = true := htde
  have hedm' : bit s.spr.dbcr dbcrEDM = true := hedm
  simp [takeTrap, htde', hedm']

/-- Cases 3 and 4: internal debug mode alone, by MSR.DE (R471). -/
theorem takeTrap_internal (htde : bit (s.sprVal .dbcr) 7 = true) (hedm : bit (s.sprVal .dbcr) 0 = false)
    (hidm : bit (s.sprVal .dbcr) 1 = true) : takeTrap s =
      if bit s.msr 22 then raise .debug (s.setDbsrBit dbsrTIE)
      else raise .trap ((s.setDbsrBit dbsrTIE).setDbsrBit dbsrIDE) := by
  have htde' : bit s.spr.dbcr dbcrTDE = true := htde
  have hedm' : bit s.spr.dbcr dbcrEDM = false := hedm
  have hidm' : bit s.spr.dbcr dbcrIDM = true := hidm
  have hcase1 : ¬ (!bit s.spr.dbcr dbcrTDE || (!bit s.spr.dbcr dbcrEDM && !bit s.spr.dbcr dbcrIDM)) = true := by
    simp [htde', hidm']
  have hcase2 : ¬ bit s.spr.dbcr dbcrEDM = true := by simp [hedm']
  exact (if_neg hcase1).trans (if_neg hcase2)

end

/-- DBSR as the step into Debug Stop leaves it: TIE set, and IDE where internal debug mode is on and MSR.DE is 0. -/
def State.stopDbsr (s : State) : Word :=
  if bit s.spr.dbcr dbcrIDM && !s.msrBit msrDE then setBit (setBit s.spr.dbsr dbsrTIE true) dbsrIDE true
  else setBit s.spr.dbsr dbsrTIE true

theorem debugStop_eq (s : State) : debugStop s =
    .next (((s.setSprVal .dbsr s.stopDbsr).setDebugStopped true).setAfterIcread false) := by
  unfold debugStop State.stopDbsr
  simp only
  split <;> rfl

theorem State.bit_stopDbsr (s : State) {k : Nat} (hk : k < 32) : bit s.stopDbsr k = (decide (k = 3) ||
    (decide (k = 11) && bit (s.sprVal .dbcr) 1 && !bit s.msr 22) || bit (s.sprVal .dbsr) k) := by
  rw [State.stopDbsr, bit_setBit_if _ _ (by decide) hk, bit_setBit_true _ (by decide) hk, Bool.or_left_comm,
    ← Bool.or_assoc, Bool.and_assoc]
  rfl

theorem step_debugStopped {s : State} (h : s.debugStopped = true) : step s = .fault .debugStop := if_pos h

/-- The step into Debug Stop writes DBSR, and the processor has no step after it. -/
theorem debugStop_spec (s : State) : ∃ t, debugStop s = .next t ∧ t.pc = s.pc ∧ t.debugStopped = true ∧
    step t = .fault .debugStop ∧ Unchanged [.spr .dbsr, .stopped] s t ∧
    ∀ k < 32, bit (t.sprVal .dbsr) k = (decide (k = 3) ||
      (decide (k = 11) && bit (s.sprVal .dbcr) 1 && !bit s.msr 22) || bit (s.sprVal .dbsr) k) := by
  refine ⟨_, debugStop_eq s, rfl, rfl, step_debugStopped rfl, ?_, fun k hk => s.bit_stopDbsr hk⟩
  have hdbsr : Unchanged [.spr .dbsr] s (s.setSprVal .dbsr s.stopDbsr) :=
    (unchanged_setSprVal s .dbsr _).mono (by simp)
  exact (hdbsr.trans (unchanged_setDebugStopped _ true)).trans' (unchanged_setAfterIcread _ _ _)

/-- Case 3: the debug exception, with DBSR[TIE] set. -/
theorem raise_debug_spec {s : State} (hile : s.msrBit msrILE = false) :
    ∃ t, raise .debug (s.setDbsrBit dbsrTIE) = .next t ∧ Entered true s.pc 0x2000#16 [.dbsr] s t ∧
      ∀ k < 32, bit (t.sprVal .dbsr) k = (decide (k = 3) || bit (s.sprVal .dbsr) k) := by
  obtain ⟨t, ht, he, hspr⟩ := enter_prepared (critical := true) (saved := s.pc) (offset := 0x2000#16) hile
    (s.setDbsrBit_prepared dbsrTIE)
  refine ⟨t, ht, he, fun k hk => ?_⟩
  rw [hspr .dbsr (by decide)]
  exact bit_setBit_true _ (by decide) hk

/-- Case 4: the program exception, with DBSR[TIE, IDE] and ESR[PTR] set. -/
theorem raise_trap_imprecise_spec {s : State} (hile : s.msrBit msrILE = false) :
    ∃ t, raise .trap ((s.setDbsrBit dbsrTIE).setDbsrBit dbsrIDE) = .next t ∧
      Entered false s.pc 0x0700#16 [.dbsr, .esr] s t ∧
      (∀ k < 32, bit (t.sprVal .dbsr) k = (decide (k = 3 ∨ k = 11) || bit (s.sprVal .dbsr) k)) ∧
      ∀ k < 32, bit (t.sprVal .esr) k = (decide (k = 6) || bit (s.sprVal .esr) k) := by
  have hprepared : Prepared [.dbsr, .esr] s (((s.setDbsrBit dbsrTIE).setDbsrBit dbsrIDE).setEsrBit esrPTR) := by
    have h := ((s.setDbsrBit_prepared dbsrTIE).trans (State.setDbsrBit_prepared _ dbsrIDE)).trans
      (State.setEsrBit_prepared _ esrPTR)
    exact ⟨h.msr, h.evpr, h.stale, h.levelZero, h.rest.mono (by simp)⟩
  obtain ⟨t, ht, he, hspr⟩ := enter_prepared (critical := false) (saved := s.pc) (offset := 0x0700#16) hile hprepared
  refine ⟨t, ht, he, fun k hk => ?_, fun k hk => ?_⟩
  · have hbits : bit (setBit (setBit (s.sprVal .dbsr) 3 true) 11 true) k =
        (decide (k = 3 ∨ k = 11) || bit (s.sprVal .dbsr) k) := by
      rw [bit_setBit_true _ (by decide) hk, bit_setBit_true _ (by decide) hk, ← Bool.or_assoc, Bool.decide_or,
        Bool.or_comm (decide (k = 11))]
    rw [hspr .dbsr (by decide)]
    exact hbits
  · rw [hspr .esr (by decide)]
    exact bit_setBit_true _ (by decide) hk

/-- Settles O58: a trap with trap debug events on is the case of R471 that EDM, IDM and MSR.DE select. -/
theorem debugTrapsFollowTheDebugMode : Obligations.DebugTrapsFollowTheDebugMode := by
  unfold Obligations.DebugTrapsFollowTheDebugMode
  intro s i tcond ra b b31 hi hyes htde
  have hexec : exec i s = takeTrap s := by rw [hi.exec_eq, if_pos hyes]
  refine ⟨fun hedm => ?_, fun hedm hidm hile hde => ?_, fun hedm hidm hile hde => ?_⟩
  · rw [hexec, takeTrap_external htde hedm]
    exact debugStop_spec s
  · rw [hexec, takeTrap_internal htde hedm hidm, if_pos hde]
    exact raise_debug_spec hile
  · rw [hexec, takeTrap_internal htde hedm hidm, if_neg (by simp [hde])]
    exact raise_trap_imprecise_spec hile

/-! ### An illegal word, and a fetch that cannot be translated (60_exceptions.md R512, R519, R520) -/

/-- Settles O8: after the fetch the step is the exception, at the pc, which the fetch leaves. -/
theorem anIllegalWordRaisesTheProgramException : Obligations.AnIllegalWordRaisesTheProgramException := by
  unfold Obligations.AnIllegalWordRaisesTheProgramException
  intro s s1 bs hstop hirq hwait hile hfetch hdecode
  have hframe := fetch_fetchFrame hfetch
  have hstep : step s = enter false s1.pc 0x0700#16 (s1.setEsrBit 4) :=
    calc step s = runNext s := step_eq_runNext hstop hirq hwait
      _ = runDecoded .illegal s1 := runNext_of_fetch hfetch hdecode
      _ = enter false s1.pc 0x0700#16 (s1.setEsrBit 4) := rfl
  have hmsr : s1.msr = s.msr := hframe.unchanged .msr (by decide)
  have hesr : s1.sprVal .esr = s.sprVal .esr := hframe.unchanged (.spr .esr) (by decide)
  have hile1 : s1.msrBit msrILE = false := by rw [State.msrBit, hmsr]; exact hile
  rw [hstep, hframe.pc, ← hesr]
  exact enter_program (by decide) hile1

/-- An exception of the translation of the pc is taken instead of the next instruction. -/
theorem runNext_of_fetchPlace {s u : State} {x : Exc} (hle : s.BigEndian) (h : fetchPlace s = .exc x u) :
    runNext s = raise x u := by
  have hfetch : fetch s = .exc x u := by
    rw [fetch, if_neg (by rw [show s.msrBit msrLE = false from hle]; decide), h]
    rfl
  simp [runNext, hfetch]

/-- Settles O10: the fetch comes to the exception that the entries of the TLB select, in the state it started in. -/
theorem aFetchThatCannotBeTranslatedTraps : Obligations.AFetchThatCannotBeTranslatedTraps := by
  unfold Obligations.AFetchThatCannotBeTranslatedTraps
  intro s hstop hirq hwait hle hile hir
  have hstep : ∀ x, fetchPlace s = .exc x s → step s = raise x s := fun x hx =>
    (step_eq_runNext hstop hirq hwait).trans (runNext_of_fetchPlace hle hx)
  refine ⟨fun hno => ?_, fun k hk => ?_⟩
  · rw [hstep _ (fetchPlace_none hir hno)]
    exact enter_plain hile
  · have hplace := fetchPlace_only hir hk
    split
    next hbad =>
      rw [if_pos hbad] at hplace
      rw [hstep _ hplace]
      exact enter_plain hile
    next hgood =>
      rw [if_neg hgood] at hplace
      exact ⟨_, hplace⟩

/-! ### Interrupts (60_exceptions.md R525 to R528) -/

/-- The interrupts in the order they are taken in, each with the bit of the MSR that enables it. -/
def irqRows : List (Irq × Nat) :=
  [(.machineCheck, 19), (.criticalPin, 14), (.watchdog, 14), (.external, 16), (.fit, 16), (.pit, 16)]

/-- An interrupt of this row can be taken. -/
def State.takes (s : State) (row : Irq × Nat) : Bool := s.pending.contains row.1 && bit s.msr row.2

theorem State.takes_eq_false_iff (s : State) (row : Irq × Nat) :
    s.takes row = false ↔ (row.1 ∈ s.pending → bit s.msr row.2 = false) := by
  simp only [State.takes, Bool.and_eq_false_iff, List.contains_eq_mem, decide_eq_false_iff_not]
  exact imp_iff_not_or.symm

theorem State.nextIrq_eq (s : State) : s.nextIrq = (irqRows.find? s.takes).map (·.1) := by
  have horder : irqOrder = irqRows.map (·.1) := rfl
  have henabled : ∀ row ∈ irqRows, s.irqEnabled row.1 = bit s.msr row.2 := by
    simp only [irqRows, List.forall_mem_cons, List.not_mem_nil, false_implies, implies_true, and_true]
    exact ⟨rfl, rfl, rfl, rfl, rfl, rfl⟩
  rw [State.nextIrq, horder, List.find?_map]
  refine congrArg (Option.map _) (List.find?_congr fun row hrow => ?_)
  rw [Function.comp_apply, henabled row hrow, State.takes]

theorem State.nextIrq_none {s : State} (h : ∀ row ∈ irqRows, row.1 ∈ s.pending → bit s.msr row.2 = false) :
    s.nextIrq = none := by
  rw [State.nextIrq_eq, Option.map_eq_none_iff, List.find?_eq_none]
  exact fun row hrow => by rw [(s.takes_eq_false_iff row).2 (h row hrow)]; decide

theorem State.nextIrq_some {s : State} {k : Nat} {i : Irq} {enable : Nat} (hk : irqRows[k]? = some (i, enable))
    (hi : i ∈ s.pending) (hen : bit s.msr enable = true)
    (hfirst : ∀ (j : Nat) (row : Irq × Nat), j < k → irqRows[j]? = some row → row.1 ∈ s.pending →
      bit s.msr row.2 = false) : s.nextIrq = some i := by
  obtain ⟨hlt, hget⟩ := List.getElem?_eq_some_iff.1 hk
  have htakes : s.takes (i, enable) = true := by simp [State.takes, hi, hen]
  have hfind : irqRows.find? s.takes = some (i, enable) := by
    refine List.find?_eq_some_iff_getElem.2 ⟨htakes, k, hlt, hget, fun j hj => ?_⟩
    rw [(s.takes_eq_false_iff _).2 (hfirst j _ hj (List.getElem?_eq_getElem (hj.trans hlt)))]
    rfl
  rw [State.nextIrq_eq, hfind]
  rfl

theorem step_takeIrq {s : State} {i : Irq} (hstop : s.debugStopped = false) (h : s.nextIrq = some i) :
    step s = takeIrq i s := by
  simp [step, hstop, h]

theorem step_no_irq {s : State} (hstop : s.debugStopped = false) (h : s.nextIrq = none) :
    step s = if s.msrBit msrWE then .fault .waitState else runNext s := by
  simp [step, hstop, h]

/-- An interrupt that is no machine check enters its vector, and no other leaves the pending ones. -/
theorem takeIrq_spec {s : State} {i : Irq} {critical : Bool} {offset : BitVec 16} (hile : s.msrBit msrILE = false)
    (h : (i, critical, offset) ∈ [(Irq.criticalPin, true, 0x0100#16), (.watchdog, true, 0x1020#16),
      (.external, false, 0x0500#16), (.fit, false, 0x1010#16), (.pit, false, 0x1000#16)]) :
    ∃ t, takeIrq i s = .next t ∧ t.pending = s.pending.erase i ∧
      Entered critical s.pc offset [] (s.setPending (s.pending.erase i)) t := by
  have hexec : takeIrq i s = enter critical s.pc offset (s.setPending (s.pending.erase i)) := by
    simp only [List.mem_cons, Prod.mk.injEq, List.not_mem_nil, or_false] at h
    obtain ⟨rfl, rfl, rfl⟩ | ⟨rfl, rfl, rfl⟩ | ⟨rfl, rfl, rfl⟩ | ⟨rfl, rfl, rfl⟩ | ⟨rfl, rfl, rfl⟩ := h <;> rfl
  obtain ⟨t, ht, he⟩ := enter_plain (critical := critical) (saved := s.pc) (offset := offset)
    (s := s.setPending (s.pending.erase i)) hile
  have houtside : Part.Same (s.setPending (s.pending.erase i)) t .outside :=
    he.others .outside (by cases critical <;> decide)
  exact ⟨t, hexec.trans ht, houtside.2, he⟩

/-- Settles O9: the interrupt taken is the first row that is pending and enabled, and a step takes it first of all. -/
theorem interruptsAreTakenInOrderAtTheirVectors : Obligations.InterruptsAreTakenInOrderAtTheirVectors := by
  unfold Obligations.InterruptsAreTakenInOrderAtTheirVectors
  rintro s rows rfl hstop
  refine ⟨fun hnone => ?_, fun k i enable hk hi hen hfirst => ?_⟩
  · exact step_no_irq hstop (State.nextIrq_none hnone)
  · have hstep := step_takeIrq hstop (State.nextIrq_some hk hi hen hfirst)
    refine ⟨?_, fun critical offset hile hrow => ?_⟩
    · rintro rfl
      exact hstep
    · rw [hstep]
      exact takeIrq_spec hile hrow

end Sys2Proof.Machine
end

section
/-! The moves to and from the TLB and the search in it, the state after reset, the invalid operand forms, and words
that the spec writes out (48_system.md R474 to R478, 70_reset_and_hazards.md R561, 93_implementation_defined.md section
2.2, 95_test_vectors.md). -/

namespace Sys2Proof.Machine

/-! ### The index of a TLB entry (R475, R476) -/

theorem tlbIndex_setWidth (k : BitVec 6) : tlbIndex (k.setWidth 32) = k := by
  refine BitVec.eq_of_toNat_eq ?_
  simp only [tlbIndex, BitVec.extractLsb'_toNat, BitVec.toNat_setWidth, Nat.shiftRight_zero]
  omega

theorem tlbIndexUndefined_eq (w : Word) : tlbIndexUndefined w = decide (64 ≤ w.toNat) := by
  have hbits : w.extractLsb' 6 26 = 0#26 ↔ w.toNat < 64 := by
    rw [← BitVec.toNat_inj, BitVec.extractLsb'_toNat, Nat.shiftRight_eq_div_pow, BitVec.toNat_ofNat]
    omega
  rw [tlbIndexUndefined, Bool.eq_iff_iff, bne_iff_ne, decide_eq_true_iff, ne_eq, hbits, Nat.not_lt]

theorem tlbIndexUndefined_setWidth (k : BitVec 6) : tlbIndexUndefined (k.setWidth 32) = false := by
  rw [tlbIndexUndefined_eq, decide_eq_false_iff_not, BitVec.toNat_setWidth]
  omega

/-! ### tlbre and tlbwe (R475, R476) -/

section

variable {s : State} {r ra : Reg} {b31 : Bool}

theorem execTlbre_eq (hp : s.problem = false) {ws : BitVec 5} (hws : wsOk ws = true) :
    execTlbre r ra ws b31 s = .next ((tlbRead r ra (ws == 0) s).advance31 b31) := by
  rw [execTlbre, privileged_eq hp, if_pos hws]

/-- Reading the TLBHI part writes RT and PID, drawn values where the index is undefined. -/
theorem tlbRead_hi_frame (r ra : Reg) (s : State) :
    (tlbRead r ra true s).pc = s.pc ∧ Unchanged [.reg r, .spr .pid] s (tlbRead r ra true s) := by
  have hpid : ∀ (u : State) v, Unchanged [.spr .pid] u (u.setPid v) := fun u v =>
    (unchanged_setSprVal u .pid v).mono (by simp)
  unfold tlbRead
  simp only [if_true]
  split
  · refine ⟨rfl, ?_⟩
    exact (((unchanged_setReg s r _).trans' (unchanged_drawn _ _)).trans (hpid _ _)).trans' (unchanged_drawn _ _)
  · exact ⟨rfl, (unchanged_setReg s r _).trans (hpid _ _)⟩

/-- Reading the TLBLO part writes RT. -/
theorem tlbRead_lo_frame (r ra : Reg) (s : State) :
    (tlbRead r ra false s).pc = s.pc ∧ Unchanged [.reg r] s (tlbRead r ra false s) := by
  unfold tlbRead
  simp only [Bool.false_eq_true, if_false]
  split
  · exact ⟨rfl, (unchanged_setReg s r _).trans' (unchanged_drawn _ _)⟩
  · exact ⟨rfl, unchanged_setReg s r _⟩

theorem tlbRead_defined (hi : Bool) {k : BitVec 6} (hk : s.reg ra = k.setWidth 32) : tlbRead r ra hi s =
    if hi then (s.setReg r (s.tlbEntry k).hi).setPid ((s.tlbEntry k).tid.setWidth 32)
    else s.setReg r (s.tlbEntry k).lo := by
  simp only [tlbRead, hk, tlbIndexUndefined_setWidth, Bool.false_eq_true, if_false, tlbIndex_setWidth]

theorem tlbre_hi_completes (hp : s.problem = false) {P : State → Prop}
    (hdone : P ((tlbRead r ra true s).advance31 b31)) :
    Completes (.tlbre r ra 0 b31) s (.reg r :: .spr .pid :: cr0If b31) P := by
  obtain ⟨hpc, hrest⟩ := tlbRead_hi_frame r ra s
  exact .of_advance31 (execTlbre_eq hp rfl) hpc (hrest.mono (by simp)) (by simp) hdone

theorem tlbre_lo_completes (hp : s.problem = false) {P : State → Prop}
    (hdone : P ((tlbRead r ra false s).advance31 b31)) :
    Completes (.tlbre r ra 1 b31) s (.reg r :: cr0If b31) P := by
  obtain ⟨hpc, hrest⟩ := tlbRead_lo_frame r ra s
  exact .of_piece (execTlbre_eq hp rfl) hpc hrest hdone

/-- The entry with the part replaced that WS selects. -/
theorem execTlbwe_eq (hp : s.problem = false) {ws : BitVec 5} (hws : wsOk ws = true) {k : BitVec 6}
    (hk : s.reg ra = k.setWidth 32) : execTlbwe r ra ws b31 s =
      .next ((s.setTlbEntry k (if ws == 0 then (s.tlbEntry k).withHi (s.reg r) s.pidTag
        else (s.tlbEntry k).withLo (s.reg r))).advance31 b31) := by
  simp only [execTlbwe, privileged_eq hp, hws, hk, tlbIndexUndefined_setWidth, tlbIndex_setWidth, Bool.not_true,
    Bool.false_eq_true, if_false]

theorem execTlbwe_undefined (hp : s.problem = false) {ws : BitVec 5} (hws : wsOk ws = true)
    (h : 64 ≤ (s.reg ra).toNat) : execTlbwe r ra ws b31 s = .refused .tlbweIndexUndefined := by
  simp only [execTlbwe, privileged_eq hp, hws, tlbIndexUndefined_eq, decide_eq_true h, Bool.not_true,
    Bool.false_eq_true, if_false, if_true]

theorem tlbwe_completes {i : Instr} {k : BitVec 6} {e : TlbEntry}
    (hexec : exec i s = .next ((s.setTlbEntry k e).advance31 b31)) :
    Completes i s (.tlb :: cr0If b31) fun t => ∀ j, t.tlbEntry j = if j = k then e else s.tlbEntry j :=
  .of_piece hexec rfl (unchanged_setTlbEntry s k e) fun j => by
    rw [State.advance31_tlbEntry, State.tlbEntry_setTlbEntry]

end

theorem TlbEntry.withHi_eq (e : TlbEntry) (v : Word) (tid : BitVec 8) : e.withHi v tid =
    { e with epn := v.extractLsb' 10 22, size := v.extractLsb' 7 3, v := v.getLsbD 6, tid := tid } := by
  rw [TlbEntry.withHi, bit_eq_getLsbD v 25 (by decide)]

theorem TlbEntry.withLo_eq (e : TlbEntry) (v : Word) : e.withLo v =
    { e with rpn := v.extractLsb' 10 22, ex := v.getLsbD 9, wr := v.getLsbD 8, zsel := v.extractLsb' 4 4,
             w := v.getLsbD 3, i := v.getLsbD 2, m := v.getLsbD 1, g := v.getLsbD 0 } := by
  rw [TlbEntry.withLo, bit_eq_getLsbD v 22 (by decide), bit_eq_getLsbD v 23 (by decide),
    bit_eq_getLsbD v 28 (by decide), bit_eq_getLsbD v 29 (by decide), bit_eq_getLsbD v 30 (by decide),
    bit_eq_getLsbD v 31 (by decide)]

/-- Settles O59: the two moves by the part that WS selects, with an index of an entry and with one above 63. -/
theorem tlbMovesReadAndWriteTheEntry : Obligations.TlbMovesReadAndWriteTheEntry := by
  unfold Obligations.TlbMovesReadAndWriteTheEntry
  intro s r ra b31 k hp
  refine ⟨fun hk => ⟨?_, ?_, ?_, ?_⟩, fun h => ⟨?_, ?_, fun ws hws => ?_⟩⟩
  · refine tlbre_hi_completes hp ?_
    rw [tlbRead_defined true hk, State.advance31_reg, State.advance31_sprVal]
    exact ⟨State.reg_setReg_self s r _, rfl⟩
  · refine tlbre_lo_completes hp ?_
    rw [tlbRead_defined false hk, State.advance31_reg]
    exact State.reg_setReg_self s r _
  · rw [← TlbEntry.withHi_eq]
    exact tlbwe_completes (execTlbwe_eq hp rfl hk)
  · rw [← TlbEntry.withLo_eq]
    exact tlbwe_completes (execTlbwe_eq hp rfl hk)
  · exact tlbre_hi_completes hp trivial
  · exact tlbre_lo_completes hp trivial
  · refine execTlbwe_undefined hp ?_ h
    obtain rfl | rfl := hws <;> rfl

/-! ### tlbia, tlbsync and tlbsx (R474, R477, R478) -/

theorem State.mem_tlbMatches {s : State} {ea : Word} {k : BitVec 6} :
    k ∈ s.tlbMatches ea ↔ (s.tlbEntry k).translates ea s.pidTag = true := by
  have hall : k ∈ (List.range 64).map (BitVec.ofNat 6) :=
    List.mem_map.2 ⟨k.toNat, List.mem_range.2 k.isLt, BitVec.ofNat_toNat 6 k ▸ BitVec.setWidth_eq k⟩
  rw [State.tlbMatches, List.mem_filter]
  exact and_iff_right hall

/-- A choice is an element of the list, and there is one unless the list is empty. -/
theorem State.choose_spec {α : Type} (s : State) (l : List α) :
    (∃ x ∈ l, (s.choose l).1 = some x) ∨ (l = [] ∧ (s.choose l).1 = none) := by
  match l with
  | [] => exact .inr ⟨rfl, rfl⟩
  | [x] => exact .inl ⟨x, List.mem_singleton_self x, rfl⟩
  | x :: y :: rest =>
    have hlt : s.undef.toNat % (rest.length + 2) < (x :: y :: rest).length := Nat.mod_lt _ (Nat.succ_pos _)
    exact .inl ⟨_, List.getElem_mem hlt, List.getElem?_eq_getElem hlt⟩

/-- The search finds an entry that translates the address, or there is none. -/
theorem State.tlbPick_spec (s : State) (ea : Word) :
    (∃ k, (s.tlbEntry k).translates ea s.pidTag = true ∧ (s.tlbPick ea).1 = some k) ∨
      (s.NoEntry ea ∧ (s.tlbPick ea).1 = none) := by
  obtain ⟨k, hk, hpick⟩ | ⟨hnil, hpick⟩ := s.choose_spec (s.tlbMatches ea)
  · exact .inl ⟨k, State.mem_tlbMatches.1 hk, hpick⟩
  · refine .inr ⟨fun k => ?_, hpick⟩
    by_contra hk
    have hmem := State.mem_tlbMatches.2 (Bool.not_eq_false _ ▸ hk)
    rw [hnil] at hmem
    cases hmem

/-- RT and CR field 0 as tlbsx writes them, from the entry that was found. -/
def State.writeSearch (s : State) (rt : Reg) (rc so : Bool) (found : Option (BitVec 6)) : State :=
  let s2 := match found with
    | some i => s.setReg rt (i.setWidth 32)
    | none => (s.setReg rt s.undef).drawn
  if rc then s2.setCrField 0 (nibbleOf false false found.isSome so) else s2

theorem State.writeSearch_frame (s : State) (rt : Reg) (rc so : Bool) (found : Option (BitVec 6)) :
    (s.writeSearch rt rc so found).pc = s.pc ∧ Unchanged (.reg rt :: cr0If rc) s (s.writeSearch rt rc so found) := by
  have hreg : ∀ v, Unchanged [.reg rt] s (s.setReg rt v) := unchanged_setReg s rt
  have hdraw : ∀ v, Unchanged [.reg rt] s (s.setReg rt v).drawn := fun v => (hreg v).trans' (unchanged_drawn _ _)
  cases rc with
  | false => cases found <;> simp [State.writeSearch, cr0If, hreg, hdraw]
  | true =>
    cases found with
    | none => exact ⟨rfl, (hdraw _).trans (unchanged_setCrField _ 0 _)⟩
    | some k => exact ⟨rfl, (hreg _).trans (unchanged_setCrField _ 0 _)⟩

theorem State.writeSearch_found (s : State) (rt : Reg) (rc so : Bool) (k : BitVec 6) :
    (s.writeSearch rt rc so (some k)).advance.reg rt = k.setWidth 32 := by
  have hset := State.reg_setReg_self s rt (k.setWidth 32)
  cases rc <;> exact hset

theorem State.writeSearch_cr0 (s : State) (rt : Reg) (so : Bool) (found : Option (BitVec 6)) :
    (s.writeSearch rt true so found).advance.Cr0Is false false found.isSome so :=
  State.cr0Is_of_crField (t := (s.writeSearch rt true so found).advance) (State.crField_setCrField_self _ 0 _)

theorem execTlbsx_eq {s : State} (hp : s.problem = false) (rt ra rb : Reg) (rc : Bool) : execTlbsx rt ra rb rc s =
    .next ((s.tlbPick (s.eaX ra rb)).2.writeSearch rt rc s.so (s.tlbPick (s.eaX ra rb)).1).advance :=
  privileged_eq hp _

theorem tlbsx_completes {s : State} (hp : s.problem = false) (rt ra rb : Reg) (rc : Bool) :
    Completes (.tlbsx rt ra rb rc) s (.reg rt :: cr0If rc) fun t =>
      ((∃ k, (s.tlbEntry k).translates (s.eaX ra rb) s.pidTag = true) →
        (∃ k : BitVec 6, (s.tlbEntry k).translates (s.eaX ra rb) s.pidTag = true ∧ t.reg rt = k.setWidth 32) ∧
        (rc = true → t.Cr0Is false false true s.so)) ∧
      ((∀ k, (s.tlbEntry k).translates (s.eaX ra rb) s.pidTag = false) → rc = true →
        t.Cr0Is false false false s.so) := by
  obtain ⟨u, hu⟩ : ∃ u, u = (s.tlbPick (s.eaX ra rb)).2 := ⟨_, rfl⟩
  have hdraw : u = s ∨ u = s.drawn := hu ▸ s.choose_state _
  have hsame : u.pc = s.pc ∧ Unchanged [] s u := by
    obtain rfl | rfl := hdraw
    · exact ⟨rfl, .refl _ _⟩
    · exact ⟨rfl, unchanged_drawn s _⟩
  obtain ⟨hpc, hrest⟩ := hsame
  have hexec := execTlbsx_eq hp rt ra rb rc
  rw [← hu] at hexec
  obtain ⟨hpc', hrest'⟩ := u.writeSearch_frame rt rc s.so (s.tlbPick (s.eaX ra rb)).1
  refine ⟨_, hexec, by rw [State.advance_pc, hpc', hpc],
    (hrest.trans hrest').trans' (unchanged_advance _ _), ?_⟩
  obtain ⟨k, hk, hpick⟩ | ⟨hno, hpick⟩ := s.tlbPick_spec (s.eaX ra rb)
  · rw [hpick]
    refine ⟨fun _ => ⟨⟨k, hk, u.writeSearch_found rt rc s.so k⟩, ?_⟩, fun hno => ?_⟩
    · rintro rfl
      exact u.writeSearch_cr0 rt s.so (some k)
    · rw [hno k] at hk
      cases hk
  · rw [hpick]
    refine ⟨fun ⟨k, hk⟩ => ?_, ?_⟩
    · rw [hno k] at hk
      cases hk
    · rintro - rfl
      exact u.writeSearch_cr0 rt s.so none

theorem State.tlbEntry_map (s : State) (f : TlbEntry → TlbEntry) (k : BitVec 6) :
    (s.setTlb (s.tlb.map f)).tlbEntry k = f (s.tlbEntry k) := by
  simp [State.tlbEntry, Vector.get_eq_getElem]

/-- Settles O60: tlbia maps over the entries, tlbsync goes on, and tlbsx writes what the search found. -/
theorem tlbInvalidateAndSearch : Obligations.TlbInvalidateAndSearch := by
  unfold Obligations.TlbInvalidateAndSearch
  intro s hp
  refine ⟨⟨_, privileged_eq hp _, rfl, ?_, fun k => State.tlbEntry_map s _ k⟩,
    ⟨_, privileged_eq hp _, rfl, unchanged_advance s _, trivial⟩, tlbsx_completes hp⟩
  exact (unchanged_setTlb s _).trans' (unchanged_advance _ _)

/-! ### Reset (70_reset_and_hazards.md R561) -/

/-- Settles O11: the values are those of the definition of the reset state. -/
theorem resetHoldsTheStatedValues : Obligations.ResetHoldsTheStatedValues :=
  ⟨rfl, rfl, rfl, rfl, rfl, rfl⟩

theorem reset_dline (c : BitVec 5) (side : Side) : State.reset.dline c side = DLine.reset := by
  cases side <;> simp [State.dline, State.dcls, State.reset, DClass.line, Vector.get_eq_getElem]

theorem reset_iline (c : BitVec 6) (side : Side) : State.reset.iline c side = ILine.reset := by
  cases side <;> simp [State.iline, State.icls, State.reset, IClass.line, Vector.get_eq_getElem]

theorem reset_memoryCoherent : State.reset.MemoryCoherent where
  canonical := rfl
  unique c h := by
    rw [reset_dline] at h
    cases h
  clean c side h := by
    rw [reset_dline] at h
    cases h

theorem reset_nothingCacheable : State.reset.nothingCacheable = true := by
  have hentries : State.reset.tlb.toList.all (fun e => !e.v || e.i) = true :=
    (vector_all_iff (w := 6) _ _).2 fun k => by simp [State.reset, TlbEntry.reset, Vector.get_eq_getElem]
  rw [State.nothingCacheable, hentries]
  rfl

/-- Settles O12: after reset no line of a cache and no entry of the TLB is valid, and main storage is empty. -/
theorem resetMeetsTheInvariants : Obligations.ResetMeetsTheInvariants := by
  unfold Obligations.ResetMeetsTheInvariants
  refine ⟨rfl, rfl, rfl, reset_memoryCoherent, fun c h => ?_, .inl ?_⟩
  · rw [reset_iline] at h
    cases h
  · have hempty : State.reset.cachesEmpty = true := by
      refine (State.cachesEmpty_iff _).2 ⟨fun c side => ?_, fun c side => ?_⟩
      · rw [reset_dline]
        rfl
      · rw [reset_iline]
        rfl
    exact (State.levelZero_iff _).2 ⟨rfl, reset_nothingCacheable, hempty⟩

/-! ### Invalid operand forms (93_implementation_defined.md section 2.2) -/

section

variable {s : State}

theorem loadUpdateWith_refused {rt ra : Reg} (h : loadUpdateOk rt ra = false) (n : Nat) (widen : Word → Word)
    (ea : Word) (b31 : Bool) : ∃ r, loadUpdateWith n widen rt ra ea b31 s = .refused r :=
  ⟨_, if_neg (by simp [h])⟩

theorem storeUpdateWith_refused {ra : Reg} (h : storeUpdateOk ra = false) (n : Nat) (v ea : Word) (b31 : Bool) :
    ∃ r, storeUpdateWith n v ra ea b31 s = .refused r :=
  ⟨_, if_neg (by simp [h])⟩

theorem execMfspr_refused {n : BitVec 10} (h : sprReadOk n = false) (hp : s.problem = false ∨ n.getLsbD 4 = false)
    (rt : Reg) (b31 : Bool) : ∃ r, execMfspr rt n b31 s = .refused r := by
  have hnone : sprOfNumber n = none := by simpa [sprReadOk] using h
  rw [execMfspr, sprGuard_eq hp]
  simp only [hnone, Host.Outcome.refused.injEq, exists_eq']

theorem execMtspr_refused {n : BitVec 10} (h : sprWriteOk n = false) (hp : s.problem = false ∨ n.getLsbD 4 = false)
    (rs : Reg) (b31 : Bool) : ∃ r, execMtspr n rs b31 s = .refused r := by
  rw [execMtspr, sprGuard_eq hp]
  unfold sprWriteOk at h
  split
  next => exact ⟨_, rfl⟩
  next r hr =>
    rw [hr] at h
    exact ⟨_, if_neg (by simpa using h)⟩

theorem dcrOfNumber_none {n : BitVec 10} (h : dcrOk n = false) : dcrOfNumber n = none := by simpa [dcrOk] using h

theorem execMfdcr_refused {n : BitVec 10} (h : dcrOk n = false) (hp : s.problem = false) (rt : Reg) (b31 : Bool) :
    ∃ r, execMfdcr rt n b31 s = .refused r := by
  rw [execMfdcr, privileged_eq hp]
  simp only [dcrOfNumber_none h, Host.Outcome.refused.injEq, exists_eq']

theorem execMtdcr_refused {n : BitVec 10} (h : dcrOk n = false) (hp : s.problem = false) (rs : Reg) (b31 : Bool) :
    ∃ r, execMtdcr n rs b31 s = .refused r := by
  rw [execMtdcr, privileged_eq hp]
  simp only [dcrOfNumber_none h, Host.Outcome.refused.injEq, exists_eq']

theorem execTlbre_refused {ws : BitVec 5} (h : wsOk ws = false) (hp : s.problem = false) (rt ra : Reg) (b31 : Bool) :
    ∃ r, execTlbre rt ra ws b31 s = .refused r :=
  ⟨.invalidWs, (privileged_eq hp _).trans (if_neg (by simp [h]))⟩

theorem execTlbwe_refused {ws : BitVec 5} (h : wsOk ws = false) (hp : s.problem = false) (rs ra : Reg) (b31 : Bool) :
    ∃ r, execTlbwe rs ra ws b31 s = .refused r :=
  ⟨.invalidWs, (privileged_eq hp _).trans (if_pos (by simp [h]))⟩

end

/-- Settles O5: the form is tested right after the privilege, before any effect. -/
theorem invalidOperandFormsAreRefused : Obligations.InvalidOperandFormsAreRefused := by
  unfold Obligations.InvalidOperandFormsAreRefused
  intro i s hwf hp
  cases i with
  | lbzu | lbzux | lhau | lhaux | lhzu | lhzux | lwzu | lwzux => exact loadUpdateWith_refused hwf _ _ _ _
  | stbu | stbux | sthu | sthux | stwu | stwux => exact storeUpdateWith_refused hwf _ _ _ _
  | mfspr rt n b31 => exact execMfspr_refused hwf hp rt b31
  | mtspr n rs b31 => exact execMtspr_refused hwf hp rs b31
  | mfdcr rt n b31 => exact execMfdcr_refused hwf (hp.resolve_right nofun) rt b31
  | mtdcr n rs b31 => exact execMtdcr_refused hwf (hp.resolve_right nofun) rs b31
  | tlbre rt ra ws b31 => exact execTlbre_refused hwf (hp.resolve_right nofun) rt ra b31
  | tlbwe rs ra ws b31 => exact execTlbwe_refused hwf (hp.resolve_right nofun) rs ra b31
  | _ => cases hwf

/-! ### Words of the spec -/

/-- Settles O4: the decoder is run on each word. -/
theorem wordsOfTheSpecDecodeAsTheyRead : Obligations.WordsOfTheSpecDecodeAsTheyRead := by
  unfold Obligations.WordsOfTheSpecDecodeAsTheyRead
  decide +kernel

end Sys2Proof.Machine
end

section
/-! The cache instructions: what they do to the lines of their block or class, to main storage, and to the bytes the
processor sees (47_cache_sync.md R420 to R439). -/

namespace Sys2Proof.Machine

/-! ### An instruction that works at a translated address -/

section

variable {i : Instr} {s : State} {side : CacheSide} {ea : Word} {store b31 : Bool} {p : Place} {l : List Part}
  {P : State → Prop}

/-- Translation takes a draw at most, which leaves what a cache instruction goes by. -/
theorem State.CanOperate.at_draw (h : s.CanOperate side ea store p) {u : State} (hu : u = s ∨ u = s.drawn) :
    u.MemoryCoherent ∧ u.LinesPlain := by
  obtain rfl | rfl := hu
  · exact ⟨h.coherent, h.linesPlain⟩
  · exact ⟨(KeepsView.drawn h.coherent).coherent, linesPlain_drawn h.linesPlain⟩

/-- What the work of a cache instruction has to do from the state after the translation. -/
def WorkDone (l : List Part) (P : State → Prop) (s : State) (r : Result Unit) : Prop :=
  ∃ t, r = .ok () t ∧ t.pc = s.pc ∧ Unchanged l s t ∧ P t

theorem cacheOp_completes {work : Place → State → Result Unit} (hexec : exec i s = cacheOp side ea store b31 work s)
    (hplace : ∃ u, dataPlace side ea store s = .ok p u) (hcr0 : cr0If b31 ⊆ l)
    (hwork : ∀ u, u = s ∨ u = s.drawn → WorkDone l P s (work p u)) (hP : ∀ t, P t → P (t.advance31 b31)) :
    Completes i s l P := by
  obtain ⟨u, hu⟩ := hplace
  obtain ⟨t, ht, hpc, hrest, hdone⟩ := hwork u (dataPlace_state hu)
  refine .of_advance31 ?_ hpc hrest hcr0 (hP t hdone)
  rw [hexec, cacheOp, hu, Result.ok_bind, ht]
  rfl

theorem touchOp_completes {work : Place → State → Result Unit} (hexec : exec i s = touchOp side ea b31 work s)
    (hplace : ∃ u, dataPlace side ea false s = .ok p u) (hcr0 : cr0If b31 ⊆ l)
    (hwork : ∀ u, u = s ∨ u = s.drawn → WorkDone l P s (work p u)) (hP : ∀ t, P t → P (t.advance31 b31)) :
    Completes i s l P := by
  obtain ⟨u, hu⟩ := hplace
  obtain ⟨t, ht, hpc, hrest, hdone⟩ := hwork u (dataPlace_state hu)
  refine .of_advance31 ?_ hpc hrest hcr0 (hP t hdone)
  rw [hexec, touchOp]
  simp only [hu, ht]
  rfl

/-- A touch at an address whose translation raises an exception does nothing (R425, R426, R436). -/
theorem touchOp_exc_completes {work : Place → State → Result Unit} {x : Exc} {u : State}
    (hexec : exec i s = touchOp side ea b31 work s) (hplace : dataPlace side ea false s = .exc x u) :
    Completes i s (cr0If b31) fun _ => True := by
  have hnext : exec i s = .next (u.advance31 b31) := by
    rw [hexec, touchOp]
    simp only [hplace]
  have hrest : u.pc = s.pc ∧ Unchanged (cr0If b31) s u := by
    obtain rfl | rfl := dataPlace_exc_state hplace
    · exact ⟨rfl, .refl _ _⟩
    · exact ⟨rfl, unchanged_drawn s _⟩
  exact .of_advance31 hnext hrest.1 hrest.2 (List.Subset.refl _) trivial

theorem cr0If_subset_append (l : List Part) (b31 : Bool) : cr0If b31 ⊆ l ++ cr0If b31 := List.subset_append_right _ _

end

/-! ### Lines of the data cache -/

theorem State.lru_setDline (s : State) (c c' : BitVec 5) (side : Side) (l : DLine) :
    ((s.setDline c side l).dcls c').lru = (s.dcls c').lru := by
  rw [State.setDline, State.dcls_setDcls]
  split
  next hc =>
    subst hc
    cases side <;> rfl
  next => rfl

/-- The line that holds a block becomes another, and every other line and every LRU bit stays. -/
structure LineBecomes (f : DLine → DLine) (a : Word) (s t : State) : Prop where
  lines : ∀ c side, t.dline c side = if c = dclass a ∧ s.dhit a = some side then f (s.dline c side) else s.dline c side
  lru : ∀ c, (t.dcls c).lru = (s.dcls c).lru

theorem LineBecomes.of_miss {f : DLine → DLine} {a : Word} {s : State} (h : s.dhit a = none) : LineBecomes f a s s :=
  ⟨fun c side => by simp [h], fun _ => rfl⟩

theorem LineBecomes.of_setDline {f : DLine → DLine} {a : Word} {s u : State} {side : Side} (h : s.dhit a = some side)
    (hu : u.dcache = s.dcache) : LineBecomes f a s (u.setDline (dclass a) side (f (u.dline (dclass a) side))) := by
  refine ⟨fun c sd => ?_, fun c => ?_⟩
  · rw [State.dline_setDline, State.dline_congr hu, State.dline_congr hu, h]
    by_cases hc : c = dclass a ∧ sd = side
    · rw [if_pos hc, if_pos ⟨hc.1, hc.2 ▸ rfl⟩, hc.1, hc.2]
    · rw [if_neg hc, if_neg fun hh => hc ⟨hh.1, (Option.some.inj hh.2).symm⟩]
  · rw [State.lru_setDline]
    exact congrArg (fun d => (d.get c.toFin).lru) hu

/-! ### dcbf and dcbst (R422, R424) -/

/-- The line of a block is copied back to main storage, and then changed. -/
structure CopiedBack (f : DLine → DLine) (a : Word) (s t : State) : Prop extends LineBecomes f a s t where
  storage : ∀ x, t.storage x = if sameBlock x a then s.dataByte x else s.storage x

theorem CopiedBack.of_miss {f : DLine → DLine} {a : Word} {s : State} (h : s.dhit a = none) : CopiedBack f a s s := by
  refine ⟨.of_miss h, fun x => ?_⟩
  split
  next hx =>
    obtain ⟨hc, ht⟩ := sameBlock_iff.1 hx
    exact (State.dataByte_of_dhit_none ((State.dhit_of_block hc ht).trans h)).symm
  next => rfl

theorem CopiedBack.of_copyBack {f : DLine → DLine} {a : Word} {s u : State} {side : Side} (hs : s.MemoryCoherent)
    (hd : s.dhit a = some side) (hcopy : copyBack (dclass a) side s = .ok () u) :
    CopiedBack f a s (u.setDline (dclass a) side (f (u.dline (dclass a) side))) := by
  obtain ⟨hv, htag⟩ := State.holds_of_dhit hd
  obtain ⟨-, hcache, hstorage⟩ := copyBack_keeps hs hv hcopy
  refine ⟨.of_setDline hd hcache, fun x => ?_⟩
  rw [State.storage_setDline, hstorage, htag]
  by_cases hx : dclass x = dclass a ∧ dtag x = dtag a
  · rw [if_pos hx, if_pos (sameBlock_iff.2 hx),
      State.dataByte_of_holds hs.unique (State.holds_of_dhit ((State.dhit_of_block hx.1 hx.2).trans hd)), hx.1]
  · rw [if_neg hx, if_neg fun h => hx (sameBlock_iff.1 h)]

/-- A valid line can be copied back. -/
theorem copyBack_completes {s : State} (hl : s.LinesPlain) {c : BitVec 5} {side : Side}
    (hv : (s.dline c side).v = true) : ∃ u, copyBack c side s = .ok () u := by
  obtain ⟨u, hu⟩ := castOut_completes hl c side
  exact ⟨u, (if_pos hv).symm.trans hu⟩

theorem flushBlock_completes {s : State} (hs : s.MemoryCoherent) (hl : s.LinesPlain) (p : Place) :
    ∃ t, flushBlock p s = .ok () t ∧ CopiedBack (fun l => { l with v := false }) p.real s t := by
  cases hd : s.dhit p.real with
  | none => exact ⟨s, by simp only [flushBlock, hd], .of_miss hd⟩
  | some side =>
    obtain ⟨u, hu⟩ := copyBack_completes hl (State.holds_of_dhit hd).1
    exact ⟨_, by simp only [flushBlock, hd, hu, Result.ok_bind]; rfl, .of_copyBack hs hd hu⟩

theorem storeBlock_completes {s : State} (hs : s.MemoryCoherent) (hl : s.LinesPlain) (p : Place) :
    ∃ t, storeBlock p s = .ok () t ∧ CopiedBack (fun l => { l with d := false }) p.real s t := by
  cases hd : s.dhit p.real with
  | none => exact ⟨s, by simp only [storeBlock, hd], .of_miss hd⟩
  | some side =>
    obtain ⟨u, hu⟩ := copyBack_completes hl (State.holds_of_dhit hd).1
    exact ⟨_, by simp only [storeBlock, hd, hu, Result.ok_bind], .of_copyBack hs hd hu⟩

/-- Settles O44: both copy the line of the block back, and then mark it invalid or not modified. -/
theorem flushAndStoreReachMainStorage : Obligations.FlushAndStoreReachMainStorage := by
  unfold Obligations.FlushAndStoreReachMainStorage
  refine ⟨fun s p ra rb b31 h => ?_, fun s p ra rb b31 h => ?_⟩
  · refine cacheOp_completes (p := p) rfl h.translated (cr0If_subset_append [.storage, .dataCache] b31) (fun u hu => ?_)
      fun t ht => by cases b31 <;> exact ht
    obtain ⟨hs, hl⟩ := h.at_draw hu
    obtain ⟨t, ht, hcopied⟩ := flushBlock_completes hs hl p
    obtain ⟨hk, hmiss, -⟩ := flushBlock_ok hs ht
    refine ⟨t, ht, ?_⟩
    obtain rfl | rfl := hu <;>
      exact ⟨hk.pc, hk.frame.mono (by simp), hmiss, hcopied.storage, hcopied.lines, hcopied.lru⟩
  · refine cacheOp_completes (p := p) rfl h.translated (cr0If_subset_append [.storage, .dataCache] b31) (fun u hu => ?_)
      fun t ht => by cases b31 <;> exact ht
    obtain ⟨hs, hl⟩ := h.at_draw hu
    obtain ⟨t, ht, hcopied⟩ := storeBlock_completes hs hl p
    obtain ⟨hk, hhit, -⟩ := storeBlock_ok hs ht
    refine ⟨t.markOld (inBlockOf p.real) .stored .pushed, by rw [ht]; rfl, ?_⟩
    have hrest : Unchanged (.storage :: .dataCache :: cr0If b31) u (t.markOld (inBlockOf p.real) .stored .pushed) :=
      (hk.frame.mono (by simp)).trans' (unchanged_markOld _ _ _ _ _)
    obtain rfl | rfl := hu <;> exact ⟨hk.pc, hrest, hhit p.real, hcopied.storage, hcopied.lines, hcopied.lru⟩

/-! ### dcbi and dccci (R423, R431) -/

theorem State.dline_discardDline (s : State) (c c' : BitVec 5) (side side' : Side) :
    (s.discardDline c side).dline c' side' =
      if c' = c ∧ side' = side then { s.dline c' side' with v := false } else s.dline c' side' := by
  obtain ⟨l, hl⟩ := s.keepDline_stale c side
  rw [State.discardDline, State.dinvalidate, State.dline_setDline, hl]
  split
  next h => rw [h.1, h.2]; rfl
  next => rfl

theorem State.lru_discardDline (s : State) (c c' : BitVec 5) (side : Side) :
    ((s.discardDline c side).dcls c').lru = (s.dcls c').lru := by
  obtain ⟨l, hl⟩ := s.keepDline_stale c side
  rw [State.discardDline, State.dinvalidate, State.lru_setDline, hl]
  rfl

theorem invalidateBlock_completes (p : Place) (s : State) :
    ∃ t, invalidateBlock p s = .ok () t ∧ LineBecomes (fun l => { l with v := false }) p.real s t := by
  cases hd : s.dhit p.real with
  | none => exact ⟨s, by simp only [invalidateBlock, hd], .of_miss hd⟩
  | some side =>
    refine ⟨s.discardDline (dclass p.real) side, by simp only [invalidateBlock, hd], fun c sd => ?_,
      fun c => s.lru_discardDline _ c side⟩
    rw [State.dline_discardDline, hd]
    exact if_congr (and_congr_right fun _ => by rw [Option.some.injEq, eq_comm]) rfl rfl

/-- Both lines of a class are discarded. -/
def State.discardClass (s : State) (c : BitVec 5) : State := (s.discardDline c .a).discardDline c .b

theorem State.dline_discardClass (s : State) (c c' : BitVec 5) (side : Side) : (s.discardClass c).dline c' side =
    if c' = c then { s.dline c' side with v := false } else s.dline c' side := by
  rw [State.discardClass, State.dline_discardDline, State.dline_discardDline]
  by_cases hc : c' = c <;> cases side <;> simp [hc]

/-- Every byte of the class is then that of main storage. -/
theorem State.discardClass_spec {s : State} (hs : s.MemoryCoherent) (c : BitVec 5) :
    (s.discardClass c).pc = s.pc ∧ Unchanged [.memory, .dataCache] s (s.discardClass c) ∧
    ∀ a, (s.discardClass c).dataByte a = if dclass a = c then s.storage a else s.dataByte a := by
  obtain ⟨hcoh, -, hbyteA, hrestA, hpcA⟩ := discardDline_spec hs c .a
  obtain ⟨-, -, hbyteB, hrestB, hpcB⟩ := discardDline_spec hcoh c .b
  have hrest : Unchanged [.memory, .dataCache] s (s.discardClass c) := hrestA.trans' hrestB
  refine ⟨hpcB.trans hpcA, hrest, fun a => ?_⟩
  split
  next hc =>
    have hnone : ∀ side, ¬ (s.discardClass c).Holds a side := fun side hh => by
      have hv := hh.1
      rw [State.dline_discardClass, if_pos hc] at hv
      cases hv
    rw [State.dataByte_of_not_holds hnone]
    exact hrest .storage (by decide) a
  next hc =>
    rw [State.discardClass, hbyteB, if_neg fun h => hc h.1, hbyteA, if_neg fun h => hc h.1]

/-! ### Lines of the instruction cache: icbi and iccci (R435, R438) -/

theorem State.lru_dropIline (s : State) (c c' : BitVec 6) (side : Side) :
    ((s.dropIline c side).icls c').lru = (s.icls c').lru := by
  have hset : ∀ (u : State) l, ((u.setIline c side l).icls c').lru = (u.icls c').lru := by
    intro u l
    unfold State.setIline State.icls State.setIcls
    by_cases hc : c' = c
    · subst hc
      cases side <;> simp [IClass.setLine, Vector.get_eq_getElem]
    · have hn : c.toNat ≠ c'.toNat := fun he => hc (BitVec.eq_of_toNat_eq he.symm)
      simp [Vector.get_eq_getElem, hn]
  obtain ⟨l, h | ⟨-, h⟩⟩ := s.dropIline_eq c side
  · rw [h, hset]
    rfl
  · rw [h]

/-- With unique lines the side that hits is the one valid line of the block. -/
theorem State.ihit_unique {s : State} (hs : s.InstrLinesUnique) {a : Word} {side other : Side}
    (h : s.ihit a = some side) (hne : other ≠ side) (hv : (s.iline (iclass a) other).v = true) :
    (s.iline (iclass a) other).tag ≠ itag a := by
  obtain ⟨hv', htag⟩ := State.iline_of_ihit h
  rw [← htag]
  cases side <;> cases other
  · exact absurd rfl hne
  · exact (hs _ hv' hv).symm
  · exact hs _ hv hv'
  · exact absurd rfl hne

/-- What icbi leaves of the lines of the instruction cache. -/
structure BlockDropped (a : Word) (s t : State) : Prop where
  miss : t.ihit a = none
  lines : ∀ c side, t.iline c side = if c = iclass a ∧ s.ihit a = some side then { s.iline c side with v := false }
    else s.iline c side
  lru : ∀ c, (t.icls c).lru = (s.icls c).lru

theorem iinvalidateBlock_completes {s : State} (hs : s.InstrLinesUnique) (p : Place) :
    ∃ t, iinvalidateBlock p s = .ok () t ∧ FetchFrame s t ∧ BlockDropped p.real s t := by
  cases hd : s.ihit p.real with
  | none => exact ⟨s, by simp only [iinvalidateBlock, hd], .refl s, hd, fun c side => by simp [hd], fun _ => rfl⟩
  | some side =>
    have hline : ∀ c sd, (s.dropIline (iclass p.real) side).iline c sd =
        if c = iclass p.real ∧ sd = side then { s.iline c sd with v := false } else s.iline c sd := fun c sd => by
      rw [State.iline_dropIline]
      split
      next h => rw [h.1, h.2]
      next => rfl
    refine ⟨s.dropIline (iclass p.real) side, by simp only [iinvalidateBlock, hd], s.dropIline_fetchFrame _ _, ?_,
      fun c sd => ?_, fun c => s.lru_dropIline _ c side⟩
    · refine (State.ihit_eq_none_iff _ _).2 fun sd hv => ?_
      rw [hline] at hv ⊢
      by_cases hsd : sd = side
      · simp [hsd] at hv
      · simp only [hsd, and_false, if_false] at hv ⊢
        exact State.ihit_unique hs hd hsd hv
    · rw [hline, hd]
      exact if_congr (and_congr_right fun _ => by rw [Option.some.injEq, eq_comm]) rfl rfl

/-- Both lines of a class are dropped. -/
def State.dropClass (s : State) (c : BitVec 6) : State := (s.dropIline c .a).dropIline c .b

theorem State.iline_dropClass (s : State) (c c' : BitVec 6) (side : Side) : (s.dropClass c).iline c' side =
    if c' = c then { s.iline c' side with v := false } else s.iline c' side := by
  rw [State.dropClass, State.iline_dropIline, State.iline_dropIline, State.iline_dropIline]
  by_cases hc : c' = c
  · subst hc
    cases side <;> simp
  · simp [hc]

theorem State.lru_dropClass (s : State) (c c' : BitVec 6) : ((s.dropClass c).icls c').lru = (s.icls c').lru := by
  rw [State.dropClass, State.lru_dropIline, State.lru_dropIline]

theorem State.dropClass_fetchFrame (s : State) (c : BitVec 6) : FetchFrame s (s.dropClass c) :=
  (s.dropIline_fetchFrame c .a).trans (State.dropIline_fetchFrame _ c .b)

/-- Settles O45: each discards or drops the line of its block, or the two lines of its class. -/
theorem invalidationsDiscardLines : Obligations.InvalidationsDiscardLines := by
  unfold Obligations.InvalidationsDiscardLines
  refine ⟨fun s p ra rb b31 hp h => ?_, fun s p ra rb b31 hp h => ?_, fun s p ra rb b31 hu h => ?_,
    fun s p ra rb b31 hp h => ?_⟩
  · refine cacheOp_completes (p := p) (privileged_eq hp _) h.translated (cr0If_subset_append [.memory, .dataCache] b31)
      (fun u hu => ?_) fun t ht => by cases b31 <;> exact ht
    obtain ⟨t, ht, hline⟩ := invalidateBlock_completes p u
    obtain ⟨-, hmiss, hpc, hrest, hbyte⟩ := invalidateBlock_ok (h.at_draw hu).1 ht
    refine ⟨t, ht, ?_⟩
    obtain rfl | rfl := hu <;> exact ⟨hpc, hrest.mono (by simp), hmiss, hbyte, hline.lines, hline.lru⟩
  · refine cacheOp_completes (p := p) (privileged_eq hp _) h.translated (cr0If_subset_append [.memory, .dataCache] b31)
      (fun u hu => ?_) fun t ht => by cases b31 <;> exact ht
    obtain ⟨hpc, hrest, hbyte⟩ := State.discardClass_spec (h.at_draw hu).1 (dclass (s.eaX ra rb))
    have hlines := u.dline_discardClass (dclass (s.eaX ra rb))
    have hlru : ∀ c, ((u.discardClass (dclass (s.eaX ra rb))).dcls c).lru = (u.dcls c).lru := fun c => by
      rw [State.discardClass, State.lru_discardDline, State.lru_discardDline]
    refine ⟨u.discardClass (dclass (s.eaX ra rb)), rfl, ?_⟩
    obtain rfl | rfl := hu <;> exact ⟨hpc, hrest.mono (by simp), hbyte, hlines, hlru⟩
  · refine cacheOp_completes (p := p) rfl h.translated (cr0If_subset_append [.instrCache] b31)
      (fun u hdraw => ?_) fun t ht => by cases b31 <;> exact ht
    have hunique : u.InstrLinesUnique := by obtain rfl | rfl := hdraw <;> exact hu
    obtain ⟨t, ht, hframe, hdropped⟩ := iinvalidateBlock_completes hunique p
    have hrest : Unchanged (.instrCache :: cr0If b31) u (t.markOld (inBlockOf p.real) .synced .queued) :=
      (hframe.unchanged.mono (by simp)).trans' (unchanged_markOld _ _ _ _ _)
    refine ⟨t.markOld (inBlockOf p.real) .synced .queued, by rw [ht]; rfl, ?_⟩
    obtain rfl | rfl := hdraw <;> exact ⟨hframe.pc, hrest, hdropped.miss, hdropped.lines, hdropped.lru⟩
  · refine cacheOp_completes (p := p) (privileged_eq hp _) h.translated (cr0If_subset_append [.instrCache] b31)
      (fun u hu => ?_) fun t ht => by cases b31 <;> exact ht
    have hframe := u.dropClass_fetchFrame (iclass (s.eaX ra rb))
    have hlines := u.iline_dropClass (iclass (s.eaX ra rb))
    have hlru := u.lru_dropClass (iclass (s.eaX ra rb))
    refine ⟨u.dropClass (iclass (s.eaX ra rb)), rfl, ?_⟩
    obtain rfl | rfl := hu <;> exact ⟨hframe.pc, hframe.unchanged.mono (by simp), hlines, hlru⟩

end Sys2Proof.Machine
end

section
/-! dcbz, the touches, and the reads of the cache lines (47_cache_sync.md R425 to R427, R433, R436, R439). -/

namespace Sys2Proof.Machine

/-! ### dcbz (R427) -/

theorem zeroBlockAt_completes {s : State} (hl : s.LinesPlain) (ea : Word) {p : Place} (hc : p.cacheable = true)
    (hw : p.writeThrough = false) (habsent : s.touches .absent (blockBase p.real) 16 = false) :
    ∃ t, zeroBlockAt ea p s = .ok () t := by
  unfold zeroBlockAt
  rw [if_neg (by simp [hc, hw]), if_neg (by simp [habsent])]
  split
  · exact ⟨_, rfl⟩
  · obtain ⟨u, hu⟩ := castOut_completes (linesPlain_drawn hl) (dclass p.real) (sideOf s.undef)
    exact ⟨_, by rw [hu]; rfl⟩

/-- An alignment exception after translation, which takes a draw at most (60_exceptions.md R514). -/
theorem trapsAlignment_of_draw {i : Instr} {s u : State} {ea : Word} (hile : s.msrBit msrILE = false)
    (hu : u = s ∨ u = s.drawn) (h : exec i s = raise (.alignment ea) u) : TrapsAlignment i s ea := by
  have hprepared : Prepared [.dear] s (u.setDear ea) := by
    obtain rfl | rfl := hu
    · exact u.setDear_prepared ea
    · exact ⟨rfl, rfl, rfl, rfl, (unchanged_drawn s _).trans' (s.drawn.setDear_prepared ea).rest⟩
  have hpc : u.pc = s.pc := by obtain rfl | rfl := hu <;> rfl
  refine trapsFrom_of_enter hile hprepared (h.trans ?_) fun t ht => (ht .dear (by decide) (by decide)).trans rfl
  rw [← hpc]
  rfl

/-- Settles O46: a cacheable place that is not write-through has its block zeroed, any other is the exception. -/
theorem blockZeroClearsTheBlockOrTraps : Obligations.BlockZeroClearsTheBlockOrTraps := by
  unfold Obligations.BlockZeroClearsTheBlockOrTraps
  refine ⟨fun s p ra rb b31 h hc hw habsent => ?_, fun s p u ra rb b31 hplace hno hile => ?_⟩
  · refine cacheOp_completes (p := p) rfl h.translated
      (cr0If_subset_append [.memory, .storage, .dataCache] b31) (fun u hu => ?_) fun t ht => by cases b31 <;> exact ht
    obtain ⟨hs, hl⟩ := h.at_draw hu
    have habsent' : u.touches .absent (blockBase p.real) 16 = false := by obtain rfl | rfl := hu <;> exact habsent
    obtain ⟨t, ht⟩ := zeroBlockAt_completes hl (s.eaX ra rb) hc hw habsent'
    obtain ⟨-, hhit, hpc, hrest, hbyte⟩ := zeroBlockAt_ok hs ht
    refine ⟨t, ht, ?_⟩
    obtain rfl | rfl := hu <;> exact ⟨hpc, hrest.mono (by simp), hhit, hbyte⟩
  · refine trapsAlignment_of_draw hile (dataPlace_state hplace) ?_
    have htrap : zeroBlockAt (s.eaX ra rb) p u = .exc (.alignment (s.eaX ra rb)) u := if_pos (by simpa using hno)
    calc exec (.dcbz ra rb b31) s
        = cacheOp .data (s.eaX ra rb) true b31 (zeroBlockAt (s.eaX ra rb)) s := rfl
      _ = raise (.alignment (s.eaX ra rb)) u := by rw [cacheOp, hplace, Result.ok_bind, htrap]; rfl

/-! ### The touches (R425, R426, R436) -/

theorem touchBlock_completes {s : State} (hl : s.LinesPlain) {p : Place} (h : s.PlainAt (blockBase p.real) 16) :
    ∃ t, touchBlock p s = .ok () t := by
  unfold touchBlock
  split
  · exact ⟨s, rfl⟩
  · rw [if_neg (by simp [h.2])]
    obtain ⟨u, hu⟩ := dfill_completes (linesPlain_drawn hl) p.real (sideOf s.undef)
    exact ⟨_, by rw [hu]; rfl⟩

/-- A block that is not cacheable or has an absent address is not touched. -/
theorem touchBlock_nothing {s : State} {p : Place}
    (h : p.cacheable = false ∨ s.touches .absent (blockBase p.real) 16 = true) : touchBlock p s = .ok () s :=
  if_pos (by obtain h | h := h <;> simp [h])

theorem itouchBlock_nothing {s : State} {p : Place}
    (h : p.cacheable = false ∨ s.touches .absent (blockBase p.real) 16 = true) : itouchBlock p s = .ok () s :=
  if_pos (by obtain h | h := h <;> simp [h])

/-- A block that is read into the instruction cache hits. -/
theorem State.ihit_ifill (s : State) (a : Word) (side : Side) (v : Bool) :
    (((s.ifill a side).setIlru (iclass a) v).drawn).ihit a ≠ none := by
  intro hmiss
  have hline : (((s.ifill a side).setIlru (iclass a) v).drawn).iline (iclass a) side =
      ⟨true, itag a, s.blockOf (blockBase a)⟩ :=
    calc (((s.ifill a side).setIlru (iclass a) v).drawn).iline (iclass a) side
        = (s.ifill a side).iline (iclass a) side := State.iline_setIlru _ _ _ side v
      _ = ⟨true, itag a, s.blockOf (blockBase a)⟩ := by rw [State.ifill, State.iline_setIline, if_pos ⟨rfl, rfl⟩]
  have hno := (State.ihit_eq_none_iff _ a).1 hmiss side
  rw [hline] at hno
  exact hno rfl rfl

theorem itouchBlock_completes {s : State} {p : Place} (h : s.PlainAt (blockBase p.real) 16) :
    ∃ t, itouchBlock p s = .ok () t ∧ FetchFrame s t ∧ (p.cacheable = true → t.ihit p.real ≠ none) := by
  unfold itouchBlock
  split
  next hc =>
    refine ⟨s, rfl, .refl s, fun hp => ?_⟩
    rw [hp, h.1, Bool.not_true, Bool.false_or, Bool.or_false] at hc
    exact Option.isSome_iff_ne_none.1 hc
  next =>
    rw [if_neg (by simp [h.2])]
    refine ⟨_, rfl, ?_, fun _ => s.ihit_ifill p.real _ _⟩
    exact ((s.ifill_fetchFrame _ _).trans (State.setIlru_fetchFrame _ _ _)).trans (State.drawn_fetchFrame _)

section

variable {i : Instr} {s : State} {ea : Word} {b31 : Bool} {p : Place} {side : CacheSide}

/-- The touches of the data cache. -/
theorem touch_fills (hexec : exec i s = touchOp .data ea b31 touchBlock s) (h : s.CanOperate .data ea false p)
    (hplain : s.PlainAt (blockBase p.real) 16) :
    Completes i s (.storage :: .dataCache :: cr0If b31) fun t => p.cacheable = true → t.dhit p.real ≠ none := by
  refine touchOp_completes (p := p) hexec h.translated (cr0If_subset_append [.storage, .dataCache] b31)
    (fun u hu => ?_) fun t ht => by cases b31 <;> exact ht
  obtain ⟨hs, hl⟩ := h.at_draw hu
  have hplain' : u.PlainAt (blockBase p.real) 16 := by obtain rfl | rfl := hu <;> exact hplain
  obtain ⟨t, ht⟩ := touchBlock_completes hl hplain'
  obtain ⟨hk, hhit⟩ := touchBlock_ok hs ht
  refine ⟨t, ht, ?_⟩
  obtain rfl | rfl := hu <;> exact ⟨hk.pc, hk.frame.mono (by simp), fun hc => hhit hc hplain'⟩

/-- A touch that has nothing to do. -/
theorem touch_nothing {work : Place → State → Result Unit} (hexec : exec i s = touchOp side ea b31 work s)
    (h : s.CanOperate side ea false p) (hwork : ∀ u, u = s ∨ u = s.drawn → work p u = .ok () u) :
    Completes i s (cr0If b31) fun _ => True := by
  refine touchOp_completes (p := p) hexec h.translated (List.Subset.refl _) (fun u hu => ?_) fun _ _ => trivial
  refine ⟨u, hwork u hu, ?_⟩
  obtain rfl | rfl := hu
  · exact ⟨rfl, .refl _ _, trivial⟩
  · exact ⟨rfl, unchanged_drawn s _, trivial⟩

theorem State.nothing_at_draw {u : State} (hu : u = s ∨ u = s.drawn)
    (h : p.cacheable = false ∨ s.touches .absent (blockBase p.real) 16 = true) :
    p.cacheable = false ∨ u.touches .absent (blockBase p.real) 16 = true := by
  obtain rfl | rfl := hu <;> exact h

end

theorem exec_dataTouch {ra rb : Reg} {b31 : Bool} {i : Instr} (hi : i ∈ [Instr.dcbt ra rb b31, .dcbtst ra rb b31])
    (s : State) : exec i s = touchOp .data (s.eaX ra rb) b31 touchBlock s := by
  simp only [List.mem_cons, List.not_mem_nil, or_false] at hi
  obtain rfl | rfl := hi <;> rfl

/-- Settles O47: dcbt and dcbtst are one touch of the data cache, icbt that of the instruction cache. -/
theorem touchesFillOrDoNothing : Obligations.TouchesFillOrDoNothing := by
  unfold Obligations.TouchesFillOrDoNothing
  refine ⟨fun s p ra rb b31 h i hi => ⟨touch_fills (exec_dataTouch hi s) h, fun hno => ?_⟩,
    fun s p ra rb b31 hp h => ⟨fun hplain => ?_, fun hno => ?_⟩,
    fun s x u ra rb b31 hx i hi => touchOp_exc_completes (exec_dataTouch hi s) hx,
    fun s x u ra rb b31 hp hx => touchOp_exc_completes (privileged_eq hp _) hx⟩
  · exact touch_nothing (exec_dataTouch hi s) h fun u hu => touchBlock_nothing (State.nothing_at_draw hu hno)
  · refine touchOp_completes (p := p) (privileged_eq hp _) h.translated (cr0If_subset_append [.instrCache] b31)
      (fun u hu => ?_) fun t ht => by cases b31 <;> exact ht
    have hplain' : u.PlainAt (blockBase p.real) 16 := by obtain rfl | rfl := hu <;> exact hplain
    obtain ⟨t, ht, hframe, hhit⟩ := itouchBlock_completes hplain'
    refine ⟨t, ht, ?_⟩
    obtain rfl | rfl := hu <;> exact ⟨hframe.pc, hframe.unchanged.mono (by simp), hhit⟩
  · exact touch_nothing (privileged_eq hp _) h fun u hu => itouchBlock_nothing (State.nothing_at_draw hu hno)

/-! ### dcread and icread (R433, R439) -/

/-- The bytes of the word of a line that the address selects. -/
theorem byteOf_lineWord (data : Vector Byte 16) (ea : Word) {k : Nat} (hk : k < 4) :
    byteOf (lineWord data (ea.extractLsb' 2 2)) k = data[ea.toNat % 16 / 4 * 4 + k]?.getD 0 := by
  have hindex : ∀ j : BitVec 2, (ea.extractLsb' 2 2 ++ j).toNat = ea.toNat % 16 / 4 * 4 + j.toNat := fun j => by
    rw [BitVec.toNat_append, ← Nat.shiftLeft_add_eq_or_of_lt j.isLt, Nat.shiftLeft_eq, BitVec.extractLsb'_toNat,
      Nat.shiftRight_eq_div_pow]
    omega
  have hbyte : ∀ j : BitVec 2, data.get (ea.extractLsb' 2 2 ++ j).toFin =
      data[ea.toNat % 16 / 4 * 4 + j.toNat]?.getD 0 := fun j => by
      have hlt : ea.toNat % 16 / 4 * 4 + j.toNat < 16 := hindex j ▸ (ea.extractLsb' 2 2 ++ j).isLt
      rw [Vector.get_eq_getElem, Vector.getElem?_eq_getElem hlt, Option.getD_some]
      congr 1
      exact hindex j
  obtain ⟨h0, h1, h2, h3⟩ := byteOf_append (data.get (ea.extractLsb' 2 2 ++ 0#2).toFin)
    (data.get (ea.extractLsb' 2 2 ++ 1#2).toFin) (data.get (ea.extractLsb' 2 2 ++ 2#2).toFin)
    (data.get (ea.extractLsb' 2 2 ++ 3#2).toFin)
  match k, hk with
  | 0, _ => exact h0.trans (hbyte 0)
  | 1, _ => exact h1.trans (hbyte 1)
  | 2, _ => exact h2.trans (hbyte 2)
  | 3, _ => exact h3.trans (hbyte 3)

/-- CDBCR selects the side. -/
theorem State.debugSide_eq (s : State) : s.debugSide = if bit (s.sprVal .cdbcr) 31 then Side.b else .a := rfl

theorem dcreadWork_frame (rt : Reg) (ea : Word) (s : State) :
    (dcreadWork rt ea s).pc = s.pc ∧ Unchanged [.reg rt] s (dcreadWork rt ea s) := by
  unfold dcreadWork
  simp only
  split
  · exact ⟨rfl, unchanged_setReg s rt _⟩
  · split
    · exact ⟨rfl, unchanged_setReg s rt _⟩
    · exact ⟨rfl, (unchanged_setReg s rt _).trans' (unchanged_drawn _ _)⟩

/-- What dcread shows of the selected line: its tag word, or the selected word of a valid line. -/
structure DcreadShows (s : State) (ea w : Word) : Prop where
  tag : bit (s.sprVal .cdbcr) 27 = true → w = dtagWord (s.dline (dclass ea) s.debugSide) (s.dcls (dclass ea)).lru
  data : bit (s.sprVal .cdbcr) 27 = false → (s.dline (dclass ea) s.debugSide).v = true →
    w = lineWord (s.dline (dclass ea) s.debugSide).data (ea.extractLsb' 2 2)

theorem dcreadWork_shows (rt : Reg) (ea : Word) (s : State) : DcreadShows s ea ((dcreadWork rt ea s).reg rt) where
  tag h := by
    have h' : bit s.spr.cdbcr cdbcrCIS = true := h
    simp only [dcreadWork, h', if_true, State.reg_setReg_self]
  data h hv := by
    have h' : bit s.spr.cdbcr cdbcrCIS = false := h
    simp only [dcreadWork, h', hv, Bool.false_eq_true, if_false, if_true, State.reg_setReg_self]

theorem icreadWork_frame (ea : Word) (s : State) :
    (icreadWork ea s).pc = s.pc ∧ Unchanged [.spr .icdbdr] s (icreadWork ea s) := by
  have hset : ∀ v, Unchanged [.spr .icdbdr] s (s.setIcdbdr v) := fun v =>
    (unchanged_setSprVal s .icdbdr v).mono (by simp)
  unfold icreadWork
  simp only
  split
  · exact ⟨rfl, hset _⟩
  · split
    · exact ⟨rfl, hset _⟩
    · exact ⟨rfl, (hset _).trans' (unchanged_drawn _ _)⟩

/-- What icread shows of the selected line: its tag word, or the selected word of a valid line. -/
structure IcreadShows (s : State) (ea w : Word) : Prop where
  tag : bit (s.sprVal .cdbcr) 27 = true → w = itagWord (s.iline (iclass ea) s.debugSide) (s.icls (iclass ea)).lru
  data : bit (s.sprVal .cdbcr) 27 = false → (s.iline (iclass ea) s.debugSide).v = true →
    w = lineWord (s.iline (iclass ea) s.debugSide).data (ea.extractLsb' 2 2)

theorem icreadWork_shows (ea : Word) (s : State) : IcreadShows s ea ((icreadWork ea s).sprVal .icdbdr) where
  tag h := by
    have h' : bit s.spr.cdbcr cdbcrCIS = true := h
    rw [icreadWork, h', if_pos rfl]
    rfl
  data h hv := by
    have h' : bit s.spr.cdbcr cdbcrCIS = false := h
    rw [icreadWork, h', if_neg (by decide), hv, if_pos rfl]
    rfl

theorem execDcread_eq {s : State} (hp : s.problem = false) {ra rb : Reg} (hal : (s.eaX ra rb).toNat % 4 = 0) (rt : Reg)
    (b31 : Bool) : execDcread rt ra rb b31 s =
      cacheOp .data (s.eaX ra rb) false b31 (fun _ u => .ok () (dcreadWork rt (s.eaX ra rb) u)) s := by
  rw [execDcread, privileged_eq hp]
  exact if_neg (by simp [aligned, hal])

theorem execDcread_misaligned {s : State} (hp : s.problem = false) {ra rb : Reg} (hal : (s.eaX ra rb).toNat % 4 ≠ 0)
    (rt : Reg) (b31 : Bool) : execDcread rt ra rb b31 s = raise (.alignment (s.eaX ra rb)) s := by
  rw [execDcread, privileged_eq hp]
  exact if_pos (by simp [aligned, hal])

section

variable {s : State} {ra rb : Reg} {b31 : Bool} {p : Place}

theorem dcread_completes (hp : s.problem = false) (h : s.CanOperate .data (s.eaX ra rb) false p)
    (hal : (s.eaX ra rb).toNat % 4 = 0) (rt : Reg) :
    Completes (.dcread rt ra rb b31) s (.reg rt :: cr0If b31) fun t => DcreadShows s (s.eaX ra rb) (t.reg rt) := by
  refine cacheOp_completes (p := p) (execDcread_eq hp hal rt b31) h.translated (cr0If_subset_append [.reg rt] b31)
    (fun u hu => ?_) fun t ht => by rw [State.advance31_reg]; exact ht
  obtain ⟨hpc, hrest⟩ := dcreadWork_frame rt (s.eaX ra rb) u
  have hshows := dcreadWork_shows rt (s.eaX ra rb) u
  refine ⟨_, rfl, ?_⟩
  obtain rfl | rfl := hu
  · exact ⟨hpc, hrest.mono (by simp), hshows⟩
  · exact ⟨hpc, hrest.mono (by simp), hshows.tag, hshows.data⟩

/-- icread ends with the mark that the next instruction must not read ICDBDR (70_reset_and_hazards.md R574). -/
theorem icread_completes (hp : s.problem = false) (h : s.CanOperate .instruction (s.eaX ra rb) false p) :
    Completes (.icread ra rb b31) s (.spr .icdbdr :: cr0If b31) fun t =>
      IcreadShows s (s.eaX ra rb) (t.sprVal .icdbdr) := by
  obtain ⟨u, hplace⟩ := h.translated
  have hu := dataPlace_state hplace
  have hexec : exec (.icread ra rb b31) s =
      .next (((icreadWork (s.eaX ra rb) u).advance31 b31).setAfterIcread true) := by
    refine (privileged_eq hp _).trans ?_
    rw [hplace]
    rfl
  obtain ⟨hpc, hrest⟩ := icreadWork_frame (s.eaX ra rb) u
  have hend : Unchanged (.spr .icdbdr :: cr0If b31) u
      (((icreadWork (s.eaX ra rb) u).advance31 b31).setAfterIcread true) :=
    (hrest.trans (unchanged_advance31 _ b31)).trans' (unchanged_setAfterIcread _ _ _)
  have hshows : IcreadShows u (s.eaX ra rb) (((icreadWork (s.eaX ra rb) u).advance31 b31).sprVal .icdbdr) := by
    rw [State.advance31_sprVal]
    exact icreadWork_shows _ u
  refine ⟨_, hexec, ?_, ?_⟩
  · rw [State.setAfterIcread_pc, State.advance31_pc, hpc]
    obtain rfl | rfl := hu <;> rfl
  · obtain rfl | rfl := hu
    · exact ⟨hend, hshows⟩
    · exact ⟨hend, hshows.tag, hshows.data⟩

end

/-- Settles O48: the word is that of the line on the side that CDBCR selects. -/
theorem cacheReadsGiveTheSelectedLine : Obligations.CacheReadsGiveTheSelectedLine := by
  unfold Obligations.CacheReadsGiveTheSelectedLine
  refine ⟨?_, ?_, fun s ra rb rt b31 hp hile hal => trapsAlignment_of_raise hile (execDcread_misaligned hp hal rt b31)⟩
  · rintro s p ra rb rt b31 side hp h hal rfl
    rw [← State.debugSide_eq]
    refine (dcread_completes hp h hal rt).imp fun t hshows => ⟨?_, fun hcis hv k hk => ?_⟩
    · rintro hcis l rfl
      exact hshows.tag hcis
    · rw [hshows.data hcis hv, byteOf_lineWord _ _ hk]
      congr 3
      omega
  · rintro s p ra rb b31 side hp h rfl
    rw [← State.debugSide_eq]
    refine (icread_completes hp h).imp fun t hshows => ⟨?_, fun hcis hv k hk => ?_⟩
    · rintro hcis l rfl
      exact hshows.tag hcis
    · rw [hshows.data hcis hv, byteOf_lineWord _ _ hk]

end Sys2Proof.Machine
end
